-- ==== Sys2Proof/Word.lean ====
section
/-! DEFINITION. The one storage unit of the hardware: every memory location of every space is 8 bits
(spec/20_memory.md R60 to R63, R69), and nothing wider is ever accessed. Every other quantity is a
mathematical integer that never wraps (spec/00_scope.md R9, D4), so it is a `Nat` or an `Int`. -/

namespace Sys2Proof

/-- One byte: a location of `IN`, `OUT`, `EXP` or `DICT`, and the residual register (R21, R60 to R63). -/
abbrev Byte := BitVec 8

end Sys2Proof
end

