-- ==== Sys2Proof/Config.lean ====
section
/-! DEFINITION. What an implementation fixes and the source does not print: the contents of the ROMs
`DICT`, `XFORMS`, `LUT0`, `LUT1`, `LUT2` (spec/00_scope.md R7, spec/10_state.md R39, spec/93 U8). Each is an
opaque constant, a FREE VALUE: nothing can evaluate it, so a claim holds whatever the ROM holds
(notes/assumptions/4.md). The types carry what the spec does state of the contents. -/

namespace Sys2Proof

/-- The five elementary word operations a transform may name (spec/47_dictionary.md R315). -/
inductive XOp where
  | ident | upFirst | upAll | omitFirst | omitLast
  deriving DecidableEq, Repr, Inhabited

/-- One entry `(prefix, op, k, suffix)` of the transform table (R322). -/
structure Xform where
  pre : List Byte
  op : XOp
  k : Nat
  suf : List Byte
  deriving DecidableEq, Repr, Inhabited

/-- The entry R321 fixes: `XFORMS[0] = ("", X.ID, 0, "")`. -/
def Xform.identity : Xform := { pre := [], op := .ident, k := 0, suf := [] }

/-- The parameter `UPPER_4BYTE` (R7, R324, D25): which byte the uppercase operation changes for a lead byte
of `0xF0` or more. -/
inductive Upper4 where
  | final | third
  deriving DecidableEq, Repr

/-- FREE VALUE. The byte of the dictionary ROM at an address in `0..122783` (R63, N3). -/
opaque Config.dictByte : Nat → Byte

/-- FREE VALUE. An entry of `LUT0`. Six bits, since `LUT0[x] | LUT1[y]` is in `0..63` for all `x`, `y` (R283, N2). -/
opaque Config.lut0 : Byte → BitVec 6

/-- FREE VALUE. An entry of `LUT1`; six bits for the same reason (R283, N2). -/
opaque Config.lut1 : Byte → BitVec 6

/-- FREE VALUE. An entry of `LUT2`, which is in `0..7` (R283, N2). -/
opaque Config.lut2 : Byte → BitVec 3

/-- FREE VALUE. An entry of `XFORMS` as built; `Machine/Operands.lean` puts the bounds of R321 and R322 on it. -/
opaque Config.xform : Nat → Xform

end Sys2Proof
end

