-- ==== Sys2Proof/Syntax.lean ====
section
/-! DEFINITION. The syntax of the hardware: one constructor of `Instr` per row of spec/opcode_table.json.
An instruction is "one syntax element of the stream together with what the block does on reading it"
(spec/00_scope.md R12). Its arguments are the operands its rule names (the values the calling operation
supplies); a row that is one arm of a rule's pseudocode carries the values that arm has already read
(notes/assumptions/15.md). -/

namespace Sys2Proof

/-- The three block-switching streams (R12): `L` literal, `I` insert-and-copy, `D` distance. -/
inductive Cat where
  | L | I | D
  deriving DecidableEq, Repr

/-- The four literal context modes, in the order of their two-bit codes 0..3 (R30, R197, R278). -/
inductive CtxMode where
  | lsb6 | msb6 | utf8 | signed
  deriving DecidableEq, Repr

/-- A prefix-code table (spec/10_state.md R32): `count[0..15]` and the coded symbols in canonical order.
Only the meaningful entries of `symbol[0..703]` are listed. -/
structure Table where
  count : List Nat
  symbol : List Nat
  deriving DecidableEq, Repr

/-- The single-symbol table of symbol 0, the least table R141 allows: what a table register holds before any
descriptor is read (notes/assumptions/2.md). -/
def Table.initial : Table := { count := 1 :: List.replicate 15 0, symbol := [0] }

/-- The operations of the hardware, one per row of spec/opcode_table.json. -/
inductive Instr where
  -- the bit reader and the output primitive (spec/40_bit_reader.md, spec/20_memory.md)
  /-- `BITS(n)`, R120. -/
  | bits (n : Nat)
  /-- `ALIGN()`, R121. -/
  | align
  /-- `RAWBYTE()`, R123. -/
  | rawbyte
  /-- `SKIP(k)`, R124. -/
  | skip (k : Nat)
  /-- `EMIT(b)`, R66. -/
  | emit (b : Byte)
  -- the prefix-code subsystem (spec/41_prefix_code.md)
  /-- `BUILD(lengths)`, R142. -/
  | build (lengths : List Nat)
  /-- `SYM(code)`, R144. -/
  | sym (code : Table)
  /-- `READ_CODE(A)`, R146. -/
  | readCode (a : Nat)
  /-- `SIMPLE(A)`, R147. -/
  | simple (a : Nat)
  /-- `SIMPLE.1`, R150: the arm of R147 for one symbol, with the alphabet size and the symbol read. -/
  | simple1 (a s1 : Nat)
  /-- `SIMPLE.2`, R151. -/
  | simple2 (a s1 s2 : Nat)
  /-- `SIMPLE.3`, R152. -/
  | simple3 (a s1 s2 s3 : Nat)
  /-- `SIMPLE.4A`, R153. -/
  | simple4a (a s1 s2 s3 s4 : Nat)
  /-- `SIMPLE.4B`, R154. -/
  | simple4b (a s1 s2 s3 s4 : Nat)
  /-- `COMPLEX(A, hskip)`, R155 to R164. -/
  | complex (a hskip : Nat)
  /-- `CLCL`, R157, from order position `hskip`. -/
  | clcl (hskip : Nat)
  /-- `CLCL.V0`, R156, R157: the code-length-code length 0 at the current order position. -/
  | clclV0
  /-- `CLCL.V1`, R156, R157: the code-length-code length 1 at the current order position. -/
  | clclV1
  /-- `CLCL.V2`, R156, R157: the code-length-code length 2 at the current order position. -/
  | clclV2
  /-- `CLCL.V3`, R156, R157: the code-length-code length 3 at the current order position. -/
  | clclV3
  /-- `CLCL.V4`, R156, R157: the code-length-code length 4 at the current order position. -/
  | clclV4
  /-- `CLCL.V5`, R156, R157: the code-length-code length 5 at the current order position. -/
  | clclV5
  /-- `CL.LEN(s)`, R160. -/
  | clLen (s : Nat)
  /-- `CL.REP`, R161. -/
  | clRep
  /-- `CL.ZERO`, R162. -/
  | clZero
  -- the stream header and the meta-block orchestrator (spec/42_metablock.md)
  /-- `WBITS.16`, R92, R180: the one-bit form. -/
  | wbits16
  /-- `WBITS.18_24`: `1bbb`, `b` in 1..7. -/
  | wbits18to24 (b : Nat)
  /-- `WBITS.17`: `1000000`. -/
  | wbits17
  /-- `WBITS.9`: `1000100`, the unused code point. -/
  | wbits9
  /-- `WBITS.10_15`: `1000ccc`, `c` in 2..7. -/
  | wbits10to15 (c : Nat)
  /-- `ISLAST`, R182. -/
  | islast
  /-- `ISLASTEMPTY`, R183. -/
  | islastempty
  /-- `MNIBBLES`, R184. -/
  | mnibbles
  /-- `MLEN(nn)`, R186. -/
  | mlen (nn : Nat)
  /-- `ISUNCOMPRESSED`, R185. -/
  | isuncompressed
  /-- `RAWCOPY`, R187. -/
  | rawcopy
  /-- `META.RSVD`, R188. -/
  | metaRsvd
  /-- `MSKIPBYTES`, R191. -/
  | mskipbytes
  /-- `MSKIPLEN(sb)`, R189. -/
  | mskiplen (sb : Nat)
  /-- `META.SKIP(k)`, R190. -/
  | metaSkip (k : Nat)
  /-- `HEADER`, R192. -/
  | header
  /-- `NPOSTFIX`, R195. -/
  | npostfix
  /-- `NDIRECT`, R196. -/
  | ndirect
  /-- `CMODE(t)`, R197. -/
  | cmode (t : Nat)
  /-- `NTREESL`, R198. -/
  | ntreesl
  /-- `NTREESD`, R199. -/
  | ntreesd
  /-- `BANKS`, R200. -/
  | banks
  /-- `CMD`, R204, R205. -/
  | cmd
  /-- `LIT`, R206. -/
  | lit
  /-- `DIST`, R208. -/
  | dist
  /-- `COPY`, R209. -/
  | copy
  /-- `COPY.PAST`, R210. -/
  | copyPast
  /-- `COPY.DICT(id, L)`, R314. -/
  | copyDict (id len : Nat)
  /-- `MB.END`, R212. -/
  | mbEnd
  /-- `STREAM.END`, R213. -/
  | streamEnd
  -- block types and block lengths (spec/43_block_switch.md)
  /-- `NBLTYPES.1`, R230: the arm taken when the first bit is 0. -/
  | nbltypes1
  /-- `NBLTYPES.N`, R230: the arm taken when the first bit is 1. -/
  | nbltypesN
  /-- `BLEN(code)`, R232. -/
  | blen (code : Table)
  /-- `BLEN.S0`, R231, R232: block-length symbol 0. -/
  | blenS0
  /-- `BLEN.S1`, R231, R232: block-length symbol 1. -/
  | blenS1
  /-- `BLEN.S2`, R231, R232: block-length symbol 2. -/
  | blenS2
  /-- `BLEN.S3`, R231, R232: block-length symbol 3. -/
  | blenS3
  /-- `BLEN.S4`, R231, R232: block-length symbol 4. -/
  | blenS4
  /-- `BLEN.S5`, R231, R232: block-length symbol 5. -/
  | blenS5
  /-- `BLEN.S6`, R231, R232: block-length symbol 6. -/
  | blenS6
  /-- `BLEN.S7`, R231, R232: block-length symbol 7. -/
  | blenS7
  /-- `BLEN.S8`, R231, R232: block-length symbol 8. -/
  | blenS8
  /-- `BLEN.S9`, R231, R232: block-length symbol 9. -/
  | blenS9
  /-- `BLEN.S10`, R231, R232: block-length symbol 10. -/
  | blenS10
  /-- `BLEN.S11`, R231, R232: block-length symbol 11. -/
  | blenS11
  /-- `BLEN.S12`, R231, R232: block-length symbol 12. -/
  | blenS12
  /-- `BLEN.S13`, R231, R232: block-length symbol 13. -/
  | blenS13
  /-- `BLEN.S14`, R231, R232: block-length symbol 14. -/
  | blenS14
  /-- `BLEN.S15`, R231, R232: block-length symbol 15. -/
  | blenS15
  /-- `BLEN.S16`, R231, R232: block-length symbol 16. -/
  | blenS16
  /-- `BLEN.S17`, R231, R232: block-length symbol 17. -/
  | blenS17
  /-- `BLEN.S18`, R231, R232: block-length symbol 18. -/
  | blenS18
  /-- `BLEN.S19`, R231, R232: block-length symbol 19. -/
  | blenS19
  /-- `BLEN.S20`, R231, R232: block-length symbol 20. -/
  | blenS20
  /-- `BLEN.S21`, R231, R232: block-length symbol 21. -/
  | blenS21
  /-- `BLEN.S22`, R231, R232: block-length symbol 22. -/
  | blenS22
  /-- `BLEN.S23`, R231, R232: block-length symbol 23. -/
  | blenS23
  /-- `BLEN.S24`, R231, R232: block-length symbol 24. -/
  | blenS24
  /-- `BLEN.S25`, R231, R232: block-length symbol 25. -/
  | blenS25
  /-- `BLKDESC(c)`, R233. -/
  | blkdesc (c : Cat)
  /-- `TICK(c)`, R234. -/
  | tick (c : Cat)
  /-- `BSWITCH(c)`, R235. -/
  | bswitch (c : Cat)
  /-- `BSWITCH.PREV`, R235: type-change symbol 0. -/
  | bswitchPrev (c : Cat)
  /-- `BSWITCH.NEXT`, R235: type-change symbol 1. -/
  | bswitchNext (c : Cat)
  /-- `BSWITCH.ABS`, R235: type-change symbol `n >= 2`. -/
  | bswitchAbs (c : Cat) (n : Nat)
  -- the insert-and-copy length splitter (spec/44_insert_copy.md)
  /-- `IACSPLIT(sym)`, R250. -/
  | iacsplit (sym : Nat)
  /-- `IAC.ROW0`, R253: symbols 0..63. -/
  | iacRow0 (sym : Nat)
  /-- `IAC.ROW1`, R253: symbols 64..127. -/
  | iacRow1 (sym : Nat)
  /-- `IAC.ROW2`, R253: symbols 128..191. -/
  | iacRow2 (sym : Nat)
  /-- `IAC.ROW3`, R253: symbols 192..255. -/
  | iacRow3 (sym : Nat)
  /-- `IAC.ROW4`, R253: symbols 256..319. -/
  | iacRow4 (sym : Nat)
  /-- `IAC.ROW5`, R253: symbols 320..383. -/
  | iacRow5 (sym : Nat)
  /-- `IAC.ROW6`, R253: symbols 384..447. -/
  | iacRow6 (sym : Nat)
  /-- `IAC.ROW7`, R253: symbols 448..511. -/
  | iacRow7 (sym : Nat)
  /-- `IAC.ROW8`, R253: symbols 512..575. -/
  | iacRow8 (sym : Nat)
  /-- `IAC.ROW9`, R253: symbols 576..639. -/
  | iacRow9 (sym : Nat)
  /-- `IAC.ROW10`, R253: symbols 640..703. -/
  | iacRow10 (sym : Nat)
  /-- `INS.C0`, R251: insert code 0. -/
  | insC0
  /-- `INS.C1`, R251: insert code 1. -/
  | insC1
  /-- `INS.C2`, R251: insert code 2. -/
  | insC2
  /-- `INS.C3`, R251: insert code 3. -/
  | insC3
  /-- `INS.C4`, R251: insert code 4. -/
  | insC4
  /-- `INS.C5`, R251: insert code 5. -/
  | insC5
  /-- `INS.C6`, R251: insert code 6. -/
  | insC6
  /-- `INS.C7`, R251: insert code 7. -/
  | insC7
  /-- `INS.C8`, R251: insert code 8. -/
  | insC8
  /-- `INS.C9`, R251: insert code 9. -/
  | insC9
  /-- `INS.C10`, R251: insert code 10. -/
  | insC10
  /-- `INS.C11`, R251: insert code 11. -/
  | insC11
  /-- `INS.C12`, R251: insert code 12. -/
  | insC12
  /-- `INS.C13`, R251: insert code 13. -/
  | insC13
  /-- `INS.C14`, R251: insert code 14. -/
  | insC14
  /-- `INS.C15`, R251: insert code 15. -/
  | insC15
  /-- `INS.C16`, R251: insert code 16. -/
  | insC16
  /-- `INS.C17`, R251: insert code 17. -/
  | insC17
  /-- `INS.C18`, R251: insert code 18. -/
  | insC18
  /-- `INS.C19`, R251: insert code 19. -/
  | insC19
  /-- `INS.C20`, R251: insert code 20. -/
  | insC20
  /-- `INS.C21`, R251: insert code 21. -/
  | insC21
  /-- `INS.C22`, R251: insert code 22. -/
  | insC22
  /-- `INS.C23`, R251: insert code 23. -/
  | insC23
  /-- `COPY.C0`, R252: copy code 0. -/
  | copyC0
  /-- `COPY.C1`, R252: copy code 1. -/
  | copyC1
  /-- `COPY.C2`, R252: copy code 2. -/
  | copyC2
  /-- `COPY.C3`, R252: copy code 3. -/
  | copyC3
  /-- `COPY.C4`, R252: copy code 4. -/
  | copyC4
  /-- `COPY.C5`, R252: copy code 5. -/
  | copyC5
  /-- `COPY.C6`, R252: copy code 6. -/
  | copyC6
  /-- `COPY.C7`, R252: copy code 7. -/
  | copyC7
  /-- `COPY.C8`, R252: copy code 8. -/
  | copyC8
  /-- `COPY.C9`, R252: copy code 9. -/
  | copyC9
  /-- `COPY.C10`, R252: copy code 10. -/
  | copyC10
  /-- `COPY.C11`, R252: copy code 11. -/
  | copyC11
  /-- `COPY.C12`, R252: copy code 12. -/
  | copyC12
  /-- `COPY.C13`, R252: copy code 13. -/
  | copyC13
  /-- `COPY.C14`, R252: copy code 14. -/
  | copyC14
  /-- `COPY.C15`, R252: copy code 15. -/
  | copyC15
  /-- `COPY.C16`, R252: copy code 16. -/
  | copyC16
  /-- `COPY.C17`, R252: copy code 17. -/
  | copyC17
  /-- `COPY.C18`, R252: copy code 18. -/
  | copyC18
  /-- `COPY.C19`, R252: copy code 19. -/
  | copyC19
  /-- `COPY.C20`, R252: copy code 20. -/
  | copyC20
  /-- `COPY.C21`, R252: copy code 21. -/
  | copyC21
  /-- `COPY.C22`, R252: copy code 22. -/
  | copyC22
  /-- `COPY.C23`, R252: copy code 23. -/
  | copyC23
  -- context maps and contexts (spec/45_context.md)
  /-- `RLEMAX.0`, R270: the arm taken when the first bit is 0. -/
  | rlemax0 (len : Nat)
  /-- `RLEMAX.N`, R270: the arm taken when the first bit is 1. -/
  | rlemaxN (len : Nat)
  /-- `CMAP(len, trees)`, R271. -/
  | cmap (len trees : Nat)
  /-- `CM.ZERO`, R272. -/
  | cmZero
  /-- `CM.RUN(s)`, R273. -/
  | cmRun (s : Nat)
  /-- `CM.VAL(s)`, R274. -/
  | cmVal (s : Nat)
  /-- `IMTF.FLAG`, R275. -/
  | imtfFlag
  /-- `IMTF`, R276, on the map just read. -/
  | imtf
  /-- `CTX(mode)`, R278. -/
  | ctx (m : CtxMode)
  /-- `CTX.LSB6`, R279. -/
  | ctxLsb6
  /-- `CTX.MSB6`, R280. -/
  | ctxMsb6
  /-- `CTX.UTF8`, R281. -/
  | ctxUtf8
  /-- `CTX.SIGNED`, R282. -/
  | ctxSigned
  /-- `DCTX(copy_len)`, R284. -/
  | dctx (copyLen : Nat)
  -- distances (spec/46_distance.md)
  /-- `DISTVAL(sym)`, R290. -/
  | distval (sym : Nat)
  /-- `D.RING.0`, R291, R292: distance symbol 0. -/
  | dRing0
  /-- `D.RING.1`, R291, R292: distance symbol 1. -/
  | dRing1
  /-- `D.RING.2`, R291, R292: distance symbol 2. -/
  | dRing2
  /-- `D.RING.3`, R291, R292: distance symbol 3. -/
  | dRing3
  /-- `D.RING.4`, R291, R292: distance symbol 4. -/
  | dRing4
  /-- `D.RING.5`, R291, R292: distance symbol 5. -/
  | dRing5
  /-- `D.RING.6`, R291, R292: distance symbol 6. -/
  | dRing6
  /-- `D.RING.7`, R291, R292: distance symbol 7. -/
  | dRing7
  /-- `D.RING.8`, R291, R292: distance symbol 8. -/
  | dRing8
  /-- `D.RING.9`, R291, R292: distance symbol 9. -/
  | dRing9
  /-- `D.RING.10`, R291, R292: distance symbol 10. -/
  | dRing10
  /-- `D.RING.11`, R291, R292: distance symbol 11. -/
  | dRing11
  /-- `D.RING.12`, R291, R292: distance symbol 12. -/
  | dRing12
  /-- `D.RING.13`, R291, R292: distance symbol 13. -/
  | dRing13
  /-- `D.RING.14`, R291, R292: distance symbol 14. -/
  | dRing14
  /-- `D.RING.15`, R291, R292: distance symbol 15. -/
  | dRing15
  /-- `D.DIRECT(sym)`, R294. -/
  | dDirect (sym : Nat)
  /-- `D.LONG(sym)`, R295. -/
  | dLong (sym : Nat)
  /-- `RINGPUSH(d)`, R298. -/
  | ringpush (d : Nat)
  -- the word transforms (spec/47_dictionary.md), on the word latch
  /-- `X.ID`, R317. -/
  | xId
  /-- `X.UPFIRST`, R318. -/
  | xUpfirst
  /-- `X.UPALL`, R319. -/
  | xUpall
  /-- `X.OMITFIRST(k)`, R320. -/
  | xOmitfirst (k : Nat)
  /-- `X.OMITLAST(k)`, R320. -/
  | xOmitlast (k : Nat)
  deriving DecidableEq, Repr

/-- The alphabets whose decoded symbols select a row of the opcode table (spec/30_encoding.md R101), each with
the parameters that place its rows' ranges. -/
inductive Alphabet where
  | codeLength
  | blockLength
  | typeChange (c : Cat) (num : Nat)
  | insertAndCopy
  | insertCode
  | copyCode
  | cmap (rlemax trees : Nat)
  | distance (direct dalpha : Nat)
  | contextMode
  deriving DecidableEq, Repr

/-- An element the sequencer is about to fetch: a place of the grammar of R90 to R97. The first five select
their row by stream bits, `symbol` by the value of a decoded symbol, and `oper` is an operation whose row the
control flow already fixes. -/
inductive Elem where
  | wbits
  | nbltypes
  | rlemax (len : Nat)
  | clclLen
  | desc (a : Nat)
  | symbol (alph : Alphabet) (v : Nat)
  | oper (i : Instr)
  deriving DecidableEq, Repr

end Sys2Proof
end

