-- ==== Sys2Proof/WellFormed.lean ====
section
/-! DEFINITION. Which operations and tables are well formed: each operand in the range its rule gives it. The
model refuses or faults by name outside these ranges where a rule has a precondition; `wf` is what an encoder may
be asked to encode. -/

namespace Sys2Proof

/-- The Kraft sum of R36 item 1 and R141: `sum of count[len] * 2^(15-len)` for `len` in 1..15. -/
def Table.kraft (t : Table) : Nat :=
  ((List.range' 1 15).map fun len => t.count.getD len 0 * 2 ^ (15 - len)).sum

/-- R141 (a): the single-symbol table. -/
def Table.isSingle (t : Table) : Bool :=
  decide (t.count = 1 :: List.replicate 15 0) && decide (t.symbol.length = 1)

/-- R141 (b): a complete code, with one listed symbol per codeword. -/
def Table.isComplete (t : Table) : Bool :=
  decide (t.count.length = 16) && decide (t.count.getD 0 0 = 0) && decide (t.kraft = 2 ^ 15) &&
    decide (t.symbol.length = t.count.sum)

/-- The validity invariant of R141: single-symbol or complete. -/
def Table.valid (t : Table) : Bool := t.isSingle || t.isComplete

/-- `MAX_ALPHABET` (R7): an alphabet has 2..704 symbols (R140). -/
def alphabetOk (a : Nat) : Bool := decide (2 ≤ a) && decide (a ≤ 704)

/-- Operands of a simple descriptor: each below the alphabet size (R148) and no two equal (R149). -/
def simpleOk (a : Nat) (symbols : List Nat) : Bool :=
  alphabetOk a && symbols.all (fun s => decide (s < a)) && decide symbols.Nodup

/-- The symbols of insert-and-copy row `r` (R253). -/
def inRow (r sym : Nat) : Bool := decide (64 * r ≤ sym) && decide (sym < 64 * (r + 1))

/-- Every operand in the range its rule gives. -/
def Instr.wf : Instr → Bool
  | .bits n => decide (n ≤ 25)
  | .skip k => decide (k ≤ 16777216)
  | .build lengths => lengths.all (fun l => decide (l ≤ 15)) && decide (2 ≤ (lengths.filter (fun l => l ≠ 0)).length)
  | .sym code => code.valid
  | .readCode a => alphabetOk a
  | .simple a => alphabetOk a
  | .simple1 a s1 => simpleOk a [s1]
  | .simple2 a s1 s2 => simpleOk a [s1, s2]
  | .simple3 a s1 s2 s3 => simpleOk a [s1, s2, s3]
  | .simple4a a s1 s2 s3 s4 => simpleOk a [s1, s2, s3, s4]
  | .simple4b a s1 s2 s3 s4 => simpleOk a [s1, s2, s3, s4]
  | .complex a hskip => alphabetOk a && decide (hskip = 0 ∨ hskip = 2 ∨ hskip = 3)
  | .clcl hskip => decide (hskip = 0 ∨ hskip = 2 ∨ hskip = 3)
  | .clLen s => decide (s ≤ 15)
  | .wbits18to24 b => decide (1 ≤ b) && decide (b ≤ 7)
  | .wbits10to15 c => decide (2 ≤ c) && decide (c ≤ 7)
  | .mlen nn => decide (4 ≤ nn) && decide (nn ≤ 6)
  | .mskiplen sb => decide (sb ≤ 3)
  | .metaSkip k => decide (k ≤ 16777216)
  | .cmode t => decide (t ≤ 255)
  | .copyDict _ len => decide (2 ≤ len)
  | .blen code => code.valid
  | .bswitchAbs _ n => decide (2 ≤ n) && decide (n ≤ 257)
  | .iacsplit v => decide (v ≤ 703)
  | .iacRow0 v => inRow 0 v
  | .iacRow1 v => inRow 1 v
  | .iacRow2 v => inRow 2 v
  | .iacRow3 v => inRow 3 v
  | .iacRow4 v => inRow 4 v
  | .iacRow5 v => inRow 5 v
  | .iacRow6 v => inRow 6 v
  | .iacRow7 v => inRow 7 v
  | .iacRow8 v => inRow 8 v
  | .iacRow9 v => inRow 9 v
  | .iacRow10 v => inRow 10 v
  | .rlemax0 len => decide (4 ≤ len) && decide (len ≤ 16384)
  | .rlemaxN len => decide (4 ≤ len) && decide (len ≤ 16384)
  | .cmap len trees => decide (4 ≤ len) && decide (len ≤ 16384) && decide (1 ≤ trees) && decide (trees ≤ 256)
  | .cmRun s => decide (1 ≤ s) && decide (s ≤ 16)
  | .cmVal s => decide (1 ≤ s) && decide (s ≤ 270)
  | .dctx copyLen => decide (2 ≤ copyLen)
  | .distval v => decide (v ≤ 519)
  | .dDirect v => decide (16 ≤ v) && decide (v ≤ 135)
  | .dLong v => decide (16 ≤ v) && decide (v ≤ 519)
  | .ringpush d => decide (1 ≤ d)
  | .align | .rawbyte | .emit _ | .clclV0 | .clclV1 | .clclV2 | .clclV3 | .clclV4 | .clclV5 | .clRep | .clZero
  | .wbits16 | .wbits17 | .wbits9 | .islast | .islastempty | .mnibbles | .isuncompressed | .rawcopy | .metaRsvd
  | .mskipbytes | .header | .npostfix | .ndirect | .ntreesl | .ntreesd | .banks | .cmd | .lit | .dist | .copy
  | .copyPast | .mbEnd | .streamEnd | .nbltypes1 | .nbltypesN | .blenS0 | .blenS1 | .blenS2 | .blenS3 | .blenS4
  | .blenS5 | .blenS6 | .blenS7 | .blenS8 | .blenS9 | .blenS10 | .blenS11 | .blenS12 | .blenS13 | .blenS14
  | .blenS15 | .blenS16 | .blenS17 | .blenS18 | .blenS19 | .blenS20 | .blenS21 | .blenS22 | .blenS23 | .blenS24
  | .blenS25 | .blkdesc _ | .tick _ | .bswitch _ | .bswitchPrev _ | .bswitchNext _ | .insC0 | .insC1 | .insC2
  | .insC3 | .insC4 | .insC5 | .insC6 | .insC7 | .insC8 | .insC9 | .insC10 | .insC11 | .insC12 | .insC13
  | .insC14 | .insC15 | .insC16 | .insC17 | .insC18 | .insC19 | .insC20 | .insC21 | .insC22 | .insC23 | .copyC0
  | .copyC1 | .copyC2 | .copyC3 | .copyC4 | .copyC5 | .copyC6 | .copyC7 | .copyC8 | .copyC9 | .copyC10
  | .copyC11 | .copyC12 | .copyC13 | .copyC14 | .copyC15 | .copyC16 | .copyC17 | .copyC18 | .copyC19 | .copyC20
  | .copyC21 | .copyC22 | .copyC23 | .cmZero | .imtfFlag | .imtf | .ctx _ | .ctxLsb6 | .ctxMsb6 | .ctxUtf8
  | .ctxSigned | .dRing0 | .dRing1 | .dRing2 | .dRing3 | .dRing4 | .dRing5 | .dRing6 | .dRing7 | .dRing8
  | .dRing9 | .dRing10 | .dRing11 | .dRing12 | .dRing13 | .dRing14 | .dRing15 | .xId | .xUpfirst | .xUpall
  | .xOmitfirst _ | .xOmitlast _ => true

end Sys2Proof
end

