-- ==== Sys2Proof/Decode.lean ====
section
/-! DEFINITION. The decoder and the encoder. The stream is one bit sequence (spec/00_scope.md R8) in which an
element's place in the grammar (spec/30_encoding.md R90 to R97) is known from what was read before (R100), so
decoding takes the element and the bits ahead, and answers the operation with the number of bits that SELECT it:
the literal bits of a VAR form, a codeword of the fixed code, the fields of a simple descriptor, the `HSKIP` of a complex
one. A field that an
operation's own pseudocode reads with `BITS` is left for it to read (notes/assumptions/15.md). Rows that the value
of a decoded symbol selects (R101) are chosen from that value. Decoding is total and rejects by name. -/

namespace Sys2Proof

/-- The `n` low bits of `v`, least significant first: the stream bits of the field `u(n, v)` (R8, R103). -/
def bitsLE : Nat → Nat → List Bool
  | 0, _ => []
  | n + 1, v => decide (v % 2 = 1) :: bitsLE n (v / 2)

/-- The value of a field whose stream bits are listed in reading order: the first is the least significant (R8). -/
def natOfBits : List Bool → Nat
  | [] => 0
  | b :: bs => b.toNat + 2 * natOfBits bs

/-- The eight stream bits of a byte, bit 0 first (R8). -/
def byteBits (b : Byte) : List Bool := bitsLE 8 b.toNat

/-- The stream bit sequence of a byte sequence (R8). -/
def streamBits (bytes : List Byte) : List Bool := bytes.flatMap byteBits

/-- The least `k >= 0` with `2^k >= a` (R9), sought from `k` on. -/
def ceilLog2From (a : Nat) : Nat → Nat → Nat
  | 0, k => k
  | fuel + 1, k => if a ≤ 2 ^ k then k else ceilLog2From a fuel (k + 1)

/-- `ceil_log2(a)` (R9, R148): the width of a symbol field of a simple descriptor over `a` symbols. -/
def ceilLog2 (a : Nat) : Nat := ceilLog2From a a 0

/-- Why the bits ahead, or the symbol given, select no row. -/
inductive DecodeError where
  /-- more stream bits are needed than were given -/
  | needMoreBits
  /-- no row of the alphabet has this symbol value -/
  | noRow (alph : Alphabet) (v : Nat)
  /-- a simple descriptor names a symbol at or above the alphabet size (R148) -/
  | symbolOutOfRange
  /-- a simple descriptor names one symbol twice (R149) -/
  | repeatedSymbol
  /-- an operand of the operation is outside its range -/
  | illFormed
  deriving DecidableEq, Repr

/-- Two-bit context-mode codes (R197): only the low two bits count (the rows' mask is 3). -/
def ctxModeOf (v : Nat) : CtxMode :=
  match v % 4 with
  | 0 => .lsb6
  | 1 => .msb6
  | 2 => .utf8
  | _ => .signed

/-- The code of a context mode. -/
def ctxModeCode : CtxMode → Nat
  | .lsb6 => 0
  | .msb6 => 1
  | .utf8 => 2
  | .signed => 3

/-- The row of a context mode (R278). -/
def ctxRow : CtxMode → Instr
  | .lsb6 => .ctxLsb6
  | .msb6 => .ctxMsb6
  | .utf8 => .ctxUtf8
  | .signed => .ctxSigned

/-- The rows of the block-length alphabet (R231). -/
def blockLengthRow : Nat → Option Instr
  | 0 => some .blenS0
  | 1 => some .blenS1
  | 2 => some .blenS2
  | 3 => some .blenS3
  | 4 => some .blenS4
  | 5 => some .blenS5
  | 6 => some .blenS6
  | 7 => some .blenS7
  | 8 => some .blenS8
  | 9 => some .blenS9
  | 10 => some .blenS10
  | 11 => some .blenS11
  | 12 => some .blenS12
  | 13 => some .blenS13
  | 14 => some .blenS14
  | 15 => some .blenS15
  | 16 => some .blenS16
  | 17 => some .blenS17
  | 18 => some .blenS18
  | 19 => some .blenS19
  | 20 => some .blenS20
  | 21 => some .blenS21
  | 22 => some .blenS22
  | 23 => some .blenS23
  | 24 => some .blenS24
  | 25 => some .blenS25
  | _ => none

/-- The rows of the insert codes (R251). -/
def insertCodeRow : Nat → Option Instr
  | 0 => some .insC0
  | 1 => some .insC1
  | 2 => some .insC2
  | 3 => some .insC3
  | 4 => some .insC4
  | 5 => some .insC5
  | 6 => some .insC6
  | 7 => some .insC7
  | 8 => some .insC8
  | 9 => some .insC9
  | 10 => some .insC10
  | 11 => some .insC11
  | 12 => some .insC12
  | 13 => some .insC13
  | 14 => some .insC14
  | 15 => some .insC15
  | 16 => some .insC16
  | 17 => some .insC17
  | 18 => some .insC18
  | 19 => some .insC19
  | 20 => some .insC20
  | 21 => some .insC21
  | 22 => some .insC22
  | 23 => some .insC23
  | _ => none

/-- The rows of the copy codes (R252). -/
def copyCodeRow : Nat → Option Instr
  | 0 => some .copyC0
  | 1 => some .copyC1
  | 2 => some .copyC2
  | 3 => some .copyC3
  | 4 => some .copyC4
  | 5 => some .copyC5
  | 6 => some .copyC6
  | 7 => some .copyC7
  | 8 => some .copyC8
  | 9 => some .copyC9
  | 10 => some .copyC10
  | 11 => some .copyC11
  | 12 => some .copyC12
  | 13 => some .copyC13
  | 14 => some .copyC14
  | 15 => some .copyC15
  | 16 => some .copyC16
  | 17 => some .copyC17
  | 18 => some .copyC18
  | 19 => some .copyC19
  | 20 => some .copyC20
  | 21 => some .copyC21
  | 22 => some .copyC22
  | 23 => some .copyC23
  | _ => none

/-- The rows of the ring-relative distance symbols (R291, R292). -/
def ringRow : Nat → Option Instr
  | 0 => some .dRing0
  | 1 => some .dRing1
  | 2 => some .dRing2
  | 3 => some .dRing3
  | 4 => some .dRing4
  | 5 => some .dRing5
  | 6 => some .dRing6
  | 7 => some .dRing7
  | 8 => some .dRing8
  | 9 => some .dRing9
  | 10 => some .dRing10
  | 11 => some .dRing11
  | 12 => some .dRing12
  | 13 => some .dRing13
  | 14 => some .dRing14
  | 15 => some .dRing15
  | _ => none

/-- The eleven rows of the insert-and-copy alphabet, by `row = sym >> 6` (R250, R253). -/
def iacRow (sym : Nat) : Option Instr :=
  match sym >>> 6 with
  | 0 => some (.iacRow0 sym)
  | 1 => some (.iacRow1 sym)
  | 2 => some (.iacRow2 sym)
  | 3 => some (.iacRow3 sym)
  | 4 => some (.iacRow4 sym)
  | 5 => some (.iacRow5 sym)
  | 6 => some (.iacRow6 sym)
  | 7 => some (.iacRow7 sym)
  | 8 => some (.iacRow8 sym)
  | 9 => some (.iacRow9 sym)
  | 10 => some (.iacRow10 sym)
  | _ => none

/-- The row of a code-length symbol (R160 to R162). -/
def codeLengthRow (v : Nat) : Option Instr :=
  if v < 16 then some (.clLen v) else if v = 16 then some .clRep else if v = 17 then some .clZero else none

/-- The row of a type-change symbol of a category with `num` types (R235). -/
def typeChangeRow (c : Cat) (num v : Nat) : Option Instr :=
  if v = 0 then some (.bswitchPrev c)
  else if v = 1 then some (.bswitchNext c)
  else if v ≤ num + 1 then some (.bswitchAbs c v) else none

/-- The row of a context-map symbol (R271 to R274). -/
def cmapRow (rlemax trees v : Nat) : Option Instr :=
  if v = 0 then some .cmZero
  else if v ≤ rlemax then some (.cmRun v)
  else if v < rlemax + trees then some (.cmVal v) else none

/-- The row of a distance symbol (R290, R291, R294, R295). -/
def distanceRow (direct dalpha v : Nat) : Option Instr :=
  if v < 16 then ringRow v
  else if v < 16 + direct then some (.dDirect v)
  else if v < dalpha then some (.dLong v) else none

/-- The row a decoded symbol selects (R101). -/
def symbolRow : Alphabet → Nat → Option Instr
  | .codeLength, v => codeLengthRow v
  | .blockLength, v => blockLengthRow v
  | .typeChange c num, v => typeChangeRow c num v
  | .insertAndCopy, v => iacRow v
  | .insertCode, v => insertCodeRow v
  | .copyCode, v => copyCodeRow v
  | .cmap rlemax trees, v => cmapRow rlemax trees v
  | .distance direct dalpha, v => distanceRow direct dalpha v
  | .contextMode, v => some (ctxRow (ctxModeOf v))

/-- An operation and the number of stream bits that selected it. -/
abbrev Decoded := Except DecodeError (Instr × Nat)

/-- The stream header's forms (R92, R180). -/
def decodeWbits : List Bool → Decoded
  | false :: _ => .ok (.wbits16, 1)
  | true :: b0 :: b1 :: b2 :: rest =>
    match natOfBits [b0, b1, b2], rest with
    | 0, c0 :: c1 :: c2 :: _ =>
      match natOfBits [c0, c1, c2] with
      | 0 => .ok (.wbits17, 7)
      | 1 => .ok (.wbits9, 7)
      | c => .ok (.wbits10to15 c, 7)
    | 0, _ => .error .needMoreBits
    | b, _ => .ok (.wbits18to24 b, 4)
  | _ => .error .needMoreBits

/-- The number-of-types code's two arms (R230). -/
def decodeNbltypes : List Bool → Decoded
  | false :: _ => .ok (.nbltypes1, 1)
  | true :: _ => .ok (.nbltypesN, 1)
  | [] => .error .needMoreBits

/-- The two arms of `RLEMAX` (R270). -/
def decodeRlemax (len : Nat) : List Bool → Decoded
  | false :: _ => .ok (.rlemax0 len, 1)
  | true :: _ => .ok (.rlemaxN len, 1)
  | [] => .error .needMoreBits

/-- The fixed code of stage 1 (R156), by its codewords. -/
def decodeClclLen : List Bool → Decoded
  | false :: false :: _ => .ok (.clclV0, 2)
  | false :: true :: _ => .ok (.clclV3, 2)
  | true :: false :: _ => .ok (.clclV4, 2)
  | true :: true :: false :: _ => .ok (.clclV2, 3)
  | true :: true :: true :: false :: _ => .ok (.clclV1, 4)
  | true :: true :: true :: true :: _ => .ok (.clclV5, 4)
  | _ => .error .needMoreBits

/-- `k` symbol fields of `w` bits, each tested against the alphabet size as it is read (R147, R148). -/
def takeSymbols (a w : Nat) : Nat → List Bool → Except DecodeError (List Nat × List Bool)
  | 0, bs => .ok ([], bs)
  | k + 1, bs =>
    if bs.length < w then .error .needMoreBits
    else if natOfBits (bs.take w) < a then
      match takeSymbols a w k (bs.drop w) with
      | .ok (r, rest) => .ok (natOfBits (bs.take w) :: r, rest)
      | .error e => .error e
    else .error .symbolOutOfRange

/-- The arm of R147 for the symbols read; `rest` is what follows them. -/
def simpleRow (a : Nat) : List Nat → List Bool → Except DecodeError (Instr × List Bool)
  | [s1], rest => .ok (.simple1 a s1, rest)
  | [s1, s2], rest => .ok (.simple2 a s1 s2, rest)
  | [s1, s2, s3], rest => .ok (.simple3 a s1 s2 s3, rest)
  | [s1, s2, s3, s4], false :: rest => .ok (.simple4a a s1 s2 s3 s4, rest)
  | [s1, s2, s3, s4], true :: rest => .ok (.simple4b a s1 s2 s3 s4, rest)
  | _, _ => .error .needMoreBits

/-- A prefix-code descriptor over `a` symbols (R97, R146): a simple form, or the complex form with its `hskip`. -/
def decodeDesc (a : Nat) : List Bool → Decoded
  | true :: false :: n0 :: n1 :: bs =>
    match takeSymbols a (ceilLog2 a) (natOfBits [n0, n1] + 1) bs with
    | .error e => .error e
    | .ok (symbols, rest) =>
      if symbols.Nodup then
        match simpleRow a symbols rest with
        | .error e => .error e
        | .ok (i, rest') => .ok (i, 4 + (bs.length - rest'.length))
      else .error .repeatedSymbol
  | true :: false :: _ => .error .needMoreBits
  | h0 :: h1 :: _ => .ok (.complex a (natOfBits [h0, h1]), 2)
  | _ => .error .needMoreBits

/-- The decoder: the operation the element and the stream bits ahead select, and how many bits select it. -/
def decode : Elem → List Bool → Decoded
  | .wbits, bs => decodeWbits bs
  | .nbltypes, bs => decodeNbltypes bs
  | .rlemax len, bs => decodeRlemax len bs
  | .clclLen, bs => decodeClclLen bs
  | .desc a, bs => decodeDesc a bs
  | .symbol alph v, _ =>
    match symbolRow alph v with
    | some i => .ok (i, 0)
    | none => .error (.noRow alph v)
  | .oper i, _ => if i.wf then .ok (i, 0) else .error .illFormed

/-- The decoder on bytes, as the stream holds them (R8). -/
def decodeBytes (e : Elem) (bytes : List Byte) : Decoded := decode e (streamBits bytes)

/-- The most stream bits that can select a row of an element: how far ahead the fetch looks. -/
def Elem.maxBits : Elem → Nat
  | .wbits => 7
  | .nbltypes => 1
  | .rlemax _ => 1
  | .clclLen => 4
  | .desc a => 5 + 4 * ceilLog2 a
  | .symbol _ _ => 0
  | .oper _ => 0

/-- The descriptor bits of a simple code: `HSKIP = 1`, `NSYM - 1`, the symbols (R97). -/
def simpleBits (a : Nat) (symbols : List Nat) : List Bool :=
  bitsLE 2 1 ++ bitsLE 2 (symbols.length - 1) ++ symbols.flatMap (bitsLE (ceilLog2 a))

/-- The encoder: the element an operation is fetched at and the bits that select it there, from the encoding
tables of R92, R97, R101, R156, R230, R253 and R270. A row of a symbol alphabet is encoded as the symbol; an
operation the control flow fixes has no selecting bits. -/
def encode : Instr → Elem × List Bool
  | .wbits16 => (.wbits, [false])
  | .wbits18to24 b => (.wbits, true :: bitsLE 3 b)
  | .wbits17 => (.wbits, [true] ++ bitsLE 3 0 ++ bitsLE 3 0)
  | .wbits9 => (.wbits, [true] ++ bitsLE 3 0 ++ bitsLE 3 1)
  | .wbits10to15 c => (.wbits, [true] ++ bitsLE 3 0 ++ bitsLE 3 c)
  | .nbltypes1 => (.nbltypes, [false])
  | .nbltypesN => (.nbltypes, [true])
  | .rlemax0 len => (.rlemax len, [false])
  | .rlemaxN len => (.rlemax len, [true])
  | .clclV0 => (.clclLen, [false, false])
  | .clclV1 => (.clclLen, [true, true, true, false])
  | .clclV2 => (.clclLen, [true, true, false])
  | .clclV3 => (.clclLen, [false, true])
  | .clclV4 => (.clclLen, [true, false])
  | .clclV5 => (.clclLen, [true, true, true, true])
  | .simple1 a s1 => (.desc a, simpleBits a [s1])
  | .simple2 a s1 s2 => (.desc a, simpleBits a [s1, s2])
  | .simple3 a s1 s2 s3 => (.desc a, simpleBits a [s1, s2, s3])
  | .simple4a a s1 s2 s3 s4 => (.desc a, simpleBits a [s1, s2, s3, s4] ++ [false])
  | .simple4b a s1 s2 s3 s4 => (.desc a, simpleBits a [s1, s2, s3, s4] ++ [true])
  | .clLen s => (.symbol .codeLength s, [])
  | .clRep => (.symbol .codeLength 16, [])
  | .clZero => (.symbol .codeLength 17, [])
  | .blenS0 => (.symbol .blockLength 0, [])
  | .blenS1 => (.symbol .blockLength 1, [])
  | .blenS2 => (.symbol .blockLength 2, [])
  | .blenS3 => (.symbol .blockLength 3, [])
  | .blenS4 => (.symbol .blockLength 4, [])
  | .blenS5 => (.symbol .blockLength 5, [])
  | .blenS6 => (.symbol .blockLength 6, [])
  | .blenS7 => (.symbol .blockLength 7, [])
  | .blenS8 => (.symbol .blockLength 8, [])
  | .blenS9 => (.symbol .blockLength 9, [])
  | .blenS10 => (.symbol .blockLength 10, [])
  | .blenS11 => (.symbol .blockLength 11, [])
  | .blenS12 => (.symbol .blockLength 12, [])
  | .blenS13 => (.symbol .blockLength 13, [])
  | .blenS14 => (.symbol .blockLength 14, [])
  | .blenS15 => (.symbol .blockLength 15, [])
  | .blenS16 => (.symbol .blockLength 16, [])
  | .blenS17 => (.symbol .blockLength 17, [])
  | .blenS18 => (.symbol .blockLength 18, [])
  | .blenS19 => (.symbol .blockLength 19, [])
  | .blenS20 => (.symbol .blockLength 20, [])
  | .blenS21 => (.symbol .blockLength 21, [])
  | .blenS22 => (.symbol .blockLength 22, [])
  | .blenS23 => (.symbol .blockLength 23, [])
  | .blenS24 => (.symbol .blockLength 24, [])
  | .blenS25 => (.symbol .blockLength 25, [])
  | .bswitchPrev c => (.symbol (.typeChange c 256) 0, [])
  | .bswitchNext c => (.symbol (.typeChange c 256) 1, [])
  | .bswitchAbs c n => (.symbol (.typeChange c 256) n, [])
  | .iacRow0 sym => (.symbol .insertAndCopy sym, [])
  | .iacRow1 sym => (.symbol .insertAndCopy sym, [])
  | .iacRow2 sym => (.symbol .insertAndCopy sym, [])
  | .iacRow3 sym => (.symbol .insertAndCopy sym, [])
  | .iacRow4 sym => (.symbol .insertAndCopy sym, [])
  | .iacRow5 sym => (.symbol .insertAndCopy sym, [])
  | .iacRow6 sym => (.symbol .insertAndCopy sym, [])
  | .iacRow7 sym => (.symbol .insertAndCopy sym, [])
  | .iacRow8 sym => (.symbol .insertAndCopy sym, [])
  | .iacRow9 sym => (.symbol .insertAndCopy sym, [])
  | .iacRow10 sym => (.symbol .insertAndCopy sym, [])
  | .insC0 => (.symbol .insertCode 0, [])
  | .insC1 => (.symbol .insertCode 1, [])
  | .insC2 => (.symbol .insertCode 2, [])
  | .insC3 => (.symbol .insertCode 3, [])
  | .insC4 => (.symbol .insertCode 4, [])
  | .insC5 => (.symbol .insertCode 5, [])
  | .insC6 => (.symbol .insertCode 6, [])
  | .insC7 => (.symbol .insertCode 7, [])
  | .insC8 => (.symbol .insertCode 8, [])
  | .insC9 => (.symbol .insertCode 9, [])
  | .insC10 => (.symbol .insertCode 10, [])
  | .insC11 => (.symbol .insertCode 11, [])
  | .insC12 => (.symbol .insertCode 12, [])
  | .insC13 => (.symbol .insertCode 13, [])
  | .insC14 => (.symbol .insertCode 14, [])
  | .insC15 => (.symbol .insertCode 15, [])
  | .insC16 => (.symbol .insertCode 16, [])
  | .insC17 => (.symbol .insertCode 17, [])
  | .insC18 => (.symbol .insertCode 18, [])
  | .insC19 => (.symbol .insertCode 19, [])
  | .insC20 => (.symbol .insertCode 20, [])
  | .insC21 => (.symbol .insertCode 21, [])
  | .insC22 => (.symbol .insertCode 22, [])
  | .insC23 => (.symbol .insertCode 23, [])
  | .copyC0 => (.symbol .copyCode 0, [])
  | .copyC1 => (.symbol .copyCode 1, [])
  | .copyC2 => (.symbol .copyCode 2, [])
  | .copyC3 => (.symbol .copyCode 3, [])
  | .copyC4 => (.symbol .copyCode 4, [])
  | .copyC5 => (.symbol .copyCode 5, [])
  | .copyC6 => (.symbol .copyCode 6, [])
  | .copyC7 => (.symbol .copyCode 7, [])
  | .copyC8 => (.symbol .copyCode 8, [])
  | .copyC9 => (.symbol .copyCode 9, [])
  | .copyC10 => (.symbol .copyCode 10, [])
  | .copyC11 => (.symbol .copyCode 11, [])
  | .copyC12 => (.symbol .copyCode 12, [])
  | .copyC13 => (.symbol .copyCode 13, [])
  | .copyC14 => (.symbol .copyCode 14, [])
  | .copyC15 => (.symbol .copyCode 15, [])
  | .copyC16 => (.symbol .copyCode 16, [])
  | .copyC17 => (.symbol .copyCode 17, [])
  | .copyC18 => (.symbol .copyCode 18, [])
  | .copyC19 => (.symbol .copyCode 19, [])
  | .copyC20 => (.symbol .copyCode 20, [])
  | .copyC21 => (.symbol .copyCode 21, [])
  | .copyC22 => (.symbol .copyCode 22, [])
  | .copyC23 => (.symbol .copyCode 23, [])
  | .cmZero => (.symbol (.cmap 0 256) 0, [])
  | .cmRun s => (.symbol (.cmap 16 255) s, [])
  | .cmVal s => (.symbol (if s < 256 then .cmap 0 256 else .cmap 16 255) s, [])
  | .dRing0 => (.symbol (.distance 0 64) 0, [])
  | .dRing1 => (.symbol (.distance 0 64) 1, [])
  | .dRing2 => (.symbol (.distance 0 64) 2, [])
  | .dRing3 => (.symbol (.distance 0 64) 3, [])
  | .dRing4 => (.symbol (.distance 0 64) 4, [])
  | .dRing5 => (.symbol (.distance 0 64) 5, [])
  | .dRing6 => (.symbol (.distance 0 64) 6, [])
  | .dRing7 => (.symbol (.distance 0 64) 7, [])
  | .dRing8 => (.symbol (.distance 0 64) 8, [])
  | .dRing9 => (.symbol (.distance 0 64) 9, [])
  | .dRing10 => (.symbol (.distance 0 64) 10, [])
  | .dRing11 => (.symbol (.distance 0 64) 11, [])
  | .dRing12 => (.symbol (.distance 0 64) 12, [])
  | .dRing13 => (.symbol (.distance 0 64) 13, [])
  | .dRing14 => (.symbol (.distance 0 64) 14, [])
  | .dRing15 => (.symbol (.distance 0 64) 15, [])
  | .dDirect sym => (.symbol (.distance 120 520) sym, [])
  | .dLong sym => (.symbol (if sym < 400 then .distance 0 400 else .distance 120 520) sym, [])
  | .ctxLsb6 => (.symbol .contextMode 0, [])
  | .ctxMsb6 => (.symbol .contextMode 1, [])
  | .ctxUtf8 => (.symbol .contextMode 2, [])
  | .ctxSigned => (.symbol .contextMode 3, [])
  | .bits n => (.oper (.bits n), [])
  | .align => (.oper (.align), [])
  | .rawbyte => (.oper (.rawbyte), [])
  | .skip k => (.oper (.skip k), [])
  | .emit b => (.oper (.emit b), [])
  | .build lengths => (.oper (.build lengths), [])
  | .sym code => (.oper (.sym code), [])
  | .readCode a => (.oper (.readCode a), [])
  | .simple a => (.oper (.simple a), [])
  | .complex a hskip => (.desc a, bitsLE 2 hskip)
  | .clcl hskip => (.oper (.clcl hskip), [])
  | .islast => (.oper (.islast), [])
  | .islastempty => (.oper (.islastempty), [])
  | .mnibbles => (.oper (.mnibbles), [])
  | .mlen nn => (.oper (.mlen nn), [])
  | .isuncompressed => (.oper (.isuncompressed), [])
  | .rawcopy => (.oper (.rawcopy), [])
  | .metaRsvd => (.oper (.metaRsvd), [])
  | .mskipbytes => (.oper (.mskipbytes), [])
  | .mskiplen sb => (.oper (.mskiplen sb), [])
  | .metaSkip k => (.oper (.metaSkip k), [])
  | .header => (.oper (.header), [])
  | .npostfix => (.oper (.npostfix), [])
  | .ndirect => (.oper (.ndirect), [])
  | .cmode t => (.oper (.cmode t), [])
  | .ntreesl => (.oper (.ntreesl), [])
  | .ntreesd => (.oper (.ntreesd), [])
  | .banks => (.oper (.banks), [])
  | .cmd => (.oper (.cmd), [])
  | .lit => (.oper (.lit), [])
  | .dist => (.oper (.dist), [])
  | .copy => (.oper (.copy), [])
  | .copyPast => (.oper (.copyPast), [])
  | .copyDict id len => (.oper (.copyDict id len), [])
  | .mbEnd => (.oper (.mbEnd), [])
  | .streamEnd => (.oper (.streamEnd), [])
  | .blen code => (.oper (.blen code), [])
  | .blkdesc c => (.oper (.blkdesc c), [])
  | .tick c => (.oper (.tick c), [])
  | .bswitch c => (.oper (.bswitch c), [])
  | .iacsplit sym => (.oper (.iacsplit sym), [])
  | .cmap len trees => (.oper (.cmap len trees), [])
  | .imtfFlag => (.oper (.imtfFlag), [])
  | .imtf => (.oper (.imtf), [])
  | .ctx m => (.oper (.ctx m), [])
  | .dctx copyLen => (.oper (.dctx copyLen), [])
  | .distval sym => (.oper (.distval sym), [])
  | .ringpush d => (.oper (.ringpush d), [])
  | .xId => (.oper (.xId), [])
  | .xUpfirst => (.oper (.xUpfirst), [])
  | .xUpall => (.oper (.xUpall), [])
  | .xOmitfirst k => (.oper (.xOmitfirst k), [])
  | .xOmitlast k => (.oper (.xOmitlast k), [])

/-- The element a word names, numbered as spec/opcode_table.json numbers it. The only rows the
table gives bits of a word are the four context modes (`match`/`mask` over the mode value, R101, R279 to R282), so a
word of one byte is the value of a context-mode symbol and no other width names an operation
(notes/assumptions/16.md). -/
def tableElem (nbits w : Nat) : Option Elem :=
  if nbits = 8 ∧ w < 256 then some (.symbol .contextMode w) else none

/-- The instruction of such a word. -/
def decodeTableWord (nbits w : Nat) : Option Instr :=
  match tableElem nbits w with
  | none => none
  | some e =>
    match decode e [] with
    | .ok (i, _) => some i
    | .error _ => none

/-! The notation of R103 for writing streams. -/

/-- One item of a listing: a field `u(n, v)`, a codeword `c("...")`, `pad`, or whole bytes `raw(...)`. -/
inductive AsmItem where
  | u (n v : Nat)
  | c (bits : List Bool)
  | pad
  | raw (bytes : List Byte)
  deriving DecidableEq, Repr

/-- `simple(A; s1, ..., sn)` (R103). -/
def asmSimple (a : Nat) (symbols : List Nat) : List AsmItem :=
  .u 2 1 :: .u 2 (symbols.length - 1) :: symbols.map (.u (ceilLog2 a))

/-- The stream bits of a listing, given the number of bits already emitted. -/
def asmBits : Nat → List AsmItem → List Bool
  | _, [] => []
  | p, .u n v :: r => bitsLE n v ++ asmBits (p + n) r
  | p, .c bits :: r => bits ++ asmBits (p + bits.length) r
  | p, .pad :: r => List.replicate ((8 - p % 8) % 8) false ++ asmBits (p + (8 - p % 8) % 8) r
  | p, .raw bytes :: r => streamBits bytes ++ asmBits (p + 8 * bytes.length) r

/-- Bits packed eight at a time, the first into bit 0, the last byte filled with zeros (R103). -/
def packBits : Nat → List Bool → List Byte
  | 0, _ => []
  | _, [] => []
  | fuel + 1, bs => BitVec.ofNat 8 (natOfBits (bs.take 8)) :: packBits fuel (bs.drop 8)

/-- The byte sequence of a listing (R103). -/
def assemble (listing : List AsmItem) : List Byte :=
  packBits (asmBits 0 listing).length (asmBits 0 listing)

end Sys2Proof
end

