-- ==== Sys2Proof/Machine/State.lean ====
section
/-! DEFINITION. The state of the block (spec/10_state.md), its results (spec/60_exceptions.md), the reasons a step
can stop, and the state after reset. Fields follow the order of 10_state.md; INVENTORY.md lists each with its rule
and reset value. -/

namespace Sys2Proof.Machine

/-- A byte-addressed space as a list of (address, byte) cells: addresses strictly rising, no cell holding the byte
an unlisted address reads as, which is 0 (notes/assumptions/6.md). Which addresses exist is said beside it: a length
register or port (R60 to R63). -/
abbrev Mem := List Host.Cell

/-- The causes of `Invalid`, I1 to I18 (R341). -/
inductive Cause where
  | nonZeroPadding
  | wbits9
  | moreNibbles
  | reservedBit
  | moreBytes
  | symbolOutOfRange
  | clcOverSubscribed
  | clcIncomplete
  | tooManySymbols
  | codeNotComplete
  | rlemaxTooWide
  | cmapRunPastEnd
  | mlenExceededByInsert
  | mlenExceededByCopy
  | mlenExceededByWord
  | dictLength
  | dictTransform
  | distanceNotPositive
  deriving DecidableEq, Repr

/-- The five result kinds (R340). The result register holds `none` before termination. -/
inductive Result where
  | ok
  | outOfMemory
  | prematureEof
  | invalid (c : Cause)
  | compareMismatch
  deriving DecidableEq, Repr

/-- The control-state register's nine values (R23). -/
inductive Ctl where
  | stream | mbStart | mbHdr | cmd | lit | copy | mbEnd | fin | done
  deriving DecidableEq, Repr

/-- The contents of the ROM parameters that whoever builds the block has made known to the model: cells of `DICT`,
and entries of `XFORMS`, `LUT0`, `LUT1`, `LUT2`, by address or index. Every entry not listed is the free constant of
`Config` (notes/assumptions/4.md). Nothing in the machine writes it (R63, R64, R383). -/
structure RomImage where
  dict : List (Nat × Byte)
  xforms : List (Nat × Xform)
  lut0 : List (Nat × BitVec 6)
  lut1 : List (Nat × BitVec 6)
  lut2 : List (Nat × BitVec 3)
  deriving DecidableEq, Repr

/-- The host's side of the interface and the parameters of a run (R7, R39, R383, R386): constants of a run. -/
structure Ports where
  /-- `IN`, addresses `0..inLen-1` (R60) -/
  input : Mem
  /-- `IN_LEN` -/
  inLen : Nat
  /-- `COMPARE` -/
  compareMode : Bool
  /-- `EXP`, addresses `0..expectedLen-1` (R62) -/
  expected : Mem
  /-- `HAVE` -/
  expectedLen : Nat
  /-- `OUT_CAP`; `none` is unbounded -/
  outCap : Option Nat
  /-- `CHECK_MSKIP_TOP` (D11) -/
  checkMskipTop : Bool
  /-- `UPPER_4BYTE` (D25) -/
  upper4 : Upper4
  rom : RomImage
  deriving DecidableEq, Repr

/-- The input cursor (R21); the program counter is a function of it (R22). -/
structure Reader where
  /-- `in_next`: index in `IN` of the next byte not yet fetched -/
  inNext : Nat
  /-- `resid`: the bits fetched and not yet consumed -/
  resid : Byte
  /-- `left`: how many bits of `resid` are valid -/
  left : Nat
  deriving DecidableEq, Repr

/-- Block-switching state of one category (R29). -/
structure Block where
  /-- `num[c]` -/
  num : Nat
  /-- `cur[c]` -/
  cur : Nat
  /-- `prev[c]` -/
  prev : Nat
  /-- `cnt[c]`; `none` is the symbol `INF` (R237) -/
  cnt : Option Nat
  /-- `tcode[c]`; exists only when `num[c] > 1` (R29) -/
  tcode : Option Table
  /-- `lcode[c]`; exists only when `num[c] > 1` (R29) -/
  lcode : Option Table
  deriving DecidableEq, Repr

/-- The local state of one complex descriptor (R35 item 2, R155). -/
structure Desc where
  /-- `cl[0..17]`: the code-length-code lengths -/
  cl : List Nat
  /-- the order position `i` of R157 that is read next -/
  pos : Nat
  /-- the 5-bit Kraft remainder `space` -/
  space : Int
  /-- `nz`: how many of `cl` are not 0 -/
  nz : Nat
  /-- the code-length code built from `cl` -/
  clc : Table
  /-- the size `A` of the alphabet whose lengths are read -/
  alphabet : Nat
  /-- `lens[0..n-1]`; its length is the fill count `n` -/
  lens : List Nat
  lastLen : Nat
  /-- running total of the current repeat run -/
  rep : Nat
  /-- running total of the current zero run -/
  zer : Nat
  /-- the 15-bit Kraft remainder `room` -/
  room : Int
  deriving DecidableEq, Repr

/-- The local state while a context map is read (R35 item 3, R271, R276). -/
structure MapRegs where
  /-- the map length `len` -/
  len : Nat
  rlemax : Nat
  /-- the map's own prefix code -/
  code : Table
  /-- the entries written so far; its length is the fill index `i` -/
  map : List Nat
  /-- the move-to-front list `mtf[0..255]` -/
  mtf : List Nat
  deriving DecidableEq, Repr

/-- Where an operation invoked on its own leaves the value its rule returns (notes/assumptions/14.md). -/
structure Latches where
  /-- an unsigned result: a field, a symbol, a count, a context -/
  val : Nat
  /-- the signed result of `DISTVAL` and its forms, before `DIST` takes it -/
  sval : Int
  /-- a prefix-code table: the result of `BUILD`, `READ_CODE` and its forms -/
  tbl : Table
  /-- a context map: the result of `CMAP` and `IMTF` -/
  map : List Nat
  /-- the word `w` of R314 that the transforms work on -/
  word : List Byte
  /-- `ins_len`, the first result of `IACSPLIT` -/
  insLen : Nat
  deriving DecidableEq, Repr

/-- The state of the machine. -/
structure State where
  ports : Ports
  /-- R21 -/
  rd : Reader
  /-- R23 -/
  ctl : Ctl
  /-- the operations of the current control state still to be fetched, in order (notes/assumptions/1.md) -/
  todo : List Elem
  /-- R24 -/
  wbits : Nat
  /-- R25 -/
  got : Nat
  /-- R25, R34: the register `compare`, set at start from `COMPARE` -/
  compare : Bool
  /-- R25: the register `have`, set at start from `HAVE` -/
  haveLen : Nat
  /-- `OUT`, addresses `0..got-1` (R61) -/
  out : Mem
  /-- R26, R34 -/
  last : Bool
  /-- R26: bytes of the meta-block still to be produced -/
  mlen : Nat
  /-- R26: literals of the command still to insert -/
  insLeft : Nat
  /-- R27 -/
  ring : Vector Nat 4
  /-- R27 -/
  ringPtr : Fin 4
  /-- R28: `postfix` -/
  npostfix : Nat
  /-- R28 -/
  direct : Nat
  /-- R29, category L -/
  blkL : Block
  /-- R29, category I -/
  blkI : Block
  /-- R29, category D -/
  blkD : Block
  /-- R30: `mode[t]` -/
  modes : List CtxMode
  /-- R30 -/
  litCodes : Nat
  /-- R30 -/
  distCodes : Nat
  /-- R30 -/
  litMap : List Nat
  /-- R30 -/
  distMap : List Nat
  /-- R31 -/
  litBank : List Table
  /-- R31 -/
  iacBank : List Table
  /-- R31 -/
  distBank : List Table
  /-- R33 -/
  iacSym : Nat
  /-- R33 -/
  copyLen : Nat
  /-- R33 -/
  dsym : Nat
  /-- R33 -/
  dist : Int
  /-- R35 item 2 -/
  desc : Desc
  /-- R35 item 3 -/
  cmr : MapRegs
  /-- R40; `none` before termination -/
  result : Option Result
  /-- R40 -/
  consumed : Nat
  lat : Latches
  deriving DecidableEq, Repr

/-- Why a step stops with a fault. None of them is a result of the hardware (those are `Result`, taken as a next
state); all are safe: no claim about a next state can rest on one. -/
inductive Fault where
  /-- Raised by `step` in control state `C_DONE`, from which no step exists (R23, R385). Safe. -/
  | runEnded
  /-- Raised by `BSWITCH` where `tcode[c]` or `lcode[c]` does not exist although a switch is due (R29, U10); no run
  reaches it. Safe. -/
  | absentTable
  /-- Raised by a read outside an array: a `symbol[i]`, `mode[t]`, map, bank or `mtf` entry that does not exist (R30 to
  R32, R38, U10); no run reaches it. Safe. -/
  | absentEntry
  deriving DecidableEq, Repr

/-- Why a step gives an operation no meaning. All are safe: the model proves nothing about what follows. -/
inductive Refusal where
  /-- Raised by an arm of `exec` whose instruction has no meaning yet. Safe. -/
  | notModelled (mnemonic : String)
  /-- Raised by `BITS(n)` with `n > 25` (R120, U1). Safe. -/
  | bitsTooWide
  /-- Raised by `SIMPLE`, and by the fetch of a simple descriptor's row, when it names a symbol twice (R149,
  `DUP_SIMPLE`, U5). Safe. -/
  | dupSimple
  /-- Raised by `SYM` when no codeword matches within 15 bits (R144, R145); no valid table reaches it. Safe. -/
  | codeRanOff
  /-- Raised by an operation invoked outside the precondition its rule states (notes/assumptions/13.md). Safe. -/
  | outsidePrecondition
  /-- Raised by the fetch when the element selects no row: a symbol outside its alphabet, an operand outside its
  range; the sequencer puts no such element forward. Safe. -/
  | undecodable (e : DecodeError)
  deriving DecidableEq, Repr

/-- The ports before a host has driven them: no input, normal mode, unbounded output, the parameters at the defaults
of R7, nothing known of the ROMs (notes/assumptions/3.md, 10.md). -/
def Ports.idle : Ports where
  input := []
  inLen := 0
  compareMode := false
  expected := []
  expectedLen := 0
  outCap := none
  checkMskipTop := false
  upper4 := .final
  rom := { dict := [], xforms := [], lut0 := [], lut1 := [], lut2 := [] }

/-- One block type, never switching: the least value of each range of R29 (notes/assumptions/2.md). -/
def Block.initial : Block := { num := 1, cur := 0, prev := 0, cnt := none, tcode := none, lcode := none }

/-- The descriptor registers at the start of a descriptor over `a` symbols (R155, R157, R159). -/
def Desc.start (a hskip : Nat) : Desc where
  cl := List.replicate 18 0
  pos := hskip
  space := 32
  nz := 0
  clc := .initial
  alphabet := a
  lens := []
  lastLen := 8
  rep := 0
  zer := 0
  room := 32768

/-- The map registers at the start of a map of `len` entries (R271); the list is as R276 starts it. -/
def MapRegs.start (len rlemax : Nat) (code : Table) : MapRegs :=
  { len, rlemax, code, map := [], mtf := List.range 256 }

/-- The state a `start` leaves with the given ports (R37, R380): the ring and its pointer, the cursor, `got`, `OUT`,
`ctl` and `result` as the spec gives them, `compare` and `have` from the host, every other register at the value
notes/assumptions/2.md names. -/
def State.started (p : Ports) : State where
  ports := p
  rd := { inNext := 0, resid := 0, left := 0 }
  ctl := .stream
  todo := []
  wbits := 10
  got := 0
  compare := p.compareMode
  haveLen := p.expectedLen
  out := []
  last := false
  mlen := 0
  insLeft := 0
  ring := #v[16, 15, 11, 4]
  ringPtr := 3
  npostfix := 0
  direct := 0
  blkL := .initial
  blkI := .initial
  blkD := .initial
  modes := [.lsb6]
  litCodes := 1
  distCodes := 1
  litMap := List.replicate 64 0
  distMap := List.replicate 4 0
  litBank := [.initial]
  iacBank := [.initial]
  distBank := [.initial]
  iacSym := 0
  copyLen := 2
  dsym := 0
  dist := 0
  desc := .start 2 0
  cmr := .start 0 0 .initial
  result := none
  consumed := 0
  lat := { val := 0, sval := 0, tbl := .initial, map := [], word := [], insLen := 0 }

/-- The machine right after reset (R37, R380), before a host has placed a stream (notes/assumptions/3.md). -/
def State.reset : State := State.started .idle

/-- What the host can observe (R346): a field is absent where the table of that rule defines no value. -/
structure Observation where
  result : Result
  output : Option (List Byte)
  got : Option Nat
  consumed : Option Nat
  deriving DecidableEq, Repr

end Sys2Proof.Machine
end

