-- ==== Sys2Proof/Machine/Operands.lean ====
section
/-! DEFINITION. Operand assembly: the numeric tables and formulas of spec/30_encoding.md R98, and the reads of the
constant ROMs (spec/20_memory.md R63, R64). Everything here is a function of its arguments; the operations that read
stream bits are in Ops.lean and the family files. -/

namespace Sys2Proof.Machine

/-! Derived registers. -/

/-- `wsize = (1 << wbits) - 16` (R24). -/
def State.wsize (s : State) : Nat := (1 <<< s.wbits) - 16

/-- `dalpha = 16 + direct + (48 << postfix)` (R28). -/
def State.dalpha (s : State) : Nat := 16 + s.direct + (48 <<< s.npostfix)

/-- The stream bit position `pos = 8 * in_next - left` (R22). -/
def State.pos (s : State) : Nat := 8 * s.rd.inNext - s.rd.left

/-- How many stream bits a request can still be given: the residual and the bytes not yet fetched (R120). -/
def State.bitsLeft (s : State) : Nat := s.rd.left + 8 * (s.ports.inLen - s.rd.inNext)

/-- `max = min(got, wsize)`, the effective window upper bound (R12, R71). -/
def State.window (s : State) : Nat := min s.got s.wsize

/-! Block lengths (R231). -/

/-- `BLEN_BASE[0..25]`. -/
def blenBase : List Nat :=
  [1, 5, 9, 13, 17, 25, 33, 41, 49, 65, 81, 97, 113] ++
  [145, 177, 209, 241, 305, 369, 497, 753, 1265, 2289, 4337, 8433, 16625]

/-- `BLEN_EXTRA[0..25]`. -/
def blenExtra : List Nat :=
  [2, 2, 2, 2, 3, 3, 3, 3, 4, 4, 4, 4, 5] ++ [5, 5, 5, 6, 6, 7, 8, 9, 10, 11, 12, 13, 24]

/-! Insert and copy lengths (R250 to R252). -/

/-- `INSERT_MAP[0..10]`. -/
def insertMap : List Nat := [0, 0, 0, 0, 8, 8, 0, 16, 8, 16, 16]

/-- `COPY_MAP[0..10]`. -/
def copyMap : List Nat := [0, 8, 0, 8, 0, 8, 16, 0, 16, 8, 16]

/-- `INS_BASE[0..23]`. -/
def insBase : List Nat :=
  [0, 1, 2, 3, 4, 5, 6, 8, 10, 14, 18, 26] ++ [34, 50, 66, 98, 130, 194, 322, 578, 1090, 2114, 6210, 22594]

/-- `INS_EXTRA[0..23]`. -/
def insExtra : List Nat := [0, 0, 0, 0, 0, 0, 1, 1, 2, 2, 3, 3] ++ [4, 4, 5, 5, 6, 7, 8, 9, 10, 12, 14, 24]

/-- `CPY_BASE[0..23]`. -/
def cpyBase : List Nat :=
  [2, 3, 4, 5, 6, 7, 8, 9, 10, 12, 14, 18] ++ [22, 30, 38, 54, 70, 102, 134, 198, 326, 582, 1094, 2118]

/-- `CPY_EXTRA[0..23]`. -/
def cpyExtra : List Nat := [0, 0, 0, 0, 0, 0, 0, 0, 1, 1, 2, 2] ++ [3, 3, 4, 4, 5, 5, 6, 7, 8, 9, 10, 24]

/-- The insert code `i` of a symbol (R250); a symbol above 703 has map entry 0 (DESIGN CHOICE, notes/assumptions/41.md). -/
def insertCode (sym : Nat) : Nat := insertMap.getD (sym >>> 6) 0 + ((sym >>> 3) &&& 7)

/-- The copy code `j` of a symbol (R250); a symbol above 703 has map entry 0 (DESIGN CHOICE, notes/assumptions/41.md). -/
def copyCode (sym : Nat) : Nat := copyMap.getD (sym >>> 6) 0 + (sym &&& 7)

/-! Distances (R291, R294, R295). -/

/-- `BACK[0..15]`, as steps of the two-bit ring pointer. -/
def back : List (Fin 4) := [0, 1, 2, 3, 0, 0, 0, 0, 0, 0, 1, 1, 1, 1, 1, 1]

/-- `DELTA[0..15]`, the one signed table of the hardware (R98). -/
def delta : List Int := [0, 0, 0, 0, -1, 1, -2, 2, -3, 3, -1, 1, -2, 2, -3, 3]

/-- `ring[(ring_ptr - back) & 3] + delta` (R291): the pointer subtraction is modulo 4. -/
def State.ringValue (s : State) (bk : Fin 4) (dl : Int) : Int := (s.ring[s.ringPtr - bk] : Int) + dl

/-- The number `x` of extra bits of a long distance symbol (R295). -/
def longExtra (npostfix direct sym : Nat) : Nat := 1 + ((sym - direct - 16) >>> (npostfix + 1))

/-- The long distance of a symbol and its extra bits `e` (R295; `off` is read as the shifted value less 4, C2). -/
def longDistance (npostfix direct sym e : Nat) : Nat :=
  let n := sym - direct - 16
  let x := longExtra npostfix direct sym
  let off := ((2 + ((n >>> npostfix) &&& 1)) <<< x) - 4
  ((off + e) <<< npostfix) + (n &&& ((1 <<< npostfix) - 1)) + direct + 1

/-! Context-map and code-length run counts (R161, R162, R273). -/

/-- The new running total of a repeat run with extra bits `e` (R161). -/
def repTotal (rep e : Nat) : Nat := (if rep ≠ 0 then (rep - 2) <<< 2 else 0) + 3 + e

/-- The new running total of a zero run with extra bits `e` (R162). -/
def zeroTotal (zer e : Nat) : Nat := (if zer ≠ 0 then (zer - 2) <<< 3 else 0) + 3 + e

/-- `CLCL_ORDER[0..17]` (R157). -/
def clclOrder : List Nat := [1, 2, 3, 4, 0, 5, 17, 6, 16, 7, 8, 9, 10, 11, 12, 13, 14, 15]

/-! Prefix-code tables (R32, R142). -/

/-- The sixteen counts, given the first four; the rest are 0. -/
def counts4 (c0 c1 c2 c3 : Nat) : List Nat := [c0, c1, c2, c3] ++ List.replicate 12 0

/-- The symbols whose length is `len`, ascending (R142). -/
def symbolsOfLength (lengths : List Nat) (len : Nat) : List Nat :=
  lengths.zipIdx.filterMap fun p => if p.1 = len then some p.2 else none

/-- `BUILD(lengths)` (R142): how many symbols have each length, zero lengths not counted, and the symbols sorted by
(length, symbol). -/
def buildTable (lengths : List Nat) : Table where
  count := (List.range 16).map fun len => if len = 0 then 0 else lengths.count len
  symbol := (List.range' 1 15).flatMap (symbolsOfLength lengths)

/-- The single-symbol table (R141 (a), R150). -/
def singleTable (v : Nat) : Table := { count := counts4 1 0 0 0, symbol := [v] }

/-- The fixed code of stage 1 (R156): lengths `{2, 4, 3, 2, 2, 4}` for the values 0..5. -/
def fixedCode : Table := buildTable [2, 4, 3, 2, 2, 4]

/-- Insert a number into an ascending list. -/
def insertAsc (a : Nat) : List Nat → List Nat
  | [] => [a]
  | b :: l => if a ≤ b then a :: b :: l else b :: insertAsc a l

/-- A list in ascending order (R151, R153: "sorting equal-length symbols"). -/
def sortAsc (l : List Nat) : List Nat := l.foldr insertAsc []

/-- The table of `SIMPLE.2` (R151). -/
def simple2Table (s1 s2 : Nat) : Table := { count := counts4 0 2 0 0, symbol := sortAsc [s1, s2] }

/-- The table of `SIMPLE.3` (R152). -/
def simple3Table (s1 s2 s3 : Nat) : Table := { count := counts4 0 1 2 0, symbol := s1 :: sortAsc [s2, s3] }

/-- The table of `SIMPLE.4A` (R153). -/
def simple4aTable (s1 s2 s3 s4 : Nat) : Table := { count := counts4 0 0 4 0, symbol := sortAsc [s1, s2, s3, s4] }

/-- The table of `SIMPLE.4B` (R154). -/
def simple4bTable (s1 s2 s3 s4 : Nat) : Table := { count := counts4 0 1 1 2, symbol := s1 :: s2 :: sortAsc [s3, s4] }

/-! The dictionary (R310 to R313) and the constant ROMs (R63, R64). -/

/-- `NDBITS[4..24]`, from length 4 on. -/
def ndbitsFrom4 : List Nat := [10, 10, 11, 11, 10, 10, 10, 10, 10, 9, 9, 8, 7, 7, 8, 7, 7, 6, 6, 5, 5]

/-- `NDBITS[L]`. -/
def ndbits (len : Nat) : Nat := ndbitsFrom4.getD (len - 4) 0

/-- `DOFFSET[4..24]`, from length 4 on. -/
def doffsetFrom4 : List Nat :=
  [0, 4096, 9216, 21504, 35840, 44032, 53248, 63488, 74752, 87040, 93696] ++
  [100864, 104704, 106752, 108928, 113536, 115968, 118528, 119872, 121280, 122016]

/-- `DOFFSET[L]`. -/
def doffset (len : Nat) : Nat := doffsetFrom4.getD (len - 4) 0

/-- `index = id & ((1 << NDBITS[L]) - 1)` (R311). -/
def dictIndex (id len : Nat) : Nat := id &&& ((1 <<< ndbits len) - 1)

/-- `xform = id >> NDBITS[L]` (R311). -/
def dictXform (id len : Nat) : Nat := id >>> ndbits len

/-- The entry of a ROM image at an index, if whoever built the block has made it known. -/
def romEntry {α : Type} : List (Nat × α) → Nat → Option α
  | [], _ => none
  | (b, v) :: l, a => if a = b then some v else romEntry l a

/-- `DICT[a]` (R63). -/
def State.dictByte (s : State) (a : Nat) : Byte := (romEntry s.ports.rom.dict a).getD (Config.dictByte a)

/-- The word of length `len` and index `index`: `len` bytes from `DOFFSET[len] + index * len` (R312). -/
def State.dictWord (s : State) (len index : Nat) : List Byte :=
  (List.range len).map fun i => s.dictByte (doffset len + index * len + i)

/-- `XFORMS[i]` (R321, R322): entry 0 is the identity; the prefix of any other is at most 5 bytes and its suffix at
most 8 (notes/assumptions/5.md). -/
def State.xformAt (s : State) (i : Nat) : Xform :=
  if i = 0 then .identity
  else
    let x := (romEntry s.ports.rom.xforms i).getD (Config.xform i)
    { x with pre := x.pre.take 5, suf := x.suf.take 8 }

/-- `LUT0[x]` (R281, R283). -/
def State.lut0 (s : State) (x : Byte) : Nat := ((romEntry s.ports.rom.lut0 x.toNat).getD (Config.lut0 x)).toNat

/-- `LUT1[x]` (R281, R283). -/
def State.lut1 (s : State) (x : Byte) : Nat := ((romEntry s.ports.rom.lut1 x.toNat).getD (Config.lut1 x)).toNat

/-- `LUT2[x]` (R282, R283). -/
def State.lut2 (s : State) (x : Byte) : Nat := ((romEntry s.ports.rom.lut2 x.toNat).getD (Config.lut2 x)).toNat

/-- Write an array entry; an array that is shorter grows with `pad` (notes/assumptions/38.md). -/
def putEntry {α : Type} (pad : α) (l : List α) (i : Nat) (v : α) : List α :=
  if i < l.length then l.set i v else l ++ List.replicate (i - l.length) pad ++ [v]

/-- The block-switching state of a category (R29). -/
def State.blk (s : State) : Cat → Block
  | .L => s.blkL
  | .I => s.blkI
  | .D => s.blkD

/-- Replace the block-switching state of a category. -/
def State.setBlk (s : State) (c : Cat) (b : Block) : State :=
  match c with
  | .L => { s with blkL := b }
  | .I => { s with blkI := b }
  | .D => { s with blkD := b }

end Sys2Proof.Machine
end

