-- ==== Sys2Proof/Machine/Flags.lean ====
section
/-! DEFINITION. The conditions that steer the block (spec/10_state.md R34). There are no arithmetic condition codes:
`last`, `compare` and `result` are stored (Machine/State.lean); the others are functions of the state, here. -/

namespace Sys2Proof.Machine

/-- The implicit-distance condition of the current command: a function of its symbol, not a stored bit (R34, R253). -/
def implicitDistance (iacSym : Nat) : Bool := decide (iacSym < 128)

/-- The `done` level of the host interface (R386). -/
def State.isDone (s : State) : Bool := decide (s.ctl = .done)

/-- Whether the meta-block of `mlen` more bytes fits: the capacity condition of R186 (D15 in compare mode, D16 in
normal mode). -/
def State.fits (s : State) (mlen : Nat) : Bool :=
  if s.compare then decide (s.got + mlen ≤ s.haveLen)
  else match s.ports.outCap with
    | none => true
    | some cap => decide (s.got + mlen ≤ cap)

/-- The detail string of each cause of `Invalid` (R341). -/
def Cause.detail : Cause → String
  | .nonZeroPadding => "non-zero padding"
  | .wbits9 => "wbits 9"
  | .moreNibbles => "more nibbles than needed"
  | .reservedBit => "reserved bit set"
  | .moreBytes => "more bytes than needed"
  | .symbolOutOfRange => "symbol out of range"
  | .clcOverSubscribed => "code-length code over-subscribed"
  | .clcIncomplete => "code-length code incomplete"
  | .tooManySymbols => "too many symbols"
  | .codeNotComplete => "code not complete"
  | .rlemaxTooWide => "rlemax too wide"
  | .cmapRunPastEnd => "context map run past end"
  | .mlenExceededByInsert => "mlen exceeded by insert length"
  | .mlenExceededByCopy => "mlen exceeded by copy length"
  | .mlenExceededByWord => "mlen exceeded by dictionary word"
  | .dictLength => "dictionary length out of range"
  | .dictTransform => "dictionary transform out of range"
  | .distanceNotPositive => "distance not positive"

/-- The result codes 0..4 (R340, D6). -/
def Result.code : Result → Nat
  | .ok => 0
  | .outOfMemory => 1
  | .prematureEof => 2
  | .invalid _ => 3
  | .compareMismatch => 4

/-- The cause numbers 1..18 of I1 to I18 (R341, D6). -/
def Cause.number : Cause → Nat
  | .nonZeroPadding => 1
  | .wbits9 => 2
  | .moreNibbles => 3
  | .reservedBit => 4
  | .moreBytes => 5
  | .symbolOutOfRange => 6
  | .clcOverSubscribed => 7
  | .clcIncomplete => 8
  | .tooManySymbols => 9
  | .codeNotComplete => 10
  | .rlemaxTooWide => 11
  | .cmapRunPastEnd => 12
  | .mlenExceededByInsert => 13
  | .mlenExceededByCopy => 14
  | .mlenExceededByWord => 15
  | .dictLength => 16
  | .dictTransform => 17
  | .distanceNotPositive => 18

end Sys2Proof.Machine
end

