-- ==== Sys2Proof/Machine/Ops.lean ====
section
/-! DEFINITION. The shared operations: byte memory, raising a result, the bit reader (spec/40_bit_reader.md), the
output primitive (spec/20_memory.md R66). An operation is a function of the state that answers a value and a new
state, or stops; the family files write the spec's pseudocode with them, line by line. -/

namespace Sys2Proof.Machine

/-! Memory. -/

/-- The byte at an address of a space (the address is known to exist). -/
def Mem.get : Mem → Nat → Byte
  | [], _ => 0
  | (b, v) :: m, a => if a = b then v else Mem.get m a

/-- Write a byte, keeping the canonical form. -/
def Mem.put : Mem → Nat → Byte → Mem
  | [], a, v => if v = 0 then [] else [(a, v)]
  | (b, w) :: m, a, v =>
    if a < b then (if v = 0 then (b, w) :: m else (a, v) :: (b, w) :: m)
    else if a = b then (if v = 0 then m else (a, v) :: m)
    else (b, w) :: Mem.put m a v

/-- Every address of the list is at least `lo`, the addresses rise strictly, and no byte is 0. -/
def Mem.wfFrom : Nat → Mem → Bool
  | _, [] => true
  | lo, (b, v) :: m => decide (lo ≤ b) && decide (v ≠ 0) && Mem.wfFrom (b + 1) m

/-- The canonical form of a memory: equal spaces are equal lists. -/
def Mem.wf (m : Mem) : Bool := Mem.wfFrom 0 m

/-- A space holding the given bytes from address `a` on. -/
def Mem.ofBytes : Nat → List Byte → Mem
  | _, [] => []
  | a, v :: l => if v = 0 then Mem.ofBytes (a + 1) l else (a, v) :: Mem.ofBytes (a + 1) l

/-- The `n` bytes from address `a` on. -/
def Mem.bytes (m : Mem) (a n : Nat) : List Byte := (List.range n).map fun i => m.get (a + i)

/-! Operations and how they stop. -/

/-- How an operation stops: with a result of the hardware latched (`raised`), or without a meaning. -/
inductive Stop where
  | raised (s : State)
  | fault (f : Fault)
  | refused (r : Refusal)

/-- An operation that answers an `α`. -/
abbrev M (α : Type) := StateT State (Except Stop) α

/-- Taking a fault, the one shared operation (R344): `result <- K`, `ctl <- C_DONE`. Nothing is saved, because there is
no handler, and no later operation executes. -/
def State.takeFault (s : State) (k : Result) : State := { s with result := some k, ctl := .done, todo := [] }

/-- `start` (R380, R386): the one way out of `C_DONE`. There is no return from a fault (R349); a start re-initialises
every element from the host's ports, also in the middle of a run (U17). -/
def State.start (s : State) : State := State.started s.ports

/-- `raise K` (R9, R344). -/
def raise {α : Type} (k : Result) : M α := fun s => .error (.raised (s.takeFault k))

/-- Stop with a fault of the model. -/
def stopFault {α : Type} (f : Fault) : M α := fun _ => .error (.fault f)

/-- Give no meaning. -/
def refuse {α : Type} (r : Refusal) : M α := fun _ => .error (.refused r)

/-- `if not c then raise K`. -/
def require (c : Prop) [Decidable c] (k : Result) : M Unit := if c then pure () else raise k

/-- The precondition a rule states. -/
def precondition (c : Prop) [Decidable c] : M Unit := if c then pure () else refuse .outsidePrecondition

/-- An array entry that has been written. -/
def entry {α : Type} (l : List α) (i : Nat) : M α :=
  match l[i]? with
  | some a => pure a
  | none => stopFault .absentEntry

/-- An operation as one step of the machine: its value is kept by `keep`; a raised result is a next state. -/
def complete {α : Type} (op : M α) (keep : α → State → State) (s : State) : Host.Outcome State Fault Refusal :=
  match op s with
  | .ok (a, s') => .next (keep a s')
  | .error (.raised s') => .next s'
  | .error (.fault f) => .fault f
  | .error (.refused r) => .refused r

/-- An operation whose rule returns no value. -/
def keepNone {α : Type} (_ : α) (s : State) : State := s

/-- An operation whose rule returns an unsigned value. -/
def keepVal (v : Nat) (s : State) : State := { s with lat := { s.lat with val := v } }

/-- An operation whose rule returns a signed value. -/
def keepSval (v : Int) (s : State) : State := { s with lat := { s.lat with sval := v } }

/-- An operation whose rule returns a table. -/
def keepTable (t : Table) (s : State) : State := { s with lat := { s.lat with tbl := t } }

/-- An operation whose rule returns a context map. -/
def keepMap (m : List Nat) (s : State) : State := { s with lat := { s.lat with map := m } }

/-- An operation whose rule returns a word. -/
def keepWord (w : List Byte) (s : State) : State := { s with lat := { s.lat with word := w } }

/-- An operation whose rule returns an insert length. -/
def keepInsLen (n : Nat) (s : State) : State := { s with lat := { s.lat with insLen := n } }

/-! The bit reader. -/

/-- Fetch the byte at `in_next` (R60, R120). -/
def fetchByte : M Byte := do
  let s ← get
  require (s.rd.inNext < s.ports.inLen) .prematureEof
  modify fun s => { s with rd := { s.rd with inNext := s.rd.inNext + 1 } }
  pure (s.ports.input.get s.rd.inNext)

/-- The loop of R120: fetch bytes until `have_bits >= n`. Each turn adds 8 bits, so `n` turns are more than enough. -/
def refill (n : Nat) : Nat → Nat → Nat → M (Nat × Nat)
  | 0, val, haveBits => pure (val, haveBits)
  | fuel + 1, val, haveBits =>
    if haveBits < n then do
      let b ← fetchByte
      refill n fuel (val ||| (b.toNat <<< haveBits)) (haveBits + 8)
    else pure (val, haveBits)

/-- `BITS(n)` (R120). -/
def bits (n : Nat) : M Nat :=
  if 25 < n then refuse .bitsTooWide
  else do
    let s ← get
    let r ← refill n n s.rd.resid.toNat s.rd.left
    modify fun s => { s with rd := { s.rd with resid := BitVec.ofNat 8 (r.1 >>> n), left := r.2 - n } }
    pure (r.1 &&& ((1 <<< n) - 1))

/-- `ALIGN()` (R121). -/
def align : M Unit := do
  let s ← get
  require (s.rd.resid = 0) (.invalid .nonZeroPadding)
  modify fun s => { s with rd := { s.rd with left := 0, resid := 0 } }

/-- `RAWBYTE()` (R123), on a byte boundary. -/
def rawbyte : M Byte := do
  let s ← get
  precondition (s.rd.left = 0)
  fetchByte

/-- `SKIP(k)` (R124), on a byte boundary. -/
def skip (k : Nat) : M Unit := do
  let s ← get
  precondition (s.rd.left = 0)
  require (k ≤ s.ports.inLen - s.rd.inNext) .prematureEof
  modify fun s => { s with rd := { s.rd with inNext := s.rd.inNext + k } }

/-- Consume `k` stream bits whose values are known: `k` one-bit requests, which the reader does not tell from one
request of `k` bits (R122 (a)). -/
def consume : Nat → M Unit
  | 0 => pure ()
  | k + 1 => do
    let _ ← bits 1
    consume k

/-- Up to `k` stream bits ahead of the position, fewer at the end of the input: what the decoder looks at. -/
def State.lookahead (s : State) (k : Nat) : List Bool :=
  let ahead := s.ports.input.bytes s.rd.inNext (min ((k + 7) / 8) (s.ports.inLen - s.rd.inNext))
  (bitsLE s.rd.left s.rd.resid.toNat ++ streamBits ahead).take k

/-! The output. -/

/-- A byte already produced, at an address below `got`: `OUT[a]`, or `EXP[a]` in compare mode, where the block has no
`OUT` storage and the two are equal (R62). -/
def State.produced (s : State) (a : Nat) : Byte := if s.compare then s.ports.expected.get a else s.out.get a

/-- `EMIT(b)`, the one output primitive (R66). -/
def emit (b : Byte) : M Unit := do
  let s ← get
  if s.compare then do
    require (s.got < s.haveLen ∧ s.ports.expected.get s.got = b) .compareMismatch
    modify fun s => { s with got := s.got + 1 }
  else modify fun s => { s with out := s.out.put s.got b, got := s.got + 1 }

/-- `EMIT` each byte in order. -/
def emitAll : List Byte → M Unit
  | [] => pure ()
  | b :: l => do
    emit b
    emitAll l

end Sys2Proof.Machine
end

