-- ==== Sys2Proof/Machine/PrefixOps.lean ====
section
/-! DEFINITION. The prefix-code subsystem (spec/41_prefix_code.md). -/

namespace Sys2Proof.Machine

/-! Symbol decode. -/

/-- The loop of R144 over `count[len]`, `count[len+1]`, ...: `c` was doubled by the turn before. -/
def symLoop (symbols : List Nat) : List Nat → Nat → Nat → Nat → M Nat
  | [], _, _, _ => refuse .codeRanOff
  | n :: counts, c, first, index => do
    let b ← bits 1
    if (c ||| b) < first + n then entry symbols (index + ((c ||| b) - first))
    else symLoop symbols counts ((c ||| b) <<< 1) ((first + n) <<< 1) (index + n)

/-- `SYM(code)` (R144). -/
def sym (t : Table) : M Nat :=
  if t.count.getD 0 0 = 1 then entry t.symbol 0
  else symLoop t.symbol ((t.count.drop 1).take 15) 0 0 0

/-! The simple form. -/

/-- The `nsym` symbol fields of R147, each tested as it is read. -/
def readSymbols (a w : Nat) : Nat → M (List Nat)
  | 0 => pure []
  | k + 1 => do
    let v ← bits w
    require (v < a) (.invalid .symbolOutOfRange)
    let r ← readSymbols a w k
    pure (v :: r)

/-- `SIMPLE(A)` (R147); a repeated symbol has no meaning (R149). -/
def simple (a : Nat) : M Table := do
  let n ← bits 2
  let symbols ← readSymbols a (ceilLog2 a) (n + 1)
  if symbols.Nodup then
    match symbols with
    | [s1] => pure (singleTable s1)
    | [s1, s2] => pure (simple2Table s1 s2)
    | [s1, s2, s3] => pure (simple3Table s1 s2 s3)
    | [s1, s2, s3, s4] => do
      let select ← bits 1
      if select = 0 then pure (simple4aTable s1 s2 s3 s4) else pure (simple4bTable s1 s2 s3 s4)
    | _ => refuse .outsidePrecondition
  else refuse .dupSimple

/-! The complex form. Its local state is in the registers `desc` (R35 item 2, R155). -/

/-- One turn of R157 with the value `v` read at the current order position. The loop of R157 ends at position 17, so the
rule gives a row `CLCL.V0` to `CLCL.V5` no effect when it is invoked at a position above; DESIGN CHOICE
(notes/assumptions/40.md): it acts there on symbol 0. -/
def clclStep (v : Nat) : M Unit := do
  modify fun s => { s with desc := { s.desc with
    cl := s.desc.cl.set (clclOrder.getD s.desc.pos 0) v, pos := s.desc.pos + 1 } }
  if v ≠ 0 then do
    modify fun s => { s with desc := { s.desc with
      nz := s.desc.nz + 1, space := s.desc.space - ((32 >>> v : Nat) : Int) } }
    let s ← get
    require (0 ≤ s.desc.space) (.invalid .clcOverSubscribed)
  else pure ()

/-- The loop of R157 over the remaining order positions: it stops when the sum is full. -/
def clclLoop : Nat → M Unit
  | 0 => pure ()
  | k + 1 => do
    let v ← sym fixedCode
    clclStep v
    let s ← get
    if s.desc.space = 0 then pure () else clclLoop k

/-- `CLCL` (R157), from order position `hskip`. -/
def clcl (hskip : Nat) : M Unit := do
  modify fun s => { s with desc := { s.desc with cl := List.replicate 18 0, pos := hskip, space := 32, nz := 0 } }
  clclLoop (18 - hskip)

/-- Building the code-length code (R158). -/
def buildClc : M Unit := do
  let s ← get
  if s.desc.nz = 1 then
    modify fun s => { s with desc := { s.desc with clc := singleTable (s.desc.cl.findIdx (fun l => l ≠ 0)) } }
  else do
    require (s.desc.space = 0) (.invalid .clcIncomplete)
    modify fun s => { s with desc := { s.desc with clc := buildTable s.desc.cl } }

/-- `CL.LEN(s)` (R160), also with `A` lengths already there and for `s > 15` (DESIGN CHOICE, notes/assumptions/41.md). -/
def clLen (v : Nat) : M Unit := do
  modify fun s => { s with desc := { s.desc with lens := s.desc.lens ++ [v], rep := 0, zer := 0 } }
  if v ≠ 0 then
    modify fun s => { s with desc := { s.desc with
      lastLen := v, room := s.desc.room - ((32768 >>> v : Nat) : Int) } }
  else pure ()

/-- `CL.REP` (R161): repeat the last non-zero length. -/
def clRep : M Unit := do
  modify fun s => { s with desc := { s.desc with zer := 0 } }
  let e ← bits 2
  let s ← get
  let total := repTotal s.desc.rep e
  let add := total - s.desc.rep
  modify fun s => { s with desc := { s.desc with rep := total } }
  require (s.desc.lens.length + add ≤ s.desc.alphabet) (.invalid .tooManySymbols)
  modify fun s => { s with desc := { s.desc with
    lens := s.desc.lens ++ List.replicate add s.desc.lastLen,
    room := s.desc.room - (add : Int) * ((32768 >>> s.desc.lastLen : Nat) : Int) } }

/-- `CL.ZERO` (R162): a run of zero lengths. -/
def clZero : M Unit := do
  modify fun s => { s with desc := { s.desc with rep := 0 } }
  let e ← bits 3
  let s ← get
  let total := zeroTotal s.desc.zer e
  let add := total - s.desc.zer
  modify fun s => { s with desc := { s.desc with zer := total } }
  require (s.desc.lens.length + add ≤ s.desc.alphabet) (.invalid .tooManySymbols)
  modify fun s => { s with desc := { s.desc with lens := s.desc.lens ++ List.replicate add 0 } }

/-- The arm of R159 a code-length symbol selects; one above 17 acts as `CL.ZERO` (DESIGN CHOICE, notes/assumptions/41.md). -/
def clSymbol (v : Nat) : M Unit := if v < 16 then clLen v else if v = 16 then clRep else clZero

/-- The loop of R159. Each turn sets at least one length, so `A` turns are enough. -/
def stage2 : Nat → M Unit
  | 0 => pure ()
  | fuel + 1 => do
    let s ← get
    if s.desc.lens.length < s.desc.alphabet ∧ 0 < s.desc.room then do
      let v ← sym s.desc.clc
      clSymbol v
      stage2 fuel
    else pure ()

/-- Stage 3 (R164). -/
def stage3 : M Table := do
  let s ← get
  require (s.desc.room = 0) (.invalid .codeNotComplete)
  pure (buildTable (s.desc.lens ++ List.replicate (s.desc.alphabet - s.desc.lens.length) 0))

/-- `COMPLEX(A, hskip)` (R155 to R164). -/
def complex (a hskip : Nat) : M Table := do
  modify fun s => { s with desc := .start a hskip }
  clcl hskip
  buildClc
  stage2 a
  stage3

/-- `READ_CODE(A)` (R146). -/
def readCode (a : Nat) : M Table := do
  let hskip ← bits 2
  if hskip = 1 then simple a else complex a hskip

/-! The instructions. -/

/-- `BUILD(lengths)` (R142). -/
def execBuild (lengths : List Nat) (s : State) : Host.Outcome State Fault Refusal :=
  complete (pure (buildTable lengths)) keepTable s

/-- `SYM(code)` (R144). -/
def execSym (code : Table) (s : State) : Host.Outcome State Fault Refusal := complete (sym code) keepVal s

/-- `READ_CODE(A)` (R146). -/
def execReadCode (a : Nat) (s : State) : Host.Outcome State Fault Refusal := complete (readCode a) keepTable s

/-- `SIMPLE(A)` (R147). -/
def execSimple (a : Nat) (s : State) : Host.Outcome State Fault Refusal := complete (simple a) keepTable s

/-- `SIMPLE.1` (R150): the single-symbol table. -/
def execSimple1 (s1 : Nat) (s : State) : Host.Outcome State Fault Refusal :=
  complete (pure (singleTable s1)) keepTable s

/-- `SIMPLE.2` (R151): lengths 1, 1. -/
def execSimple2 (s1 s2 : Nat) (s : State) : Host.Outcome State Fault Refusal :=
  complete (pure (simple2Table s1 s2)) keepTable s

/-- `SIMPLE.3` (R152): lengths 1, 2, 2. -/
def execSimple3 (s1 s2 s3 : Nat) (s : State) : Host.Outcome State Fault Refusal :=
  complete (pure (simple3Table s1 s2 s3)) keepTable s

/-- `SIMPLE.4A` (R153): lengths 2, 2, 2, 2. -/
def execSimple4a (s1 s2 s3 s4 : Nat) (s : State) : Host.Outcome State Fault Refusal :=
  complete (pure (simple4aTable s1 s2 s3 s4)) keepTable s

/-- `SIMPLE.4B` (R154): lengths 1, 2, 3, 3. -/
def execSimple4b (s1 s2 s3 s4 : Nat) (s : State) : Host.Outcome State Fault Refusal :=
  complete (pure (simple4bTable s1 s2 s3 s4)) keepTable s

/-- `COMPLEX(A, hskip)` (R155). -/
def execComplex (a hskip : Nat) (s : State) : Host.Outcome State Fault Refusal :=
  complete (complex a hskip) keepTable s

/-- `CLCL` (R157). -/
def execClcl (hskip : Nat) (s : State) : Host.Outcome State Fault Refusal := complete (clcl hskip) keepNone s

/-- `CLCL.V0` (R156, R157): the length 0 at the current order position. -/
def execClclV0 (s : State) : Host.Outcome State Fault Refusal := complete (clclStep 0) keepNone s

/-- `CLCL.V1` (R156, R157): the length 1 at the current order position. -/
def execClclV1 (s : State) : Host.Outcome State Fault Refusal := complete (clclStep 1) keepNone s

/-- `CLCL.V2` (R156, R157): the length 2 at the current order position. -/
def execClclV2 (s : State) : Host.Outcome State Fault Refusal := complete (clclStep 2) keepNone s

/-- `CLCL.V3` (R156, R157): the length 3 at the current order position. -/
def execClclV3 (s : State) : Host.Outcome State Fault Refusal := complete (clclStep 3) keepNone s

/-- `CLCL.V4` (R156, R157): the length 4 at the current order position. -/
def execClclV4 (s : State) : Host.Outcome State Fault Refusal := complete (clclStep 4) keepNone s

/-- `CLCL.V5` (R156, R157): the length 5 at the current order position. -/
def execClclV5 (s : State) : Host.Outcome State Fault Refusal := complete (clclStep 5) keepNone s

/-- `CL.LEN(s)` (R160). -/
def execClLen (v : Nat) (s : State) : Host.Outcome State Fault Refusal := complete (clLen v) keepNone s

/-- `CL.REP` (R161). -/
def execClRep (s : State) : Host.Outcome State Fault Refusal := complete clRep keepNone s

/-- `CL.ZERO` (R162). -/
def execClZero (s : State) : Host.Outcome State Fault Refusal := complete clZero keepNone s

end Sys2Proof.Machine
end

