-- ==== Sys2Proof/Machine/ContextOps.lean ====
section
/-! DEFINITION. Context maps, literal contexts and distance contexts (spec/45_context.md). -/

namespace Sys2Proof.Machine

/-! Reading a context map. Its local state is in the registers `cmr` (R35 item 3). -/

/-- The arm of R270 for a first bit of 0: `rlemax = 0`, which the width test always passes. -/
def rlemax0 (len : Nat) : M Nat := do
  require (¬ (1 <<< 0) > len) (.invalid .rlemaxTooWide)
  pure 0

/-- The arm of R270 for a first bit of 1. -/
def rlemaxN (len : Nat) : M Nat := do
  let e ← bits 4
  require (¬ (1 <<< (1 + e)) > len) (.invalid .rlemaxTooWide)
  pure (1 + e)

/-- `RLEMAX(len)` (R270). -/
def rlemax (len : Nat) : M Nat := do
  let b ← bits 1
  if b = 0 then rlemax0 len else rlemaxN len

/-- `CM.ZERO` (R272), also past the end of the map (DESIGN CHOICE, notes/assumptions/41.md). -/
def cmZero : M Unit := modify fun s => { s with cmr := { s.cmr with map := s.cmr.map ++ [0] } }

/-- `CM.RUN(s)` (R273), also for `s` outside `1..rlemax` (DESIGN CHOICE, notes/assumptions/41.md). -/
def cmRun (v : Nat) : M Unit := do
  let e ← bits v
  let s ← get
  require (s.cmr.map.length + ((1 <<< v) + e) ≤ s.cmr.len) (.invalid .cmapRunPastEnd)
  modify fun s => { s with cmr := { s.cmr with map := s.cmr.map ++ List.replicate ((1 <<< v) + e) 0 } }

/-- `CM.VAL(s)` (R274), with `s > rlemax`; also above `rlemax + trees - 1` and past the end of the map (DESIGN CHOICE,
notes/assumptions/41.md). -/
def cmVal (v : Nat) : M Unit := do
  let s ← get
  precondition (s.cmr.rlemax < v)
  modify fun s => { s with cmr := { s.cmr with map := s.cmr.map ++ [v - s.cmr.rlemax] } }

/-- The arm of R271 a map symbol selects. -/
def cmSymbol (v : Nat) : M Unit := do
  let s ← get
  if v = 0 then cmZero else if v ≤ s.cmr.rlemax then cmRun v else cmVal v

/-- The loop of R271. Each turn writes at least one entry, so `len` turns are enough. -/
def cmapLoop : Nat → M Unit
  | 0 => pure ()
  | fuel + 1 => do
    let s ← get
    if s.cmr.map.length < s.cmr.len then do
      let v ← sym s.cmr.code
      cmSymbol v
      cmapLoop fuel
    else pure ()

/-- `v` moved from position `idx` to the front: the shift of R276. -/
def moveToFront (mtf : List Nat) (idx v : Nat) : List Nat := v :: mtf.eraseIdx idx

/-- The loop of R276 over the entries read, given those already replaced. -/
def imtfLoop : List Nat → List Nat → M Unit
  | done, [] => modify fun s => { s with cmr := { s.cmr with map := done } }
  | done, idx :: rest => do
    let s ← get
    let v ← entry s.cmr.mtf idx
    modify fun s => { s with cmr := { s.cmr with mtf := moveToFront s.cmr.mtf idx v } }
    imtfLoop (done ++ [v]) rest

/-- `IMTF(map, len)` (R276), on the map just read. Invoked alone while the map does not hold exactly `len` entries, it transforms
the entries that are there (DESIGN CHOICE, notes/assumptions/41.md). -/
def imtf : M Unit := do
  modify fun s => { s with cmr := { s.cmr with mtf := List.range 256 } }
  let s ← get
  imtfLoop [] s.cmr.map

/-- The transform that the value of the `IMTF` flag selects (R275). -/
def imtfIf (flag : Nat) : M Unit := if flag = 1 then imtf else pure ()

/-- The `IMTF` flag (R275): read one bit, and transform the map where it is set, whatever its number of entries (DESIGN
CHOICE, notes/assumptions/41.md). -/
def imtfFlag : M Nat := do
  let flag ← bits 1
  imtfIf flag
  pure flag

/-- `CMAP(len, trees)` (R271). Its registers, `rlemax` among them, are set when the code is read: after a `raise` before that
they hold what they held (DESIGN CHOICE, notes/assumptions/11.md). -/
def cmap (len trees : Nat) : M (List Nat) :=
  if trees = 1 then pure (List.replicate len 0)
  else do
    let r ← rlemax len
    let code ← readCode (r + trees)
    modify fun s => { s with cmr := .start len r code }
    cmapLoop len
    let _ ← imtfFlag
    let s ← get
    pure s.cmr.map

/-! Literal and distance contexts. -/

/-- `p1`, the last output byte, or 0 (R278, D9). -/
def State.p1 (s : State) : Byte := if 1 ≤ s.got then s.produced (s.got - 1) else 0

/-- `p2`, the second-to-last output byte, or 0 (R278, D9). -/
def State.p2 (s : State) : Byte := if 2 ≤ s.got then s.produced (s.got - 2) else 0

/-- Mode 0 (R279). -/
def State.ctxLsb6 (s : State) : Nat := s.p1.toNat &&& 0x3f

/-- Mode 1 (R280). -/
def State.ctxMsb6 (s : State) : Nat := s.p1.toNat >>> 2

/-- Mode 2 (R281). -/
def State.ctxUtf8 (s : State) : Nat := s.lut0 s.p1 ||| s.lut1 s.p2

/-- Mode 3 (R282). -/
def State.ctxSigned (s : State) : Nat := (s.lut2 s.p1 <<< 3) ||| s.lut2 s.p2

/-- `CTX(mode)` (R278). -/
def State.ctx (s : State) : CtxMode → Nat
  | .lsb6 => s.ctxLsb6
  | .msb6 => s.ctxMsb6
  | .utf8 => s.ctxUtf8
  | .signed => s.ctxSigned

/-- `DCTX(copy_len)` (R284), with `copy_len >= 2`; below it the answer is 0 (DESIGN CHOICE, notes/assumptions/41.md). -/
def dctx (copyLen : Nat) : Nat := min (copyLen - 2) 3

/-! The instructions. -/

/-- `RLEMAX.0` (R270). -/
def execRlemax0 (len : Nat) (s : State) : Host.Outcome State Fault Refusal := complete (rlemax0 len) keepVal s

/-- `RLEMAX.N` (R270). -/
def execRlemaxN (len : Nat) (s : State) : Host.Outcome State Fault Refusal := complete (rlemaxN len) keepVal s

/-- `CMAP(len, trees)` (R271). -/
def execCmap (len trees : Nat) (s : State) : Host.Outcome State Fault Refusal := complete (cmap len trees) keepMap s

/-- `CM.ZERO` (R272). -/
def execCmZero (s : State) : Host.Outcome State Fault Refusal := complete cmZero keepNone s

/-- `CM.RUN(s)` (R273). -/
def execCmRun (v : Nat) (s : State) : Host.Outcome State Fault Refusal := complete (cmRun v) keepNone s

/-- `CM.VAL(s)` (R274). -/
def execCmVal (v : Nat) (s : State) : Host.Outcome State Fault Refusal := complete (cmVal v) keepNone s

/-- The `IMTF` flag (R275), on the map just read; its value goes to the latch. -/
def execImtfFlag (s : State) : Host.Outcome State Fault Refusal := complete imtfFlag keepVal s

/-- `IMTF` (R276). -/
def execImtf (s : State) : Host.Outcome State Fault Refusal := complete imtf keepNone s

/-- `CTX(mode)` (R278). -/
def execCtx (m : CtxMode) (s : State) : Host.Outcome State Fault Refusal := complete (pure (s.ctx m)) keepVal s

/-- `CTX.LSB6` (R279). -/
def execCtxLsb6 (s : State) : Host.Outcome State Fault Refusal := complete (pure s.ctxLsb6) keepVal s

/-- `CTX.MSB6` (R280). -/
def execCtxMsb6 (s : State) : Host.Outcome State Fault Refusal := complete (pure s.ctxMsb6) keepVal s

/-- `CTX.UTF8` (R281). -/
def execCtxUtf8 (s : State) : Host.Outcome State Fault Refusal := complete (pure s.ctxUtf8) keepVal s

/-- `CTX.SIGNED` (R282). -/
def execCtxSigned (s : State) : Host.Outcome State Fault Refusal := complete (pure s.ctxSigned) keepVal s

/-- `DCTX(copy_len)` (R284). -/
def execDctx (copyLen : Nat) (s : State) : Host.Outcome State Fault Refusal :=
  complete (pure (dctx copyLen)) keepVal s

end Sys2Proof.Machine
end

