-- ==== Sys2Proof/Machine/DictionaryOps.lean ====
section
/-! DEFINITION. The static-dictionary reference and the word transforms (spec/47_dictionary.md). -/

namespace Sys2Proof.Machine

/-! The elementary operations, on a word alone. -/

/-- `w[p] <- f w[p]`, and no change where `p` lies beyond the word (R324, D25). -/
def changeByte (f : Byte → Byte) (w : List Byte) (p : Nat) : List Byte := w.modify p f

/-- `UP1(w, p)` (R324): the word, and the number of bytes the character at `p` occupies. -/
def up1 (u : Upper4) (w : List Byte) (p : Nat) : List Byte × Nat :=
  let c := w.getD p 0
  if c < 0xC0 then (if 0x61 ≤ c ∧ c ≤ 0x7A then changeByte (· ^^^ 0x20) w p else w, 1)
  else if c < 0xE0 then (changeByte (· ^^^ 0x20) w (p + 1), 2)
  else if c < 0xF0 ∨ u = .third then (changeByte (· ^^^ 0x05) w (p + 2), 3)
  else (changeByte (· ^^^ 0x05) w (p + 3), 4)

/-- `X.ID` (R317). -/
def wordId (w : List Byte) : List Byte := w

/-- `X.UPFIRST` (R318). -/
def wordUpfirst (u : Upper4) (w : List Byte) : List Byte := (up1 u w 0).1

/-- The loop of R319. Every step is at least 1, so `|w|` turns are enough. -/
def upallLoop (u : Upper4) : Nat → List Byte → Nat → List Byte
  | 0, w, _ => w
  | fuel + 1, w, p => if p < w.length then upallLoop u fuel (up1 u w p).1 (p + (up1 u w p).2) else w

/-- `X.UPALL` (R319). -/
def wordUpall (u : Upper4) (w : List Byte) : List Byte := upallLoop u w.length w 0

/-- `X.OMITFIRST(k)` (R320): the count saturates. -/
def wordOmitfirst (k : Nat) (w : List Byte) : List Byte := w.drop k

/-- `X.OMITLAST(k)` (R320): the count saturates. -/
def wordOmitlast (k : Nat) (w : List Byte) : List Byte := w.take (w.length - k)

/-- `APPLY(op, k, w)` (R315). -/
def applyOp (u : Upper4) (op : XOp) (k : Nat) (w : List Byte) : List Byte :=
  match op with
  | .ident => wordId w
  | .upFirst => wordUpfirst u w
  | .upAll => wordUpall u w
  | .omitFirst => wordOmitfirst k w
  | .omitLast => wordOmitlast k w

/-- `prefix || APPLY(op, k, w) || suffix` (R314). -/
def transformed (x : Xform) (u : Upper4) (w : List Byte) : List Byte := x.pre ++ applyOp u x.op x.k w ++ x.suf

/-! The reference. -/

/-- The bytes a reference writes: the word of R312 under the transform of R311. -/
def State.dictResult (s : State) (id len : Nat) : List Byte :=
  transformed (s.xformAt (dictXform id len)) s.ports.upper4 (s.dictWord len (dictIndex id len))

/-- `COPY.DICT(id, L)` (R314). -/
def copyDict (id len : Nat) : M Unit := do
  require (4 ≤ len ∧ len ≤ 24) (.invalid .dictLength)
  require (dictXform id len < 121) (.invalid .dictTransform)
  let s ← get
  require ((s.dictResult id len).length ≤ s.mlen) (.invalid .mlenExceededByWord)
  modify fun s => { s with mlen := s.mlen - (s.dictResult id len).length }
  emitAll (s.dictResult id len)

/-! The instructions. -/

/-- `COPY.DICT(id, L)` (R314). -/
def execCopyDict (id len : Nat) (s : State) : Host.Outcome State Fault Refusal := complete (copyDict id len) keepNone s

/-- `X.ID` (R317), on the word latch. -/
def execXId (s : State) : Host.Outcome State Fault Refusal := complete (pure (wordId s.lat.word)) keepWord s

/-- `X.UPFIRST` (R318), on the word latch. -/
def execXUpfirst (s : State) : Host.Outcome State Fault Refusal :=
  complete (pure (wordUpfirst s.ports.upper4 s.lat.word)) keepWord s

/-- `X.UPALL` (R319), on the word latch. -/
def execXUpall (s : State) : Host.Outcome State Fault Refusal :=
  complete (pure (wordUpall s.ports.upper4 s.lat.word)) keepWord s

/-- `X.OMITFIRST(k)` (R320), on the word latch. -/
def execXOmitfirst (k : Nat) (s : State) : Host.Outcome State Fault Refusal :=
  complete (pure (wordOmitfirst k s.lat.word)) keepWord s

/-- `X.OMITLAST(k)` (R320), on the word latch. -/
def execXOmitlast (k : Nat) (s : State) : Host.Outcome State Fault Refusal :=
  complete (pure (wordOmitlast k s.lat.word)) keepWord s

end Sys2Proof.Machine
end

