-- ==== Sys2Proof/Machine/DistanceOps.lean ====
section
/-! DEFINITION. Distance decoding and the distance ring (spec/46_distance.md). -/

namespace Sys2Proof.Machine

/-- `D.RING(sym)` (R291). -/
def dRing (v : Nat) : M Int := do
  let s ← get
  pure (s.ringValue (back.getD v 0) (delta.getD v 0))

/-- `D.DIRECT(sym)` (R294), with `16 <= sym < 16 + direct`. -/
def dDirect (v : Nat) : M Int := do
  let s ← get
  precondition (16 ≤ v ∧ v < 16 + s.direct)
  pure ((v : Int) - 15)

/-- `D.LONG(sym)` (R295), with `16 + direct <= sym < dalpha`. -/
def dLong (v : Nat) : M Int := do
  let s ← get
  precondition (16 + s.direct ≤ v ∧ v < s.dalpha)
  let e ← bits (longExtra s.npostfix s.direct v)
  pure (longDistance s.npostfix s.direct v e : Int)

/-- The form of R290 a distance symbol selects. -/
def distanceForm (v : Nat) : M Int := do
  let s ← get
  if v < 16 then dRing v else if v < 16 + s.direct then dDirect v else dLong v

/-- `DISTVAL(sym)` (R290): a non-positive distance is invalid, tested on the signed value (R297). -/
def distval (v : Nat) : M Int := do
  let d ← distanceForm v
  require (¬ d ≤ 0) (.invalid .distanceNotPositive)
  pure d

/-- `RINGPUSH(d)` (R298), with `d >= 1`: one slot forward, modulo 4, and the new entry there. -/
def ringpush (d : Nat) : M Unit := do
  precondition (1 ≤ d)
  modify fun s => { s with ringPtr := s.ringPtr + 1, ring := s.ring.set (s.ringPtr + 1 : Fin 4).val d (s.ringPtr + 1 : Fin 4).isLt }

/-! The instructions. -/

/-- `DISTVAL(sym)` (R290). -/
def execDistval (v : Nat) (s : State) : Host.Outcome State Fault Refusal := complete (distval v) keepSval s

/-- `D.RING.0` (R291, R292): `BACK` 0, `DELTA` 0. -/
def execDRing0 (s : State) : Host.Outcome State Fault Refusal := complete (pure (s.ringValue 0 0)) keepSval s

/-- `D.RING.1` (R291, R292): `BACK` 1, `DELTA` 0. -/
def execDRing1 (s : State) : Host.Outcome State Fault Refusal := complete (pure (s.ringValue 1 0)) keepSval s

/-- `D.RING.2` (R291, R292): `BACK` 2, `DELTA` 0. -/
def execDRing2 (s : State) : Host.Outcome State Fault Refusal := complete (pure (s.ringValue 2 0)) keepSval s

/-- `D.RING.3` (R291, R292): `BACK` 3, `DELTA` 0. -/
def execDRing3 (s : State) : Host.Outcome State Fault Refusal := complete (pure (s.ringValue 3 0)) keepSval s

/-- `D.RING.4` (R291, R292): `BACK` 0, `DELTA` -1. -/
def execDRing4 (s : State) : Host.Outcome State Fault Refusal := complete (pure (s.ringValue 0 (-1))) keepSval s

/-- `D.RING.5` (R291, R292): `BACK` 0, `DELTA` 1. -/
def execDRing5 (s : State) : Host.Outcome State Fault Refusal := complete (pure (s.ringValue 0 1)) keepSval s

/-- `D.RING.6` (R291, R292): `BACK` 0, `DELTA` -2. -/
def execDRing6 (s : State) : Host.Outcome State Fault Refusal := complete (pure (s.ringValue 0 (-2))) keepSval s

/-- `D.RING.7` (R291, R292): `BACK` 0, `DELTA` 2. -/
def execDRing7 (s : State) : Host.Outcome State Fault Refusal := complete (pure (s.ringValue 0 2)) keepSval s

/-- `D.RING.8` (R291, R292): `BACK` 0, `DELTA` -3. -/
def execDRing8 (s : State) : Host.Outcome State Fault Refusal := complete (pure (s.ringValue 0 (-3))) keepSval s

/-- `D.RING.9` (R291, R292): `BACK` 0, `DELTA` 3. -/
def execDRing9 (s : State) : Host.Outcome State Fault Refusal := complete (pure (s.ringValue 0 3)) keepSval s

/-- `D.RING.10` (R291, R292): `BACK` 1, `DELTA` -1. -/
def execDRing10 (s : State) : Host.Outcome State Fault Refusal := complete (pure (s.ringValue 1 (-1))) keepSval s

/-- `D.RING.11` (R291, R292): `BACK` 1, `DELTA` 1. -/
def execDRing11 (s : State) : Host.Outcome State Fault Refusal := complete (pure (s.ringValue 1 1)) keepSval s

/-- `D.RING.12` (R291, R292): `BACK` 1, `DELTA` -2. -/
def execDRing12 (s : State) : Host.Outcome State Fault Refusal := complete (pure (s.ringValue 1 (-2))) keepSval s

/-- `D.RING.13` (R291, R292): `BACK` 1, `DELTA` 2. -/
def execDRing13 (s : State) : Host.Outcome State Fault Refusal := complete (pure (s.ringValue 1 2)) keepSval s

/-- `D.RING.14` (R291, R292): `BACK` 1, `DELTA` -3. -/
def execDRing14 (s : State) : Host.Outcome State Fault Refusal := complete (pure (s.ringValue 1 (-3))) keepSval s

/-- `D.RING.15` (R291, R292): `BACK` 1, `DELTA` 3. -/
def execDRing15 (s : State) : Host.Outcome State Fault Refusal := complete (pure (s.ringValue 1 3)) keepSval s

/-- `D.DIRECT(sym)` (R294). -/
def execDDirect (v : Nat) (s : State) : Host.Outcome State Fault Refusal := complete (dDirect v) keepSval s

/-- `D.LONG(sym)` (R295). -/
def execDLong (v : Nat) (s : State) : Host.Outcome State Fault Refusal := complete (dLong v) keepSval s

/-- `RINGPUSH(d)` (R298). -/
def execRingpush (d : Nat) (s : State) : Host.Outcome State Fault Refusal := complete (ringpush d) keepNone s

end Sys2Proof.Machine
end

