-- ==== Sys2Proof/Machine/BlockOps.lean ====
section
/-! DEFINITION. Block types, block lengths and the number-of-types code (spec/43_block_switch.md). -/

namespace Sys2Proof.Machine

/-- The arm of R230 for a first bit of 1. -/
def nbltypesN : M Nat := do
  let k ← bits 3
  let e ← bits k
  pure (1 + (1 <<< k) + e)

/-- `NBLTYPES()` (R230). -/
def nbltypes : M Nat := do
  let b ← bits 1
  if b = 0 then pure 1 else nbltypesN

/-- A base and its extra bits: `base + BITS(extra)` (R232, R250). -/
def baseExtra (base extra : Nat) : M Nat := do
  let e ← bits extra
  pure (base + e)

/-- `BLEN(code)` (R232). Its operand is a code over 26 symbols; what the rule leaves open, a table invoked alone that holds
a symbol of 26 or more, is this model's choice (DESIGN CHOICE, notes/assumptions/41.md): length 0, no extra bits. -/
def blen (code : Table) : M Nat := do
  let v ← sym code
  baseExtra (blenBase.getD v 0) (blenExtra.getD v 0)

/-- A table that must exist (R29). -/
def existing (t : Option Table) : M Table :=
  match t with
  | some t => pure t
  | none => stopFault .absentTable

/-- `BLKDESC(c)` (R233). -/
def blkdesc (c : Cat) : M Unit := do
  let num ← nbltypes
  modify fun s => s.setBlk c { s.blk c with num, cur := 0, prev := 1 }
  if 1 < num then do
    let tcode ← readCode (num + 2)
    modify fun s => s.setBlk c { s.blk c with tcode := some tcode }
    let lcode ← readCode 26
    modify fun s => s.setBlk c { s.blk c with lcode := some lcode }
    let cnt ← blen lcode
    modify fun s => s.setBlk c { s.blk c with cnt := some cnt }
  else modify fun s => s.setBlk c { s.blk c with cnt := none, tcode := none, lcode := none }

/-- Install a new block type: the type being replaced becomes the previous one (R235). -/
def installType (c : Cat) (type : Nat) : M Unit :=
  modify fun s => s.setBlk c { s.blk c with prev := (s.blk c).cur, cur := type }

/-! Rows `BSWITCH.PREV`, `BSWITCH.NEXT` and `BSWITCH.ABS` invoked alone outside the operands of R235 (`num[c] <= 1`, `cnt[c]`
not 0, `n < 2`, `n > num[c] + 1`) act all the same. The rule gives such a call no effect: that they act, and that `cur[c]` may
then reach `num[c]`, is this model's choice (DESIGN CHOICE, notes/assumptions/41.md). `BSWITCH` itself is refused where
`num[c] <= 1` or `cnt[c]` is not 0 (notes/assumptions/13.md). -/

/-- Type-change symbol 0: the previous type (R235), in every state (DESIGN CHOICE, notes/assumptions/41.md). -/
def bswitchPrev (c : Cat) : M Unit := do
  let s ← get
  installType c (s.blk c).prev

/-- Type-change symbol 1: the next type, modulo the category's own number of types (R235, D29), in every state
(DESIGN CHOICE, notes/assumptions/41.md). -/
def bswitchNext (c : Cat) : M Unit := do
  let s ← get
  installType c (((s.blk c).cur + 1) % (s.blk c).num)

/-- Type-change symbol `n > 1`: type `n - 2` (R235), in every state and for every `n`, 0 for `n < 2`
(DESIGN CHOICE, notes/assumptions/41.md). -/
def bswitchAbs (c : Cat) (n : Nat) : M Unit := installType c (n - 2)

/-- The arm of R235 a type-change symbol selects. -/
def typeChange (c : Cat) (n : Nat) : M Unit :=
  if 1 < n then bswitchAbs c n else if n = 1 then bswitchNext c else bswitchPrev c

/-- `BSWITCH(c)` (R235), with `num[c] > 1` and `cnt[c] = 0`. -/
def bswitch (c : Cat) : M Unit := do
  let s ← get
  precondition (1 < (s.blk c).num ∧ (s.blk c).cnt = some 0)
  let tcode ← existing (s.blk c).tcode
  let n ← sym tcode
  typeChange c n
  let lcode ← existing (s.blk c).lcode
  let cnt ← blen lcode
  modify fun s => s.setBlk c { s.blk c with cnt := some cnt }

/-- `cnt[c] <- cnt[c] - 1` (R234); `INF` is neither tested nor decremented (R237). -/
def countDown (c : Cat) : M Unit :=
  modify fun s => s.setBlk c { s.blk c with cnt := (s.blk c).cnt.map (· - 1) }

/-- `TICK(c)` (R234). -/
def tick (c : Cat) : M Unit := do
  let s ← get
  if 1 < (s.blk c).num then
    if (s.blk c).cnt = some 0 then do
      bswitch c
      countDown c
    else countDown c
  else pure ()

/-! The instructions. -/

/-- `NBLTYPES.1` (R230): the count 1. -/
def execNbltypes1 (s : State) : Host.Outcome State Fault Refusal := complete (pure 1) keepVal s

/-- `NBLTYPES.N` (R230): the count `1 + (1 << k) + BITS(k)`. -/
def execNbltypesN (s : State) : Host.Outcome State Fault Refusal := complete nbltypesN keepVal s

/-- `BLEN(code)` (R232). -/
def execBlen (code : Table) (s : State) : Host.Outcome State Fault Refusal := complete (blen code) keepVal s

/-- `BLEN.S0` (R231): base 1, 2 extra bits. -/
def execBlenS0 (s : State) : Host.Outcome State Fault Refusal := complete (baseExtra 1 2) keepVal s

/-- `BLEN.S1` (R231): base 5, 2 extra bits. -/
def execBlenS1 (s : State) : Host.Outcome State Fault Refusal := complete (baseExtra 5 2) keepVal s

/-- `BLEN.S2` (R231): base 9, 2 extra bits. -/
def execBlenS2 (s : State) : Host.Outcome State Fault Refusal := complete (baseExtra 9 2) keepVal s

/-- `BLEN.S3` (R231): base 13, 2 extra bits. -/
def execBlenS3 (s : State) : Host.Outcome State Fault Refusal := complete (baseExtra 13 2) keepVal s

/-- `BLEN.S4` (R231): base 17, 3 extra bits. -/
def execBlenS4 (s : State) : Host.Outcome State Fault Refusal := complete (baseExtra 17 3) keepVal s

/-- `BLEN.S5` (R231): base 25, 3 extra bits. -/
def execBlenS5 (s : State) : Host.Outcome State Fault Refusal := complete (baseExtra 25 3) keepVal s

/-- `BLEN.S6` (R231): base 33, 3 extra bits. -/
def execBlenS6 (s : State) : Host.Outcome State Fault Refusal := complete (baseExtra 33 3) keepVal s

/-- `BLEN.S7` (R231): base 41, 3 extra bits. -/
def execBlenS7 (s : State) : Host.Outcome State Fault Refusal := complete (baseExtra 41 3) keepVal s

/-- `BLEN.S8` (R231): base 49, 4 extra bits. -/
def execBlenS8 (s : State) : Host.Outcome State Fault Refusal := complete (baseExtra 49 4) keepVal s

/-- `BLEN.S9` (R231): base 65, 4 extra bits. -/
def execBlenS9 (s : State) : Host.Outcome State Fault Refusal := complete (baseExtra 65 4) keepVal s

/-- `BLEN.S10` (R231): base 81, 4 extra bits. -/
def execBlenS10 (s : State) : Host.Outcome State Fault Refusal := complete (baseExtra 81 4) keepVal s

/-- `BLEN.S11` (R231): base 97, 4 extra bits. -/
def execBlenS11 (s : State) : Host.Outcome State Fault Refusal := complete (baseExtra 97 4) keepVal s

/-- `BLEN.S12` (R231): base 113, 5 extra bits. -/
def execBlenS12 (s : State) : Host.Outcome State Fault Refusal := complete (baseExtra 113 5) keepVal s

/-- `BLEN.S13` (R231): base 145, 5 extra bits. -/
def execBlenS13 (s : State) : Host.Outcome State Fault Refusal := complete (baseExtra 145 5) keepVal s

/-- `BLEN.S14` (R231): base 177, 5 extra bits. -/
def execBlenS14 (s : State) : Host.Outcome State Fault Refusal := complete (baseExtra 177 5) keepVal s

/-- `BLEN.S15` (R231): base 209, 5 extra bits. -/
def execBlenS15 (s : State) : Host.Outcome State Fault Refusal := complete (baseExtra 209 5) keepVal s

/-- `BLEN.S16` (R231): base 241, 6 extra bits. -/
def execBlenS16 (s : State) : Host.Outcome State Fault Refusal := complete (baseExtra 241 6) keepVal s

/-- `BLEN.S17` (R231): base 305, 6 extra bits. -/
def execBlenS17 (s : State) : Host.Outcome State Fault Refusal := complete (baseExtra 305 6) keepVal s

/-- `BLEN.S18` (R231): base 369, 7 extra bits. -/
def execBlenS18 (s : State) : Host.Outcome State Fault Refusal := complete (baseExtra 369 7) keepVal s

/-- `BLEN.S19` (R231): base 497, 8 extra bits. -/
def execBlenS19 (s : State) : Host.Outcome State Fault Refusal := complete (baseExtra 497 8) keepVal s

/-- `BLEN.S20` (R231): base 753, 9 extra bits. -/
def execBlenS20 (s : State) : Host.Outcome State Fault Refusal := complete (baseExtra 753 9) keepVal s

/-- `BLEN.S21` (R231): base 1265, 10 extra bits. -/
def execBlenS21 (s : State) : Host.Outcome State Fault Refusal := complete (baseExtra 1265 10) keepVal s

/-- `BLEN.S22` (R231): base 2289, 11 extra bits. -/
def execBlenS22 (s : State) : Host.Outcome State Fault Refusal := complete (baseExtra 2289 11) keepVal s

/-- `BLEN.S23` (R231): base 4337, 12 extra bits. -/
def execBlenS23 (s : State) : Host.Outcome State Fault Refusal := complete (baseExtra 4337 12) keepVal s

/-- `BLEN.S24` (R231): base 8433, 13 extra bits. -/
def execBlenS24 (s : State) : Host.Outcome State Fault Refusal := complete (baseExtra 8433 13) keepVal s

/-- `BLEN.S25` (R231): base 16625, 24 extra bits. -/
def execBlenS25 (s : State) : Host.Outcome State Fault Refusal := complete (baseExtra 16625 24) keepVal s

/-- `BLKDESC(c)` (R233). -/
def execBlkdesc (c : Cat) (s : State) : Host.Outcome State Fault Refusal := complete (blkdesc c) keepNone s

/-- `TICK(c)` (R234). -/
def execTick (c : Cat) (s : State) : Host.Outcome State Fault Refusal := complete (tick c) keepNone s

/-- `BSWITCH(c)` (R235). -/
def execBswitch (c : Cat) (s : State) : Host.Outcome State Fault Refusal := complete (bswitch c) keepNone s

/-- `BSWITCH.PREV` (R235). -/
def execBswitchPrev (c : Cat) (s : State) : Host.Outcome State Fault Refusal := complete (bswitchPrev c) keepNone s

/-- `BSWITCH.NEXT` (R235). -/
def execBswitchNext (c : Cat) (s : State) : Host.Outcome State Fault Refusal := complete (bswitchNext c) keepNone s

/-- `BSWITCH.ABS` (R235). -/
def execBswitchAbs (c : Cat) (n : Nat) (s : State) : Host.Outcome State Fault Refusal :=
  complete (bswitchAbs c n) keepNone s

end Sys2Proof.Machine
end

