-- ==== Sys2Proof/Machine/SplitOps.lean ====
section
/-! DEFINITION. The insert-and-copy length splitter (spec/44_insert_copy.md). -/

namespace Sys2Proof.Machine

/-- The two lengths of insert code `i` and copy code `j`: the insert extra bits are read first, then the copy extra
bits (R250, R254). A code above 23, which no symbol in `0..703` gives, has base 0 and no extra bits (DESIGN CHOICE,
notes/assumptions/41.md). -/
def splitCodes (i j : Nat) : M (Nat × Nat) := do
  let insLen ← baseExtra (insBase.getD i 0) (insExtra.getD i 0)
  let copyLen ← baseExtra (cpyBase.getD j 0) (cpyExtra.getD j 0)
  pure (insLen, copyLen)

/-- `IACSPLIT(sym)` (R250): the insert length and the copy length. -/
def iacsplit (v : Nat) : M (Nat × Nat) := splitCodes (insertCode v) (copyCode v)

/-- The split of a symbol of a row with the given map entries (R250, R253); a symbol of another row is split by the same
entries (DESIGN CHOICE, notes/assumptions/41.md). -/
def splitRow (insertBase copyBase v : Nat) : M (Nat × Nat) :=
  splitCodes (insertBase + ((v >>> 3) &&& 7)) (copyBase + (v &&& 7))

/-- The two results of a split: `ins_len` to its latch, `copy_len` to its register (R33, R250). -/
def keepSplit (r : Nat × Nat) (s : State) : State :=
  { s with lat := { s.lat with insLen := r.1 }, copyLen := r.2 }

/-- The result of a copy code: the register `copy_len` (R33). -/
def keepCopyLen (n : Nat) (s : State) : State := { s with copyLen := n }

/-- `IACSPLIT(sym)` (R250). -/
def execIacsplit (v : Nat) (s : State) : Host.Outcome State Fault Refusal := complete (iacsplit v) keepSplit s

/-- `IAC.ROW0` (R253): `INSERT_MAP` 0, `COPY_MAP` 0. -/
def execIacRow0 (v : Nat) (s : State) : Host.Outcome State Fault Refusal :=
  complete (splitRow 0 0 v) keepSplit s

/-- `IAC.ROW1` (R253): `INSERT_MAP` 0, `COPY_MAP` 8. -/
def execIacRow1 (v : Nat) (s : State) : Host.Outcome State Fault Refusal :=
  complete (splitRow 0 8 v) keepSplit s

/-- `IAC.ROW2` (R253): `INSERT_MAP` 0, `COPY_MAP` 0. -/
def execIacRow2 (v : Nat) (s : State) : Host.Outcome State Fault Refusal :=
  complete (splitRow 0 0 v) keepSplit s

/-- `IAC.ROW3` (R253): `INSERT_MAP` 0, `COPY_MAP` 8. -/
def execIacRow3 (v : Nat) (s : State) : Host.Outcome State Fault Refusal :=
  complete (splitRow 0 8 v) keepSplit s

/-- `IAC.ROW4` (R253): `INSERT_MAP` 8, `COPY_MAP` 0. -/
def execIacRow4 (v : Nat) (s : State) : Host.Outcome State Fault Refusal :=
  complete (splitRow 8 0 v) keepSplit s

/-- `IAC.ROW5` (R253): `INSERT_MAP` 8, `COPY_MAP` 8. -/
def execIacRow5 (v : Nat) (s : State) : Host.Outcome State Fault Refusal :=
  complete (splitRow 8 8 v) keepSplit s

/-- `IAC.ROW6` (R253): `INSERT_MAP` 0, `COPY_MAP` 16. -/
def execIacRow6 (v : Nat) (s : State) : Host.Outcome State Fault Refusal :=
  complete (splitRow 0 16 v) keepSplit s

/-- `IAC.ROW7` (R253): `INSERT_MAP` 16, `COPY_MAP` 0. -/
def execIacRow7 (v : Nat) (s : State) : Host.Outcome State Fault Refusal :=
  complete (splitRow 16 0 v) keepSplit s

/-- `IAC.ROW8` (R253): `INSERT_MAP` 8, `COPY_MAP` 16. -/
def execIacRow8 (v : Nat) (s : State) : Host.Outcome State Fault Refusal :=
  complete (splitRow 8 16 v) keepSplit s

/-- `IAC.ROW9` (R253): `INSERT_MAP` 16, `COPY_MAP` 8. -/
def execIacRow9 (v : Nat) (s : State) : Host.Outcome State Fault Refusal :=
  complete (splitRow 16 8 v) keepSplit s

/-- `IAC.ROW10` (R253): `INSERT_MAP` 16, `COPY_MAP` 16. -/
def execIacRow10 (v : Nat) (s : State) : Host.Outcome State Fault Refusal :=
  complete (splitRow 16 16 v) keepSplit s

/-- `INS.C0` (R251): base 0, 0 extra bits. -/
def execInsC0 (s : State) : Host.Outcome State Fault Refusal := complete (baseExtra 0 0) keepInsLen s

/-- `INS.C1` (R251): base 1, 0 extra bits. -/
def execInsC1 (s : State) : Host.Outcome State Fault Refusal := complete (baseExtra 1 0) keepInsLen s

/-- `INS.C2` (R251): base 2, 0 extra bits. -/
def execInsC2 (s : State) : Host.Outcome State Fault Refusal := complete (baseExtra 2 0) keepInsLen s

/-- `INS.C3` (R251): base 3, 0 extra bits. -/
def execInsC3 (s : State) : Host.Outcome State Fault Refusal := complete (baseExtra 3 0) keepInsLen s

/-- `INS.C4` (R251): base 4, 0 extra bits. -/
def execInsC4 (s : State) : Host.Outcome State Fault Refusal := complete (baseExtra 4 0) keepInsLen s

/-- `INS.C5` (R251): base 5, 0 extra bits. -/
def execInsC5 (s : State) : Host.Outcome State Fault Refusal := complete (baseExtra 5 0) keepInsLen s

/-- `INS.C6` (R251): base 6, 1 extra bits. -/
def execInsC6 (s : State) : Host.Outcome State Fault Refusal := complete (baseExtra 6 1) keepInsLen s

/-- `INS.C7` (R251): base 8, 1 extra bits. -/
def execInsC7 (s : State) : Host.Outcome State Fault Refusal := complete (baseExtra 8 1) keepInsLen s

/-- `INS.C8` (R251): base 10, 2 extra bits. -/
def execInsC8 (s : State) : Host.Outcome State Fault Refusal := complete (baseExtra 10 2) keepInsLen s

/-- `INS.C9` (R251): base 14, 2 extra bits. -/
def execInsC9 (s : State) : Host.Outcome State Fault Refusal := complete (baseExtra 14 2) keepInsLen s

/-- `INS.C10` (R251): base 18, 3 extra bits. -/
def execInsC10 (s : State) : Host.Outcome State Fault Refusal := complete (baseExtra 18 3) keepInsLen s

/-- `INS.C11` (R251): base 26, 3 extra bits. -/
def execInsC11 (s : State) : Host.Outcome State Fault Refusal := complete (baseExtra 26 3) keepInsLen s

/-- `INS.C12` (R251): base 34, 4 extra bits. -/
def execInsC12 (s : State) : Host.Outcome State Fault Refusal := complete (baseExtra 34 4) keepInsLen s

/-- `INS.C13` (R251): base 50, 4 extra bits. -/
def execInsC13 (s : State) : Host.Outcome State Fault Refusal := complete (baseExtra 50 4) keepInsLen s

/-- `INS.C14` (R251): base 66, 5 extra bits. -/
def execInsC14 (s : State) : Host.Outcome State Fault Refusal := complete (baseExtra 66 5) keepInsLen s

/-- `INS.C15` (R251): base 98, 5 extra bits. -/
def execInsC15 (s : State) : Host.Outcome State Fault Refusal := complete (baseExtra 98 5) keepInsLen s

/-- `INS.C16` (R251): base 130, 6 extra bits. -/
def execInsC16 (s : State) : Host.Outcome State Fault Refusal := complete (baseExtra 130 6) keepInsLen s

/-- `INS.C17` (R251): base 194, 7 extra bits. -/
def execInsC17 (s : State) : Host.Outcome State Fault Refusal := complete (baseExtra 194 7) keepInsLen s

/-- `INS.C18` (R251): base 322, 8 extra bits. -/
def execInsC18 (s : State) : Host.Outcome State Fault Refusal := complete (baseExtra 322 8) keepInsLen s

/-- `INS.C19` (R251): base 578, 9 extra bits. -/
def execInsC19 (s : State) : Host.Outcome State Fault Refusal := complete (baseExtra 578 9) keepInsLen s

/-- `INS.C20` (R251): base 1090, 10 extra bits. -/
def execInsC20 (s : State) : Host.Outcome State Fault Refusal := complete (baseExtra 1090 10) keepInsLen s

/-- `INS.C21` (R251): base 2114, 12 extra bits. -/
def execInsC21 (s : State) : Host.Outcome State Fault Refusal := complete (baseExtra 2114 12) keepInsLen s

/-- `INS.C22` (R251): base 6210, 14 extra bits. -/
def execInsC22 (s : State) : Host.Outcome State Fault Refusal := complete (baseExtra 6210 14) keepInsLen s

/-- `INS.C23` (R251): base 22594, 24 extra bits. -/
def execInsC23 (s : State) : Host.Outcome State Fault Refusal := complete (baseExtra 22594 24) keepInsLen s

/-- `COPY.C0` (R252): base 2, 0 extra bits. -/
def execCopyC0 (s : State) : Host.Outcome State Fault Refusal := complete (baseExtra 2 0) keepCopyLen s

/-- `COPY.C1` (R252): base 3, 0 extra bits. -/
def execCopyC1 (s : State) : Host.Outcome State Fault Refusal := complete (baseExtra 3 0) keepCopyLen s

/-- `COPY.C2` (R252): base 4, 0 extra bits. -/
def execCopyC2 (s : State) : Host.Outcome State Fault Refusal := complete (baseExtra 4 0) keepCopyLen s

/-- `COPY.C3` (R252): base 5, 0 extra bits. -/
def execCopyC3 (s : State) : Host.Outcome State Fault Refusal := complete (baseExtra 5 0) keepCopyLen s

/-- `COPY.C4` (R252): base 6, 0 extra bits. -/
def execCopyC4 (s : State) : Host.Outcome State Fault Refusal := complete (baseExtra 6 0) keepCopyLen s

/-- `COPY.C5` (R252): base 7, 0 extra bits. -/
def execCopyC5 (s : State) : Host.Outcome State Fault Refusal := complete (baseExtra 7 0) keepCopyLen s

/-- `COPY.C6` (R252): base 8, 0 extra bits. -/
def execCopyC6 (s : State) : Host.Outcome State Fault Refusal := complete (baseExtra 8 0) keepCopyLen s

/-- `COPY.C7` (R252): base 9, 0 extra bits. -/
def execCopyC7 (s : State) : Host.Outcome State Fault Refusal := complete (baseExtra 9 0) keepCopyLen s

/-- `COPY.C8` (R252): base 10, 1 extra bits. -/
def execCopyC8 (s : State) : Host.Outcome State Fault Refusal := complete (baseExtra 10 1) keepCopyLen s

/-- `COPY.C9` (R252): base 12, 1 extra bits. -/
def execCopyC9 (s : State) : Host.Outcome State Fault Refusal := complete (baseExtra 12 1) keepCopyLen s

/-- `COPY.C10` (R252): base 14, 2 extra bits. -/
def execCopyC10 (s : State) : Host.Outcome State Fault Refusal := complete (baseExtra 14 2) keepCopyLen s

/-- `COPY.C11` (R252): base 18, 2 extra bits. -/
def execCopyC11 (s : State) : Host.Outcome State Fault Refusal := complete (baseExtra 18 2) keepCopyLen s

/-- `COPY.C12` (R252): base 22, 3 extra bits. -/
def execCopyC12 (s : State) : Host.Outcome State Fault Refusal := complete (baseExtra 22 3) keepCopyLen s

/-- `COPY.C13` (R252): base 30, 3 extra bits. -/
def execCopyC13 (s : State) : Host.Outcome State Fault Refusal := complete (baseExtra 30 3) keepCopyLen s

/-- `COPY.C14` (R252): base 38, 4 extra bits. -/
def execCopyC14 (s : State) : Host.Outcome State Fault Refusal := complete (baseExtra 38 4) keepCopyLen s

/-- `COPY.C15` (R252): base 54, 4 extra bits. -/
def execCopyC15 (s : State) : Host.Outcome State Fault Refusal := complete (baseExtra 54 4) keepCopyLen s

/-- `COPY.C16` (R252): base 70, 5 extra bits. -/
def execCopyC16 (s : State) : Host.Outcome State Fault Refusal := complete (baseExtra 70 5) keepCopyLen s

/-- `COPY.C17` (R252): base 102, 5 extra bits. -/
def execCopyC17 (s : State) : Host.Outcome State Fault Refusal := complete (baseExtra 102 5) keepCopyLen s

/-- `COPY.C18` (R252): base 134, 6 extra bits. -/
def execCopyC18 (s : State) : Host.Outcome State Fault Refusal := complete (baseExtra 134 6) keepCopyLen s

/-- `COPY.C19` (R252): base 198, 7 extra bits. -/
def execCopyC19 (s : State) : Host.Outcome State Fault Refusal := complete (baseExtra 198 7) keepCopyLen s

/-- `COPY.C20` (R252): base 326, 8 extra bits. -/
def execCopyC20 (s : State) : Host.Outcome State Fault Refusal := complete (baseExtra 326 8) keepCopyLen s

/-- `COPY.C21` (R252): base 582, 9 extra bits. -/
def execCopyC21 (s : State) : Host.Outcome State Fault Refusal := complete (baseExtra 582 9) keepCopyLen s

/-- `COPY.C22` (R252): base 1094, 10 extra bits. -/
def execCopyC22 (s : State) : Host.Outcome State Fault Refusal := complete (baseExtra 1094 10) keepCopyLen s

/-- `COPY.C23` (R252): base 2118, 24 extra bits. -/
def execCopyC23 (s : State) : Host.Outcome State Fault Refusal := complete (baseExtra 2118 24) keepCopyLen s

end Sys2Proof.Machine
end

