-- ==== Sys2Proof/Machine/CommandOps.lean ====
section
/-! DEFINITION. The command loop's operations (spec/42_metablock.md section 5). -/

namespace Sys2Proof.Machine

/-- `CMD` (R204, R205), with `mlen > 0`. -/
def cmd : M Unit := do
  let s ← get
  precondition (0 < s.mlen)
  tick .I
  let s ← get
  let code ← entry s.iacBank s.blkI.cur
  let v ← sym code
  modify fun s => { s with iacSym := v }
  let r ← iacsplit v
  modify fun s => { s with copyLen := r.2 }
  let s ← get
  require (r.1 ≤ s.mlen) (.invalid .mlenExceededByInsert)
  modify fun s => { s with mlen := s.mlen - r.1, insLeft := r.1 }

/-- The code a literal is read with (R206, R239, R285): the context mode of the block type, the context, the map. -/
def literalCode : M Table := do
  let s ← get
  let mode ← entry s.modes s.blkL.cur
  let k ← entry s.litMap ((s.blkL.cur <<< 6) + s.ctx mode)
  entry s.litBank k

/-- `LIT` (R206), with `ins_left > 0`; a literal is a byte (R66). A literal code that yields a symbol of 256 or more, which only
a call alone can meet, is refused (DESIGN CHOICE, notes/assumptions/13.md). -/
def lit : M Unit := do
  let s ← get
  precondition (0 < s.insLeft)
  tick .L
  let code ← literalCode
  let b ← sym code
  precondition (b < 256)
  emit (BitVec.ofNat 8 b)
  modify fun s => { s with insLeft := s.insLeft - 1 }

/-- The code a distance symbol is read with (R208, R284, R285). -/
def distanceCode : M Table := do
  let s ← get
  let k ← entry s.distMap ((s.blkD.cur <<< 2) + dctx s.copyLen)
  entry s.distBank k

/-- `DIST` (R208), with `mlen > 0`; the ring is written only as R299 says. The rule's other precondition, that all literals of
the command are inserted, is not tested: invoked alone with `ins_left > 0` it acts all the same (DESIGN CHOICE,
notes/assumptions/41.md). -/
def dist : M Unit := do
  let s ← get
  precondition (0 < s.mlen)
  if implicitDistance s.iacSym then
    modify fun s => { s with dsym := 0, dist := s.ringValue 0 0 }
  else do
    tick .D
    let code ← distanceCode
    let v ← sym code
    modify fun s => { s with dsym := v }
    let d ← distval v
    modify fun s => { s with dist := d }
    if v ≠ 0 ∧ d ≤ s.window then ringpush d.toNat else pure ()

/-- The byte moves of R210, in ascending order, `got` read each time (R72). -/
def copyLoop : Nat → M Unit
  | 0 => pure ()
  | k + 1 => do
    let s ← get
    emit (s.produced (s.got - s.dist.toNat))
    copyLoop k

/-- `COPY.PAST` (R210), with `1 <= dist <= max`. -/
def copyPast : M Unit := do
  let s ← get
  precondition (1 ≤ s.dist ∧ s.dist ≤ s.window)
  require (s.copyLen ≤ s.mlen) (.invalid .mlenExceededByCopy)
  modify fun s => { s with mlen := s.mlen - s.copyLen }
  copyLoop s.copyLen

/-- `COPY` (R209). -/
def copy : M Unit := do
  let s ← get
  if (s.window : Int) < s.dist then copyDict (s.dist - s.window - 1).toNat s.copyLen else copyPast

/-! The instructions. -/

/-- `CMD` (R204). -/
def execCmd (s : State) : Host.Outcome State Fault Refusal := complete cmd keepNone s

/-- `LIT` (R206). -/
def execLit (s : State) : Host.Outcome State Fault Refusal := complete lit keepNone s

/-- `DIST` (R208). -/
def execDist (s : State) : Host.Outcome State Fault Refusal := complete dist keepNone s

/-- `COPY` (R209). -/
def execCopy (s : State) : Host.Outcome State Fault Refusal := complete copy keepNone s

/-- `COPY.PAST` (R210). -/
def execCopyPast (s : State) : Host.Outcome State Fault Refusal := complete copyPast keepNone s

end Sys2Proof.Machine
end

