-- ==== Sys2Proof/Machine/HeaderOps.lean ====
section
/-! DEFINITION. The stream header, the meta-block header and the ends of meta-block and stream
(spec/42_metablock.md, sections 1, 3 and 4, rules R212 and R213). -/

namespace Sys2Proof.Machine

/-! The stream header. -/

/-- `wbits <- w`, `ctl <- C_MB_START` (R180); `wsize` is a function of `wbits` (R24). -/
def setWbits (w : Nat) : M Unit := modify fun s => { s with wbits := w, ctl := .mbStart }

/-! The meta-block header. -/

/-- `ISLAST` (R182). -/
def islast : M Unit := do
  let b ← bits 1
  modify fun s => { s with last := decide (b = 1) }

/-- `MLEN(nn)` (R186): all nibbles, the nibble test, then the capacity test of the mode (R347). -/
def mlen (nn : Nat) : M Unit := do
  let v ← bits (4 * nn)
  require (¬ (4 < nn ∧ v >>> (4 * (nn - 1)) = 0)) (.invalid .moreNibbles)
  modify fun s => { s with mlen := v + 1 }
  let s ← get
  require (s.fits s.mlen = true) (if s.compare then .compareMismatch else .outOfMemory)

/-- The loop of R187. -/
def rawLoop : Nat → M Unit
  | 0 => pure ()
  | k + 1 => do
    let b ← rawbyte
    emit b
    modify fun s => { s with mlen := s.mlen - 1 }
    rawLoop k

/-- `RAWCOPY` (R187). -/
def rawcopy : M Unit := do
  align
  let s ← get
  require (s.mlen ≤ s.ports.inLen - s.rd.inNext) .prematureEof
  rawLoop s.mlen

/-- `META.RSVD` (R188). -/
def metaRsvd : M Unit := do
  let b ← bits 1
  require (b ≠ 1) (.invalid .reservedBit)

/-- `MSKIPLEN(sb)` (R189). -/
def mskiplen (sb : Nat) : M Nat :=
  if sb = 0 then pure 0
  else do
    let v ← bits (8 * sb)
    let s ← get
    require (¬ (s.ports.checkMskipTop = true ∧ 1 < sb ∧ v >>> (8 * (sb - 1)) = 0)) (.invalid .moreBytes)
    pure (v + 1)

/-- `META.SKIP(k)` (R190). -/
def metaSkip (k : Nat) : M Unit := do
  align
  skip k

/-! The compressed meta-block header. -/

/-- `NPOSTFIX` (R195). -/
def npostfix : M Unit := do
  let v ← bits 2
  modify fun s => { s with npostfix := v }

/-- `NDIRECT` (R196); `dalpha` is a function of `postfix` and `direct` (R28). -/
def ndirect : M Unit := do
  let nibble ← bits 4
  modify fun s => { s with direct := nibble <<< s.npostfix }

/-- `CMODE(t)` (R197). -/
def cmode (t : Nat) : M Unit := do
  let v ← bits 2
  modify fun s => { s with modes := putEntry .lsb6 s.modes t (ctxModeOf v) }

/-- `CMODE(t)` for `k` types from `t` on (R192). -/
def cmodes : Nat → Nat → M Unit
  | 0, _ => pure ()
  | k + 1, t => do
    cmode t
    cmodes k (t + 1)

/-- `NTREESL` (R198). -/
def ntreesl : M Unit := do
  let n ← nbltypes
  modify fun s => { s with litCodes := n }
  let s ← get
  let m ← cmap (64 * s.blkL.num) s.litCodes
  modify fun s => { s with litMap := m }

/-- `NTREESD` (R199). -/
def ntreesd : M Unit := do
  let n ← nbltypes
  modify fun s => { s with distCodes := n }
  let s ← get
  let m ← cmap (4 * s.blkD.num) s.distCodes
  modify fun s => { s with distMap := m }

/-- `n` descriptors over `a` symbols (R200). -/
def readCodes (a : Nat) : Nat → M (List Table)
  | 0 => pure []
  | k + 1 => do
    let t ← readCode a
    let r ← readCodes a k
    pure (t :: r)

/-- `BANKS` (R200): each bank is allocated anew for the meta-block (R31). A bank is written when all its descriptors are read:
after a `raise` between them it holds what it held, where R200 would have written the entries read (DESIGN CHOICE,
notes/assumptions/11.md; U11 allows any value). -/
def banks : M Unit := do
  let s ← get
  let lit ← readCodes 256 s.litCodes
  modify fun s => { s with litBank := lit }
  let iac ← readCodes 704 s.blkI.num
  modify fun s => { s with iacBank := iac }
  let dist ← readCodes s.dalpha s.distCodes
  modify fun s => { s with distBank := dist }

/-- `HEADER` (R192): the order is the stream order. -/
def header : M Unit := do
  blkdesc .L
  blkdesc .I
  blkdesc .D
  npostfix
  ndirect
  modify fun s => { s with modes := [] }
  let s ← get
  cmodes s.blkL.num 0
  ntreesl
  ntreesd
  banks

/-! The ends. -/

/-- `MB.END` (R212). -/
def mbEnd : M Unit := modify fun s => { s with ctl := if s.last then .fin else .mbStart }

/-- `STREAM.END` (R213). -/
def streamEnd : M Unit := do
  align
  let s ← get
  require (¬ (s.compare = true ∧ s.got ≠ s.haveLen)) .compareMismatch
  modify fun s => { s with consumed := s.rd.inNext, result := some .ok, ctl := .done, todo := [] }

/-! The instructions. -/

/-- `WBITS.16` (R180). -/
def execWbits16 (s : State) : Host.Outcome State Fault Refusal := complete (setWbits 16) keepNone s

/-- `WBITS.18_24` (R180): `17 + b`. -/
def execWbits18to24 (b : Nat) (s : State) : Host.Outcome State Fault Refusal := complete (setWbits (17 + b)) keepNone s

/-- `WBITS.17` (R180). -/
def execWbits17 (s : State) : Host.Outcome State Fault Refusal := complete (setWbits 17) keepNone s

/-- `WBITS.9` (R180): the unused code point. -/
def execWbits9 (s : State) : Host.Outcome State Fault Refusal :=
  complete (raise (α := Unit) (.invalid .wbits9)) keepNone s

/-- `WBITS.10_15` (R180): `8 + c`. -/
def execWbits10to15 (c : Nat) (s : State) : Host.Outcome State Fault Refusal := complete (setWbits (8 + c)) keepNone s

/-- `ISLAST` (R182). -/
def execIslast (s : State) : Host.Outcome State Fault Refusal := complete islast keepNone s

/-- `ISLASTEMPTY` (R183). -/
def execIslastempty (s : State) : Host.Outcome State Fault Refusal := complete (bits 1) keepVal s

/-- `MNIBBLES` (R184). -/
def execMnibbles (s : State) : Host.Outcome State Fault Refusal := complete (bits 2) keepVal s

/-- `MLEN(nn)` (R186). -/
def execMlen (nn : Nat) (s : State) : Host.Outcome State Fault Refusal := complete (mlen nn) keepNone s

/-- `ISUNCOMPRESSED` (R185). -/
def execIsuncompressed (s : State) : Host.Outcome State Fault Refusal := complete (bits 1) keepVal s

/-- `RAWCOPY` (R187). -/
def execRawcopy (s : State) : Host.Outcome State Fault Refusal := complete rawcopy keepNone s

/-- `META.RSVD` (R188). -/
def execMetaRsvd (s : State) : Host.Outcome State Fault Refusal := complete metaRsvd keepNone s

/-- `MSKIPBYTES` (R191). -/
def execMskipbytes (s : State) : Host.Outcome State Fault Refusal := complete (bits 2) keepVal s

/-- `MSKIPLEN(sb)` (R189). -/
def execMskiplen (sb : Nat) (s : State) : Host.Outcome State Fault Refusal := complete (mskiplen sb) keepVal s

/-- `META.SKIP(k)` (R190). -/
def execMetaSkip (k : Nat) (s : State) : Host.Outcome State Fault Refusal := complete (metaSkip k) keepNone s

/-- `HEADER` (R192). -/
def execHeader (s : State) : Host.Outcome State Fault Refusal := complete header keepNone s

/-- `NPOSTFIX` (R195). -/
def execNpostfix (s : State) : Host.Outcome State Fault Refusal := complete npostfix keepNone s

/-- `NDIRECT` (R196). -/
def execNdirect (s : State) : Host.Outcome State Fault Refusal := complete ndirect keepNone s

/-- `CMODE(t)` (R197). -/
def execCmode (t : Nat) (s : State) : Host.Outcome State Fault Refusal := complete (cmode t) keepNone s

/-- `NTREESL` (R198). -/
def execNtreesl (s : State) : Host.Outcome State Fault Refusal := complete ntreesl keepNone s

/-- `NTREESD` (R199). -/
def execNtreesd (s : State) : Host.Outcome State Fault Refusal := complete ntreesd keepNone s

/-- `BANKS` (R200). -/
def execBanks (s : State) : Host.Outcome State Fault Refusal := complete banks keepNone s

/-- `MB.END` (R212). -/
def execMbEnd (s : State) : Host.Outcome State Fault Refusal := complete mbEnd keepNone s

/-- `STREAM.END` (R213). -/
def execStreamEnd (s : State) : Host.Outcome State Fault Refusal := complete streamEnd keepNone s

end Sys2Proof.Machine
end

