-- ==== Sys2Proof/Machine/ReaderOps.lean ====
section
/-! DEFINITION. The bit reader's operations and the output primitive as instructions (spec/40_bit_reader.md,
spec/20_memory.md R66). -/

namespace Sys2Proof.Machine

/-- `BITS(n)` (R120): the value goes to the value latch. -/
def execBits (n : Nat) (s : State) : Host.Outcome State Fault Refusal := complete (bits n) keepVal s

/-- `ALIGN()` (R121). -/
def execAlign (s : State) : Host.Outcome State Fault Refusal := complete align keepNone s

/-- `RAWBYTE()` (R123). -/
def execRawbyte (s : State) : Host.Outcome State Fault Refusal := complete rawbyte (fun b => keepVal b.toNat) s

/-- `SKIP(k)` (R124). -/
def execSkip (k : Nat) (s : State) : Host.Outcome State Fault Refusal := complete (skip k) keepNone s

/-- `EMIT(b)` (R66). -/
def execEmit (b : Byte) (s : State) : Host.Outcome State Fault Refusal := complete (emit b) keepNone s

end Sys2Proof.Machine
end

