-- ==== Sys2Proof/Machine/Sequencer.lean ====
section
/-! DEFINITION. The sequencer: which element is fetched next, the fetch, and the transitions of the control-state
machine (spec/42_metablock.md R181). One step is one operation of R181 (notes/assumptions/1.md): the operations a
control state lists after its first stand in `todo`. -/

namespace Sys2Proof.Machine

/-- The first operation of each control state (R181). -/
def Ctl.entry : Ctl → Option Elem
  | .stream => some .wbits
  | .mbStart => some (.oper .islast)
  | .mbHdr => some (.oper .mnibbles)
  | .cmd => some (.oper .cmd)
  | .lit => some (.oper .lit)
  | .copy => some (.oper .dist)
  | .mbEnd => some (.oper .mbEnd)
  | .fin => some (.oper .streamEnd)
  | .done => none

/-- The element to be fetched next. -/
def State.nextElem (s : State) : Option Elem :=
  if s.ctl = .done then none
  else match s.todo with
    | e :: _ => some e
    | [] => s.ctl.entry

/-- Fetching an operation: the element's row is decoded from the stream bits ahead, and the bits that select it are
consumed. Bits that are not there are `PrematureEof` (R342); a simple descriptor's symbol out of range is `Invalid`
(R148); one that repeats a symbol has no meaning (R149). Where the fetch raises, the
cursor stays where it was, although the reads of the element would have consumed bits before the `raise` (R348): this model's
choice (DESIGN CHOICE, notes/assumptions/11.md), which no run shows. -/
def fetch : M Instr := do
  let s ← get
  match s.nextElem with
  | none => stopFault .runEnded
  | some e =>
    match decode e (s.lookahead e.maxBits) with
    | .ok (i, k) => do
      modify fun s => { s with todo := s.todo.tail }
      consume k
      pure i
    | .error .needMoreBits => raise .prematureEof
    | .error .symbolOutOfRange => raise (.invalid .symbolOutOfRange)
    | .error .repeatedSymbol => refuse .dupSimple
    | .error d => refuse (.undecodable d)

/-- Put the operations that follow in the same control state in front of `todo`. -/
def State.goOn (s : State) (ops : List Instr) : State := { s with todo := ops.map .oper ++ s.todo }

/-- The transition out of `C_CMD` and `C_LIT` (R181, R207). -/
def State.afterInsert (s : State) : State :=
  { s with ctl := if 0 < s.insLeft then .lit else if s.mlen = 0 then .mbEnd else .copy }

/-- What follows an operation that completed (R181). An operation that raised has ended the run; `WBITS`, `MB.END` and
`STREAM.END` write `ctl` themselves; every operation that is not named in R181 leaves the control state alone. -/
def State.advance (i : Instr) (s : State) : State :=
  if s.ctl = .done then s
  else match i with
    | .islast => if s.last then s.goOn [.islastempty] else { s with ctl := .mbHdr }
    | .islastempty => { s with ctl := if s.lat.val = 1 then .fin else .mbHdr }
    | .mnibbles => if s.lat.val = 3 then s.goOn [.metaRsvd] else s.goOn [.mlen (4 + s.lat.val)]
    | .metaRsvd => s.goOn [.mskipbytes]
    | .mskipbytes => s.goOn [.mskiplen s.lat.val]
    | .mskiplen _ => s.goOn [.metaSkip s.lat.val]
    | .metaSkip _ => { s with ctl := .mbEnd }
    | .mlen _ => if s.last then s.goOn [.header] else s.goOn [.isuncompressed]
    | .isuncompressed => if s.lat.val = 1 then s.goOn [.rawcopy] else s.goOn [.header]
    | .rawcopy => { s with ctl := .mbEnd }
    | .header => { s with ctl := .cmd }
    | .cmd => s.afterInsert
    | .lit => s.afterInsert
    | .dist => s.goOn [.copy]
    | .copy => { s with ctl := if 0 < s.mlen then .cmd else .mbEnd }
    | .bits _ | .align | .rawbyte | .skip _ | .emit _ | .build _ | .sym _ | .readCode _ | .simple _ | .simple1 _ _
    | .simple2 _ _ _ | .simple3 _ _ _ _ | .simple4a _ _ _ _ _ | .simple4b _ _ _ _ _ | .complex _ _ | .clcl _
    | .clclV0 | .clclV1 | .clclV2 | .clclV3 | .clclV4 | .clclV5 | .clLen _ | .clRep | .clZero | .wbits16
    | .wbits18to24 _ | .wbits17 | .wbits9 | .wbits10to15 _ | .npostfix | .ndirect | .cmode _ | .ntreesl | .ntreesd
    | .banks | .copyPast | .copyDict _ _ | .mbEnd | .streamEnd | .nbltypes1 | .nbltypesN | .blen _ | .blenS0
    | .blenS1 | .blenS2 | .blenS3 | .blenS4 | .blenS5 | .blenS6 | .blenS7 | .blenS8 | .blenS9 | .blenS10 | .blenS11
    | .blenS12 | .blenS13 | .blenS14 | .blenS15 | .blenS16 | .blenS17 | .blenS18 | .blenS19 | .blenS20 | .blenS21
    | .blenS22 | .blenS23 | .blenS24 | .blenS25 | .blkdesc _ | .tick _ | .bswitch _ | .bswitchPrev _ | .bswitchNext _
    | .bswitchAbs _ _ | .iacsplit _ | .iacRow0 _ | .iacRow1 _ | .iacRow2 _ | .iacRow3 _ | .iacRow4 _ | .iacRow5 _
    | .iacRow6 _ | .iacRow7 _ | .iacRow8 _ | .iacRow9 _ | .iacRow10 _ | .insC0 | .insC1 | .insC2 | .insC3 | .insC4
    | .insC5 | .insC6 | .insC7 | .insC8 | .insC9 | .insC10 | .insC11 | .insC12 | .insC13 | .insC14 | .insC15
    | .insC16 | .insC17 | .insC18 | .insC19 | .insC20 | .insC21 | .insC22 | .insC23 | .copyC0 | .copyC1 | .copyC2
    | .copyC3 | .copyC4 | .copyC5 | .copyC6 | .copyC7 | .copyC8 | .copyC9 | .copyC10 | .copyC11 | .copyC12 | .copyC13
    | .copyC14 | .copyC15 | .copyC16 | .copyC17 | .copyC18 | .copyC19 | .copyC20 | .copyC21 | .copyC22 | .copyC23
    | .rlemax0 _ | .rlemaxN _ | .cmap _ _ | .cmZero | .cmRun _ | .cmVal _ | .imtfFlag | .imtf | .ctx _ | .ctxLsb6
    | .ctxMsb6 | .ctxUtf8 | .ctxSigned | .dctx _ | .distval _ | .dRing0 | .dRing1 | .dRing2 | .dRing3 | .dRing4
    | .dRing5 | .dRing6 | .dRing7 | .dRing8 | .dRing9 | .dRing10 | .dRing11 | .dRing12 | .dRing13 | .dRing14
    | .dRing15 | .dDirect _ | .dLong _ | .ringpush _ | .xId | .xUpfirst | .xUpall | .xOmitfirst _ | .xOmitlast _ => s

/-- The state with the operation of a table word put where the fetch takes its next element
(notes/assumptions/3.md, 16.md): a word that names no operation changes nothing. -/
def State.placeWord (s : State) (nbits w : Nat) : State :=
  match tableElem nbits w with
  | none => s
  | some e => { s with todo := e :: s.todo, ctl := if s.ctl = .done then .stream else s.ctl }

end Sys2Proof.Machine
end

