-- ==== Sys2Proof/Machine/Dispatch.lean ====
section
/-! DEFINITION. The meaning of every operation: one arm per constructor. -/

namespace Sys2Proof.Machine

/-- The effect of an operation on the state (spec/00_scope.md R10). -/
def exec (i : Instr) (s : State) : Host.Outcome State Fault Refusal :=
  match i with
  | .bits n => Sys2Proof.Machine.execBits n s
  | .align => Sys2Proof.Machine.execAlign s
  | .rawbyte => Sys2Proof.Machine.execRawbyte s
  | .skip k => Sys2Proof.Machine.execSkip k s
  | .emit b => Sys2Proof.Machine.execEmit b s
  | .build lengths => Sys2Proof.Machine.execBuild lengths s
  | .sym code => Sys2Proof.Machine.execSym code s
  | .readCode a => Sys2Proof.Machine.execReadCode a s
  | .simple a => Sys2Proof.Machine.execSimple a s
  | .simple1 _ s1 => Sys2Proof.Machine.execSimple1 s1 s
  | .simple2 _ s1 s2 => Sys2Proof.Machine.execSimple2 s1 s2 s
  | .simple3 _ s1 s2 s3 => Sys2Proof.Machine.execSimple3 s1 s2 s3 s
  | .simple4a _ s1 s2 s3 s4 => Sys2Proof.Machine.execSimple4a s1 s2 s3 s4 s
  | .simple4b _ s1 s2 s3 s4 => Sys2Proof.Machine.execSimple4b s1 s2 s3 s4 s
  | .complex a hskip => Sys2Proof.Machine.execComplex a hskip s
  | .clcl hskip => Sys2Proof.Machine.execClcl hskip s
  | .clclV0 => Sys2Proof.Machine.execClclV0 s
  | .clclV1 => Sys2Proof.Machine.execClclV1 s
  | .clclV2 => Sys2Proof.Machine.execClclV2 s
  | .clclV3 => Sys2Proof.Machine.execClclV3 s
  | .clclV4 => Sys2Proof.Machine.execClclV4 s
  | .clclV5 => Sys2Proof.Machine.execClclV5 s
  | .clLen v => Sys2Proof.Machine.execClLen v s
  | .clRep => Sys2Proof.Machine.execClRep s
  | .clZero => Sys2Proof.Machine.execClZero s
  | .wbits16 => Sys2Proof.Machine.execWbits16 s
  | .wbits18to24 b => Sys2Proof.Machine.execWbits18to24 b s
  | .wbits17 => Sys2Proof.Machine.execWbits17 s
  | .wbits9 => Sys2Proof.Machine.execWbits9 s
  | .wbits10to15 c => Sys2Proof.Machine.execWbits10to15 c s
  | .islast => Sys2Proof.Machine.execIslast s
  | .islastempty => Sys2Proof.Machine.execIslastempty s
  | .mnibbles => Sys2Proof.Machine.execMnibbles s
  | .mlen nn => Sys2Proof.Machine.execMlen nn s
  | .isuncompressed => Sys2Proof.Machine.execIsuncompressed s
  | .rawcopy => Sys2Proof.Machine.execRawcopy s
  | .metaRsvd => Sys2Proof.Machine.execMetaRsvd s
  | .mskipbytes => Sys2Proof.Machine.execMskipbytes s
  | .mskiplen sb => Sys2Proof.Machine.execMskiplen sb s
  | .metaSkip k => Sys2Proof.Machine.execMetaSkip k s
  | .header => Sys2Proof.Machine.execHeader s
  | .npostfix => Sys2Proof.Machine.execNpostfix s
  | .ndirect => Sys2Proof.Machine.execNdirect s
  | .cmode t => Sys2Proof.Machine.execCmode t s
  | .ntreesl => Sys2Proof.Machine.execNtreesl s
  | .ntreesd => Sys2Proof.Machine.execNtreesd s
  | .banks => Sys2Proof.Machine.execBanks s
  | .cmd => Sys2Proof.Machine.execCmd s
  | .lit => Sys2Proof.Machine.execLit s
  | .dist => Sys2Proof.Machine.execDist s
  | .copy => Sys2Proof.Machine.execCopy s
  | .copyPast => Sys2Proof.Machine.execCopyPast s
  | .copyDict id len => Sys2Proof.Machine.execCopyDict id len s
  | .mbEnd => Sys2Proof.Machine.execMbEnd s
  | .streamEnd => Sys2Proof.Machine.execStreamEnd s
  | .nbltypes1 => Sys2Proof.Machine.execNbltypes1 s
  | .nbltypesN => Sys2Proof.Machine.execNbltypesN s
  | .blen code => Sys2Proof.Machine.execBlen code s
  | .blenS0 => Sys2Proof.Machine.execBlenS0 s
  | .blenS1 => Sys2Proof.Machine.execBlenS1 s
  | .blenS2 => Sys2Proof.Machine.execBlenS2 s
  | .blenS3 => Sys2Proof.Machine.execBlenS3 s
  | .blenS4 => Sys2Proof.Machine.execBlenS4 s
  | .blenS5 => Sys2Proof.Machine.execBlenS5 s
  | .blenS6 => Sys2Proof.Machine.execBlenS6 s
  | .blenS7 => Sys2Proof.Machine.execBlenS7 s
  | .blenS8 => Sys2Proof.Machine.execBlenS8 s
  | .blenS9 => Sys2Proof.Machine.execBlenS9 s
  | .blenS10 => Sys2Proof.Machine.execBlenS10 s
  | .blenS11 => Sys2Proof.Machine.execBlenS11 s
  | .blenS12 => Sys2Proof.Machine.execBlenS12 s
  | .blenS13 => Sys2Proof.Machine.execBlenS13 s
  | .blenS14 => Sys2Proof.Machine.execBlenS14 s
  | .blenS15 => Sys2Proof.Machine.execBlenS15 s
  | .blenS16 => Sys2Proof.Machine.execBlenS16 s
  | .blenS17 => Sys2Proof.Machine.execBlenS17 s
  | .blenS18 => Sys2Proof.Machine.execBlenS18 s
  | .blenS19 => Sys2Proof.Machine.execBlenS19 s
  | .blenS20 => Sys2Proof.Machine.execBlenS20 s
  | .blenS21 => Sys2Proof.Machine.execBlenS21 s
  | .blenS22 => Sys2Proof.Machine.execBlenS22 s
  | .blenS23 => Sys2Proof.Machine.execBlenS23 s
  | .blenS24 => Sys2Proof.Machine.execBlenS24 s
  | .blenS25 => Sys2Proof.Machine.execBlenS25 s
  | .blkdesc c => Sys2Proof.Machine.execBlkdesc c s
  | .tick c => Sys2Proof.Machine.execTick c s
  | .bswitch c => Sys2Proof.Machine.execBswitch c s
  | .bswitchPrev c => Sys2Proof.Machine.execBswitchPrev c s
  | .bswitchNext c => Sys2Proof.Machine.execBswitchNext c s
  | .bswitchAbs c n => Sys2Proof.Machine.execBswitchAbs c n s
  | .iacsplit v => Sys2Proof.Machine.execIacsplit v s
  | .iacRow0 v => Sys2Proof.Machine.execIacRow0 v s
  | .iacRow1 v => Sys2Proof.Machine.execIacRow1 v s
  | .iacRow2 v => Sys2Proof.Machine.execIacRow2 v s
  | .iacRow3 v => Sys2Proof.Machine.execIacRow3 v s
  | .iacRow4 v => Sys2Proof.Machine.execIacRow4 v s
  | .iacRow5 v => Sys2Proof.Machine.execIacRow5 v s
  | .iacRow6 v => Sys2Proof.Machine.execIacRow6 v s
  | .iacRow7 v => Sys2Proof.Machine.execIacRow7 v s
  | .iacRow8 v => Sys2Proof.Machine.execIacRow8 v s
  | .iacRow9 v => Sys2Proof.Machine.execIacRow9 v s
  | .iacRow10 v => Sys2Proof.Machine.execIacRow10 v s
  | .insC0 => Sys2Proof.Machine.execInsC0 s
  | .insC1 => Sys2Proof.Machine.execInsC1 s
  | .insC2 => Sys2Proof.Machine.execInsC2 s
  | .insC3 => Sys2Proof.Machine.execInsC3 s
  | .insC4 => Sys2Proof.Machine.execInsC4 s
  | .insC5 => Sys2Proof.Machine.execInsC5 s
  | .insC6 => Sys2Proof.Machine.execInsC6 s
  | .insC7 => Sys2Proof.Machine.execInsC7 s
  | .insC8 => Sys2Proof.Machine.execInsC8 s
  | .insC9 => Sys2Proof.Machine.execInsC9 s
  | .insC10 => Sys2Proof.Machine.execInsC10 s
  | .insC11 => Sys2Proof.Machine.execInsC11 s
  | .insC12 => Sys2Proof.Machine.execInsC12 s
  | .insC13 => Sys2Proof.Machine.execInsC13 s
  | .insC14 => Sys2Proof.Machine.execInsC14 s
  | .insC15 => Sys2Proof.Machine.execInsC15 s
  | .insC16 => Sys2Proof.Machine.execInsC16 s
  | .insC17 => Sys2Proof.Machine.execInsC17 s
  | .insC18 => Sys2Proof.Machine.execInsC18 s
  | .insC19 => Sys2Proof.Machine.execInsC19 s
  | .insC20 => Sys2Proof.Machine.execInsC20 s
  | .insC21 => Sys2Proof.Machine.execInsC21 s
  | .insC22 => Sys2Proof.Machine.execInsC22 s
  | .insC23 => Sys2Proof.Machine.execInsC23 s
  | .copyC0 => Sys2Proof.Machine.execCopyC0 s
  | .copyC1 => Sys2Proof.Machine.execCopyC1 s
  | .copyC2 => Sys2Proof.Machine.execCopyC2 s
  | .copyC3 => Sys2Proof.Machine.execCopyC3 s
  | .copyC4 => Sys2Proof.Machine.execCopyC4 s
  | .copyC5 => Sys2Proof.Machine.execCopyC5 s
  | .copyC6 => Sys2Proof.Machine.execCopyC6 s
  | .copyC7 => Sys2Proof.Machine.execCopyC7 s
  | .copyC8 => Sys2Proof.Machine.execCopyC8 s
  | .copyC9 => Sys2Proof.Machine.execCopyC9 s
  | .copyC10 => Sys2Proof.Machine.execCopyC10 s
  | .copyC11 => Sys2Proof.Machine.execCopyC11 s
  | .copyC12 => Sys2Proof.Machine.execCopyC12 s
  | .copyC13 => Sys2Proof.Machine.execCopyC13 s
  | .copyC14 => Sys2Proof.Machine.execCopyC14 s
  | .copyC15 => Sys2Proof.Machine.execCopyC15 s
  | .copyC16 => Sys2Proof.Machine.execCopyC16 s
  | .copyC17 => Sys2Proof.Machine.execCopyC17 s
  | .copyC18 => Sys2Proof.Machine.execCopyC18 s
  | .copyC19 => Sys2Proof.Machine.execCopyC19 s
  | .copyC20 => Sys2Proof.Machine.execCopyC20 s
  | .copyC21 => Sys2Proof.Machine.execCopyC21 s
  | .copyC22 => Sys2Proof.Machine.execCopyC22 s
  | .copyC23 => Sys2Proof.Machine.execCopyC23 s
  | .rlemax0 len => Sys2Proof.Machine.execRlemax0 len s
  | .rlemaxN len => Sys2Proof.Machine.execRlemaxN len s
  | .cmap len trees => Sys2Proof.Machine.execCmap len trees s
  | .cmZero => Sys2Proof.Machine.execCmZero s
  | .cmRun v => Sys2Proof.Machine.execCmRun v s
  | .cmVal v => Sys2Proof.Machine.execCmVal v s
  | .imtfFlag => Sys2Proof.Machine.execImtfFlag s
  | .imtf => Sys2Proof.Machine.execImtf s
  | .ctx m => Sys2Proof.Machine.execCtx m s
  | .ctxLsb6 => Sys2Proof.Machine.execCtxLsb6 s
  | .ctxMsb6 => Sys2Proof.Machine.execCtxMsb6 s
  | .ctxUtf8 => Sys2Proof.Machine.execCtxUtf8 s
  | .ctxSigned => Sys2Proof.Machine.execCtxSigned s
  | .dctx copyLen => Sys2Proof.Machine.execDctx copyLen s
  | .distval v => Sys2Proof.Machine.execDistval v s
  | .dRing0 => Sys2Proof.Machine.execDRing0 s
  | .dRing1 => Sys2Proof.Machine.execDRing1 s
  | .dRing2 => Sys2Proof.Machine.execDRing2 s
  | .dRing3 => Sys2Proof.Machine.execDRing3 s
  | .dRing4 => Sys2Proof.Machine.execDRing4 s
  | .dRing5 => Sys2Proof.Machine.execDRing5 s
  | .dRing6 => Sys2Proof.Machine.execDRing6 s
  | .dRing7 => Sys2Proof.Machine.execDRing7 s
  | .dRing8 => Sys2Proof.Machine.execDRing8 s
  | .dRing9 => Sys2Proof.Machine.execDRing9 s
  | .dRing10 => Sys2Proof.Machine.execDRing10 s
  | .dRing11 => Sys2Proof.Machine.execDRing11 s
  | .dRing12 => Sys2Proof.Machine.execDRing12 s
  | .dRing13 => Sys2Proof.Machine.execDRing13 s
  | .dRing14 => Sys2Proof.Machine.execDRing14 s
  | .dRing15 => Sys2Proof.Machine.execDRing15 s
  | .dDirect v => Sys2Proof.Machine.execDDirect v s
  | .dLong v => Sys2Proof.Machine.execDLong v s
  | .ringpush d => Sys2Proof.Machine.execRingpush d s
  | .xId => Sys2Proof.Machine.execXId s
  | .xUpfirst => Sys2Proof.Machine.execXUpfirst s
  | .xUpall => Sys2Proof.Machine.execXUpall s
  | .xOmitfirst k => Sys2Proof.Machine.execXOmitfirst k s
  | .xOmitlast k => Sys2Proof.Machine.execXOmitlast k s

end Sys2Proof.Machine
end

