-- ==== Sys2Proof/Machine/Step.lean ====
section
/-! DEFINITION. One step of the machine: fetch an operation, execute it, take the control-state transition. -/

namespace Sys2Proof.Machine

/-- One step (R181, notes/assumptions/1.md). In `C_DONE` there is none (R23, R385). -/
def step (s : State) : Host.Outcome State Fault Refusal :=
  match fetch s with
  | .error (.raised s') => .next s'
  | .error (.fault f) => .fault f
  | .error (.refused r) => .refused r
  | .ok (i, s1) =>
    match exec i s1 with
    | .next s2 => .next (s2.advance i)
    | .fault f => .fault f
    | .refused r => .refused r

/-- The state with a table word where `step` fetches its next operation (notes/assumptions/16.md). -/
def State.withFetchWord (s : State) (nbits w : Nat) : State := s.placeWord nbits w

end Sys2Proof.Machine
end

