-- ==== Sys2Proof/Machine/HostPort.lean ====
section
/-! DEFINITION. The host's side: what it sets before a start, a run under a fuel bound, and what it may read when the
block is done (spec/70_reset_and_hazards.md R380 to R386, spec/60_exceptions.md R346). -/

namespace Sys2Proof.Machine

/-- The ports for decoding a byte sequence in normal mode with unbounded output (R383). -/
def Ports.decode (compressed : List Byte) : Ports :=
  { Ports.idle with input := Mem.ofBytes 0 compressed, inLen := compressed.length }

/-- The ports for decoding a byte sequence in compare mode (R383). -/
def Ports.compareWith (compressed expected : List Byte) : Ports :=
  { Ports.decode compressed with
    compareMode := true, expected := Mem.ofBytes 0 expected, expectedLen := expected.length }

/-- How a bounded run ends (R385): the block is done, the fuel is exhausted, or the model gives no meaning. -/
inductive RunEnd where
  | ended (s : State)
  | fuelExhausted (s : State)
  | faulted (f : Fault)
  | refused (r : Refusal)
  deriving DecidableEq, Repr

/-- Steps until `C_DONE`, at most `fuel` of them. -/
def run : Nat → State → RunEnd
  | 0, s => if s.isDone then .ended s else .fuelExhausted s
  | fuel + 1, s =>
    if s.isDone then .ended s
    else match step s with
      | .next s' => run fuel s'
      | .fault f => .faulted f
      | .refused r => .refused r

/-- What the host can observe in a state (R346, R384): nothing before `C_DONE`. -/
def State.observe (s : State) : Option Observation :=
  if s.isDone then
    match s.result with
    | none => none
    | some .ok =>
      some { result := .ok, output := if s.compare then none else some (s.out.bytes 0 s.got), got := some s.got,
             consumed := some s.consumed }
    | some .compareMismatch =>
      some { result := .compareMismatch, output := none, got := some s.got, consumed := none }
    | some r => some { result := r, output := none, got := none, consumed := none }
  else none

/-- The one operation of the block (R6, R386): `start` with the ports, then run. -/
def decodeStream (fuel : Nat) (p : Ports) : Option Observation :=
  match run fuel (State.started p) with
  | .ended s => s.observe
  | .fuelExhausted _ => none
  | .faulted _ => none
  | .refused _ => none

end Sys2Proof.Machine
end

