-- ==== Sys2Proof/Safety.lean ====
section
/-! DEFINITION. The terms claims use: the stream seen by bit position, and what a safe state is. Nothing here is
called by the machine. -/

namespace Sys2Proof

/-! Codewords (spec/41_prefix_code.md R143, R144). -/

/-- `first[n + 1]` of R143. -/
def Table.firstCode (t : Table) : Nat → Nat
  | 0 => 0
  | n + 1 => (Table.firstCode t n + t.count.getD (n + 1) 0) <<< 1

/-- `index[n + 1]` of R143: how many symbols have a codeword of at most `n` bits. -/
def Table.firstIndex (t : Table) : Nat → Nat
  | 0 => 0
  | n + 1 => Table.firstIndex t n + t.count.getD (n + 1) 0

/-- The stream bits of an `n`-bit codeword: its most significant bit is read first (R144). -/
def codewordBits (n c : Nat) : List Bool := (bitsLE n c).reverse

/-- `bits` is the codeword of symbol `v` (R143): no bits for the symbol of a single-symbol table; otherwise, for some
`j < count[n]`, the `n` bits of `first[n] + j`, a value that `n` bits can hold, where `v` is `symbol[index[n] + j]`. -/
def Table.isCodeword (t : Table) (v : Nat) (bits : List Bool) : Prop :=
  (t.count.getD 0 0 = 1 ∧ bits = [] ∧ t.symbol[0]? = some v) ∨
  (t.count.getD 0 0 ≠ 1 ∧ ∃ n j, n < 15 ∧ j < t.count.getD (n + 1) 0 ∧ t.firstCode n + j < 2 ^ (n + 1) ∧
    t.symbol[t.firstIndex n + j]? = some v ∧ bits = codewordBits (n + 1) (t.firstCode n + j))

/-- A valid table over an alphabet of `a` symbols (R141, R32). -/
def Table.over (a : Nat) (t : Table) : Bool := t.valid && t.symbol.all fun v => decide (v < a)

/-- The Kraft sum of a list of code lengths, in units of `2^-15`; a length 0 does not count (R141, R142). -/
def kraftOf (lengths : List Nat) : Nat := (lengths.map fun l => if l = 0 then 0 else 2 ^ (15 - l)).sum

/-! Elements in range. -/

/-- The parameters of an alphabet in the ranges the opcode table gives its rows. -/
def Alphabet.wf : Alphabet → Bool
  | .typeChange _ num => decide (2 ≤ num) && decide (num ≤ 256)
  | .cmap r trees => decide (r ≤ 16) && decide (2 ≤ trees) && decide (r + trees ≤ 271)
  | .distance direct dalpha => decide (direct ≤ 120) && decide (dalpha ≤ 520)
  | .codeLength | .blockLength | .insertAndCopy | .insertCode | .copyCode | .contextMode => true

/-- An element whose parameters are in range. -/
def Elem.wf : Elem → Bool
  | .rlemax len => decide (4 ≤ len) && decide (len ≤ 16384)
  | .desc a => alphabetOk a
  | .symbol alph _ => alph.wf
  | .wbits | .nbltypes | .clclLen | .oper _ => true

namespace Machine

/-! The stream by position (spec/00_scope.md R8, spec/10_state.md R22). -/

/-- Stream bit `i`: bit `i mod 8` of `IN[i / 8]` (R8). -/
def Ports.streamBit (p : Ports) (i : Nat) : Bool := (p.input.get (i / 8)).getLsbD (i % 8)

/-- The `n` stream bits from position `pos` on, in reading order. -/
def Ports.streamBits (p : Ports) (pos : Nat) : Nat → List Bool
  | 0 => []
  | n + 1 => p.streamBit pos :: Ports.streamBits p (pos + 1) n

/-- The value of the `n`-bit field at position `pos`: `sum of streambit(pos + i) * 2^i` (R8). -/
def Ports.field (p : Ports) (pos n : Nat) : Nat := natOfBits (p.streamBits pos n)

/-- The cursor of R21 that has consumed exactly the first `pos` stream bits: `in_next` is the number of bytes begun,
`left` the rest of the last one, `resid` its unread high bits. -/
def readerAt (p : Ports) (pos : Nat) : Reader where
  inNext := (pos + 7) / 8
  resid := if pos % 8 = 0 then 0 else p.input.get (pos / 8) >>> (pos % 8)
  left := (8 - pos % 8) % 8

/-- The state with the cursor moved to a stream position. -/
def State.seek (s : State) (pos : Nat) : State := { s with rd := readerAt s.ports pos }

/-- The cursor is a function of the stream position, and the position is within the stream (R21, R22). -/
def State.onStream (s : State) : Prop := s.rd = readerAt s.ports s.pos ∧ s.pos ≤ 8 * s.ports.inLen

/-- At least `n` stream bits are still to be read. -/
def State.hasBits (s : State) (n : Nat) : Prop := s.pos + n ≤ 8 * s.ports.inLen

/-- The field of `n` bits that is read next. -/
def State.nextField (s : State) (n : Nat) : Nat := s.ports.field s.pos n

/-- The `n` bits that are read next. -/
def State.nextBits (s : State) (n : Nat) : List Bool := s.ports.streamBits s.pos n

/-- The next `bits.length` stream bits are there and are `bits`. -/
def State.spells (s : State) (bits : List Bool) : Prop := s.hasBits bits.length ∧ s.nextBits bits.length = bits

/-- `PrematureEof`: the run ends with that result and, but for the cursor, everything else as it was. -/
def State.endsEarly (s : State) (o : Host.Outcome State Fault Refusal) : Prop :=
  ∃ r, o = .next (({ s with rd := r } : State).takeFault .prematureEof)

/-- The operation reads one field of `n` bits and does `f` with its value; without `n` bits it is `PrematureEof`. -/
def readsField (i : Instr) (n : Nat) (f : Nat → State → State) : Prop :=
  ∀ s, s.onStream → (s.hasBits n → exec i s = .next (f (s.nextField n) (s.seek (s.pos + n)))) ∧
    (¬ s.hasBits n → s.endsEarly (exec i s))

/-! Output (spec/20_memory.md R66). -/

/-- Bytes written to a space from an address on. -/
def Mem.writes : Mem → Nat → List Byte → Mem
  | m, _, [] => m
  | m, a, b :: l => Mem.writes (m.put a b) (a + 1) l

/-- `EMIT` accepts the byte as the `k`-th from here on (R66): in compare mode `got` has not reached `have` there, and the
byte is the expected one. -/
def State.acceptsAt (s : State) (k : Nat) (b : Byte) : Prop :=
  s.compare = true → s.got + k < s.haveLen ∧ s.ports.expected.get (s.got + k) = b

/-- Every byte of the list is accepted. -/
def State.accepts (s : State) (l : List Byte) : Prop := ∀ k (h : k < l.length), s.acceptsAt k l[k]

/-- Byte `k` of the list is the first that is not accepted. -/
def State.differsAt (s : State) (l : List Byte) (k : Nat) : Prop :=
  s.accepts (l.take k) ∧ ∃ h : k < l.length, ¬ s.acceptsAt k l[k]

/-- `CompareMismatch` after `k` more bytes: `got` counts them and nothing is stored (R62, R66). -/
def State.mismatches (s : State) (k : Nat) (o : Host.Outcome State Fault Refusal) : Prop :=
  ∃ u : State, o = .next (u.takeFault .compareMismatch) ∧ u.got = s.got + k ∧ u.out = s.out

/-- The state with the bytes produced. -/
def State.withOutput (s : State) (l : List Byte) : State :=
  { s with got := s.got + l.length, out := if s.compare then s.out else s.out.writes s.got l }

/-- Every listed address is below `n`. -/
def Mem.below (m : Mem) (n : Nat) : Bool := m.all fun c => decide (c.1 < n)

/-! Descriptors (spec/41_prefix_code.md sections 2 and 3). -/

/-- The alphabet size and the table of a simple descriptor's row (R150 to R154). -/
def simpleResult : Instr → Option (Nat × Table)
  | .simple1 a s1 => some (a, singleTable s1)
  | .simple2 a s1 s2 => some (a, simple2Table s1 s2)
  | .simple3 a s1 s2 s3 => some (a, simple3Table s1 s2 s3)
  | .simple4a a s1 s2 s3 s4 => some (a, simple4aTable s1 s2 s3 s4)
  | .simple4b a s1 s2 s3 s4 => some (a, simple4bTable s1 s2 s3 s4)
  | _ => none

/-- What a list of code-length-code lengths adds to the 5-bit Kraft sum (R157). -/
def clclSum (vs : List Nat) : Nat := (vs.map fun v => if v = 0 then 0 else 32 >>> v).sum

/-- `cl` after the values `vs` were read at the order positions from `hskip` on (R157). -/
def clOf (hskip : Nat) (vs : List Nat) : List Nat :=
  (vs.zipIdx hskip).foldl (fun cl p => cl.set (clclOrder.getD p.2 0) p.1) (List.replicate 18 0)

/-- `CLCL` reads on after `vs` (R157): positions are left and the sum is not full. -/
def clclGoesOn (hskip : Nat) (vs : List Nat) : Prop := vs.length < 18 - hskip ∧ clclSum vs < 32

/-- `CLCL` reads exactly the values `vs` and accepts them (R157): it reads on after each beginning of `vs`, and not
after `vs`, whose sum is not above 32. -/
def clclReads (hskip : Nat) (vs : List Nat) : Prop :=
  (∀ v ∈ vs, v ≤ 5) ∧ (∀ k, k < vs.length → clclGoesOn hskip (vs.take k)) ∧ ¬ clclGoesOn hskip vs ∧
    clclSum vs ≤ 32

/-- The codeword of the fixed code (R156). -/
def fixedCodeword : Nat → List Bool
  | 0 => [false, false]
  | 1 => [true, true, true, false]
  | 2 => [true, true, false]
  | 3 => [false, true]
  | 4 => [true, false]
  | _ => [true, true, true, true]

/-- The registers of `CLCL` after the values `vs` (R157). -/
def Desc.afterClcl (d : Desc) (hskip : Nat) (vs : List Nat) : Desc :=
  { d with cl := clOf hskip vs, pos := hskip + vs.length, space := 32 - (clclSum vs : Int)
           nz := (vs.filter fun v => v ≠ 0).length }

/-- The registers of a complex descriptor when stage 2 begins, with the code-length code `clc` (R158, R159). -/
def Desc.atStage2 (a hskip : Nat) (vs : List Nat) (clc : Table) : Desc :=
  { (Desc.start a hskip).afterClcl hskip vs with clc }

/-- The code-length code the values `vs` give (R158); `none` where it is incomplete. -/
def clcOf (hskip : Nat) (vs : List Nat) : Option Table :=
  if (vs.filter fun v => v ≠ 0).length = 1 then some (singleTable ((clOf hskip vs).findIdx fun l => l ≠ 0))
  else if clclSum vs = 32 then some (buildTable (clOf hskip vs)) else none

/-- How many extra bits follow a code-length symbol (R160 to R162). -/
def clExtra (v : Nat) : Nat := if v < 16 then 0 else if v = 16 then 2 else 3

/-- The descriptor registers after a code-length symbol `v` with extra bits of value `e` (R160 to R162). -/
def Desc.take (d : Desc) (v e : Nat) : Desc :=
  if v < 16 then
    { d with
      lens := d.lens ++ [v], rep := 0, zer := 0
      lastLen := if v = 0 then d.lastLen else v
      room := if v = 0 then d.room else d.room - ((32768 >>> v : Nat) : Int) }
  else if v = 16 then
    let add := repTotal d.rep e - d.rep
    { d with
      zer := 0, rep := repTotal d.rep e
      lens := d.lens ++ List.replicate add d.lastLen
      room := d.room - (add : Int) * ((32768 >>> d.lastLen : Nat) : Int) }
  else
    let add := zeroTotal d.zer e - d.zer
    { d with rep := 0, zer := zeroTotal d.zer e, lens := d.lens ++ List.replicate add 0 }

/-- Stage 2 reads on (R159). -/
def Desc.goesOn (d : Desc) : Prop := d.lens.length < d.alphabet ∧ 0 < d.room

/-- Stage 2 takes the registers from the first to the second state on these stream bits (R159 to R163). -/
inductive lengthsRead (clc : Table) : Desc → List Bool → Desc → Prop
  | stop (d : Desc) (h : ¬ d.goesOn) : lengthsRead clc d [] d
  | take (d d' : Desc) (v e : Nat) (word rest : List Bool) (h : d.goesOn) (hw : clc.isCodeword v word)
      (he : e < 2 ^ clExtra v) (hfit : (d.take v e).lens.length ≤ d.alphabet)
      (hr : lengthsRead clc (d.take v e) rest d') :
      lengthsRead clc d (word ++ bitsLE (clExtra v) e ++ rest) d'

/-- `bits` is what follows `HSKIP` in a complex descriptor over `a` symbols, and `t` is its table (R155 to R164). -/
def isComplex (a hskip : Nat) (t : Table) (bits : List Bool) : Prop :=
  ∃ vs clc rest d, clclReads hskip vs ∧ clcOf hskip vs = some clc ∧
    lengthsRead clc (.atStage2 a hskip vs clc) rest d ∧ d.room = 0 ∧
    t = buildTable (d.lens ++ List.replicate (a - d.lens.length) 0) ∧
    bits = vs.flatMap fixedCodeword ++ rest

/-- `bits` is a prefix-code descriptor over `a` symbols, and `t` is its table (R97, R146). -/
def isDescriptor (a : Nat) (t : Table) (bits : List Bool) : Prop :=
  (∃ i, i.wf = true ∧ simpleResult i = some (a, t) ∧ bits = (encode i).2) ∨
  (∃ hskip rest, (hskip = 0 ∨ hskip = 2 ∨ hskip = 3) ∧ isComplex a hskip t rest ∧ bits = bitsLE 2 hskip ++ rest)

/-- `bits` is a row of descriptors over `a` symbols, and the list is their tables (R200). -/
def isBank (a : Nat) : List Table → List Bool → Prop
  | [], bits => bits = []
  | t :: ts, bits => ∃ b r, isDescriptor a t b ∧ isBank a ts r ∧ bits = b ++ r

/-- A code over 18 symbols in which each of 0 to 15 has four bits: the lengths as `CLCL` reads them (R157). -/
def plainClcl : List Nat := clclOrder.map fun j => if j < 16 then 4 else 0

/-- A complex descriptor that spells out every length with four bits, up to the last that is not 0. -/
def plainComplex (lengths : List Nat) : List Bool :=
  plainClcl.flatMap fixedCodeword ++
    ((lengths.reverse.dropWhile fun l => l = 0).reverse).flatMap (codewordBits 4)

/-! Block switching (spec/43_block_switch.md). -/

/-- `bits` is the count `n` of R230. -/
def isCount (n : Nat) (bits : List Bool) : Prop :=
  (n = 1 ∧ bits = [false]) ∨
  (∃ k e, k < 8 ∧ e < 2 ^ k ∧ n = 1 + 2 ^ k + e ∧ bits = true :: (bitsLE 3 k ++ bitsLE k e))

/-- `bits` is a symbol `v` of `code` with its extra bits, and `n` is the block length (R232). -/
def isBlen (code : Table) (n : Nat) (bits : List Bool) : Prop :=
  ∃ v e word, v < 26 ∧ code.isCodeword v word ∧ e < 2 ^ blenExtra.getD v 0 ∧ n = blenBase.getD v 0 + e ∧
    bits = word ++ bitsLE (blenExtra.getD v 0) e

/-- `bits` is a block-switching descriptor, and `b` the state it leaves (R233). -/
def isBlkdesc (b : Block) (bits : List Bool) : Prop :=
  (b = { num := 1, cur := 0, prev := 1, cnt := none, tcode := none, lcode := none } ∧ isCount 1 bits) ∨
  (∃ n tcode lcode cnt b1 b2 b3 b4, 1 < n ∧ isCount n b1 ∧ isDescriptor (n + 2) tcode b2 ∧
    isDescriptor 26 lcode b3 ∧ isBlen lcode cnt b4 ∧ bits = b1 ++ b2 ++ b3 ++ b4 ∧
    b = { num := n, cur := 0, prev := 1, cnt := some cnt, tcode := some tcode, lcode := some lcode })

/-- The type that type-change symbol `n` installs (R235). -/
def Block.newType (b : Block) (n : Nat) : Nat :=
  if 1 < n then n - 2 else if n = 1 then (b.cur + 1) % b.num else b.prev

/-- A block switch of category `c` that the next stream bits spell, and the state it leaves (R235). -/
def State.switches (s : State) (c : Cat) (t : State) : Prop :=
  1 < (s.blk c).num ∧ (s.blk c).cnt = some 0 ∧
  ∃ tcode lcode n word cnt rest, (s.blk c).tcode = some tcode ∧ (s.blk c).lcode = some lcode ∧
    tcode.isCodeword n word ∧ isBlen lcode cnt rest ∧ s.spells (word ++ rest) ∧
    t = (s.seek (s.pos + (word ++ rest).length)).setBlk c
      { s.blk c with prev := (s.blk c).cur, cur := (s.blk c).newType n, cnt := some cnt }

/-- What accounting for one symbol of category `c` does (R234): nothing with one type; otherwise the counter goes down
by one, after a block switch where it stands at 0. -/
def State.ticks (s : State) (c : Cat) (t : State) : Prop :=
  ((s.blk c).num ≤ 1 ∧ t = s) ∨
  (∃ n, 1 < (s.blk c).num ∧ (s.blk c).cnt = some (n + 1) ∧ t = s.setBlk c { s.blk c with cnt := some n }) ∨
  (∃ u n, s.switches c u ∧ (u.blk c).cnt = some n ∧ t = u.setBlk c { u.blk c with cnt := some (n - 1) })

/-! Context maps (spec/45_context.md section 1). -/

/-- `bits` is the run-length maximum `r` of a map of `len` entries (R270). -/
def isRlemax (len r : Nat) (bits : List Bool) : Prop :=
  2 ^ r ≤ len ∧ ((r = 0 ∧ bits = [false]) ∨ (∃ e, e < 16 ∧ r = 1 + e ∧ bits = true :: bitsLE 4 e))

/-- The entries that map symbol `v` with extra bits of value `e` writes (R272 to R274). -/
def mapEntries (r v e : Nat) : List Nat :=
  if v = 0 then [0] else if v ≤ r then List.replicate (2 ^ v + e) 0 else [v - r]

/-- How many extra bits follow a map symbol (R272 to R274). -/
def mapExtra (r v : Nat) : Nat := if v = 0 then 0 else if v ≤ r then v else 0

/-- The map symbols spelled by these bits take the entries written from the first list to the second, which is full
(R271). -/
inductive entriesRead (code : Table) (r len : Nat) : List Nat → List Bool → List Nat → Prop
  | stop (m : List Nat) (h : ¬ m.length < len) : entriesRead code r len m [] m
  | take (m m' : List Nat) (v e : Nat) (word rest : List Bool) (h : m.length < len) (hw : code.isCodeword v word)
      (he : e < 2 ^ mapExtra r v) (hfit : (m ++ mapEntries r v e).length ≤ len)
      (hr : entriesRead code r len (m ++ mapEntries r v e) rest m') :
      entriesRead code r len m (word ++ bitsLE (mapExtra r v) e ++ rest) m'

/-- The inverse move-to-front transform of R276, from a given list. -/
def inverseMtf : List Nat → List Nat → List Nat
  | _, [] => []
  | mtf, i :: l => mtf.getD i 0 :: inverseMtf (moveToFront mtf i (mtf.getD i 0)) l

/-- The move-to-front transform: each value is replaced by its position in the list, and moved to the front. -/
def forwardMtf : List Nat → List Nat → List Nat
  | _, [] => []
  | mtf, v :: l => mtf.idxOf v :: forwardMtf (moveToFront mtf (mtf.idxOf v) v) l

/-- `bits` is a context map of `len` entries with `trees` trees, and `m` the map (R271). -/
def isMap (len trees : Nat) (m : List Nat) (bits : List Bool) : Prop :=
  (trees = 1 ∧ m = List.replicate len 0 ∧ bits = []) ∨
  (trees ≠ 1 ∧ ∃ r code m' b1 b2 b3 flag, isRlemax len r b1 ∧ isDescriptor (r + trees) code b2 ∧
    entriesRead code r len [] b3 m' ∧ bits = b1 ++ b2 ++ b3 ++ [flag] ∧
    ((flag = false ∧ m = m') ∨
      (flag = true ∧ (∀ i ∈ m', i < 256) ∧ m = inverseMtf (List.range 256) m')))

/-! Distances (spec/46_distance.md). -/

/-- How many extra bits follow a distance symbol (R290). -/
def State.distanceExtra (s : State) (v : Nat) : Nat :=
  if v < 16 + s.direct then 0 else longExtra s.npostfix s.direct v

/-- The distance of a symbol with extra bits of value `e` (R291, R294, R295). -/
def State.distanceOf (s : State) (v e : Nat) : Int :=
  if v < 16 then s.ringValue (back.getD v 0) (delta.getD v 0)
  else if v < 16 + s.direct then (v : Int) - 15
  else (longDistance s.npostfix s.direct v e : Int)

/-- The state after a distance is pushed (R298). -/
def State.pushed (s : State) (d : Nat) : State :=
  { s with ringPtr := s.ringPtr + 1
           ring := s.ring.set (s.ringPtr + 1 : Fin 4).val d (s.ringPtr + 1 : Fin 4).isLt }

/-- The `n` bytes of a copy from `d` bytes back (R72): the last `d` bytes produced, repeated. -/
def State.pastBytes (s : State) (d n : Nat) : List Byte :=
  (List.range n).map fun j => s.produced (s.got - d + j % d)

/-! What each operation writes. -/

/-- The pieces of state, by name. -/
inductive Fld where
  | ports | rd | ctl | todo | wbits | got | compare | haveLen | out | last | mlen | insLeft | ring | ringPtr
  | npostfix | direct | num (c : Cat) | cur (c : Cat) | prev (c : Cat) | cnt (c : Cat) | tcode (c : Cat)
  | lcode (c : Cat) | modes | litCodes | distCodes | litMap | distMap | litBank | iacBank | distBank | iacSym
  | copyLen | dsym | dist | descCl | descPos | descSpace | descNz | descClc | descAlphabet | descLens | descLast
  | descRep | descZer | descRoom | mapLen | mapRlemax | mapCode | mapEntries | mapMtf | result | consumed | latVal
  | latSval | latTbl | latMap | latWord | latInsLen
  deriving DecidableEq, Repr

/-- The piece of state is the same in both states. -/
def Fld.same (s t : State) : Fld → Prop
  | .ports => s.ports = t.ports
  | .rd => s.rd = t.rd
  | .ctl => s.ctl = t.ctl
  | .todo => s.todo = t.todo
  | .wbits => s.wbits = t.wbits
  | .got => s.got = t.got
  | .compare => s.compare = t.compare
  | .haveLen => s.haveLen = t.haveLen
  | .out => s.out = t.out
  | .last => s.last = t.last
  | .mlen => s.mlen = t.mlen
  | .insLeft => s.insLeft = t.insLeft
  | .ring => s.ring = t.ring
  | .ringPtr => s.ringPtr = t.ringPtr
  | .npostfix => s.npostfix = t.npostfix
  | .direct => s.direct = t.direct
  | .num c => (s.blk c).num = (t.blk c).num
  | .cur c => (s.blk c).cur = (t.blk c).cur
  | .prev c => (s.blk c).prev = (t.blk c).prev
  | .cnt c => (s.blk c).cnt = (t.blk c).cnt
  | .tcode c => (s.blk c).tcode = (t.blk c).tcode
  | .lcode c => (s.blk c).lcode = (t.blk c).lcode
  | .modes => s.modes = t.modes
  | .litCodes => s.litCodes = t.litCodes
  | .distCodes => s.distCodes = t.distCodes
  | .litMap => s.litMap = t.litMap
  | .distMap => s.distMap = t.distMap
  | .litBank => s.litBank = t.litBank
  | .iacBank => s.iacBank = t.iacBank
  | .distBank => s.distBank = t.distBank
  | .iacSym => s.iacSym = t.iacSym
  | .copyLen => s.copyLen = t.copyLen
  | .dsym => s.dsym = t.dsym
  | .dist => s.dist = t.dist
  | .descCl => s.desc.cl = t.desc.cl
  | .descPos => s.desc.pos = t.desc.pos
  | .descSpace => s.desc.space = t.desc.space
  | .descNz => s.desc.nz = t.desc.nz
  | .descClc => s.desc.clc = t.desc.clc
  | .descAlphabet => s.desc.alphabet = t.desc.alphabet
  | .descLens => s.desc.lens = t.desc.lens
  | .descLast => s.desc.lastLen = t.desc.lastLen
  | .descRep => s.desc.rep = t.desc.rep
  | .descZer => s.desc.zer = t.desc.zer
  | .descRoom => s.desc.room = t.desc.room
  | .mapLen => s.cmr.len = t.cmr.len
  | .mapRlemax => s.cmr.rlemax = t.cmr.rlemax
  | .mapCode => s.cmr.code = t.cmr.code
  | .mapEntries => s.cmr.map = t.cmr.map
  | .mapMtf => s.cmr.mtf = t.cmr.mtf
  | .result => s.result = t.result
  | .consumed => s.consumed = t.consumed
  | .latVal => s.lat.val = t.lat.val
  | .latSval => s.lat.sval = t.lat.sval
  | .latTbl => s.lat.tbl = t.lat.tbl
  | .latMap => s.lat.map = t.lat.map
  | .latWord => s.lat.word = t.lat.word
  | .latInsLen => s.lat.insLen = t.lat.insLen

/-- Everything but the pieces listed is the same in both states. -/
def sameBut (l : List Fld) (s t : State) : Prop := ∀ f, f ∉ l → f.same s t

/-- The registers of a complex descriptor (R35 item 2). -/
def descFlds : List Fld :=
  [.descCl, .descPos, .descSpace, .descNz, .descClc, .descAlphabet, .descLens, .descLast, .descRep, .descZer, .descRoom]

/-- The registers of a context map being read (R35 item 3). -/
def mapFlds : List Fld := [.mapLen, .mapRlemax, .mapCode, .mapEntries, .mapMtf]

/-- The state of one category (R29). -/
def blkFlds (c : Cat) : List Fld := [.num c, .cur c, .prev c, .cnt c, .tcode c, .lcode c]

/-- What counting down, with a block switch where it is due, writes (R234, R235). -/
def tickFlds (c : Cat) : List Fld := [.rd, .cur c, .prev c, .cnt c]

/-- What each operation's rule says it writes, the results of a fault apart. -/
def instrWrites : Instr → List Fld
  | .bits _ | .rawbyte | .sym _ | .islastempty | .mnibbles | .isuncompressed | .mskipbytes | .mskiplen _
  | .nbltypesN | .blen _ | .blenS0 | .blenS1 | .blenS2 | .blenS3 | .blenS4 | .blenS5 | .blenS6 | .blenS7 | .blenS8
  | .blenS9 | .blenS10 | .blenS11 | .blenS12 | .blenS13 | .blenS14 | .blenS15 | .blenS16 | .blenS17 | .blenS18
  | .blenS19 | .blenS20 | .blenS21 | .blenS22 | .blenS23 | .blenS24 | .blenS25 | .rlemaxN _ => [.rd, .latVal]
  | .nbltypes1 | .rlemax0 _ | .ctx _ | .ctxLsb6 | .ctxMsb6 | .ctxUtf8 | .ctxSigned | .dctx _ => [.latVal]
  | .align | .skip _ | .metaRsvd | .metaSkip _ => [.rd]
  | .emit _ => [.got, .out]
  | .build _ | .simple1 _ _ | .simple2 _ _ _ | .simple3 _ _ _ _ | .simple4a _ _ _ _ _ | .simple4b _ _ _ _ _ =>
    [.latTbl]
  | .simple _ => [.rd, .latTbl]
  | .readCode _ | .complex _ _ => .rd :: .latTbl :: descFlds
  | .clcl _ => [.rd, .descCl, .descPos, .descSpace, .descNz]
  | .clclV0 | .clclV1 | .clclV2 | .clclV3 | .clclV4 | .clclV5 => [.descCl, .descPos, .descSpace, .descNz]
  | .clLen _ => [.descLens, .descLast, .descRep, .descZer, .descRoom]
  | .clRep => [.rd, .descLens, .descRep, .descZer, .descRoom]
  | .clZero => [.rd, .descLens, .descRep, .descZer]
  | .wbits16 | .wbits18to24 _ | .wbits17 | .wbits10to15 _ => [.wbits, .ctl]
  | .wbits9 => []
  | .islast => [.rd, .last]
  | .mlen _ => [.rd, .mlen]
  | .rawcopy => [.rd, .mlen, .got, .out]
  | .header =>
    [.rd, .npostfix, .direct, .modes, .litCodes, .distCodes, .litMap, .distMap, .litBank, .iacBank, .distBank] ++
    blkFlds .L ++ blkFlds .I ++ blkFlds .D ++ descFlds ++ mapFlds
  | .npostfix => [.rd, .npostfix]
  | .ndirect => [.rd, .direct]
  | .cmode _ => [.rd, .modes]
  | .ntreesl => [.rd, .litCodes, .litMap] ++ descFlds ++ mapFlds
  | .ntreesd => [.rd, .distCodes, .distMap] ++ descFlds ++ mapFlds
  | .banks => [.rd, .litBank, .iacBank, .distBank] ++ descFlds
  | .cmd => tickFlds .I ++ [.iacSym, .copyLen, .mlen, .insLeft]
  | .lit => tickFlds .L ++ [.insLeft, .got, .out]
  | .dist => tickFlds .D ++ [.dsym, .dist, .ring, .ringPtr]
  | .copy | .copyPast | .copyDict _ _ => [.mlen, .got, .out]
  | .mbEnd => [.ctl]
  | .streamEnd => [.rd, .consumed, .result, .ctl, .todo]
  | .blkdesc c => .rd :: blkFlds c ++ descFlds
  | .tick c | .bswitch c => tickFlds c
  | .bswitchPrev c | .bswitchNext c | .bswitchAbs c _ => [.cur c, .prev c]
  | .iacsplit _ | .iacRow0 _ | .iacRow1 _ | .iacRow2 _ | .iacRow3 _ | .iacRow4 _ | .iacRow5 _ | .iacRow6 _
  | .iacRow7 _ | .iacRow8 _ | .iacRow9 _ | .iacRow10 _ => [.rd, .latInsLen, .copyLen]
  | .insC0 | .insC1 | .insC2 | .insC3 | .insC4 | .insC5 | .insC6 | .insC7 | .insC8 | .insC9 | .insC10 | .insC11
  | .insC12 | .insC13 | .insC14 | .insC15 | .insC16 | .insC17 | .insC18 | .insC19 | .insC20 | .insC21 | .insC22
  | .insC23 => [.rd, .latInsLen]
  | .copyC0 | .copyC1 | .copyC2 | .copyC3 | .copyC4 | .copyC5 | .copyC6 | .copyC7 | .copyC8 | .copyC9 | .copyC10
  | .copyC11 | .copyC12 | .copyC13 | .copyC14 | .copyC15 | .copyC16 | .copyC17 | .copyC18 | .copyC19 | .copyC20
  | .copyC21 | .copyC22 | .copyC23 => [.rd, .copyLen]
  | .cmap _ _ => [.rd, .latMap] ++ descFlds ++ mapFlds
  | .cmZero | .cmVal _ => [.mapEntries]
  | .cmRun _ => [.rd, .mapEntries]
  | .imtf => [.mapEntries, .mapMtf]
  | .imtfFlag => [.rd, .latVal, .mapEntries, .mapMtf]
  | .distval _ | .dLong _ => [.rd, .latSval]
  | .dRing0 | .dRing1 | .dRing2 | .dRing3 | .dRing4 | .dRing5 | .dRing6 | .dRing7 | .dRing8 | .dRing9 | .dRing10
  | .dRing11 | .dRing12 | .dRing13 | .dRing14 | .dRing15 | .dDirect _ => [.latSval]
  | .ringpush _ => [.ring, .ringPtr]
  | .xId | .xUpfirst | .xUpall | .xOmitfirst _ | .xOmitlast _ => [.latWord]

/-! Invariants (spec/10_state.md R36). -/

/-- The most bytes the run may produce (R36 item 2): `have` in compare mode, `OUT_CAP` in normal mode. -/
def State.bound (s : State) : Option Nat := if s.compare then some s.haveLen else s.ports.outCap

/-- The state of a category between operations (R29, R36 item 5, R237). -/
structure Block.Ok (b : Block) : Prop where
  num : 1 ≤ b.num ∧ b.num ≤ 256
  cur : b.cur < b.num
  prev : b.prev < max 2 b.num
  one : b.num = 1 → b.cnt = none
  more : 1 < b.num → b.cnt ≠ none ∧ (∃ t, b.tcode = some t ∧ t.over (b.num + 2) = true) ∧
    ∃ t, b.lcode = some t ∧ t.over 26 = true

/-- What the sequencer has still to fetch in each control state, with what holds there (R181). -/
def State.flow (s : State) : Prop :=
  match s.ctl with
  | .stream => s.todo = [] ∧ s.mlen = 0 ∧ s.insLeft = 0
  | .mbStart => (s.todo = [] ∨ (s.todo = [.oper .islastempty] ∧ s.last = true)) ∧ s.mlen = 0 ∧ s.insLeft = 0
  | .mbHdr => s.insLeft = 0 ∧
      ((s.mlen = 0 ∧ (s.todo = [] ∨ s.todo = [.oper .metaRsvd] ∨ s.todo = [.oper .mskipbytes] ∨
        (∃ sb, sb ≤ 3 ∧ s.todo = [.oper (.mskiplen sb)]) ∨
        (∃ k, k ≤ 16777216 ∧ s.todo = [.oper (.metaSkip k)]) ∨
        (∃ nn, 4 ≤ nn ∧ nn ≤ 6 ∧ s.todo = [.oper (.mlen nn)]))) ∨
      (0 < s.mlen ∧ (s.todo = [.oper .isuncompressed] ∨ s.todo = [.oper .rawcopy] ∨ s.todo = [.oper .header])))
  | .cmd => s.todo = [] ∧ 0 < s.mlen ∧ s.insLeft = 0
  | .lit => s.todo = [] ∧ 0 < s.insLeft
  | .copy => (s.todo = [] ∨ (s.todo = [.oper .copy] ∧ 1 ≤ s.dist)) ∧ 0 < s.mlen ∧ s.insLeft = 0
  | .mbEnd => s.todo = [] ∧ s.mlen = 0 ∧ s.insLeft = 0
  | .fin => s.todo = [] ∧ s.mlen = 0 ∧ s.insLeft = 0
  | .done => s.todo = []

/-- What holds of a run that has not ended (R36, R38, R122 (d), R277, R299). -/
structure State.Running (s : State) : Prop where
  live : s.ctl ≠ .done
  noResult : s.result = none
  cursor : s.onStream
  mode : s.compare = s.ports.compareMode ∧ s.haveLen = s.ports.expectedLen
  out : s.out.wf = true ∧ s.out.below s.got = true
  noStorage : s.compare = true → s.out = []
  wbits : 10 ≤ s.wbits ∧ s.wbits ≤ 24
  ring : ∀ k : Fin 4, 1 ≤ s.ring[k]
  distance : s.npostfix ≤ 3 ∧ s.direct ≤ 15 <<< s.npostfix
  blocks : ∀ c, (s.blk c).Ok
  modes : s.modes.length = s.blkL.num
  litMap : s.litMap.length = 64 * s.blkL.num ∧ ∀ k ∈ s.litMap, k < s.litCodes
  distMap : s.distMap.length = 4 * s.blkD.num ∧ ∀ k ∈ s.distMap, k < s.distCodes
  litBank : s.litBank.length = s.litCodes ∧ ∀ t ∈ s.litBank, t.over 256 = true
  iacBank : s.iacBank.length = s.blkI.num ∧ ∀ t ∈ s.iacBank, t.over 704 = true
  distBank : s.distBank.length = s.distCodes ∧ ∀ t ∈ s.distBank, t.over s.dalpha = true
  copyLen : 2 ≤ s.copyLen
  capacity : ∀ n, s.bound = some n → s.got + s.insLeft + s.mlen ≤ n
  flow : s.flow

/-- What holds of a run that has ended (R340, R344, R385): a result is latched and no operation is left. -/
structure State.Ended (s : State) : Prop where
  stopped : s.ctl = .done
  result : s.result ≠ none
  todo : s.todo = []
  out : s.out.wf = true ∧ s.out.below s.got = true

/-- The invariant of every run. -/
def State.Inv (s : State) : Prop := s.Running ∨ s.Ended

/-- How many bytes the character that begins with byte `c` occupies (R324). -/
def charLen (u : Upper4) (c : Byte) : Nat :=
  if c < 0xC0 then 1 else if c < 0xE0 then 2 else if c < 0xF0 ∨ u = .third then 3 else 4

end Machine

end Sys2Proof
end

