-- ==== Sys2Proof/Certificates/Slice0/Obligations.lean ====
section
/-! DEFINITION. The statements for the provers. Each docstring names the rules of spec/ it formalises; the words used
(`onStream`, `hasBits`, `spells`, `isDescriptor`, ...) are defined in Sys2Proof/Safety.lean. -/

open Sys2Proof Sys2Proof.Machine

/-! Decoding and fetching. -/

/-- Decoding what the encoder writes for a well-formed operation gives the operation back, at every value of its
operands, whatever bits follow, and consumes exactly the bits written (R100, R101). -/
def Obligations.DecodeOfEncode : Prop :=
  ∀ i : Instr, i.wf = true → ∀ rest,
    decode (encode i).1 ((encode i).2 ++ rest) = .ok (i, (encode i).2.length)

/-- A decoded operation is well formed, the bits that select it are among those given and no more than the fetch looks
at, and they select it whatever follows them (R100: an element is read without looking past it). -/
def Obligations.DecodedRowsAreWellFormed : Prop :=
  ∀ e bs i k, e.wf = true → decode e bs = .ok (i, k) →
    i.wf = true ∧ k ≤ bs.length ∧ k ≤ e.maxBits ∧ ∀ rest, decode e (bs.take k ++ rest) = .ok (i, k)

/-- Words written out from the spec's encodings (R92, R97, R101, R156, R230, R253, R270, R279 to R282) decode to the
operations they stand for. The bit patterns of the `WBITS` words are D3's, from general knowledge (notes/assumptions/17.md,
PRESUMED), the shape of the simple descriptor D17's (notes/assumptions/18.md, PRESUMED), and that a table word of eight bits
is a context-mode symbol is this model's choice (notes/assumptions/16.md, DESIGN CHOICE). -/
def Obligations.SpecWordsDecode : Prop :=
  decode .wbits [false] = .ok (.wbits16, 1) ∧
  decode .wbits [true, true, false, false] = .ok (.wbits18to24 1, 4) ∧
  decode .wbits [true, false, false, false, false, false, false] = .ok (.wbits17, 7) ∧
  decode .wbits [true, false, false, false, true, false, false] = .ok (.wbits9, 7) ∧
  decode .wbits [true, false, false, false, false, true, false] = .ok (.wbits10to15 2, 7) ∧
  decode .nbltypes [true] = .ok (.nbltypesN, 1) ∧
  decode (.rlemax 64) [false] = .ok (.rlemax0 64, 1) ∧
  decode .clclLen [true, true, true, true] = .ok (.clclV5, 4) ∧
  decode (.desc 8) [true, false, false, true, true, true, true, true, false, true, false, true, true] =
    .ok (.simple3 8 7 5 6, 13) ∧
  decode (.desc 256) [false, true] = .ok (.complex 256 2, 2) ∧
  decode (.symbol .codeLength 16) [] = .ok (.clRep, 0) ∧
  decode (.symbol .blockLength 25) [] = .ok (.blenS25, 0) ∧
  decode (.symbol (.typeChange .L 3) 4) [] = .ok (.bswitchAbs .L 4, 0) ∧
  decode (.symbol .insertAndCopy 139) [] = .ok (.iacRow2 139, 0) ∧
  decode (.symbol (.cmap 6 2) 7) [] = .ok (.cmVal 7, 0) ∧
  decode (.symbol (.distance 12 220) 27) [] = .ok (.dDirect 27, 0) ∧
  decode (.symbol (.distance 12 220) 28) [] = .ok (.dLong 28, 0) ∧
  decodeTableWord 8 2 = some .ctxUtf8

/-- A step runs the operation that the element and the stream bits ahead decode to: its selecting bits are consumed, it
leaves the list of operations to fetch, `exec` runs it, and the control-state transition of R181 follows. One step per
operation is the model's granularity (notes/assumptions/1.md). -/
def Obligations.StepRunsDecodedInstruction : Prop :=
  ∀ (s : State) e i k, s.onStream → s.nextElem = some e → s.hasBits k → decode e (s.nextBits k) = .ok (i, k) →
    step s = match exec i (({ s with todo := s.todo.tail } : State).seek (s.pos + k)) with
      | .next t => .next (t.advance i)
      | .fault f => .fault f
      | .refused r => .refused r

/-- Where the fetch finds no operation: too few selecting bits are `PrematureEof` (R342), a simple descriptor's symbol
out of range is `Invalid` (R148), a repeated one has no meaning (R149), and in `C_DONE` there is no step (R385). The
bits looked at are those that are left, at most as many as can select a row. That the cursor stays where it was when the
fetch raises is this model's choice (R348; notes/assumptions/11.md, DESIGN CHOICE). -/
def Obligations.StepStopsWhereNothingDecodes : Prop :=
  (∀ s : State, s.ctl = .done → step s = .fault .runEnded) ∧
  ∀ (s : State) e, s.onStream → s.nextElem = some e →
    (decode e (s.nextBits (min e.maxBits (8 * s.ports.inLen - s.pos))) = .error .needMoreBits →
      step s = .next (s.takeFault .prematureEof)) ∧
    (decode e (s.nextBits (min e.maxBits (8 * s.ports.inLen - s.pos))) = .error .symbolOutOfRange →
      step s = .next (s.takeFault (.invalid .symbolOutOfRange))) ∧
    (decode e (s.nextBits (min e.maxBits (8 * s.ports.inLen - s.pos))) = .error .repeatedSymbol →
      step s = .refused .dupSimple)

/-! The bit reader and the output. -/

/-- `BITS(n)` (R120): the value of the `n` stream bits, the cursor `n` bits further, at most 7 bits of residual with
nothing above them; `PrematureEof` exactly when fewer bits are left. That at most 7 bits of residual stay, with nothing
above them, R120 infers ([derived]) and R122 (d) states; that the value goes to the value latch is this model's choice
(notes/assumptions/14.md, DESIGN CHOICE). -/
def Obligations.BitsReadsAField : Prop :=
  (∀ n, n ≤ 25 → readsField (.bits n) n keepVal) ∧
  ∀ (s : State) n, s.nextField n < 2 ^ n ∧ (s.seek (s.pos + n)).rd.left ≤ 7 ∧
    (s.seek (s.pos + n)).rd.resid.toNat < 2 ^ (s.seek (s.pos + n)).rd.left ∧ (s.seek (s.pos + n)).pos = s.pos + n

/-- `ALIGN()` (R121): `Invalid` when a discarded bit is 1, otherwise the residual is gone and the position is the next byte
boundary; `in_next` never moves. `RAWBYTE()` (R123), on a byte boundary: the byte at `in_next`. That the byte goes to the
value latch is this model's choice (notes/assumptions/14.md, DESIGN CHOICE). -/
def Obligations.AlignAndRawbyte : Prop :=
  (∀ s : State, exec .align s =
    if s.rd.resid ≠ 0 then .next (s.takeFault (.invalid .nonZeroPadding))
    else .next { s with rd := { s.rd with left := 0, resid := 0 } }) ∧
  (∀ s : State, s.onStream → s.rd.resid = 0 → exec .align s = .next (s.seek (8 * s.rd.inNext))) ∧
  (∀ s : State, s.onStream → s.rd.left = 0 → exec .align s = .next s) ∧
  (∀ s : State, s.rd.left = 0 → exec .rawbyte s =
    if s.rd.inNext = s.ports.inLen ∨ s.ports.inLen < s.rd.inNext then .next (s.takeFault .prematureEof)
    else .next (keepVal (s.ports.input.get s.rd.inNext).toNat
      { s with rd := { s.rd with inNext := s.rd.inNext + 1 } }))

/-- `EMIT(b)` (R66): in normal mode the byte lands at address `got` and nowhere else and `got` goes up by one; in compare
mode the expected byte at `got` must be `b`, or the run ends with `CompareMismatch` and `got` as it was. -/
def Obligations.EmitWritesAtGot : Prop :=
  ∀ (b : Byte) (s : State),
    (s.compare = false → ∃ t, exec (.emit b) s = .next t ∧ t.got = s.got + 1 ∧
      (s.out.wf = true → t.out.wf = true ∧ ∀ a, t.out.get a = if a = s.got then b else s.out.get a) ∧
      sameBut [.got, .out] s t) ∧
    (s.compare = true → exec (.emit b) s =
      if s.haveLen ≤ s.got ∨ s.ports.expected.get s.got ≠ b then .next (s.takeFault .compareMismatch)
      else .next { s with got := s.got + 1 })

/-! The stream and meta-block headers. -/

/-- The five forms of `WBITS` set `wbits` and `wsize` and lead to `C_MB_START`, but for the unused code point 9. The bit
patterns are D3's, from general knowledge (R180; notes/assumptions/17.md, PRESUMED); that a row invoked alone acts for every
operand is this model's choice (notes/assumptions/41.md, DESIGN CHOICE). -/
def Obligations.WindowForms : Prop :=
  (∀ s, exec .wbits16 s = .next { s with wbits := 16, ctl := .mbStart }) ∧
  (∀ b s, exec (.wbits18to24 b) s = .next { s with wbits := 17 + b, ctl := .mbStart }) ∧
  (∀ s, exec .wbits17 s = .next { s with wbits := 17, ctl := .mbStart }) ∧
  (∀ s, exec .wbits9 s = .next (s.takeFault (.invalid .wbits9))) ∧
  (∀ c s, exec (.wbits10to15 c) s = .next { s with wbits := 8 + c, ctl := .mbStart }) ∧
  (∀ s : State, s.wsize = 2 ^ s.wbits - 16) ∧
  (∀ w, 10 ≤ w → w ≤ 24 → ∃ i bits, decode .wbits bits = .ok (i, bits.length) ∧
    ∀ s, exec i s = .next { s with wbits := w, ctl := .mbStart })

/-- The one-field header operations: `ISLAST`, `ISLASTEMPTY`, `MNIBBLES`, `ISUNCOMPRESSED`, `META.RSVD`, `MSKIPBYTES`,
`NPOSTFIX`, `NDIRECT`, `CMODE` (R182 to R185, R188, R191, R195 to R197). That a field without a register goes to the
value latch is this model's choice (notes/assumptions/14.md), and so is the list of modes that `CMODE` fills, LSB6 where
it was skipped (notes/assumptions/38.md). -/
def Obligations.HeaderFields : Prop :=
  readsField .islast 1 (fun v s => { s with last := decide (v = 1) }) ∧
  readsField .islastempty 1 keepVal ∧
  readsField .mnibbles 2 keepVal ∧
  readsField .isuncompressed 1 keepVal ∧
  readsField .metaRsvd 1 (fun v s => if v = 1 then s.takeFault (.invalid .reservedBit) else s) ∧
  readsField .mskipbytes 2 keepVal ∧
  readsField .npostfix 2 (fun v s => { s with npostfix := v }) ∧
  readsField .ndirect 4 (fun v s => { s with direct := v <<< s.npostfix }) ∧
  (∀ (s : State) v, ({ s with direct := v <<< s.npostfix } : State).dalpha =
    16 + v <<< s.npostfix + 48 <<< s.npostfix) ∧
  (∀ t, readsField (.cmode t) 2 (fun v s => { s with modes := putEntry .lsb6 s.modes t (ctxModeOf v) })) ∧
  (∀ (l : List CtxMode) t m, t ≤ l.length → (putEntry .lsb6 l t m)[t]? = some m ∧
    ∀ u, u < l.length → u ≠ t → (putEntry .lsb6 l t m)[u]? = l[u]?)

/-- `MLEN(nn)` (R186): all nibbles are read, then the top nibble is tested, then the capacity of the mode, in that order;
`mlen` is the value plus one. The capacity results are decisions D15 and D16 (notes/assumptions/28.md). -/
def Obligations.MlenReadsNibbles : Prop :=
  ∀ (s : State) nn, 4 ≤ nn → nn ≤ 6 → s.onStream →
    (¬ s.hasBits (4 * nn) → s.endsEarly (exec (.mlen nn) s)) ∧
    (s.hasBits (4 * nn) → ∀ t : State,
      t = { s.seek (s.pos + 4 * nn) with mlen := s.nextField (4 * nn) + 1 } →
      (4 < nn ∧ s.nextField (4 * nn) >>> (4 * (nn - 1)) = 0 →
        exec (.mlen nn) s = .next ((s.seek (s.pos + 4 * nn)).takeFault (.invalid .moreNibbles))) ∧
      (¬ (4 < nn ∧ s.nextField (4 * nn) >>> (4 * (nn - 1)) = 0) →
        (s.compare = true → exec (.mlen nn) s =
          if s.haveLen < s.got + t.mlen then .next (t.takeFault .compareMismatch) else .next t) ∧
        (s.compare = false → s.ports.outCap = none → exec (.mlen nn) s = .next t) ∧
        (s.compare = false → ∀ cap, s.ports.outCap = some cap → exec (.mlen nn) s =
          if cap < s.got + t.mlen then .next (t.takeFault .outOfMemory) else .next t)))

/-- `MSKIPLEN(sb)` (R189): 0 without a field (D11, from general knowledge: notes/assumptions/23.md, PRESUMED), otherwise the
field plus one, with the top-byte test behind `CHECK_MSKIP_TOP`; the value goes to the latch (notes/assumptions/14.md,
DESIGN CHOICE). `SKIP(k)` (R124, D14) advances over whole bytes that are there; `META.SKIP(k)` (R190) aligns first; that
both do so for every `k` is this model's choice (notes/assumptions/41.md, DESIGN CHOICE). -/
def Obligations.SkipForms : Prop :=
  (∀ s, exec (.mskiplen 0) s = .next (keepVal 0 s)) ∧
  (∀ sb, 1 ≤ sb → sb ≤ 3 → readsField (.mskiplen sb) (8 * sb) (fun v s =>
    if s.ports.checkMskipTop = true ∧ 1 < sb ∧ v >>> (8 * (sb - 1)) = 0 then s.takeFault (.invalid .moreBytes)
    else keepVal (v + 1) s)) ∧
  (∀ (s : State) k, s.rd.left = 0 → exec (.skip k) s =
    if s.ports.inLen - s.rd.inNext < k then .next (s.takeFault .prematureEof)
    else .next { s with rd := { s.rd with inNext := s.rd.inNext + k } }) ∧
  (∀ (s : State) k, s.rd.resid ≠ 0 → exec (.metaSkip k) s = .next (s.takeFault (.invalid .nonZeroPadding))) ∧
  (∀ (s : State) k, s.onStream → s.rd.resid = 0 → exec (.metaSkip k) s =
    if s.ports.inLen - s.rd.inNext < k then .next ((s.seek (8 * s.rd.inNext)).takeFault .prematureEof)
    else .next (s.seek (8 * (s.rd.inNext + k))))

/-- `RAWCOPY` (R187, D14): bad padding first, then too few bytes, before anything is copied; otherwise the next `mlen`
bytes of the input are produced in order, `mlen` is 0, and nothing else changes. In compare mode the first byte that
differs ends the run with `got` there (R66). The order of the two tests is D8's and D14's (notes/assumptions/27.md). -/
def Obligations.RawcopyCopiesTheInput : Prop :=
  ∀ s : State, s.onStream →
    (s.rd.resid ≠ 0 → exec .rawcopy s = .next (s.takeFault (.invalid .nonZeroPadding))) ∧
    (s.rd.resid = 0 → s.ports.inLen - s.rd.inNext < s.mlen →
      exec .rawcopy s = .next ((s.seek (8 * s.rd.inNext)).takeFault .prematureEof)) ∧
    (s.rd.resid = 0 → s.mlen ≤ s.ports.inLen - s.rd.inNext →
      s.accepts (s.ports.input.bytes s.rd.inNext s.mlen) →
      exec .rawcopy s = .next { (s.seek (8 * (s.rd.inNext + s.mlen))).withOutput
        (s.ports.input.bytes s.rd.inNext s.mlen) with mlen := 0 }) ∧
    (s.rd.resid = 0 → s.mlen ≤ s.ports.inLen - s.rd.inNext → ∀ k,
      s.differsAt (s.ports.input.bytes s.rd.inNext s.mlen) k → s.mismatches k (exec .rawcopy s))

/-- `NTREESL` and `NTREESD` (R198, R199): a count, and the map of 64 entries per literal type or 4 per distance type. How the
map's code is written is D17's and D19's, and its move-to-front transform D22's, all from general knowledge
(notes/assumptions/18.md, 19.md, 21.md, PRESUMED). -/
def Obligations.TreeCountsAndMaps : Prop :=
  (∀ (s : State) n m b1 b2, s.onStream → isCount n b1 → isMap (64 * s.blkL.num) n m b2 → s.spells (b1 ++ b2) →
    ∃ d c, exec .ntreesl s = .next { s.seek (s.pos + (b1 ++ b2).length) with
      litCodes := n, litMap := m, desc := d, cmr := c }) ∧
  (∀ (s : State) n m b1 b2, s.onStream → isCount n b1 → isMap (4 * s.blkD.num) n m b2 → s.spells (b1 ++ b2) →
    ∃ d c, exec .ntreesd s = .next { s.seek (s.pos + (b1 ++ b2).length) with
      distCodes := n, distMap := m, desc := d, cmr := c })

/-- `BANKS` (R200): `lit_codes` descriptors over 256 symbols, `num[I]` over 704, `dist_codes` over `dalpha`. `HEADER`
(R192): the parts in stream order, each sized by those before it. How descriptors and maps are written is D17's, D19's and
D22's, from general knowledge (notes/assumptions/18.md, 19.md, 21.md, PRESUMED). -/
def Obligations.HeaderAndBanks : Prop :=
  (∀ (s : State) lit iac dist b1 b2 b3, s.onStream → lit.length = s.litCodes → iac.length = s.blkI.num →
    dist.length = s.distCodes → isBank 256 lit b1 → isBank 704 iac b2 → isBank s.dalpha dist b3 →
    s.spells (b1 ++ b2 ++ b3) →
    ∃ d, exec .banks s = .next { s.seek (s.pos + (b1 ++ b2 ++ b3).length) with
      litBank := lit, iacBank := iac, distBank := dist, desc := d }) ∧
  (∀ (s : State) (bl bi bd : Block) (modes : List CtxMode) p nib n1 n2 m1 m2 lit iac dist
      x1 x2 x3 y1 y2 y3 y4 z1 z2 z3, s.onStream →
    isBlkdesc bl x1 → isBlkdesc bi x2 → isBlkdesc bd x3 → p < 4 → nib < 16 → modes.length = bl.num →
    isCount n1 y1 → isMap (64 * bl.num) n1 m1 y2 → isCount n2 y3 → isMap (4 * bd.num) n2 m2 y4 →
    lit.length = n1 → iac.length = bi.num → dist.length = n2 →
    isBank 256 lit z1 → isBank 704 iac z2 → isBank (16 + nib <<< p + 48 <<< p) dist z3 →
    ∀ bits, bits = x1 ++ x2 ++ x3 ++ bitsLE 2 p ++ bitsLE 4 nib ++
      modes.flatMap (fun m => bitsLE 2 (ctxModeCode m)) ++ y1 ++ y2 ++ y3 ++ y4 ++ z1 ++ z2 ++ z3 →
    s.spells bits →
    ∃ d c, exec .header s = .next { s.seek (s.pos + bits.length) with
      blkL := bl, blkI := bi, blkD := bd, npostfix := p, direct := nib <<< p, modes := modes, litCodes := n1
      litMap := m1, distCodes := n2, distMap := m2, litBank := lit, iacBank := iac, distBank := dist, desc := d
      cmr := c })

/-! Prefix codes. -/

/-- `BUILD(lengths)` (R142): `count` counts the symbols of each length, `symbol` lists those with a length, sorted by
(length, symbol). That lengths which fill the Kraft sum give a valid table is inferred from R141 (b). That the table goes to
the table latch (notes/assumptions/14.md, DESIGN CHOICE), and that `BUILD` invoked alone acts on every list of lengths, also
with fewer than two that are not 0 (notes/assumptions/41.md, DESIGN CHOICE), is this model's choice. -/
def Obligations.BuildMakesTheCanonicalTable : Prop :=
  (∀ lengths s, exec (.build lengths) s = .next (keepTable (buildTable lengths) s)) ∧
  ∀ lengths : List Nat, (∀ l ∈ lengths, l ≤ 15) →
    (buildTable lengths).count.length = 16 ∧
    (∀ n, n < 16 → (buildTable lengths).count[n]? = some (if n = 0 then 0 else lengths.count n)) ∧
    (∀ v, v ∈ (buildTable lengths).symbol ↔ ∃ l, lengths[v]? = some l ∧ l ≠ 0) ∧
    (buildTable lengths).symbol.Pairwise (fun v w =>
      lengths.getD v 0 < lengths.getD w 0 ∨ (lengths.getD v 0 = lengths.getD w 0 ∧ v < w)) ∧
    (kraftOf lengths = 2 ^ 15 → (buildTable lengths).over lengths.length = true)

/-- `SYM(code)` (R144): the next codeword gives its symbol and is consumed, no bits for a single-symbol table. Codewords
(R143) are prefix-free, so the symbol and the bits are determined. The symbol goes to the value latch
(notes/assumptions/14.md, DESIGN CHOICE). That `SYM` invoked alone acts also on a table that R141 does not admit is this
model's choice (notes/assumptions/41.md, DESIGN CHOICE). -/
def Obligations.SymReadsACodeword : Prop :=
  (∀ (code : Table) v word (s : State), s.onStream → code.isCodeword v word → s.spells word →
    exec (.sym code) s = .next (keepVal v (s.seek (s.pos + word.length)))) ∧
  ∀ (code : Table) v v' word word' rest rest', code.isCodeword v word → code.isCodeword v' word' →
    word ++ rest = word' ++ rest' → v = v' ∧ word = word'

/-- `SYM` on a valid table never runs off its end (R145): the stream spells a codeword of at most 15 bits, or it ends
within the next 15 bits, which is `PrematureEof`. The symbol goes to the value latch (notes/assumptions/14.md, DESIGN
CHOICE). -/
def Obligations.SymOnValidTables : Prop :=
  ∀ (code : Table) (s : State), code.valid = true → s.onStream →
    (∃ v word, word.length ≤ 15 ∧ v ∈ code.symbol ∧ code.isCodeword v word ∧ s.spells word ∧
      exec (.sym code) s = .next (keepVal v (s.seek (s.pos + word.length)))) ∨
    (¬ s.hasBits 15 ∧ s.endsEarly (exec (.sym code) s))

/-- The five simple patterns (R150 to R154) make their tables from distinct symbols (R149), those of equal length in
ascending order, and each table is valid over the alphabet. Which symbol gets which length is D17's, from general
knowledge (notes/assumptions/18.md). The table goes to the table latch (notes/assumptions/14.md, DESIGN CHOICE), and a row
`SIMPLE.1` invoked alone acts for every symbol (notes/assumptions/41.md, DESIGN CHOICE). -/
def Obligations.SimplePatterns : Prop :=
  (∀ a s1 s, exec (.simple1 a s1) s = .next (keepTable { count := 1 :: List.replicate 15 0, symbol := [s1] } s)) ∧
  (∀ a s1 s2 s, (Instr.simple2 a s1 s2).wf = true → exec (.simple2 a s1 s2) s =
    .next (keepTable { count := [0, 2] ++ List.replicate 14 0, symbol := [min s1 s2, max s1 s2] } s)) ∧
  (∀ a s1 s2 s3 s, (Instr.simple3 a s1 s2 s3).wf = true → exec (.simple3 a s1 s2 s3) s =
    .next (keepTable { count := [0, 1, 2] ++ List.replicate 13 0, symbol := [s1, min s2 s3, max s2 s3] } s)) ∧
  (∀ a s1 s2 s3 s4 s, (Instr.simple4a a s1 s2 s3 s4).wf = true →
    ∃ l, l.Perm [s1, s2, s3, s4] ∧ l.Pairwise (· < ·) ∧ exec (.simple4a a s1 s2 s3 s4) s =
      .next (keepTable { count := [0, 0, 4] ++ List.replicate 13 0, symbol := l } s)) ∧
  (∀ a s1 s2 s3 s4 s, (Instr.simple4b a s1 s2 s3 s4).wf = true → exec (.simple4b a s1 s2 s3 s4) s =
    .next (keepTable { count := [0, 1, 1, 2] ++ List.replicate 12 0, symbol := [s1, s2, min s3 s4, max s3 s4] } s)) ∧
  (∀ i a t, i.wf = true → simpleResult i = some (a, t) → t.over a = true)

/-- Descriptors are read (R146, R147, R155): where the stream spells a descriptor, simple or complex with any `hskip`, any
code-length code and any runs, `READ_CODE` answers its table; so do `SIMPLE` and `COMPLEX` after the two bits. Nothing but
the cursor, the descriptor registers and the table latch changes. On a simple descriptor with a symbol out of range both end
with `Invalid` (R148), and one that repeats a symbol has no meaning (R149, notes/assumptions/8.md). The shapes of simple
codes are D17's (notes/assumptions/18.md); where a list of lengths stops and how repeats extend are D19's and D20's
(notes/assumptions/19.md); both from general knowledge. The table goes to the table latch (notes/assumptions/14.md, DESIGN
CHOICE). Alphabets outside 2 to 704 are this model's choice (notes/assumptions/41.md, DESIGN CHOICE). -/
def Obligations.DescriptorsAreRead : Prop :=
  (∀ (s : State) a t bits, s.onStream → isDescriptor a t bits → s.spells bits →
    ∃ d, exec (.readCode a) s = .next (keepTable t { s.seek (s.pos + bits.length) with desc := d })) ∧
  (∀ (s : State) i a t bits, s.onStream → i.wf = true → simpleResult i = some (a, t) →
    (encode i).2 = bitsLE 2 1 ++ bits → s.spells bits →
    exec (.simple a) s = .next (keepTable t (s.seek (s.pos + bits.length)))) ∧
  (∀ (s : State) a hskip t bits, s.onStream → isComplex a hskip t bits → s.spells bits →
    ∃ d, exec (.complex a hskip) s = .next (keepTable t { s.seek (s.pos + bits.length) with desc := d })) ∧
  (∀ (s : State) a p, s.onStream → alphabetOk a = true → p ∈ [(Instr.simple a, []), (.readCode a, bitsLE 2 1)] →
    (∀ n (vs : List Nat) v, n < 4 → vs.length ≤ n → (∀ v ∈ vs, v < a) → a ≤ v → v < 2 ^ ceilLog2 a →
      s.spells (p.2 ++ bitsLE 2 n ++ (vs ++ [v]).flatMap (bitsLE (ceilLog2 a))) →
      ∃ u : State, exec p.1 s = .next (u.takeFault (.invalid .symbolOutOfRange))) ∧
    (∀ vs : List Nat, 1 ≤ vs.length → vs.length ≤ 4 → (∀ v ∈ vs, v < a) → ¬ vs.Nodup →
      s.spells (p.2 ++ bitsLE 2 (vs.length - 1) ++ vs.flatMap (bitsLE (ceilLog2 a))) →
      exec p.1 s = .refused .dupSimple))

/-- Every complete code over an alphabet can be sent and is decoded as sent: on a complex descriptor that gives each length
0 to 15 a four-bit codeword and lists the lengths up to the last that is not 0, `COMPLEX` answers the table `BUILD` makes of
the lengths, and so does `READ_CODE` after `HSKIP` 0 (R146, R155 to R164). Where the list of lengths stops is D19's and
D20's, from general knowledge (notes/assumptions/19.md). The table goes to the table latch (notes/assumptions/14.md, DESIGN
CHOICE). Alphabets above 704 are this model's choice (notes/assumptions/41.md, DESIGN CHOICE). -/
def Obligations.EveryCompleteCodeCanBeSent : Prop :=
  ∀ lengths : List Nat, (∀ l ∈ lengths, l ≤ 15) → kraftOf lengths = 2 ^ 15 → ∀ s : State, s.onStream →
    (s.spells (plainComplex lengths) → ∃ d, exec (.complex lengths.length 0) s =
      .next (keepTable (buildTable lengths) { s.seek (s.pos + (plainComplex lengths).length) with desc := d })) ∧
    (s.spells (bitsLE 2 0 ++ plainComplex lengths) → ∃ d, exec (.readCode lengths.length) s =
      .next (keepTable (buildTable lengths) { s.seek (s.pos + 2 + (plainComplex lengths).length) with desc := d }))

/-- `CLCL` (R157): it reads the values spelled by the fixed code (R156) until the sum is full or the positions are used up,
and puts them at their order positions; a sum above 32 is `Invalid`. Its six values one at a time (`CLCL.V0` to `V5`); what
these do with no order position left, `pos` 18 or more, is this model's choice (notes/assumptions/40.md, DESIGN CHOICE).
That `CLCL` invoked alone starts at every position is this model's choice (notes/assumptions/41.md, DESIGN CHOICE). -/
def Obligations.ClclReadsLengths : Prop :=
  (∀ (s : State) hskip vs, s.onStream → hskip ≤ 18 → clclReads hskip vs → s.spells (vs.flatMap fixedCodeword) →
    exec (.clcl hskip) s = .next { s.seek (s.pos + (vs.flatMap fixedCodeword).length) with
      desc := { s.desc with
        cl := clOf hskip vs, pos := hskip + vs.length, space := 32 - (clclSum vs : Int)
        nz := (vs.filter fun v => v ≠ 0).length } }) ∧
  (∀ (s : State) hskip vs, s.onStream → hskip ≤ 18 → (∀ v ∈ vs, v ≤ 5) →
    (∀ k, k < vs.length → clclGoesOn hskip (vs.take k)) → 32 < clclSum vs → s.spells (vs.flatMap fixedCodeword) →
    ∃ t : State, exec (.clcl hskip) s = .next (t.takeFault (.invalid .clcOverSubscribed))) ∧
  (∀ (s : State) p, p ∈ [(Instr.clclV1, 1), (.clclV2, 2), (.clclV3, 3), (.clclV4, 4), (.clclV5, 5)] →
    ∀ t : State, t = { s with desc := { s.desc with
      cl := s.desc.cl.set (clclOrder.getD s.desc.pos 0) p.2, pos := s.desc.pos + 1, nz := s.desc.nz + 1
      space := s.desc.space - ((32 >>> p.2 : Nat) : Int) } } →
    exec p.1 s = if t.desc.space < 0 then .next (t.takeFault (.invalid .clcOverSubscribed)) else .next t) ∧
  (∀ s : State, exec .clclV0 s = .next { s with desc := { s.desc with
    cl := s.desc.cl.set (clclOrder.getD s.desc.pos 0) 0, pos := s.desc.pos + 1 } })

/-- `CL.LEN`, `CL.REP`, `CL.ZERO` (R160 to R163): a length, a repeat of the last length that is not 0, a run of zeros; a run
beyond the alphabet is `Invalid`. How a second repeat extends the first is D19's, from general knowledge
(notes/assumptions/19.md, PRESUMED). A stream that ends inside the extra bits is `PrematureEof` (R342). That `CL.LEN` invoked
alone writes a length also past the alphabet, that all three act where the loop of R159 would have ended, and that a running
total of 1 counts as 2 (`rep - 2` and `zer - 2` end at 0), is this model's choice (notes/assumptions/41.md, DESIGN CHOICE). -/
def Obligations.CodeLengthSymbols : Prop :=
  (∀ (s : State) v, v ≤ 15 → exec (.clLen v) s = .next { s with desc := { s.desc with
    lens := s.desc.lens ++ [v], rep := 0, zer := 0
    lastLen := if v ≠ 0 then v else s.desc.lastLen
    room := if v ≠ 0 then s.desc.room - ((32768 >>> v : Nat) : Int) else s.desc.room } }) ∧
  (∀ s : State, s.onStream → ¬ s.hasBits 2 → ∃ t : State, exec .clRep s = .next (t.takeFault .prematureEof)) ∧
  (∀ (s : State) total, s.onStream → s.hasBits 2 →
    total = (if s.desc.rep ≠ 0 then (s.desc.rep - 2) * 4 else 0) + 3 + s.nextField 2 →
    (s.desc.lens.length + (total - s.desc.rep) ≤ s.desc.alphabet →
      exec .clRep s = .next { s.seek (s.pos + 2) with desc := { s.desc with
        lens := s.desc.lens ++ List.replicate (total - s.desc.rep) s.desc.lastLen, rep := total, zer := 0
        room := s.desc.room - ((total - s.desc.rep : Nat) : Int) * ((32768 >>> s.desc.lastLen : Nat) : Int) } }) ∧
    (s.desc.alphabet < s.desc.lens.length + (total - s.desc.rep) →
      ∃ t : State, exec .clRep s = .next (t.takeFault (.invalid .tooManySymbols)))) ∧
  (∀ s : State, s.onStream → ¬ s.hasBits 3 → ∃ t : State, exec .clZero s = .next (t.takeFault .prematureEof)) ∧
  (∀ (s : State) total, s.onStream → s.hasBits 3 →
    total = (if s.desc.zer ≠ 0 then (s.desc.zer - 2) * 8 else 0) + 3 + s.nextField 3 →
    (s.desc.lens.length + (total - s.desc.zer) ≤ s.desc.alphabet →
      exec .clZero s = .next { s.seek (s.pos + 3) with desc := { s.desc with
        lens := s.desc.lens ++ List.replicate (total - s.desc.zer) 0, zer := total, rep := 0 } }) ∧
    (s.desc.alphabet < s.desc.lens.length + (total - s.desc.zer) →
      ∃ t : State, exec .clZero s = .next (t.takeFault (.invalid .tooManySymbols))))

/-- A descriptor that is read to its end gives a valid table over its alphabet (R141, R36 item 1), whatever the stream
holds: `READ_CODE`, `SIMPLE` and `COMPLEX` answer such a table, or end the run with a fault. The run ends with `Invalid`
where the code-length code is neither complete nor of one symbol (R158), and where the sum of the lengths is not `2^15`
(R164). Where the list of lengths stops is D19's and D20's, from general knowledge (notes/assumptions/19.md). The table goes
to the table latch (notes/assumptions/14.md, DESIGN CHOICE). That `COMPLEX` invoked alone acts for every `hskip` is this
model's choice (notes/assumptions/41.md, DESIGN CHOICE). -/
def Obligations.DescriptorsGiveValidTables : Prop :=
  (∀ (s t : State) a hskip i, s.onStream → alphabetOk a = true → i ∈ [Instr.readCode a, .simple a, .complex a hskip] →
    exec i s = .next t →
    (∃ u k, t = State.takeFault u k) ∨ (t.lat.tbl.over a = true ∧ t.onStream ∧ s.pos ≤ t.pos)) ∧
  ∀ (s : State) a hskip vs p, s.onStream → hskip = 0 ∨ hskip = 2 ∨ hskip = 3 → clclReads hskip vs →
    p ∈ [(Instr.complex a hskip, []), (.readCode a, bitsLE 2 hskip)] →
    (clcOf hskip vs = none → s.spells (p.2 ++ vs.flatMap fixedCodeword) →
      ∃ u : State, exec p.1 s = .next (u.takeFault (.invalid .clcIncomplete))) ∧
    (∀ clc rest d, clcOf hskip vs = some clc → lengthsRead clc (.atStage2 a hskip vs clc) rest d → d.room ≠ 0 →
      s.spells (p.2 ++ vs.flatMap fixedCodeword ++ rest) →
      ∃ u : State, exec p.1 s = .next (u.takeFault (.invalid .codeNotComplete)))

/-! Block switching. -/

/-- The number-of-types code (R230): its two arms, and every count in 1..256 has exactly one encoding. `RLEMAX` (R270): its
two arms with the width test. The one encoding is an inference that R230 marks as its own ([derived]). That the fetch
consumes the bit that selects the arm (notes/assumptions/15.md), that the values go to the value latch
(notes/assumptions/14.md), and that the rows of `RLEMAX` invoked alone act for every `len` (notes/assumptions/41.md), is
this model's choice (DESIGN CHOICE). -/
def Obligations.CountAndRlemaxForms : Prop :=
  (∀ r, decode .nbltypes (false :: r) = .ok (.nbltypes1, 1) ∧ decode .nbltypes (true :: r) = .ok (.nbltypesN, 1)) ∧
  (∀ s, exec .nbltypes1 s = .next (keepVal 1 s)) ∧
  (∀ s : State, s.onStream → s.hasBits 3 → s.hasBits (3 + s.nextField 3) → exec .nbltypesN s =
    .next (keepVal (1 + 2 ^ s.nextField 3 + s.ports.field (s.pos + 3) (s.nextField 3))
      (s.seek (s.pos + 3 + s.nextField 3)))) ∧
  (∀ s : State, s.onStream → ¬ (s.hasBits 3 ∧ s.hasBits (3 + s.nextField 3)) → s.endsEarly (exec .nbltypesN s)) ∧
  (∀ n, (∃ bits, isCount n bits) ↔ 1 ≤ n ∧ n ≤ 256) ∧
  (∀ n b b', isCount n b → isCount n b' → b = b') ∧
  (∀ len r, decode (.rlemax len) (false :: r) = .ok (.rlemax0 len, 1) ∧
    decode (.rlemax len) (true :: r) = .ok (.rlemaxN len, 1)) ∧
  (∀ len s, 1 ≤ len → exec (.rlemax0 len) s = .next (keepVal 0 s)) ∧
  (∀ len, readsField (.rlemaxN len) 4 (fun e s =>
    if len < 2 ^ (1 + e) then s.takeFault (.invalid .rlemaxTooWide) else keepVal (1 + e) s))

/-- The block-length table (R231): each symbol's base and extra bits, with contiguous ranges from 1 on. `BLEN(code)` (R232):
a symbol of the code below 26 and its extra bits, never 0. The lengths go to the value latch (notes/assumptions/14.md,
DESIGN CHOICE). That `BLEN` invoked alone acts also on a table that R141 does not admit is this model's choice
(notes/assumptions/41.md, DESIGN CHOICE). -/
def Obligations.BlockLengths : Prop :=
  (∀ p ∈ [(Instr.blenS0, 1, 2), (.blenS1, 5, 2), (.blenS2, 9, 2), (.blenS3, 13, 2), (.blenS4, 17, 3)] ++
      [(.blenS5, 25, 3), (.blenS6, 33, 3), (.blenS7, 41, 3), (.blenS8, 49, 4), (.blenS9, 65, 4)] ++
      [(.blenS10, 81, 4), (.blenS11, 97, 4), (.blenS12, 113, 5), (.blenS13, 145, 5), (.blenS14, 177, 5)] ++
      [(.blenS15, 209, 5), (.blenS16, 241, 6), (.blenS17, 305, 6), (.blenS18, 369, 7), (.blenS19, 497, 8)] ++
      [(.blenS20, 753, 9), (.blenS21, 1265, 10), (.blenS22, 2289, 11), (.blenS23, 4337, 12)] ++
      [(.blenS24, 8433, 13), (.blenS25, 16625, 24)],
    readsField p.1 p.2.2 (fun e => keepVal (p.2.1 + e)) ∧
    ∃ v, v < 26 ∧ blockLengthRow v = some p.1 ∧ blenBase[v]? = some p.2.1 ∧ blenExtra[v]? = some p.2.2) ∧
  (∀ v, v < 25 → blenBase.getD v 0 + 2 ^ blenExtra.getD v 0 = blenBase.getD (v + 1) 0) ∧
  (∀ (code : Table) n bits (s : State), s.onStream → isBlen code n bits → s.spells bits →
    1 ≤ n ∧ exec (.blen code) s = .next (keepVal n (s.seek (s.pos + bits.length))))

/-- `BLKDESC(c)` (R233, D10): one type and no codes, or a count, the two codes and a first length; type 0 with previous
type 1. How the codes are written is D17's and D19's, from general knowledge (notes/assumptions/18.md, 19.md, PRESUMED). -/
def Obligations.BlockDescriptors : Prop :=
  ∀ (s : State) c b bits, s.onStream → isBlkdesc b bits → s.spells bits →
    ∃ d, exec (.blkdesc c) s = .next (({ s.seek (s.pos + bits.length) with desc := d } : State).setBlk c b)

/-- The three forms of a type change (R235): the previous type, the next, or a given one; the type replaced becomes the
previous one. The next type is taken modulo the category's own number of types (D29, notes/assumptions/31.md).
`BSWITCH(c)`: a type change and a fresh block length. That the three forms invoked alone act in every state and for every
`n`, also with one type or with a counter that is not 0, and that `BSWITCH` installs whatever symbol its table holds, is
this model's choice (notes/assumptions/41.md, DESIGN CHOICE). -/
def Obligations.BlockSwitches : Prop :=
  (∀ c (s : State), exec (.bswitchPrev c) s =
    .next (s.setBlk c { s.blk c with cur := (s.blk c).prev, prev := (s.blk c).cur })) ∧
  (∀ c (s : State), exec (.bswitchNext c) s =
    .next (s.setBlk c { s.blk c with cur := ((s.blk c).cur + 1) % (s.blk c).num, prev := (s.blk c).cur })) ∧
  (∀ c n (s : State), exec (.bswitchAbs c n) s =
    .next (s.setBlk c { s.blk c with cur := n - 2, prev := (s.blk c).cur })) ∧
  (∀ c (s t : State), s.onStream → s.switches c t → exec (.bswitch c) s = .next t)

/-- `TICK(c)` (R234): nothing with one block type; otherwise the counter goes down by one, after a block switch exactly when
it stands at 0. That a category of one type has no count is D10's INF (notes/assumptions/31.md). A switch that is due and
cut short by the end of the stream is `PrematureEof`, in `BSWITCH` and `TICK`, and in `CMD`, `LIT` and `DIST`, which tick
first. That a switch installs whatever symbol its table holds is this model's choice (notes/assumptions/41.md, DESIGN
CHOICE), and so is that `DIST` acts with literals still to insert. -/
def Obligations.TickCountsDown : Prop :=
  (∀ c (s t : State), s.onStream → s.ticks c t → exec (.tick c) s = .next t) ∧
  ∀ c (s : State) tcode lcode, s.onStream → 1 < (s.blk c).num → (s.blk c).cnt = some 0 →
    (s.blk c).tcode = some tcode → (s.blk c).lcode = some lcode → tcode.valid = true → lcode.over 26 = true →
    (∀ t, ¬ s.switches c t) → ∀ i, i = .tick c ∨ i = .bswitch c ∨ (c = .I ∧ i = .cmd ∧ 0 < s.mlen) ∨
      (c = .L ∧ i = .lit ∧ 0 < s.insLeft) ∨ (c = .D ∧ i = .dist ∧ 0 < s.mlen ∧ 128 ≤ s.iacSym) →
    ∃ t : State, exec i s = .next (t.takeFault .prematureEof)

/-! Lengths and contexts. -/

/-- The insert-length and copy-length tables (R251, R252): each code's base and extra bits, with contiguous ranges. The
insert length goes to its latch (notes/assumptions/14.md, DESIGN CHOICE). -/
def Obligations.InsertAndCopyLengths : Prop :=
  (∀ p ∈ [(Instr.insC0, 0, 0), (.insC1, 1, 0), (.insC2, 2, 0), (.insC3, 3, 0), (.insC4, 4, 0), (.insC5, 5, 0)] ++
      [(.insC6, 6, 1), (.insC7, 8, 1), (.insC8, 10, 2), (.insC9, 14, 2), (.insC10, 18, 3), (.insC11, 26, 3)] ++
      [(.insC12, 34, 4), (.insC13, 50, 4), (.insC14, 66, 5), (.insC15, 98, 5), (.insC16, 130, 6)] ++
      [(.insC17, 194, 7), (.insC18, 322, 8), (.insC19, 578, 9), (.insC20, 1090, 10), (.insC21, 2114, 12)] ++
      [(.insC22, 6210, 14), (.insC23, 22594, 24)],
    readsField p.1 p.2.2 (fun e => keepInsLen (p.2.1 + e)) ∧
    ∃ i, i < 24 ∧ insertCodeRow i = some p.1 ∧ insBase[i]? = some p.2.1 ∧ insExtra[i]? = some p.2.2) ∧
  (∀ i, i < 23 → insBase.getD i 0 + 2 ^ insExtra.getD i 0 = insBase.getD (i + 1) 0) ∧
  (∀ p ∈ [(Instr.copyC0, 2, 0), (.copyC1, 3, 0), (.copyC2, 4, 0), (.copyC3, 5, 0), (.copyC4, 6, 0)] ++
      [(.copyC5, 7, 0), (.copyC6, 8, 0), (.copyC7, 9, 0), (.copyC8, 10, 1), (.copyC9, 12, 1), (.copyC10, 14, 2)] ++
      [(.copyC11, 18, 2), (.copyC12, 22, 3), (.copyC13, 30, 3), (.copyC14, 38, 4), (.copyC15, 54, 4)] ++
      [(.copyC16, 70, 5), (.copyC17, 102, 5), (.copyC18, 134, 6), (.copyC19, 198, 7), (.copyC20, 326, 8)] ++
      [(.copyC21, 582, 9), (.copyC22, 1094, 10), (.copyC23, 2118, 24)],
    readsField p.1 p.2.2 (fun e s => { s with copyLen := p.2.1 + e }) ∧
    ∃ j, j < 24 ∧ copyCodeRow j = some p.1 ∧ cpyBase[j]? = some p.2.1 ∧ cpyExtra[j]? = some p.2.2) ∧
  (∀ j, j < 23 → cpyBase.getD j 0 + 2 ^ cpyExtra.getD j 0 = cpyBase.getD (j + 1) 0)

/-- `IACSPLIT(sym)` (R250): the insert extra bits, then the copy extra bits, for the codes that the symbol's row of R253
gives; the row of the symbol (`IAC.ROW0` to `IAC.ROW10`) does the same. Every symbol has a row. The order of the two fields
is D21's, from general knowledge (notes/assumptions/20.md, PRESUMED); the insert length goes to the latch
(notes/assumptions/14.md, DESIGN CHOICE). -/
def Obligations.SymbolsSplit : Prop :=
  (∀ (s : State) v k i j, s.onStream → iacRow v = some k →
    [(0, 0), (0, 8), (0, 0), (0, 8), (8, 0), (8, 8), (0, 16), (16, 0), (8, 16), (16, 8), (16, 16)][v / 64]? =
      some (i, j) →
    s.hasBits (insExtra.getD (i + v / 8 % 8) 0 + cpyExtra.getD (j + v % 8) 0) → ∀ t : State,
    t = { s.seek (s.pos + insExtra.getD (i + v / 8 % 8) 0 + cpyExtra.getD (j + v % 8) 0) with
        lat := { s.lat with insLen := insBase.getD (i + v / 8 % 8) 0 + s.nextField (insExtra.getD (i + v / 8 % 8) 0) }
        copyLen := cpyBase.getD (j + v % 8) 0 +
          s.ports.field (s.pos + insExtra.getD (i + v / 8 % 8) 0) (cpyExtra.getD (j + v % 8) 0) } →
    exec (.iacsplit v) s = .next t ∧ exec k s = .next t) ∧
  (∀ (s : State) v k i j, s.onStream → iacRow v = some k →
    [(0, 0), (0, 8), (0, 0), (0, 8), (8, 0), (8, 8), (0, 16), (16, 0), (8, 16), (16, 8), (16, 16)][v / 64]? =
      some (i, j) →
    ¬ s.hasBits (insExtra.getD (i + v / 8 % 8) 0 + cpyExtra.getD (j + v % 8) 0) →
    ∃ t : State, exec (.iacsplit v) s = .next (t.takeFault .prematureEof) ∧
      exec k s = .next (t.takeFault .prematureEof)) ∧
  (∀ v, v ≤ 703 → ∃ k, iacRow v = some k ∧ k.wf = true)

/-- The context modes (R279 to R282) on the last two bytes produced, the literal context below 64, and the distance context
(R284). That the context is below 64 rests on R278 and R283 (the tables' entries, whose widths are those of
notes/assumptions/4.md, DEDUCED there) and, before two bytes exist, on D9 (notes/assumptions/22.md, PRESUMED). That the
values go to the value latch is this model's choice (notes/assumptions/14.md, DESIGN CHOICE). -/
def Obligations.ContextModes : Prop :=
  (∀ (s : State) p1 p2, 2 ≤ s.got → p1 = s.produced (s.got - 1) → p2 = s.produced (s.got - 2) →
    exec .ctxLsb6 s = .next (keepVal (p1.toNat &&& 0x3f) s) ∧
    exec .ctxMsb6 s = .next (keepVal (p1.toNat >>> 2) s) ∧
    exec .ctxUtf8 s = .next (keepVal (s.lut0 p1 ||| s.lut1 p2) s) ∧
    exec .ctxSigned s = .next (keepVal ((s.lut2 p1 <<< 3) ||| s.lut2 p2) s)) ∧
  (∀ (s : State) m, s.ctx m < 64) ∧
  (∀ copyLen s, 2 ≤ copyLen → exec (.dctx copyLen) s = .next (keepVal (min (copyLen - 2) 3) s) ∧
    min (copyLen - 2) 3 < 4)

/-- `CTX(mode)` (R278) answers what the row of its mode does in every state, also before two bytes exist, where the missing
bytes count as 0 (D9, from general knowledge: notes/assumptions/22.md, PRESUMED); each mode has its code (R197). That it is
below 64 rests on the tables' widths (R283, notes/assumptions/4.md), and the value goes to the value latch
(notes/assumptions/14.md, DESIGN CHOICE). -/
def Obligations.ContextOfEveryMode : Prop :=
  (∀ m (s : State), ∃ v, v < 64 ∧ exec (.ctx m) s = .next (keepVal v s) ∧ exec (ctxRow m) s = .next (keepVal v s)) ∧
  (∀ s : State, s.got = 0 → exec .ctxLsb6 s = .next (keepVal 0 s) ∧ exec .ctxMsb6 s = .next (keepVal 0 s) ∧
    exec .ctxUtf8 s = .next (keepVal (s.lut0 0 ||| s.lut1 0) s) ∧
    exec .ctxSigned s = .next (keepVal ((s.lut2 0 <<< 3) ||| s.lut2 0) s)) ∧
  (∀ s : State, s.got = 1 →
    exec .ctxLsb6 s = .next (keepVal ((s.produced 0).toNat &&& 0x3f) s) ∧
    exec .ctxMsb6 s = .next (keepVal ((s.produced 0).toNat >>> 2) s) ∧
    exec .ctxUtf8 s = .next (keepVal (s.lut0 (s.produced 0) ||| s.lut1 0) s) ∧
    exec .ctxSigned s = .next (keepVal ((s.lut2 (s.produced 0) <<< 3) ||| s.lut2 0) s)) ∧
  (∀ m, decode (.symbol .contextMode (ctxModeCode m)) [] = .ok (ctxRow m, 0) ∧ ctxModeOf (ctxModeCode m) = m)

/-- The map symbols (R272 to R274): one zero, a run of zeros that must not pass the end of the map, one entry above 0.
That the rows invoked alone act also outside their operands (`CM.ZERO` and `CM.VAL` past the end of the map, `CM.RUN(s)` for
`s` outside `1..rlemax`, `CM.VAL(s)` above `rlemax + trees - 1`) is this model's choice (notes/assumptions/41.md, DESIGN
CHOICE). -/
def Obligations.MapSymbols : Prop :=
  (∀ s : State, exec .cmZero s = .next { s with cmr := { s.cmr with map := s.cmr.map ++ [0] } }) ∧
  (∀ v, v ≤ 16 → readsField (.cmRun v) v (fun e s =>
    if s.cmr.len < s.cmr.map.length + (2 ^ v + e) then s.takeFault (.invalid .cmapRunPastEnd)
    else { s with cmr := { s.cmr with map := s.cmr.map ++ List.replicate (2 ^ v + e) 0 } })) ∧
  (∀ (s : State) v, s.cmr.rlemax < v →
    exec (.cmVal v) s = .next { s with cmr := { s.cmr with map := s.cmr.map ++ [v - s.cmr.rlemax] } })

/-- `CMAP(len, trees)` (R271): where the stream spells a map, the map is answered; with one tree it is all zeros and no
bits. With the flag set the map is D22's transform of the entries read (notes/assumptions/21.md, PRESUMED), and the code of
the entries is written as D17 and D19 say (notes/assumptions/18.md, 19.md, PRESUMED): choices of the spec's decision file,
from general knowledge. The map goes to the map latch (notes/assumptions/14.md, DESIGN CHOICE). That `CMAP` invoked alone
acts for every length and number of trees is this model's choice (notes/assumptions/41.md, DESIGN CHOICE). -/
def Obligations.MapsAreRead : Prop :=
  ∀ (s : State) len trees m bits, s.onStream → isMap len trees m bits → s.spells bits →
    ∃ d c, exec (.cmap len trees) s = .next (keepMap m { s.seek (s.pos + bits.length) with desc := d, cmr := c })

/-- A context map that is read has its length and its entries below the number of trees (R277), whatever the stream holds;
with the flag set they are those of D22's transform, from general knowledge (notes/assumptions/21.md, PRESUMED). That the
map goes to the map latch (notes/assumptions/14.md, DESIGN CHOICE), and that `CMAP` invoked alone acts for every length
(notes/assumptions/41.md, DESIGN CHOICE), is this model's choice. -/
def Obligations.MapEntriesAreInRange : Prop :=
  ∀ (s t : State) len trees, s.onStream → 1 ≤ trees → trees ≤ 256 → exec (.cmap len trees) s = .next t →
    (∃ u k, t = State.takeFault u k) ∨ (t.lat.map.length = len ∧ ∀ k ∈ t.lat.map, k < trees)

/-- `IMTF` (R276) runs on every map of bytes and changes nothing but the map and the list; it undoes the move-to-front
transform. The `IMTF` flag (R275) reads one bit and, where it is set, does the same to the map just read; its value goes to
the latch (notes/assumptions/14.md, DESIGN CHOICE). The algorithm is D22's, from general knowledge
(notes/assumptions/21.md, PRESUMED). That both invoked alone transform the entries that are there, whether or not they are the
`len` entries of a whole map, is this model's choice (notes/assumptions/41.md, DESIGN CHOICE). -/
def Obligations.ImtfUndoesMoveToFront : Prop :=
  (∀ s : State, (∀ k ∈ s.cmr.map, k < 256) → ∃ l, exec .imtf s = .next { s with cmr := { s.cmr with
    map := inverseMtf (List.range 256) s.cmr.map, mtf := l } }) ∧
  (∀ s : State, s.onStream →
    (¬ s.hasBits 1 → s.endsEarly (exec .imtfFlag s)) ∧
    (s.hasBits 1 → s.nextField 1 = 0 → exec .imtfFlag s = .next (keepVal 0 (s.seek (s.pos + 1)))) ∧
    (s.hasBits 1 → s.nextField 1 = 1 → (∀ k ∈ s.cmr.map, k < 256) → ∃ l, exec .imtfFlag s =
      .next (keepVal 1 { s.seek (s.pos + 1) with cmr := { s.cmr with
        map := inverseMtf (List.range 256) s.cmr.map, mtf := l } }))) ∧
  (∀ l : List Nat, (∀ k ∈ l, k < 256) →
    (∀ k ∈ forwardMtf (List.range 256) l, k < 256) ∧
    inverseMtf (List.range 256) (forwardMtf (List.range 256) l) = l)

/-! Distances. -/

/-- The sixteen ring symbols (R291): the slot counted backward from the pointer, modulo 4, and the offset. Reading changes
nothing but the signed latch, to which the value goes by this model's choice (notes/assumptions/14.md, DESIGN CHOICE). -/
def Obligations.RingSymbols : Prop :=
  ∀ (s : State) (p : Instr × Nat × Int), p ∈ [(Instr.dRing0, 0, 0), (.dRing1, 1, 0), (.dRing2, 2, 0), (.dRing3, 3, 0)] ++
      [(.dRing4, 0, -1), (.dRing5, 0, 1), (.dRing6, 0, -2), (.dRing7, 0, 2), (.dRing8, 0, -3), (.dRing9, 0, 3)] ++
      [(.dRing10, 1, -1), (.dRing11, 1, 1), (.dRing12, 1, -2), (.dRing13, 1, 2), (.dRing14, 1, -3)] ++
      [(.dRing15, 1, 3)] →
    ∀ r, s.ring[(s.ringPtr.val + 4 - p.2.1) % 4]? = some r → exec p.1 s = .next (keepSval ((r : Int) + p.2.2) s)

/-- `D.DIRECT` and `D.LONG` (R294, R295) on their ranges of symbols. That the values go to the signed latch is this model's
choice (notes/assumptions/14.md, DESIGN CHOICE). -/
def Obligations.DirectAndLongDistances : Prop :=
  (∀ (s : State) v, 16 ≤ v → v < 16 + s.direct → exec (.dDirect v) s = .next (keepSval ((v : Int) - 15) s)) ∧
  (∀ (s : State) v n x off, s.onStream → 16 + s.direct ≤ v → v < s.dalpha → n = v - s.direct - 16 →
    x = 1 + n >>> (s.npostfix + 1) → off = ((2 + (n >>> s.npostfix &&& 1)) <<< x) - 4 →
    x ≤ 24 ∧ (¬ s.hasBits x → s.endsEarly (exec (.dLong v) s)) ∧
    (s.hasBits x → exec (.dLong v) s = .next (keepSval
      ((((off + s.nextField x) <<< s.npostfix) + (n &&& (1 <<< s.npostfix) - 1) + s.direct + 1 : Nat) : Int)
      (s.seek (s.pos + x)))))

/-- The long symbols with all their extra bits produce every distance from `direct + 1` to the largest exactly once
(R296). -/
def Obligations.LongDistancesTile : Prop :=
  ∀ p direct d, direct < d → d ≤ direct + (2 ^ 26 - 4) * 2 ^ p →
    ∃ v e, (16 + direct ≤ v ∧ v < 16 + direct + 48 <<< p ∧ e < 2 ^ longExtra p direct v ∧
      longDistance p direct v e = d) ∧
    ∀ v' e', 16 + direct ≤ v' → v' < 16 + direct + 48 <<< p → e' < 2 ^ longExtra p direct v' →
      longDistance p direct v' e' = d → v' = v ∧ e' = e

/-- `DISTVAL(sym)` (R290, R297): the distance of the symbol's form, tested on the signed value before use (D5,
notes/assumptions/26.md). The value goes to the signed latch (notes/assumptions/14.md, DESIGN CHOICE). -/
def Obligations.DistancesAreTested : Prop :=
  ∀ (s : State) v, s.onStream → v < s.dalpha →
    (¬ s.hasBits (s.distanceExtra v) → s.endsEarly (exec (.distval v) s)) ∧
    (s.hasBits (s.distanceExtra v) → ∀ d, d = s.distanceOf v (s.nextField (s.distanceExtra v)) →
      exec (.distval v) s =
        if d ≤ 0 then .next ((s.seek (s.pos + s.distanceExtra v)).takeFault (.invalid .distanceNotPositive))
        else .next (keepSval d (s.seek (s.pos + s.distanceExtra v)))) ∧
    (16 ≤ v → ∀ e, 1 ≤ s.distanceOf v e)

/-- `RINGPUSH(d)` (R298): the new distance becomes the most recent, each of the three before it one older, and the fourth is
gone; nothing but the ring changes. Which slot the pointer moves to is D28's (notes/assumptions/32.md). -/
def Obligations.RingPush : Prop :=
  ∀ (s : State) d, 1 ≤ d → ∃ t, exec (.ringpush d) s = .next t ∧ t.ringPtr.val = (s.ringPtr.val + 1) % 4 ∧
    t.ringValue 0 0 = d ∧ t.ringValue 1 0 = s.ringValue 0 0 ∧ t.ringValue 2 0 = s.ringValue 1 0 ∧
    t.ringValue 3 0 = s.ringValue 2 0 ∧ sameBut [.ring, .ringPtr] s t

/-! The command loop. -/

/-- `CMD` (R204, R205): tick, symbol, both lengths; `mlen` pays for the literals; an insert length above `mlen` is
`Invalid`. That the insert extra bits precede the copy extra bits is D21's, from general knowledge (notes/assumptions/20.md,
PRESUMED), and the place of the test against `mlen` is D8's (notes/assumptions/27.md, DEDUCED). A stream that ends inside
the symbol or the extra bits is `PrematureEof`. That a symbol above 703 is split with map entries of 0 is this model's
choice (notes/assumptions/41.md, DESIGN CHOICE). -/
def Obligations.CommandStarts : Prop :=
  (∀ (s u : State) code v word a b e1 e2, s.onStream → 0 < s.mlen → s.ticks .I u →
    u.iacBank[u.blkI.cur]? = some code → code.isCodeword v word →
    a = insExtra.getD (insertCode v) 0 → b = cpyExtra.getD (copyCode v) 0 → e1 < 2 ^ a → e2 < 2 ^ b →
    u.spells (word ++ bitsLE a e1 ++ bitsLE b e2) →
    (insBase.getD (insertCode v) 0 + e1 ≤ s.mlen →
      exec .cmd s = .next { u.seek (u.pos + (word ++ bitsLE a e1 ++ bitsLE b e2).length) with
        iacSym := v, copyLen := cpyBase.getD (copyCode v) 0 + e2
        mlen := s.mlen - (insBase.getD (insertCode v) 0 + e1), insLeft := insBase.getD (insertCode v) 0 + e1 }) ∧
    (s.mlen < insBase.getD (insertCode v) 0 + e1 →
      ∃ t : State, exec .cmd s = .next (t.takeFault (.invalid .mlenExceededByInsert)))) ∧
  ∀ (s u : State) code, s.onStream → 0 < s.mlen → s.ticks .I u → u.iacBank[u.blkI.cur]? = some code →
    (code.valid = true → (∀ v word, code.isCodeword v word → ¬ u.spells word) →
      ∃ t : State, exec .cmd s = .next (t.takeFault .prematureEof)) ∧
    ∀ v word, code.isCodeword v word → u.spells word →
      ¬ u.hasBits (word.length + insExtra.getD (insertCode v) 0 + cpyExtra.getD (copyCode v) 0) →
      ∃ t : State, exec .cmd s = .next (t.takeFault .prematureEof)

/-- `LIT` (R206): tick, the code that the block type, the context and the map select, one symbol, one byte out. The context
before two bytes exist is D9's, from general knowledge (R278; notes/assumptions/22.md, PRESUMED). A stream that ends inside
the symbol is `PrematureEof` (R342). That a switch installs whatever type-change symbol its table holds is this model's choice
(notes/assumptions/41.md, DESIGN CHOICE). -/
def Obligations.LiteralsAreInserted : Prop :=
  ∀ (s u : State) mode k code, s.onStream → 0 < s.insLeft → s.ticks .L u →
    u.modes[u.blkL.cur]? = some mode → u.litMap[64 * u.blkL.cur + u.ctx mode]? = some k →
    u.litBank[k]? = some code →
    (∀ b word, code.isCodeword b word → b < 256 → u.spells word →
      (u.accepts [BitVec.ofNat 8 b] → exec .lit s =
        .next { (u.seek (u.pos + word.length)).withOutput [BitVec.ofNat 8 b] with insLeft := s.insLeft - 1 }) ∧
      (¬ u.accepts [BitVec.ofNat 8 b] →
        exec .lit s = .next ((u.seek (u.pos + word.length)).takeFault .compareMismatch))) ∧
    (code.valid = true → (∀ b word, code.isCodeword b word → ¬ u.spells word) →
      ∃ t : State, exec .lit s = .next (t.takeFault .prematureEof))

/-- `DIST` (R208): an implicit distance is the most recent one, and neither ticks nor pushes; an explicit one ticks, takes
the code of the distance context, and is pushed exactly when its symbol is not 0 and it lies in the window. That a distance
of zero or less is `Invalid` before any use is D5's (notes/assumptions/26.md, DEDUCED), and how a push moves the ring is
D28's (notes/assumptions/32.md, DEDUCED). A stream that ends inside the symbol or the extra bits is `PrematureEof`. That a
copy length below 2 has context 0, which R284 does not give, and that `DIST` acts with literals of the command still to
insert, is this model's choice (notes/assumptions/41.md, DESIGN CHOICE). -/
def Obligations.DistancesAreDecoded : Prop :=
  (∀ s : State, 0 < s.mlen → s.iacSym < 128 →
    exec .dist s = .next { s with dsym := 0, dist := (s.ring[s.ringPtr] : Int) }) ∧
  (∀ (s u : State) k code v word x e t d, s.onStream → 0 < s.mlen → 128 ≤ s.iacSym → s.ticks .D u →
    u.distMap[4 * u.blkD.cur + min (u.copyLen - 2) 3]? = some k → u.distBank[k]? = some code →
    code.isCodeword v word → v < u.dalpha → x = u.distanceExtra v → e < 2 ^ x → u.spells (word ++ bitsLE x e) →
    d = u.distanceOf v e → t = u.seek (u.pos + (word ++ bitsLE x e).length) →
    (d ≤ 0 → ∃ t' : State, exec .dist s = .next (t'.takeFault (.invalid .distanceNotPositive))) ∧
    (0 < d → (v = 0 ∨ (min u.got u.wsize : Nat) < d) →
      exec .dist s = .next { t with dsym := v, dist := d }) ∧
    (0 < d → v ≠ 0 → d ≤ (min u.got u.wsize : Nat) →
      exec .dist s = .next { t.pushed d.toNat with dsym := v, dist := d })) ∧
  ∀ (s u : State) k code, s.onStream → 0 < s.mlen → 128 ≤ s.iacSym → s.ticks .D u →
    u.distMap[4 * u.blkD.cur + min (u.copyLen - 2) 3]? = some k → u.distBank[k]? = some code →
    (code.valid = true → (∀ v word, code.isCodeword v word → ¬ u.spells word) →
      ∃ t : State, exec .dist s = .next (t.takeFault .prematureEof)) ∧
    ∀ v word, code.isCodeword v word → v < u.dalpha → u.spells word → ¬ u.hasBits (word.length + u.distanceExtra v) →
      ∃ t : State, exec .dist s = .next (t.takeFault .prematureEof)

/-- `COPY` (R209): a distance beyond the window is a dictionary reference with identifier `dist - max - 1`; any other is a
copy from the past. -/
def Obligations.CopyDispatch : Prop :=
  ∀ (s : State) m, m = min s.got s.wsize →
    ((m : Int) < s.dist → ∃ id : Nat, (id : Int) = s.dist - m - 1 ∧ exec .copy s = exec (.copyDict id s.copyLen) s) ∧
    (s.dist ≤ m → exec .copy s = exec .copyPast s)

/-- `COPY.PAST` (R210): too long a copy is `Invalid` before any byte (D8, notes/assumptions/27.md, DEDUCED); otherwise the
last `dist` bytes produced are repeated `copy_len` bytes long (R72), `mlen` pays for them, and so does `COPY` when it comes
to this. In compare mode the first byte that differs ends the run with `got` there (R66). -/
def Obligations.CopiesFromThePast : Prop :=
  ∀ (s : State) d, s.out.wf = true → 1 ≤ d → s.dist = (d : Nat) → d ≤ min s.got s.wsize → ∀ i ∈ [Instr.copyPast, .copy],
    (s.mlen < s.copyLen → exec i s = .next (s.takeFault (.invalid .mlenExceededByCopy))) ∧
    (s.copyLen ≤ s.mlen → s.accepts (s.pastBytes d s.copyLen) →
      exec i s = .next { s.withOutput (s.pastBytes d s.copyLen) with mlen := s.mlen - s.copyLen }) ∧
    (s.copyLen ≤ s.mlen → ∀ k, s.differsAt (s.pastBytes d s.copyLen) k → s.mismatches k (exec i s))

/-- `COPY.DICT(id, L)` (R314): the length, the transform and the size of the whole result (R316) are tested in that order
(D8, notes/assumptions/27.md, DEDUCED); otherwise the transformed word is produced and paid for, at most 37 bytes, and the
ring is as before; so does `COPY` when it comes to this. With transform 0 the bytes are the word's own (R321). In compare
mode the first byte that differs ends the run with `got` there (R66). Where a word lies in the ROM is D23's, from general
knowledge (notes/assumptions/25.md, PRESUMED). The five operations make of the word what R315 says; how counts beyond the
word and truncated characters are taken is D24's and D25's (notes/assumptions/24.md, DEDUCED). That the result has at most
37 bytes rests on the lengths of prefix and suffix (R322; notes/assumptions/5.md, DEDUCED). -/
def Obligations.DictionaryReferences : Prop :=
  (∀ u k w, applyOp u .ident k w = w ∧ applyOp u .upFirst k w = wordUpfirst u w ∧ applyOp u .upAll k w = wordUpall u w ∧
    applyOp u .omitFirst k w = w.drop k ∧ applyOp u .omitLast k w = w.take (w.length - k)) ∧
  ∀ (s : State) id len,
    (len < 4 ∨ 24 < len → exec (.copyDict id len) s = .next (s.takeFault (.invalid .dictLength))) ∧
    (4 ≤ len → len ≤ 24 → 121 ≤ id / 2 ^ ndbits len →
      exec (.copyDict id len) s = .next (s.takeFault (.invalid .dictTransform))) ∧
    (4 ≤ len → len ≤ 24 → id / 2 ^ ndbits len < 121 → ∀ x w,
      x = s.xformAt (id / 2 ^ ndbits len) →
      w = x.pre ++ applyOp s.ports.upper4 x.op x.k (s.dictWord len (id % 2 ^ ndbits len)) ++ x.suf →
      w.length ≤ 37 ∧
      (id / 2 ^ ndbits len = 0 → w = s.dictWord len id) ∧
      (s.mlen < w.length → exec (.copyDict id len) s = .next (s.takeFault (.invalid .mlenExceededByWord))) ∧
      (w.length ≤ s.mlen → s.accepts w →
        exec (.copyDict id len) s = .next { s.withOutput w with mlen := s.mlen - w.length } ∧
        (s.dist = ((min s.got s.wsize : Nat) : Int) + 1 + id → s.copyLen = len →
          exec .copy s = .next { s.withOutput w with mlen := s.mlen - w.length })) ∧
      (w.length ≤ s.mlen → ∀ k, s.differsAt w k →
        s.mismatches k (exec (.copyDict id len) s) ∧
        (s.dist = ((min s.got s.wsize : Nat) : Int) + 1 + id → s.copyLen = len → s.mismatches k (exec .copy s))))

/-- The layout of the dictionary (R312, R313): the groups follow each other in ascending length from address 0 to 122784
without a gap, so no two words share a byte and every byte of a word is in the ROM. That order and that start are D23's
choice, from general knowledge (notes/assumptions/25.md, PRESUMED). -/
def Obligations.DictionaryLayout : Prop :=
  doffset 4 = 0 ∧ (∀ len, 4 ≤ len → len < 24 → doffset (len + 1) = doffset len + len * 2 ^ ndbits len) ∧
  doffset 24 + 24 * 2 ^ ndbits 24 = 122784 ∧
  (∀ len i, 4 ≤ len → len ≤ 24 → i < 2 ^ ndbits len → doffset len + i * len + len ≤ 122784) ∧
  (∀ len i k len' i' k', 4 ≤ len → len ≤ 24 → i < 2 ^ ndbits len → k < len → 4 ≤ len' → len' ≤ 24 →
    i' < 2 ^ ndbits len' → k' < len' → doffset len + i * len + k = doffset len' + i' * len' + k' →
    len = len' ∧ i = i' ∧ k = k')

/-- The five word operations (R317 to R320, R324): identity, the first character, every character, without the first or last
`k` bytes. Upper case goes character by character, and a byte beyond the word is not changed (D24, D25:
notes/assumptions/24.md, DEDUCED). They work on the word latch (notes/assumptions/14.md, DESIGN CHOICE). -/
def Obligations.WordTransforms : Prop :=
  (∀ s, exec .xId s = .next s) ∧
  (∀ k s, exec (.xOmitfirst k) s = .next (keepWord (s.lat.word.drop k) s)) ∧
  (∀ k s, exec (.xOmitlast k) s = .next (keepWord (s.lat.word.take (s.lat.word.length - k)) s)) ∧
  (∀ s, exec .xUpfirst s = .next (keepWord (wordUpfirst s.ports.upper4 s.lat.word) s)) ∧
  (∀ s, exec .xUpall s = .next (keepWord (wordUpall s.ports.upper4 s.lat.word) s)) ∧
  (∀ u (c : Byte) l, c < 0xC0 →
    wordUpfirst u (c :: l) = (if 0x61 ≤ c ∧ c ≤ 0x7A then c ^^^ 0x20 else c) :: l) ∧
  (∀ u (c : Byte) l, 0xC0 ≤ c → c < 0xE0 → wordUpfirst u (c :: l) = (c :: l).modify 1 (· ^^^ 0x20)) ∧
  (∀ u (c : Byte) l, 0xE0 ≤ c → (c < 0xF0 ∨ u = .third) → wordUpfirst u (c :: l) = (c :: l).modify 2 (· ^^^ 0x05)) ∧
  (∀ (c : Byte) l, 0xF0 ≤ c → wordUpfirst .final (c :: l) = (c :: l).modify 3 (· ^^^ 0x05)) ∧
  (∀ u, wordUpall u [] = []) ∧
  (∀ u (c : Byte) l, wordUpall u (c :: l) =
    wordUpfirst u ((c :: l).take (charLen u c)) ++ wordUpall u ((c :: l).drop (charLen u c)))

/-! The machine as a whole. -/

/-- The transitions of the control-state machine (R181, D2), with `MB.END` (R212): what follows each operation that
completed. The list `todo` and one step per operation are this model's granularity (notes/assumptions/1.md, DESIGN CHOICE),
as are the latches it branches on (notes/assumptions/14.md, DESIGN CHOICE); that `META.SKIP` leads to `C_MB_END` with a last
block too is D12's (notes/assumptions/30.md, DEDUCED). -/
def Obligations.ControlTransitions : Prop :=
  (∀ s : State, exec .mbEnd s = .next { s with ctl := if s.last then .fin else .mbStart }) ∧
  (∀ s : State, s.todo = [] → s.nextElem = match s.ctl with
    | .stream => some .wbits
    | .mbStart => some (.oper .islast)
    | .mbHdr => some (.oper .mnibbles)
    | .cmd => some (.oper .cmd)
    | .lit => some (.oper .lit)
    | .copy => some (.oper .dist)
    | .mbEnd => some (.oper .mbEnd)
    | .fin => some (.oper .streamEnd)
    | .done => none) ∧
  (∀ s : State, s.ctl ≠ .done →
    s.advance .islast = (if s.last then { s with todo := .oper .islastempty :: s.todo } else { s with ctl := .mbHdr }) ∧
    s.advance .islastempty = { s with ctl := if s.lat.val = 1 then .fin else .mbHdr } ∧
    s.advance .mnibbles = { s with
      todo := (if s.lat.val = 3 then .oper .metaRsvd else .oper (.mlen (4 + s.lat.val))) :: s.todo } ∧
    s.advance .metaRsvd = { s with todo := .oper .mskipbytes :: s.todo } ∧
    s.advance .mskipbytes = { s with todo := .oper (.mskiplen s.lat.val) :: s.todo } ∧
    (∀ sb, s.advance (.mskiplen sb) = { s with todo := .oper (.metaSkip s.lat.val) :: s.todo }) ∧
    (∀ k, s.advance (.metaSkip k) = { s with ctl := .mbEnd }) ∧
    (∀ nn, s.advance (.mlen nn) = { s with
      todo := (if s.last then .oper .header else .oper .isuncompressed) :: s.todo }) ∧
    s.advance .isuncompressed = { s with
      todo := (if s.lat.val = 1 then .oper .rawcopy else .oper .header) :: s.todo } ∧
    s.advance .rawcopy = { s with ctl := .mbEnd } ∧
    s.advance .header = { s with ctl := .cmd } ∧
    (∀ i ∈ [Instr.cmd, .lit], s.advance i =
      { s with ctl := if 0 < s.insLeft then .lit else if s.mlen = 0 then .mbEnd else .copy }) ∧
    s.advance .dist = { s with todo := .oper .copy :: s.todo } ∧
    s.advance .copy = { s with ctl := if 0 < s.mlen then .cmd else .mbEnd })

/-- `STREAM.END` (R213): non-zero padding, then a length that differs in compare mode; otherwise `Ok`, and `consumed` is the
number of bytes begun. The place of the tests and the count are D13's and D15's (notes/assumptions/29.md, 28.md). -/
def Obligations.StreamEnd : Prop :=
  ∀ s : State, s.onStream →
    (s.rd.resid ≠ 0 → exec .streamEnd s = .next (s.takeFault (.invalid .nonZeroPadding))) ∧
    (s.rd.resid = 0 → s.compare = true → s.got ≠ s.haveLen →
      exec .streamEnd s = .next ((s.seek (8 * s.rd.inNext)).takeFault .compareMismatch)) ∧
    (s.rd.resid = 0 → (s.compare = true → s.got = s.haveLen) →
      exec .streamEnd s = .next { s.seek (8 * s.rd.inNext) with
        consumed := s.rd.inNext, result := some .ok, ctl := .done, todo := [] })

/-- Raising a result (R344): it is latched, control is in `C_DONE`, nothing is left to execute, nothing else changes, and no
step follows. Whatever operation brings a run to `C_DONE` leaves it so. The list `todo` is this model's
(notes/assumptions/1.md, DESIGN CHOICE). -/
def Obligations.FaultsEndTheRun : Prop :=
  (∀ (s : State) k, s.takeFault k = { s with result := some k, ctl := .done, todo := [] } ∧
    step (s.takeFault k) = .fault .runEnded) ∧
  (∀ (s t : State) i, exec i s = .next t → s.ctl ≠ .done → t.ctl = .done →
    t.result ≠ none ∧ t.todo = [] ∧ step t = .fault .runEnded ∧
    (t.result = some .ok → i = .streamEnd)) ∧
  (∀ (s t : State) i, exec i s = .next t → s.ctl ≠ .done → t.ctl ≠ .done → t.result = s.result)

/-- What an operation leaves unchanged, for every operation: everything but what its rule writes (`instrWrites`), and
where it raised a result, beside that, only `result`, `ctl` and the list of operations to fetch. Every byte of `OUT`
reads as before, except those at the addresses from `got` before to `got` after. The latches that keep an operation's value
are this model's (notes/assumptions/14.md, DESIGN CHOICE). -/
def Obligations.OperationsLeaveTheRest : Prop :=
  ∀ (s t : State) i, exec i s = .next t → ∃ u, sameBut (instrWrites i) s u ∧ (t = u ∨ ∃ k, k ≠ .ok ∧ t = u.takeFault k) ∧
    s.got ≤ t.got ∧ ∀ a, a < s.got ∨ t.got ≤ a → t.out.get a = s.out.get a

/-- What the start gives (R37, R380; D1, D2, D35): the ring, its pointer, the cursor at bit 0, no output, no result, the
mode of the host's ports, and `WBITS` to come; also in the middle of a run. The other registers are this model's choice
(notes/assumptions/2.md) and not stated here. -/
def Obligations.StartState : Prop :=
  State.reset = State.started .idle ∧
  ∀ s : State, s.start.ring = #v[16, 15, 11, 4] ∧ s.start.ringPtr = 3 ∧ s.start.rd.inNext = 0 ∧
    s.start.rd.resid = 0 ∧ s.start.rd.left = 0 ∧ s.start.pos = 0 ∧ s.start.got = 0 ∧ s.start.out = [] ∧
    s.start.ctl = .stream ∧ s.start.result = none ∧ s.start.nextElem = some .wbits ∧ s.start.ports = s.ports ∧
    s.start.compare = s.ports.compareMode ∧ s.start.haveLen = s.ports.expectedLen ∧
    s.start.ringValue 0 0 = 4 ∧ s.start.ringValue 1 0 = 11 ∧ s.start.ringValue 2 0 = 15 ∧ s.start.ringValue 3 0 = 16

/-- What the host may see (R346, D7: notes/assumptions/34.md): nothing before `C_DONE`; after it the result, and beside it
only what the table of that rule defines. -/
def Obligations.HostObserves : Prop :=
  ∀ s : State, (s.ctl ≠ .done → s.observe = none) ∧
    (s.ctl = .done → s.result = some .ok → s.compare = false →
      ∃ l, s.observe = some { result := .ok, output := some l, got := some s.got, consumed := some s.consumed } ∧
        l.length = s.got ∧ ∀ k (h : k < l.length), l[k] = s.out.get k) ∧
    (s.ctl = .done → s.result = some .ok → s.compare = true →
      s.observe = some { result := .ok, output := none, got := some s.got, consumed := some s.consumed }) ∧
    (s.ctl = .done → s.result = some .compareMismatch →
      s.observe = some { result := .compareMismatch, output := none, got := some s.got, consumed := none }) ∧
    (∀ k, s.ctl = .done → s.result = some k → (k = .prematureEof ∨ k = .outOfMemory ∨ ∃ c, k = .invalid c) →
      s.observe = some { result := k, output := none, got := none, consumed := none })

/-- The invariant holds at the start of every run, and at reset. It rests on the values this model chose: for the registers
to which R37 gives none, the window, the block categories, the maps and the banks among them (notes/assumptions/2.md, DESIGN
CHOICE), and for the ports at reset, which no host has driven yet (notes/assumptions/3.md, DESIGN CHOICE). -/
def Obligations.InvariantAtStart : Prop :=
  State.reset.Inv ∧ ∀ p, (State.started p).Inv

/-- Every step keeps the invariant: valid tables (R36 item 1), the capacity (item 2), a positive ring, live block counters
(item 5), map entries and block types that index the banks (R277), the coherent cursor (R122 (d)), canonical memory. -/
def Obligations.InvariantIsKept : Prop :=
  ∀ s t : State, s.Inv → step s = .next t → t.Inv

/-- No run gets stuck (R36, R38, R145, U10): from every state of a run that has not ended there is a step to a next state,
or the stream names a symbol twice in a simple descriptor, which has no meaning (R149). -/
def Obligations.RunsDoNotGetStuck : Prop :=
  ∀ s : State, s.Running → (∃ t, step s = .next t) ∨ step s = .refused .dupSimple

/-- A run only goes forward (R22, R25, R61, R122 (c), R383): the ports never change, `in_next`, the stream position and the
count of bytes produced never go back, and a byte once produced never changes, also in the step that ends the run. In
compare mode a byte produced is read from `EXP` (notes/assumptions/7.md, DEDUCED). -/
def Obligations.RunsGoForward : Prop :=
  ∀ s t : State, s.Running → step s = .next t →
    t.ports = s.ports ∧ s.rd.inNext ≤ t.rd.inNext ∧ s.pos ≤ t.pos ∧ s.got ≤ t.got ∧
    ∀ a, a < s.got → t.produced a = s.produced a
end

