-- ==== Sys2Proof/Laws/State.lean ====
section
/-! SUPPORT. What each field reads after each named update of the state: one lemma per field and update, true by
unfolding the update. -/

namespace Sys2Proof.Machine

/-! `seek` -/

@[simp] theorem seek_ports (s : State) (pos : Nat) : (s.seek pos).ports = s.ports := rfl
@[simp] theorem seek_rd (s : State) (pos : Nat) : (s.seek pos).rd = readerAt s.ports pos := rfl
@[simp] theorem seek_ctl (s : State) (pos : Nat) : (s.seek pos).ctl = s.ctl := rfl
@[simp] theorem seek_todo (s : State) (pos : Nat) : (s.seek pos).todo = s.todo := rfl
@[simp] theorem seek_wbits (s : State) (pos : Nat) : (s.seek pos).wbits = s.wbits := rfl
@[simp] theorem seek_got (s : State) (pos : Nat) : (s.seek pos).got = s.got := rfl
@[simp] theorem seek_compare (s : State) (pos : Nat) : (s.seek pos).compare = s.compare := rfl
@[simp] theorem seek_haveLen (s : State) (pos : Nat) : (s.seek pos).haveLen = s.haveLen := rfl
@[simp] theorem seek_out (s : State) (pos : Nat) : (s.seek pos).out = s.out := rfl
@[simp] theorem seek_last (s : State) (pos : Nat) : (s.seek pos).last = s.last := rfl
@[simp] theorem seek_mlen (s : State) (pos : Nat) : (s.seek pos).mlen = s.mlen := rfl
@[simp] theorem seek_insLeft (s : State) (pos : Nat) : (s.seek pos).insLeft = s.insLeft := rfl
@[simp] theorem seek_ring (s : State) (pos : Nat) : (s.seek pos).ring = s.ring := rfl
@[simp] theorem seek_ringPtr (s : State) (pos : Nat) : (s.seek pos).ringPtr = s.ringPtr := rfl
@[simp] theorem seek_npostfix (s : State) (pos : Nat) : (s.seek pos).npostfix = s.npostfix := rfl
@[simp] theorem seek_direct (s : State) (pos : Nat) : (s.seek pos).direct = s.direct := rfl
@[simp] theorem seek_blkL (s : State) (pos : Nat) : (s.seek pos).blkL = s.blkL := rfl
@[simp] theorem seek_blkI (s : State) (pos : Nat) : (s.seek pos).blkI = s.blkI := rfl
@[simp] theorem seek_blkD (s : State) (pos : Nat) : (s.seek pos).blkD = s.blkD := rfl
@[simp] theorem seek_modes (s : State) (pos : Nat) : (s.seek pos).modes = s.modes := rfl
@[simp] theorem seek_litCodes (s : State) (pos : Nat) : (s.seek pos).litCodes = s.litCodes := rfl
@[simp] theorem seek_distCodes (s : State) (pos : Nat) : (s.seek pos).distCodes = s.distCodes := rfl
@[simp] theorem seek_litMap (s : State) (pos : Nat) : (s.seek pos).litMap = s.litMap := rfl
@[simp] theorem seek_distMap (s : State) (pos : Nat) : (s.seek pos).distMap = s.distMap := rfl
@[simp] theorem seek_litBank (s : State) (pos : Nat) : (s.seek pos).litBank = s.litBank := rfl
@[simp] theorem seek_iacBank (s : State) (pos : Nat) : (s.seek pos).iacBank = s.iacBank := rfl
@[simp] theorem seek_distBank (s : State) (pos : Nat) : (s.seek pos).distBank = s.distBank := rfl
@[simp] theorem seek_iacSym (s : State) (pos : Nat) : (s.seek pos).iacSym = s.iacSym := rfl
@[simp] theorem seek_copyLen (s : State) (pos : Nat) : (s.seek pos).copyLen = s.copyLen := rfl
@[simp] theorem seek_dsym (s : State) (pos : Nat) : (s.seek pos).dsym = s.dsym := rfl
@[simp] theorem seek_dist (s : State) (pos : Nat) : (s.seek pos).dist = s.dist := rfl
@[simp] theorem seek_desc (s : State) (pos : Nat) : (s.seek pos).desc = s.desc := rfl
@[simp] theorem seek_cmr (s : State) (pos : Nat) : (s.seek pos).cmr = s.cmr := rfl
@[simp] theorem seek_result (s : State) (pos : Nat) : (s.seek pos).result = s.result := rfl
@[simp] theorem seek_consumed (s : State) (pos : Nat) : (s.seek pos).consumed = s.consumed := rfl
@[simp] theorem seek_lat (s : State) (pos : Nat) : (s.seek pos).lat = s.lat := rfl

/-! `takeFault` -/

@[simp] theorem takeFault_ports (s : State) (k : Result) : (s.takeFault k).ports = s.ports := rfl
@[simp] theorem takeFault_rd (s : State) (k : Result) : (s.takeFault k).rd = s.rd := rfl
@[simp] theorem takeFault_ctl (s : State) (k : Result) : (s.takeFault k).ctl = .done := rfl
@[simp] theorem takeFault_todo (s : State) (k : Result) : (s.takeFault k).todo = [] := rfl
@[simp] theorem takeFault_wbits (s : State) (k : Result) : (s.takeFault k).wbits = s.wbits := rfl
@[simp] theorem takeFault_got (s : State) (k : Result) : (s.takeFault k).got = s.got := rfl
@[simp] theorem takeFault_compare (s : State) (k : Result) : (s.takeFault k).compare = s.compare := rfl
@[simp] theorem takeFault_haveLen (s : State) (k : Result) : (s.takeFault k).haveLen = s.haveLen := rfl
@[simp] theorem takeFault_out (s : State) (k : Result) : (s.takeFault k).out = s.out := rfl
@[simp] theorem takeFault_last (s : State) (k : Result) : (s.takeFault k).last = s.last := rfl
@[simp] theorem takeFault_mlen (s : State) (k : Result) : (s.takeFault k).mlen = s.mlen := rfl
@[simp] theorem takeFault_insLeft (s : State) (k : Result) : (s.takeFault k).insLeft = s.insLeft := rfl
@[simp] theorem takeFault_ring (s : State) (k : Result) : (s.takeFault k).ring = s.ring := rfl
@[simp] theorem takeFault_ringPtr (s : State) (k : Result) : (s.takeFault k).ringPtr = s.ringPtr := rfl
@[simp] theorem takeFault_npostfix (s : State) (k : Result) : (s.takeFault k).npostfix = s.npostfix := rfl
@[simp] theorem takeFault_direct (s : State) (k : Result) : (s.takeFault k).direct = s.direct := rfl
@[simp] theorem takeFault_blkL (s : State) (k : Result) : (s.takeFault k).blkL = s.blkL := rfl
@[simp] theorem takeFault_blkI (s : State) (k : Result) : (s.takeFault k).blkI = s.blkI := rfl
@[simp] theorem takeFault_blkD (s : State) (k : Result) : (s.takeFault k).blkD = s.blkD := rfl
@[simp] theorem takeFault_modes (s : State) (k : Result) : (s.takeFault k).modes = s.modes := rfl
@[simp] theorem takeFault_litCodes (s : State) (k : Result) : (s.takeFault k).litCodes = s.litCodes := rfl
@[simp] theorem takeFault_distCodes (s : State) (k : Result) : (s.takeFault k).distCodes = s.distCodes := rfl
@[simp] theorem takeFault_litMap (s : State) (k : Result) : (s.takeFault k).litMap = s.litMap := rfl
@[simp] theorem takeFault_distMap (s : State) (k : Result) : (s.takeFault k).distMap = s.distMap := rfl
@[simp] theorem takeFault_litBank (s : State) (k : Result) : (s.takeFault k).litBank = s.litBank := rfl
@[simp] theorem takeFault_iacBank (s : State) (k : Result) : (s.takeFault k).iacBank = s.iacBank := rfl
@[simp] theorem takeFault_distBank (s : State) (k : Result) : (s.takeFault k).distBank = s.distBank := rfl
@[simp] theorem takeFault_iacSym (s : State) (k : Result) : (s.takeFault k).iacSym = s.iacSym := rfl
@[simp] theorem takeFault_copyLen (s : State) (k : Result) : (s.takeFault k).copyLen = s.copyLen := rfl
@[simp] theorem takeFault_dsym (s : State) (k : Result) : (s.takeFault k).dsym = s.dsym := rfl
@[simp] theorem takeFault_dist (s : State) (k : Result) : (s.takeFault k).dist = s.dist := rfl
@[simp] theorem takeFault_desc (s : State) (k : Result) : (s.takeFault k).desc = s.desc := rfl
@[simp] theorem takeFault_cmr (s : State) (k : Result) : (s.takeFault k).cmr = s.cmr := rfl
@[simp] theorem takeFault_result (s : State) (k : Result) : (s.takeFault k).result = some k := rfl
@[simp] theorem takeFault_consumed (s : State) (k : Result) : (s.takeFault k).consumed = s.consumed := rfl
@[simp] theorem takeFault_lat (s : State) (k : Result) : (s.takeFault k).lat = s.lat := rfl

/-! `withOutput` -/

@[simp] theorem withOutput_ports (s : State) (l : List Byte) : (s.withOutput l).ports = s.ports := rfl
@[simp] theorem withOutput_rd (s : State) (l : List Byte) : (s.withOutput l).rd = s.rd := rfl
@[simp] theorem withOutput_ctl (s : State) (l : List Byte) : (s.withOutput l).ctl = s.ctl := rfl
@[simp] theorem withOutput_todo (s : State) (l : List Byte) : (s.withOutput l).todo = s.todo := rfl
@[simp] theorem withOutput_wbits (s : State) (l : List Byte) : (s.withOutput l).wbits = s.wbits := rfl
@[simp] theorem withOutput_got (s : State) (l : List Byte) : (s.withOutput l).got = s.got + l.length := rfl
@[simp] theorem withOutput_compare (s : State) (l : List Byte) : (s.withOutput l).compare = s.compare := rfl
@[simp] theorem withOutput_haveLen (s : State) (l : List Byte) : (s.withOutput l).haveLen = s.haveLen := rfl
@[simp] theorem withOutput_out (s : State) (l : List Byte) : (s.withOutput l).out = if s.compare then s.out else s.out.writes s.got l := rfl
@[simp] theorem withOutput_last (s : State) (l : List Byte) : (s.withOutput l).last = s.last := rfl
@[simp] theorem withOutput_mlen (s : State) (l : List Byte) : (s.withOutput l).mlen = s.mlen := rfl
@[simp] theorem withOutput_insLeft (s : State) (l : List Byte) : (s.withOutput l).insLeft = s.insLeft := rfl
@[simp] theorem withOutput_ring (s : State) (l : List Byte) : (s.withOutput l).ring = s.ring := rfl
@[simp] theorem withOutput_ringPtr (s : State) (l : List Byte) : (s.withOutput l).ringPtr = s.ringPtr := rfl
@[simp] theorem withOutput_npostfix (s : State) (l : List Byte) : (s.withOutput l).npostfix = s.npostfix := rfl
@[simp] theorem withOutput_direct (s : State) (l : List Byte) : (s.withOutput l).direct = s.direct := rfl
@[simp] theorem withOutput_blkL (s : State) (l : List Byte) : (s.withOutput l).blkL = s.blkL := rfl
@[simp] theorem withOutput_blkI (s : State) (l : List Byte) : (s.withOutput l).blkI = s.blkI := rfl
@[simp] theorem withOutput_blkD (s : State) (l : List Byte) : (s.withOutput l).blkD = s.blkD := rfl
@[simp] theorem withOutput_modes (s : State) (l : List Byte) : (s.withOutput l).modes = s.modes := rfl
@[simp] theorem withOutput_litCodes (s : State) (l : List Byte) : (s.withOutput l).litCodes = s.litCodes := rfl
@[simp] theorem withOutput_distCodes (s : State) (l : List Byte) : (s.withOutput l).distCodes = s.distCodes := rfl
@[simp] theorem withOutput_litMap (s : State) (l : List Byte) : (s.withOutput l).litMap = s.litMap := rfl
@[simp] theorem withOutput_distMap (s : State) (l : List Byte) : (s.withOutput l).distMap = s.distMap := rfl
@[simp] theorem withOutput_litBank (s : State) (l : List Byte) : (s.withOutput l).litBank = s.litBank := rfl
@[simp] theorem withOutput_iacBank (s : State) (l : List Byte) : (s.withOutput l).iacBank = s.iacBank := rfl
@[simp] theorem withOutput_distBank (s : State) (l : List Byte) : (s.withOutput l).distBank = s.distBank := rfl
@[simp] theorem withOutput_iacSym (s : State) (l : List Byte) : (s.withOutput l).iacSym = s.iacSym := rfl
@[simp] theorem withOutput_copyLen (s : State) (l : List Byte) : (s.withOutput l).copyLen = s.copyLen := rfl
@[simp] theorem withOutput_dsym (s : State) (l : List Byte) : (s.withOutput l).dsym = s.dsym := rfl
@[simp] theorem withOutput_dist (s : State) (l : List Byte) : (s.withOutput l).dist = s.dist := rfl
@[simp] theorem withOutput_desc (s : State) (l : List Byte) : (s.withOutput l).desc = s.desc := rfl
@[simp] theorem withOutput_cmr (s : State) (l : List Byte) : (s.withOutput l).cmr = s.cmr := rfl
@[simp] theorem withOutput_result (s : State) (l : List Byte) : (s.withOutput l).result = s.result := rfl
@[simp] theorem withOutput_consumed (s : State) (l : List Byte) : (s.withOutput l).consumed = s.consumed := rfl
@[simp] theorem withOutput_lat (s : State) (l : List Byte) : (s.withOutput l).lat = s.lat := rfl

/-! `keepVal` -/

@[simp] theorem keepVal_ports (v : Nat) (s : State) : (keepVal v s).ports = s.ports := rfl
@[simp] theorem keepVal_rd (v : Nat) (s : State) : (keepVal v s).rd = s.rd := rfl
@[simp] theorem keepVal_ctl (v : Nat) (s : State) : (keepVal v s).ctl = s.ctl := rfl
@[simp] theorem keepVal_todo (v : Nat) (s : State) : (keepVal v s).todo = s.todo := rfl
@[simp] theorem keepVal_wbits (v : Nat) (s : State) : (keepVal v s).wbits = s.wbits := rfl
@[simp] theorem keepVal_got (v : Nat) (s : State) : (keepVal v s).got = s.got := rfl
@[simp] theorem keepVal_compare (v : Nat) (s : State) : (keepVal v s).compare = s.compare := rfl
@[simp] theorem keepVal_haveLen (v : Nat) (s : State) : (keepVal v s).haveLen = s.haveLen := rfl
@[simp] theorem keepVal_out (v : Nat) (s : State) : (keepVal v s).out = s.out := rfl
@[simp] theorem keepVal_last (v : Nat) (s : State) : (keepVal v s).last = s.last := rfl
@[simp] theorem keepVal_mlen (v : Nat) (s : State) : (keepVal v s).mlen = s.mlen := rfl
@[simp] theorem keepVal_insLeft (v : Nat) (s : State) : (keepVal v s).insLeft = s.insLeft := rfl
@[simp] theorem keepVal_ring (v : Nat) (s : State) : (keepVal v s).ring = s.ring := rfl
@[simp] theorem keepVal_ringPtr (v : Nat) (s : State) : (keepVal v s).ringPtr = s.ringPtr := rfl
@[simp] theorem keepVal_npostfix (v : Nat) (s : State) : (keepVal v s).npostfix = s.npostfix := rfl
@[simp] theorem keepVal_direct (v : Nat) (s : State) : (keepVal v s).direct = s.direct := rfl
@[simp] theorem keepVal_blkL (v : Nat) (s : State) : (keepVal v s).blkL = s.blkL := rfl
@[simp] theorem keepVal_blkI (v : Nat) (s : State) : (keepVal v s).blkI = s.blkI := rfl
@[simp] theorem keepVal_blkD (v : Nat) (s : State) : (keepVal v s).blkD = s.blkD := rfl
@[simp] theorem keepVal_modes (v : Nat) (s : State) : (keepVal v s).modes = s.modes := rfl
@[simp] theorem keepVal_litCodes (v : Nat) (s : State) : (keepVal v s).litCodes = s.litCodes := rfl
@[simp] theorem keepVal_distCodes (v : Nat) (s : State) : (keepVal v s).distCodes = s.distCodes := rfl
@[simp] theorem keepVal_litMap (v : Nat) (s : State) : (keepVal v s).litMap = s.litMap := rfl
@[simp] theorem keepVal_distMap (v : Nat) (s : State) : (keepVal v s).distMap = s.distMap := rfl
@[simp] theorem keepVal_litBank (v : Nat) (s : State) : (keepVal v s).litBank = s.litBank := rfl
@[simp] theorem keepVal_iacBank (v : Nat) (s : State) : (keepVal v s).iacBank = s.iacBank := rfl
@[simp] theorem keepVal_distBank (v : Nat) (s : State) : (keepVal v s).distBank = s.distBank := rfl
@[simp] theorem keepVal_iacSym (v : Nat) (s : State) : (keepVal v s).iacSym = s.iacSym := rfl
@[simp] theorem keepVal_copyLen (v : Nat) (s : State) : (keepVal v s).copyLen = s.copyLen := rfl
@[simp] theorem keepVal_dsym (v : Nat) (s : State) : (keepVal v s).dsym = s.dsym := rfl
@[simp] theorem keepVal_dist (v : Nat) (s : State) : (keepVal v s).dist = s.dist := rfl
@[simp] theorem keepVal_desc (v : Nat) (s : State) : (keepVal v s).desc = s.desc := rfl
@[simp] theorem keepVal_cmr (v : Nat) (s : State) : (keepVal v s).cmr = s.cmr := rfl
@[simp] theorem keepVal_result (v : Nat) (s : State) : (keepVal v s).result = s.result := rfl
@[simp] theorem keepVal_consumed (v : Nat) (s : State) : (keepVal v s).consumed = s.consumed := rfl
@[simp] theorem keepVal_lat (v : Nat) (s : State) : (keepVal v s).lat = { s.lat with val := v } := rfl

/-! `keepSval` -/

@[simp] theorem keepSval_ports (v : Int) (s : State) : (keepSval v s).ports = s.ports := rfl
@[simp] theorem keepSval_rd (v : Int) (s : State) : (keepSval v s).rd = s.rd := rfl
@[simp] theorem keepSval_ctl (v : Int) (s : State) : (keepSval v s).ctl = s.ctl := rfl
@[simp] theorem keepSval_todo (v : Int) (s : State) : (keepSval v s).todo = s.todo := rfl
@[simp] theorem keepSval_wbits (v : Int) (s : State) : (keepSval v s).wbits = s.wbits := rfl
@[simp] theorem keepSval_got (v : Int) (s : State) : (keepSval v s).got = s.got := rfl
@[simp] theorem keepSval_compare (v : Int) (s : State) : (keepSval v s).compare = s.compare := rfl
@[simp] theorem keepSval_haveLen (v : Int) (s : State) : (keepSval v s).haveLen = s.haveLen := rfl
@[simp] theorem keepSval_out (v : Int) (s : State) : (keepSval v s).out = s.out := rfl
@[simp] theorem keepSval_last (v : Int) (s : State) : (keepSval v s).last = s.last := rfl
@[simp] theorem keepSval_mlen (v : Int) (s : State) : (keepSval v s).mlen = s.mlen := rfl
@[simp] theorem keepSval_insLeft (v : Int) (s : State) : (keepSval v s).insLeft = s.insLeft := rfl
@[simp] theorem keepSval_ring (v : Int) (s : State) : (keepSval v s).ring = s.ring := rfl
@[simp] theorem keepSval_ringPtr (v : Int) (s : State) : (keepSval v s).ringPtr = s.ringPtr := rfl
@[simp] theorem keepSval_npostfix (v : Int) (s : State) : (keepSval v s).npostfix = s.npostfix := rfl
@[simp] theorem keepSval_direct (v : Int) (s : State) : (keepSval v s).direct = s.direct := rfl
@[simp] theorem keepSval_blkL (v : Int) (s : State) : (keepSval v s).blkL = s.blkL := rfl
@[simp] theorem keepSval_blkI (v : Int) (s : State) : (keepSval v s).blkI = s.blkI := rfl
@[simp] theorem keepSval_blkD (v : Int) (s : State) : (keepSval v s).blkD = s.blkD := rfl
@[simp] theorem keepSval_modes (v : Int) (s : State) : (keepSval v s).modes = s.modes := rfl
@[simp] theorem keepSval_litCodes (v : Int) (s : State) : (keepSval v s).litCodes = s.litCodes := rfl
@[simp] theorem keepSval_distCodes (v : Int) (s : State) : (keepSval v s).distCodes = s.distCodes := rfl
@[simp] theorem keepSval_litMap (v : Int) (s : State) : (keepSval v s).litMap = s.litMap := rfl
@[simp] theorem keepSval_distMap (v : Int) (s : State) : (keepSval v s).distMap = s.distMap := rfl
@[simp] theorem keepSval_litBank (v : Int) (s : State) : (keepSval v s).litBank = s.litBank := rfl
@[simp] theorem keepSval_iacBank (v : Int) (s : State) : (keepSval v s).iacBank = s.iacBank := rfl
@[simp] theorem keepSval_distBank (v : Int) (s : State) : (keepSval v s).distBank = s.distBank := rfl
@[simp] theorem keepSval_iacSym (v : Int) (s : State) : (keepSval v s).iacSym = s.iacSym := rfl
@[simp] theorem keepSval_copyLen (v : Int) (s : State) : (keepSval v s).copyLen = s.copyLen := rfl
@[simp] theorem keepSval_dsym (v : Int) (s : State) : (keepSval v s).dsym = s.dsym := rfl
@[simp] theorem keepSval_dist (v : Int) (s : State) : (keepSval v s).dist = s.dist := rfl
@[simp] theorem keepSval_desc (v : Int) (s : State) : (keepSval v s).desc = s.desc := rfl
@[simp] theorem keepSval_cmr (v : Int) (s : State) : (keepSval v s).cmr = s.cmr := rfl
@[simp] theorem keepSval_result (v : Int) (s : State) : (keepSval v s).result = s.result := rfl
@[simp] theorem keepSval_consumed (v : Int) (s : State) : (keepSval v s).consumed = s.consumed := rfl
@[simp] theorem keepSval_lat (v : Int) (s : State) : (keepSval v s).lat = { s.lat with sval := v } := rfl

/-! `keepTable` -/

@[simp] theorem keepTable_ports (t : Table) (s : State) : (keepTable t s).ports = s.ports := rfl
@[simp] theorem keepTable_rd (t : Table) (s : State) : (keepTable t s).rd = s.rd := rfl
@[simp] theorem keepTable_ctl (t : Table) (s : State) : (keepTable t s).ctl = s.ctl := rfl
@[simp] theorem keepTable_todo (t : Table) (s : State) : (keepTable t s).todo = s.todo := rfl
@[simp] theorem keepTable_wbits (t : Table) (s : State) : (keepTable t s).wbits = s.wbits := rfl
@[simp] theorem keepTable_got (t : Table) (s : State) : (keepTable t s).got = s.got := rfl
@[simp] theorem keepTable_compare (t : Table) (s : State) : (keepTable t s).compare = s.compare := rfl
@[simp] theorem keepTable_haveLen (t : Table) (s : State) : (keepTable t s).haveLen = s.haveLen := rfl
@[simp] theorem keepTable_out (t : Table) (s : State) : (keepTable t s).out = s.out := rfl
@[simp] theorem keepTable_last (t : Table) (s : State) : (keepTable t s).last = s.last := rfl
@[simp] theorem keepTable_mlen (t : Table) (s : State) : (keepTable t s).mlen = s.mlen := rfl
@[simp] theorem keepTable_insLeft (t : Table) (s : State) : (keepTable t s).insLeft = s.insLeft := rfl
@[simp] theorem keepTable_ring (t : Table) (s : State) : (keepTable t s).ring = s.ring := rfl
@[simp] theorem keepTable_ringPtr (t : Table) (s : State) : (keepTable t s).ringPtr = s.ringPtr := rfl
@[simp] theorem keepTable_npostfix (t : Table) (s : State) : (keepTable t s).npostfix = s.npostfix := rfl
@[simp] theorem keepTable_direct (t : Table) (s : State) : (keepTable t s).direct = s.direct := rfl
@[simp] theorem keepTable_blkL (t : Table) (s : State) : (keepTable t s).blkL = s.blkL := rfl
@[simp] theorem keepTable_blkI (t : Table) (s : State) : (keepTable t s).blkI = s.blkI := rfl
@[simp] theorem keepTable_blkD (t : Table) (s : State) : (keepTable t s).blkD = s.blkD := rfl
@[simp] theorem keepTable_modes (t : Table) (s : State) : (keepTable t s).modes = s.modes := rfl
@[simp] theorem keepTable_litCodes (t : Table) (s : State) : (keepTable t s).litCodes = s.litCodes := rfl
@[simp] theorem keepTable_distCodes (t : Table) (s : State) : (keepTable t s).distCodes = s.distCodes := rfl
@[simp] theorem keepTable_litMap (t : Table) (s : State) : (keepTable t s).litMap = s.litMap := rfl
@[simp] theorem keepTable_distMap (t : Table) (s : State) : (keepTable t s).distMap = s.distMap := rfl
@[simp] theorem keepTable_litBank (t : Table) (s : State) : (keepTable t s).litBank = s.litBank := rfl
@[simp] theorem keepTable_iacBank (t : Table) (s : State) : (keepTable t s).iacBank = s.iacBank := rfl
@[simp] theorem keepTable_distBank (t : Table) (s : State) : (keepTable t s).distBank = s.distBank := rfl
@[simp] theorem keepTable_iacSym (t : Table) (s : State) : (keepTable t s).iacSym = s.iacSym := rfl
@[simp] theorem keepTable_copyLen (t : Table) (s : State) : (keepTable t s).copyLen = s.copyLen := rfl
@[simp] theorem keepTable_dsym (t : Table) (s : State) : (keepTable t s).dsym = s.dsym := rfl
@[simp] theorem keepTable_dist (t : Table) (s : State) : (keepTable t s).dist = s.dist := rfl
@[simp] theorem keepTable_desc (t : Table) (s : State) : (keepTable t s).desc = s.desc := rfl
@[simp] theorem keepTable_cmr (t : Table) (s : State) : (keepTable t s).cmr = s.cmr := rfl
@[simp] theorem keepTable_result (t : Table) (s : State) : (keepTable t s).result = s.result := rfl
@[simp] theorem keepTable_consumed (t : Table) (s : State) : (keepTable t s).consumed = s.consumed := rfl
@[simp] theorem keepTable_lat (t : Table) (s : State) : (keepTable t s).lat = { s.lat with tbl := t } := rfl

/-! `keepMap` -/

@[simp] theorem keepMap_ports (m : List Nat) (s : State) : (keepMap m s).ports = s.ports := rfl
@[simp] theorem keepMap_rd (m : List Nat) (s : State) : (keepMap m s).rd = s.rd := rfl
@[simp] theorem keepMap_ctl (m : List Nat) (s : State) : (keepMap m s).ctl = s.ctl := rfl
@[simp] theorem keepMap_todo (m : List Nat) (s : State) : (keepMap m s).todo = s.todo := rfl
@[simp] theorem keepMap_wbits (m : List Nat) (s : State) : (keepMap m s).wbits = s.wbits := rfl
@[simp] theorem keepMap_got (m : List Nat) (s : State) : (keepMap m s).got = s.got := rfl
@[simp] theorem keepMap_compare (m : List Nat) (s : State) : (keepMap m s).compare = s.compare := rfl
@[simp] theorem keepMap_haveLen (m : List Nat) (s : State) : (keepMap m s).haveLen = s.haveLen := rfl
@[simp] theorem keepMap_out (m : List Nat) (s : State) : (keepMap m s).out = s.out := rfl
@[simp] theorem keepMap_last (m : List Nat) (s : State) : (keepMap m s).last = s.last := rfl
@[simp] theorem keepMap_mlen (m : List Nat) (s : State) : (keepMap m s).mlen = s.mlen := rfl
@[simp] theorem keepMap_insLeft (m : List Nat) (s : State) : (keepMap m s).insLeft = s.insLeft := rfl
@[simp] theorem keepMap_ring (m : List Nat) (s : State) : (keepMap m s).ring = s.ring := rfl
@[simp] theorem keepMap_ringPtr (m : List Nat) (s : State) : (keepMap m s).ringPtr = s.ringPtr := rfl
@[simp] theorem keepMap_npostfix (m : List Nat) (s : State) : (keepMap m s).npostfix = s.npostfix := rfl
@[simp] theorem keepMap_direct (m : List Nat) (s : State) : (keepMap m s).direct = s.direct := rfl
@[simp] theorem keepMap_blkL (m : List Nat) (s : State) : (keepMap m s).blkL = s.blkL := rfl
@[simp] theorem keepMap_blkI (m : List Nat) (s : State) : (keepMap m s).blkI = s.blkI := rfl
@[simp] theorem keepMap_blkD (m : List Nat) (s : State) : (keepMap m s).blkD = s.blkD := rfl
@[simp] theorem keepMap_modes (m : List Nat) (s : State) : (keepMap m s).modes = s.modes := rfl
@[simp] theorem keepMap_litCodes (m : List Nat) (s : State) : (keepMap m s).litCodes = s.litCodes := rfl
@[simp] theorem keepMap_distCodes (m : List Nat) (s : State) : (keepMap m s).distCodes = s.distCodes := rfl
@[simp] theorem keepMap_litMap (m : List Nat) (s : State) : (keepMap m s).litMap = s.litMap := rfl
@[simp] theorem keepMap_distMap (m : List Nat) (s : State) : (keepMap m s).distMap = s.distMap := rfl
@[simp] theorem keepMap_litBank (m : List Nat) (s : State) : (keepMap m s).litBank = s.litBank := rfl
@[simp] theorem keepMap_iacBank (m : List Nat) (s : State) : (keepMap m s).iacBank = s.iacBank := rfl
@[simp] theorem keepMap_distBank (m : List Nat) (s : State) : (keepMap m s).distBank = s.distBank := rfl
@[simp] theorem keepMap_iacSym (m : List Nat) (s : State) : (keepMap m s).iacSym = s.iacSym := rfl
@[simp] theorem keepMap_copyLen (m : List Nat) (s : State) : (keepMap m s).copyLen = s.copyLen := rfl
@[simp] theorem keepMap_dsym (m : List Nat) (s : State) : (keepMap m s).dsym = s.dsym := rfl
@[simp] theorem keepMap_dist (m : List Nat) (s : State) : (keepMap m s).dist = s.dist := rfl
@[simp] theorem keepMap_desc (m : List Nat) (s : State) : (keepMap m s).desc = s.desc := rfl
@[simp] theorem keepMap_cmr (m : List Nat) (s : State) : (keepMap m s).cmr = s.cmr := rfl
@[simp] theorem keepMap_result (m : List Nat) (s : State) : (keepMap m s).result = s.result := rfl
@[simp] theorem keepMap_consumed (m : List Nat) (s : State) : (keepMap m s).consumed = s.consumed := rfl
@[simp] theorem keepMap_lat (m : List Nat) (s : State) : (keepMap m s).lat = { s.lat with map := m } := rfl

/-! `keepWord` -/

@[simp] theorem keepWord_ports (w : List Byte) (s : State) : (keepWord w s).ports = s.ports := rfl
@[simp] theorem keepWord_rd (w : List Byte) (s : State) : (keepWord w s).rd = s.rd := rfl
@[simp] theorem keepWord_ctl (w : List Byte) (s : State) : (keepWord w s).ctl = s.ctl := rfl
@[simp] theorem keepWord_todo (w : List Byte) (s : State) : (keepWord w s).todo = s.todo := rfl
@[simp] theorem keepWord_wbits (w : List Byte) (s : State) : (keepWord w s).wbits = s.wbits := rfl
@[simp] theorem keepWord_got (w : List Byte) (s : State) : (keepWord w s).got = s.got := rfl
@[simp] theorem keepWord_compare (w : List Byte) (s : State) : (keepWord w s).compare = s.compare := rfl
@[simp] theorem keepWord_haveLen (w : List Byte) (s : State) : (keepWord w s).haveLen = s.haveLen := rfl
@[simp] theorem keepWord_out (w : List Byte) (s : State) : (keepWord w s).out = s.out := rfl
@[simp] theorem keepWord_last (w : List Byte) (s : State) : (keepWord w s).last = s.last := rfl
@[simp] theorem keepWord_mlen (w : List Byte) (s : State) : (keepWord w s).mlen = s.mlen := rfl
@[simp] theorem keepWord_insLeft (w : List Byte) (s : State) : (keepWord w s).insLeft = s.insLeft := rfl
@[simp] theorem keepWord_ring (w : List Byte) (s : State) : (keepWord w s).ring = s.ring := rfl
@[simp] theorem keepWord_ringPtr (w : List Byte) (s : State) : (keepWord w s).ringPtr = s.ringPtr := rfl
@[simp] theorem keepWord_npostfix (w : List Byte) (s : State) : (keepWord w s).npostfix = s.npostfix := rfl
@[simp] theorem keepWord_direct (w : List Byte) (s : State) : (keepWord w s).direct = s.direct := rfl
@[simp] theorem keepWord_blkL (w : List Byte) (s : State) : (keepWord w s).blkL = s.blkL := rfl
@[simp] theorem keepWord_blkI (w : List Byte) (s : State) : (keepWord w s).blkI = s.blkI := rfl
@[simp] theorem keepWord_blkD (w : List Byte) (s : State) : (keepWord w s).blkD = s.blkD := rfl
@[simp] theorem keepWord_modes (w : List Byte) (s : State) : (keepWord w s).modes = s.modes := rfl
@[simp] theorem keepWord_litCodes (w : List Byte) (s : State) : (keepWord w s).litCodes = s.litCodes := rfl
@[simp] theorem keepWord_distCodes (w : List Byte) (s : State) : (keepWord w s).distCodes = s.distCodes := rfl
@[simp] theorem keepWord_litMap (w : List Byte) (s : State) : (keepWord w s).litMap = s.litMap := rfl
@[simp] theorem keepWord_distMap (w : List Byte) (s : State) : (keepWord w s).distMap = s.distMap := rfl
@[simp] theorem keepWord_litBank (w : List Byte) (s : State) : (keepWord w s).litBank = s.litBank := rfl
@[simp] theorem keepWord_iacBank (w : List Byte) (s : State) : (keepWord w s).iacBank = s.iacBank := rfl
@[simp] theorem keepWord_distBank (w : List Byte) (s : State) : (keepWord w s).distBank = s.distBank := rfl
@[simp] theorem keepWord_iacSym (w : List Byte) (s : State) : (keepWord w s).iacSym = s.iacSym := rfl
@[simp] theorem keepWord_copyLen (w : List Byte) (s : State) : (keepWord w s).copyLen = s.copyLen := rfl
@[simp] theorem keepWord_dsym (w : List Byte) (s : State) : (keepWord w s).dsym = s.dsym := rfl
@[simp] theorem keepWord_dist (w : List Byte) (s : State) : (keepWord w s).dist = s.dist := rfl
@[simp] theorem keepWord_desc (w : List Byte) (s : State) : (keepWord w s).desc = s.desc := rfl
@[simp] theorem keepWord_cmr (w : List Byte) (s : State) : (keepWord w s).cmr = s.cmr := rfl
@[simp] theorem keepWord_result (w : List Byte) (s : State) : (keepWord w s).result = s.result := rfl
@[simp] theorem keepWord_consumed (w : List Byte) (s : State) : (keepWord w s).consumed = s.consumed := rfl
@[simp] theorem keepWord_lat (w : List Byte) (s : State) : (keepWord w s).lat = { s.lat with word := w } := rfl

/-! `keepInsLen` -/

@[simp] theorem keepInsLen_ports (n : Nat) (s : State) : (keepInsLen n s).ports = s.ports := rfl
@[simp] theorem keepInsLen_rd (n : Nat) (s : State) : (keepInsLen n s).rd = s.rd := rfl
@[simp] theorem keepInsLen_ctl (n : Nat) (s : State) : (keepInsLen n s).ctl = s.ctl := rfl
@[simp] theorem keepInsLen_todo (n : Nat) (s : State) : (keepInsLen n s).todo = s.todo := rfl
@[simp] theorem keepInsLen_wbits (n : Nat) (s : State) : (keepInsLen n s).wbits = s.wbits := rfl
@[simp] theorem keepInsLen_got (n : Nat) (s : State) : (keepInsLen n s).got = s.got := rfl
@[simp] theorem keepInsLen_compare (n : Nat) (s : State) : (keepInsLen n s).compare = s.compare := rfl
@[simp] theorem keepInsLen_haveLen (n : Nat) (s : State) : (keepInsLen n s).haveLen = s.haveLen := rfl
@[simp] theorem keepInsLen_out (n : Nat) (s : State) : (keepInsLen n s).out = s.out := rfl
@[simp] theorem keepInsLen_last (n : Nat) (s : State) : (keepInsLen n s).last = s.last := rfl
@[simp] theorem keepInsLen_mlen (n : Nat) (s : State) : (keepInsLen n s).mlen = s.mlen := rfl
@[simp] theorem keepInsLen_insLeft (n : Nat) (s : State) : (keepInsLen n s).insLeft = s.insLeft := rfl
@[simp] theorem keepInsLen_ring (n : Nat) (s : State) : (keepInsLen n s).ring = s.ring := rfl
@[simp] theorem keepInsLen_ringPtr (n : Nat) (s : State) : (keepInsLen n s).ringPtr = s.ringPtr := rfl
@[simp] theorem keepInsLen_npostfix (n : Nat) (s : State) : (keepInsLen n s).npostfix = s.npostfix := rfl
@[simp] theorem keepInsLen_direct (n : Nat) (s : State) : (keepInsLen n s).direct = s.direct := rfl
@[simp] theorem keepInsLen_blkL (n : Nat) (s : State) : (keepInsLen n s).blkL = s.blkL := rfl
@[simp] theorem keepInsLen_blkI (n : Nat) (s : State) : (keepInsLen n s).blkI = s.blkI := rfl
@[simp] theorem keepInsLen_blkD (n : Nat) (s : State) : (keepInsLen n s).blkD = s.blkD := rfl
@[simp] theorem keepInsLen_modes (n : Nat) (s : State) : (keepInsLen n s).modes = s.modes := rfl
@[simp] theorem keepInsLen_litCodes (n : Nat) (s : State) : (keepInsLen n s).litCodes = s.litCodes := rfl
@[simp] theorem keepInsLen_distCodes (n : Nat) (s : State) : (keepInsLen n s).distCodes = s.distCodes := rfl
@[simp] theorem keepInsLen_litMap (n : Nat) (s : State) : (keepInsLen n s).litMap = s.litMap := rfl
@[simp] theorem keepInsLen_distMap (n : Nat) (s : State) : (keepInsLen n s).distMap = s.distMap := rfl
@[simp] theorem keepInsLen_litBank (n : Nat) (s : State) : (keepInsLen n s).litBank = s.litBank := rfl
@[simp] theorem keepInsLen_iacBank (n : Nat) (s : State) : (keepInsLen n s).iacBank = s.iacBank := rfl
@[simp] theorem keepInsLen_distBank (n : Nat) (s : State) : (keepInsLen n s).distBank = s.distBank := rfl
@[simp] theorem keepInsLen_iacSym (n : Nat) (s : State) : (keepInsLen n s).iacSym = s.iacSym := rfl
@[simp] theorem keepInsLen_copyLen (n : Nat) (s : State) : (keepInsLen n s).copyLen = s.copyLen := rfl
@[simp] theorem keepInsLen_dsym (n : Nat) (s : State) : (keepInsLen n s).dsym = s.dsym := rfl
@[simp] theorem keepInsLen_dist (n : Nat) (s : State) : (keepInsLen n s).dist = s.dist := rfl
@[simp] theorem keepInsLen_desc (n : Nat) (s : State) : (keepInsLen n s).desc = s.desc := rfl
@[simp] theorem keepInsLen_cmr (n : Nat) (s : State) : (keepInsLen n s).cmr = s.cmr := rfl
@[simp] theorem keepInsLen_result (n : Nat) (s : State) : (keepInsLen n s).result = s.result := rfl
@[simp] theorem keepInsLen_consumed (n : Nat) (s : State) : (keepInsLen n s).consumed = s.consumed := rfl
@[simp] theorem keepInsLen_lat (n : Nat) (s : State) : (keepInsLen n s).lat = { s.lat with insLen := n } := rfl

/-! `keepSplit` -/

@[simp] theorem keepSplit_ports (r : Nat × Nat) (s : State) : (keepSplit r s).ports = s.ports := rfl
@[simp] theorem keepSplit_rd (r : Nat × Nat) (s : State) : (keepSplit r s).rd = s.rd := rfl
@[simp] theorem keepSplit_ctl (r : Nat × Nat) (s : State) : (keepSplit r s).ctl = s.ctl := rfl
@[simp] theorem keepSplit_todo (r : Nat × Nat) (s : State) : (keepSplit r s).todo = s.todo := rfl
@[simp] theorem keepSplit_wbits (r : Nat × Nat) (s : State) : (keepSplit r s).wbits = s.wbits := rfl
@[simp] theorem keepSplit_got (r : Nat × Nat) (s : State) : (keepSplit r s).got = s.got := rfl
@[simp] theorem keepSplit_compare (r : Nat × Nat) (s : State) : (keepSplit r s).compare = s.compare := rfl
@[simp] theorem keepSplit_haveLen (r : Nat × Nat) (s : State) : (keepSplit r s).haveLen = s.haveLen := rfl
@[simp] theorem keepSplit_out (r : Nat × Nat) (s : State) : (keepSplit r s).out = s.out := rfl
@[simp] theorem keepSplit_last (r : Nat × Nat) (s : State) : (keepSplit r s).last = s.last := rfl
@[simp] theorem keepSplit_mlen (r : Nat × Nat) (s : State) : (keepSplit r s).mlen = s.mlen := rfl
@[simp] theorem keepSplit_insLeft (r : Nat × Nat) (s : State) : (keepSplit r s).insLeft = s.insLeft := rfl
@[simp] theorem keepSplit_ring (r : Nat × Nat) (s : State) : (keepSplit r s).ring = s.ring := rfl
@[simp] theorem keepSplit_ringPtr (r : Nat × Nat) (s : State) : (keepSplit r s).ringPtr = s.ringPtr := rfl
@[simp] theorem keepSplit_npostfix (r : Nat × Nat) (s : State) : (keepSplit r s).npostfix = s.npostfix := rfl
@[simp] theorem keepSplit_direct (r : Nat × Nat) (s : State) : (keepSplit r s).direct = s.direct := rfl
@[simp] theorem keepSplit_blkL (r : Nat × Nat) (s : State) : (keepSplit r s).blkL = s.blkL := rfl
@[simp] theorem keepSplit_blkI (r : Nat × Nat) (s : State) : (keepSplit r s).blkI = s.blkI := rfl
@[simp] theorem keepSplit_blkD (r : Nat × Nat) (s : State) : (keepSplit r s).blkD = s.blkD := rfl
@[simp] theorem keepSplit_modes (r : Nat × Nat) (s : State) : (keepSplit r s).modes = s.modes := rfl
@[simp] theorem keepSplit_litCodes (r : Nat × Nat) (s : State) : (keepSplit r s).litCodes = s.litCodes := rfl
@[simp] theorem keepSplit_distCodes (r : Nat × Nat) (s : State) : (keepSplit r s).distCodes = s.distCodes := rfl
@[simp] theorem keepSplit_litMap (r : Nat × Nat) (s : State) : (keepSplit r s).litMap = s.litMap := rfl
@[simp] theorem keepSplit_distMap (r : Nat × Nat) (s : State) : (keepSplit r s).distMap = s.distMap := rfl
@[simp] theorem keepSplit_litBank (r : Nat × Nat) (s : State) : (keepSplit r s).litBank = s.litBank := rfl
@[simp] theorem keepSplit_iacBank (r : Nat × Nat) (s : State) : (keepSplit r s).iacBank = s.iacBank := rfl
@[simp] theorem keepSplit_distBank (r : Nat × Nat) (s : State) : (keepSplit r s).distBank = s.distBank := rfl
@[simp] theorem keepSplit_iacSym (r : Nat × Nat) (s : State) : (keepSplit r s).iacSym = s.iacSym := rfl
@[simp] theorem keepSplit_copyLen (r : Nat × Nat) (s : State) : (keepSplit r s).copyLen = r.2 := rfl
@[simp] theorem keepSplit_dsym (r : Nat × Nat) (s : State) : (keepSplit r s).dsym = s.dsym := rfl
@[simp] theorem keepSplit_dist (r : Nat × Nat) (s : State) : (keepSplit r s).dist = s.dist := rfl
@[simp] theorem keepSplit_desc (r : Nat × Nat) (s : State) : (keepSplit r s).desc = s.desc := rfl
@[simp] theorem keepSplit_cmr (r : Nat × Nat) (s : State) : (keepSplit r s).cmr = s.cmr := rfl
@[simp] theorem keepSplit_result (r : Nat × Nat) (s : State) : (keepSplit r s).result = s.result := rfl
@[simp] theorem keepSplit_consumed (r : Nat × Nat) (s : State) : (keepSplit r s).consumed = s.consumed := rfl
@[simp] theorem keepSplit_lat (r : Nat × Nat) (s : State) : (keepSplit r s).lat = { s.lat with insLen := r.1 } := rfl

/-! `keepCopyLen` -/

@[simp] theorem keepCopyLen_ports (n : Nat) (s : State) : (keepCopyLen n s).ports = s.ports := rfl
@[simp] theorem keepCopyLen_rd (n : Nat) (s : State) : (keepCopyLen n s).rd = s.rd := rfl
@[simp] theorem keepCopyLen_ctl (n : Nat) (s : State) : (keepCopyLen n s).ctl = s.ctl := rfl
@[simp] theorem keepCopyLen_todo (n : Nat) (s : State) : (keepCopyLen n s).todo = s.todo := rfl
@[simp] theorem keepCopyLen_wbits (n : Nat) (s : State) : (keepCopyLen n s).wbits = s.wbits := rfl
@[simp] theorem keepCopyLen_got (n : Nat) (s : State) : (keepCopyLen n s).got = s.got := rfl
@[simp] theorem keepCopyLen_compare (n : Nat) (s : State) : (keepCopyLen n s).compare = s.compare := rfl
@[simp] theorem keepCopyLen_haveLen (n : Nat) (s : State) : (keepCopyLen n s).haveLen = s.haveLen := rfl
@[simp] theorem keepCopyLen_out (n : Nat) (s : State) : (keepCopyLen n s).out = s.out := rfl
@[simp] theorem keepCopyLen_last (n : Nat) (s : State) : (keepCopyLen n s).last = s.last := rfl
@[simp] theorem keepCopyLen_mlen (n : Nat) (s : State) : (keepCopyLen n s).mlen = s.mlen := rfl
@[simp] theorem keepCopyLen_insLeft (n : Nat) (s : State) : (keepCopyLen n s).insLeft = s.insLeft := rfl
@[simp] theorem keepCopyLen_ring (n : Nat) (s : State) : (keepCopyLen n s).ring = s.ring := rfl
@[simp] theorem keepCopyLen_ringPtr (n : Nat) (s : State) : (keepCopyLen n s).ringPtr = s.ringPtr := rfl
@[simp] theorem keepCopyLen_npostfix (n : Nat) (s : State) : (keepCopyLen n s).npostfix = s.npostfix := rfl
@[simp] theorem keepCopyLen_direct (n : Nat) (s : State) : (keepCopyLen n s).direct = s.direct := rfl
@[simp] theorem keepCopyLen_blkL (n : Nat) (s : State) : (keepCopyLen n s).blkL = s.blkL := rfl
@[simp] theorem keepCopyLen_blkI (n : Nat) (s : State) : (keepCopyLen n s).blkI = s.blkI := rfl
@[simp] theorem keepCopyLen_blkD (n : Nat) (s : State) : (keepCopyLen n s).blkD = s.blkD := rfl
@[simp] theorem keepCopyLen_modes (n : Nat) (s : State) : (keepCopyLen n s).modes = s.modes := rfl
@[simp] theorem keepCopyLen_litCodes (n : Nat) (s : State) : (keepCopyLen n s).litCodes = s.litCodes := rfl
@[simp] theorem keepCopyLen_distCodes (n : Nat) (s : State) : (keepCopyLen n s).distCodes = s.distCodes := rfl
@[simp] theorem keepCopyLen_litMap (n : Nat) (s : State) : (keepCopyLen n s).litMap = s.litMap := rfl
@[simp] theorem keepCopyLen_distMap (n : Nat) (s : State) : (keepCopyLen n s).distMap = s.distMap := rfl
@[simp] theorem keepCopyLen_litBank (n : Nat) (s : State) : (keepCopyLen n s).litBank = s.litBank := rfl
@[simp] theorem keepCopyLen_iacBank (n : Nat) (s : State) : (keepCopyLen n s).iacBank = s.iacBank := rfl
@[simp] theorem keepCopyLen_distBank (n : Nat) (s : State) : (keepCopyLen n s).distBank = s.distBank := rfl
@[simp] theorem keepCopyLen_iacSym (n : Nat) (s : State) : (keepCopyLen n s).iacSym = s.iacSym := rfl
@[simp] theorem keepCopyLen_copyLen (n : Nat) (s : State) : (keepCopyLen n s).copyLen = n := rfl
@[simp] theorem keepCopyLen_dsym (n : Nat) (s : State) : (keepCopyLen n s).dsym = s.dsym := rfl
@[simp] theorem keepCopyLen_dist (n : Nat) (s : State) : (keepCopyLen n s).dist = s.dist := rfl
@[simp] theorem keepCopyLen_desc (n : Nat) (s : State) : (keepCopyLen n s).desc = s.desc := rfl
@[simp] theorem keepCopyLen_cmr (n : Nat) (s : State) : (keepCopyLen n s).cmr = s.cmr := rfl
@[simp] theorem keepCopyLen_result (n : Nat) (s : State) : (keepCopyLen n s).result = s.result := rfl
@[simp] theorem keepCopyLen_consumed (n : Nat) (s : State) : (keepCopyLen n s).consumed = s.consumed := rfl
@[simp] theorem keepCopyLen_lat (n : Nat) (s : State) : (keepCopyLen n s).lat = s.lat := rfl

/-! `setBlkL` -/

@[simp] theorem setBlkL_ports (s : State) (b : Block) : (s.setBlk .L b).ports = s.ports := rfl
@[simp] theorem setBlkL_rd (s : State) (b : Block) : (s.setBlk .L b).rd = s.rd := rfl
@[simp] theorem setBlkL_ctl (s : State) (b : Block) : (s.setBlk .L b).ctl = s.ctl := rfl
@[simp] theorem setBlkL_todo (s : State) (b : Block) : (s.setBlk .L b).todo = s.todo := rfl
@[simp] theorem setBlkL_wbits (s : State) (b : Block) : (s.setBlk .L b).wbits = s.wbits := rfl
@[simp] theorem setBlkL_got (s : State) (b : Block) : (s.setBlk .L b).got = s.got := rfl
@[simp] theorem setBlkL_compare (s : State) (b : Block) : (s.setBlk .L b).compare = s.compare := rfl
@[simp] theorem setBlkL_haveLen (s : State) (b : Block) : (s.setBlk .L b).haveLen = s.haveLen := rfl
@[simp] theorem setBlkL_out (s : State) (b : Block) : (s.setBlk .L b).out = s.out := rfl
@[simp] theorem setBlkL_last (s : State) (b : Block) : (s.setBlk .L b).last = s.last := rfl
@[simp] theorem setBlkL_mlen (s : State) (b : Block) : (s.setBlk .L b).mlen = s.mlen := rfl
@[simp] theorem setBlkL_insLeft (s : State) (b : Block) : (s.setBlk .L b).insLeft = s.insLeft := rfl
@[simp] theorem setBlkL_ring (s : State) (b : Block) : (s.setBlk .L b).ring = s.ring := rfl
@[simp] theorem setBlkL_ringPtr (s : State) (b : Block) : (s.setBlk .L b).ringPtr = s.ringPtr := rfl
@[simp] theorem setBlkL_npostfix (s : State) (b : Block) : (s.setBlk .L b).npostfix = s.npostfix := rfl
@[simp] theorem setBlkL_direct (s : State) (b : Block) : (s.setBlk .L b).direct = s.direct := rfl
@[simp] theorem setBlkL_blkL (s : State) (b : Block) : (s.setBlk .L b).blkL = b := rfl
@[simp] theorem setBlkL_blkI (s : State) (b : Block) : (s.setBlk .L b).blkI = s.blkI := rfl
@[simp] theorem setBlkL_blkD (s : State) (b : Block) : (s.setBlk .L b).blkD = s.blkD := rfl
@[simp] theorem setBlkL_modes (s : State) (b : Block) : (s.setBlk .L b).modes = s.modes := rfl
@[simp] theorem setBlkL_litCodes (s : State) (b : Block) : (s.setBlk .L b).litCodes = s.litCodes := rfl
@[simp] theorem setBlkL_distCodes (s : State) (b : Block) : (s.setBlk .L b).distCodes = s.distCodes := rfl
@[simp] theorem setBlkL_litMap (s : State) (b : Block) : (s.setBlk .L b).litMap = s.litMap := rfl
@[simp] theorem setBlkL_distMap (s : State) (b : Block) : (s.setBlk .L b).distMap = s.distMap := rfl
@[simp] theorem setBlkL_litBank (s : State) (b : Block) : (s.setBlk .L b).litBank = s.litBank := rfl
@[simp] theorem setBlkL_iacBank (s : State) (b : Block) : (s.setBlk .L b).iacBank = s.iacBank := rfl
@[simp] theorem setBlkL_distBank (s : State) (b : Block) : (s.setBlk .L b).distBank = s.distBank := rfl
@[simp] theorem setBlkL_iacSym (s : State) (b : Block) : (s.setBlk .L b).iacSym = s.iacSym := rfl
@[simp] theorem setBlkL_copyLen (s : State) (b : Block) : (s.setBlk .L b).copyLen = s.copyLen := rfl
@[simp] theorem setBlkL_dsym (s : State) (b : Block) : (s.setBlk .L b).dsym = s.dsym := rfl
@[simp] theorem setBlkL_dist (s : State) (b : Block) : (s.setBlk .L b).dist = s.dist := rfl
@[simp] theorem setBlkL_desc (s : State) (b : Block) : (s.setBlk .L b).desc = s.desc := rfl
@[simp] theorem setBlkL_cmr (s : State) (b : Block) : (s.setBlk .L b).cmr = s.cmr := rfl
@[simp] theorem setBlkL_result (s : State) (b : Block) : (s.setBlk .L b).result = s.result := rfl
@[simp] theorem setBlkL_consumed (s : State) (b : Block) : (s.setBlk .L b).consumed = s.consumed := rfl
@[simp] theorem setBlkL_lat (s : State) (b : Block) : (s.setBlk .L b).lat = s.lat := rfl

/-! `setBlkI` -/

@[simp] theorem setBlkI_ports (s : State) (b : Block) : (s.setBlk .I b).ports = s.ports := rfl
@[simp] theorem setBlkI_rd (s : State) (b : Block) : (s.setBlk .I b).rd = s.rd := rfl
@[simp] theorem setBlkI_ctl (s : State) (b : Block) : (s.setBlk .I b).ctl = s.ctl := rfl
@[simp] theorem setBlkI_todo (s : State) (b : Block) : (s.setBlk .I b).todo = s.todo := rfl
@[simp] theorem setBlkI_wbits (s : State) (b : Block) : (s.setBlk .I b).wbits = s.wbits := rfl
@[simp] theorem setBlkI_got (s : State) (b : Block) : (s.setBlk .I b).got = s.got := rfl
@[simp] theorem setBlkI_compare (s : State) (b : Block) : (s.setBlk .I b).compare = s.compare := rfl
@[simp] theorem setBlkI_haveLen (s : State) (b : Block) : (s.setBlk .I b).haveLen = s.haveLen := rfl
@[simp] theorem setBlkI_out (s : State) (b : Block) : (s.setBlk .I b).out = s.out := rfl
@[simp] theorem setBlkI_last (s : State) (b : Block) : (s.setBlk .I b).last = s.last := rfl
@[simp] theorem setBlkI_mlen (s : State) (b : Block) : (s.setBlk .I b).mlen = s.mlen := rfl
@[simp] theorem setBlkI_insLeft (s : State) (b : Block) : (s.setBlk .I b).insLeft = s.insLeft := rfl
@[simp] theorem setBlkI_ring (s : State) (b : Block) : (s.setBlk .I b).ring = s.ring := rfl
@[simp] theorem setBlkI_ringPtr (s : State) (b : Block) : (s.setBlk .I b).ringPtr = s.ringPtr := rfl
@[simp] theorem setBlkI_npostfix (s : State) (b : Block) : (s.setBlk .I b).npostfix = s.npostfix := rfl
@[simp] theorem setBlkI_direct (s : State) (b : Block) : (s.setBlk .I b).direct = s.direct := rfl
@[simp] theorem setBlkI_blkL (s : State) (b : Block) : (s.setBlk .I b).blkL = s.blkL := rfl
@[simp] theorem setBlkI_blkI (s : State) (b : Block) : (s.setBlk .I b).blkI = b := rfl
@[simp] theorem setBlkI_blkD (s : State) (b : Block) : (s.setBlk .I b).blkD = s.blkD := rfl
@[simp] theorem setBlkI_modes (s : State) (b : Block) : (s.setBlk .I b).modes = s.modes := rfl
@[simp] theorem setBlkI_litCodes (s : State) (b : Block) : (s.setBlk .I b).litCodes = s.litCodes := rfl
@[simp] theorem setBlkI_distCodes (s : State) (b : Block) : (s.setBlk .I b).distCodes = s.distCodes := rfl
@[simp] theorem setBlkI_litMap (s : State) (b : Block) : (s.setBlk .I b).litMap = s.litMap := rfl
@[simp] theorem setBlkI_distMap (s : State) (b : Block) : (s.setBlk .I b).distMap = s.distMap := rfl
@[simp] theorem setBlkI_litBank (s : State) (b : Block) : (s.setBlk .I b).litBank = s.litBank := rfl
@[simp] theorem setBlkI_iacBank (s : State) (b : Block) : (s.setBlk .I b).iacBank = s.iacBank := rfl
@[simp] theorem setBlkI_distBank (s : State) (b : Block) : (s.setBlk .I b).distBank = s.distBank := rfl
@[simp] theorem setBlkI_iacSym (s : State) (b : Block) : (s.setBlk .I b).iacSym = s.iacSym := rfl
@[simp] theorem setBlkI_copyLen (s : State) (b : Block) : (s.setBlk .I b).copyLen = s.copyLen := rfl
@[simp] theorem setBlkI_dsym (s : State) (b : Block) : (s.setBlk .I b).dsym = s.dsym := rfl
@[simp] theorem setBlkI_dist (s : State) (b : Block) : (s.setBlk .I b).dist = s.dist := rfl
@[simp] theorem setBlkI_desc (s : State) (b : Block) : (s.setBlk .I b).desc = s.desc := rfl
@[simp] theorem setBlkI_cmr (s : State) (b : Block) : (s.setBlk .I b).cmr = s.cmr := rfl
@[simp] theorem setBlkI_result (s : State) (b : Block) : (s.setBlk .I b).result = s.result := rfl
@[simp] theorem setBlkI_consumed (s : State) (b : Block) : (s.setBlk .I b).consumed = s.consumed := rfl
@[simp] theorem setBlkI_lat (s : State) (b : Block) : (s.setBlk .I b).lat = s.lat := rfl

/-! `setBlkD` -/

@[simp] theorem setBlkD_ports (s : State) (b : Block) : (s.setBlk .D b).ports = s.ports := rfl
@[simp] theorem setBlkD_rd (s : State) (b : Block) : (s.setBlk .D b).rd = s.rd := rfl
@[simp] theorem setBlkD_ctl (s : State) (b : Block) : (s.setBlk .D b).ctl = s.ctl := rfl
@[simp] theorem setBlkD_todo (s : State) (b : Block) : (s.setBlk .D b).todo = s.todo := rfl
@[simp] theorem setBlkD_wbits (s : State) (b : Block) : (s.setBlk .D b).wbits = s.wbits := rfl
@[simp] theorem setBlkD_got (s : State) (b : Block) : (s.setBlk .D b).got = s.got := rfl
@[simp] theorem setBlkD_compare (s : State) (b : Block) : (s.setBlk .D b).compare = s.compare := rfl
@[simp] theorem setBlkD_haveLen (s : State) (b : Block) : (s.setBlk .D b).haveLen = s.haveLen := rfl
@[simp] theorem setBlkD_out (s : State) (b : Block) : (s.setBlk .D b).out = s.out := rfl
@[simp] theorem setBlkD_last (s : State) (b : Block) : (s.setBlk .D b).last = s.last := rfl
@[simp] theorem setBlkD_mlen (s : State) (b : Block) : (s.setBlk .D b).mlen = s.mlen := rfl
@[simp] theorem setBlkD_insLeft (s : State) (b : Block) : (s.setBlk .D b).insLeft = s.insLeft := rfl
@[simp] theorem setBlkD_ring (s : State) (b : Block) : (s.setBlk .D b).ring = s.ring := rfl
@[simp] theorem setBlkD_ringPtr (s : State) (b : Block) : (s.setBlk .D b).ringPtr = s.ringPtr := rfl
@[simp] theorem setBlkD_npostfix (s : State) (b : Block) : (s.setBlk .D b).npostfix = s.npostfix := rfl
@[simp] theorem setBlkD_direct (s : State) (b : Block) : (s.setBlk .D b).direct = s.direct := rfl
@[simp] theorem setBlkD_blkL (s : State) (b : Block) : (s.setBlk .D b).blkL = s.blkL := rfl
@[simp] theorem setBlkD_blkI (s : State) (b : Block) : (s.setBlk .D b).blkI = s.blkI := rfl
@[simp] theorem setBlkD_blkD (s : State) (b : Block) : (s.setBlk .D b).blkD = b := rfl
@[simp] theorem setBlkD_modes (s : State) (b : Block) : (s.setBlk .D b).modes = s.modes := rfl
@[simp] theorem setBlkD_litCodes (s : State) (b : Block) : (s.setBlk .D b).litCodes = s.litCodes := rfl
@[simp] theorem setBlkD_distCodes (s : State) (b : Block) : (s.setBlk .D b).distCodes = s.distCodes := rfl
@[simp] theorem setBlkD_litMap (s : State) (b : Block) : (s.setBlk .D b).litMap = s.litMap := rfl
@[simp] theorem setBlkD_distMap (s : State) (b : Block) : (s.setBlk .D b).distMap = s.distMap := rfl
@[simp] theorem setBlkD_litBank (s : State) (b : Block) : (s.setBlk .D b).litBank = s.litBank := rfl
@[simp] theorem setBlkD_iacBank (s : State) (b : Block) : (s.setBlk .D b).iacBank = s.iacBank := rfl
@[simp] theorem setBlkD_distBank (s : State) (b : Block) : (s.setBlk .D b).distBank = s.distBank := rfl
@[simp] theorem setBlkD_iacSym (s : State) (b : Block) : (s.setBlk .D b).iacSym = s.iacSym := rfl
@[simp] theorem setBlkD_copyLen (s : State) (b : Block) : (s.setBlk .D b).copyLen = s.copyLen := rfl
@[simp] theorem setBlkD_dsym (s : State) (b : Block) : (s.setBlk .D b).dsym = s.dsym := rfl
@[simp] theorem setBlkD_dist (s : State) (b : Block) : (s.setBlk .D b).dist = s.dist := rfl
@[simp] theorem setBlkD_desc (s : State) (b : Block) : (s.setBlk .D b).desc = s.desc := rfl
@[simp] theorem setBlkD_cmr (s : State) (b : Block) : (s.setBlk .D b).cmr = s.cmr := rfl
@[simp] theorem setBlkD_result (s : State) (b : Block) : (s.setBlk .D b).result = s.result := rfl
@[simp] theorem setBlkD_consumed (s : State) (b : Block) : (s.setBlk .D b).consumed = s.consumed := rfl
@[simp] theorem setBlkD_lat (s : State) (b : Block) : (s.setBlk .D b).lat = s.lat := rfl

/-! `goOn` -/

@[simp] theorem goOn_ports (s : State) (ops : List Instr) : (s.goOn ops).ports = s.ports := rfl
@[simp] theorem goOn_rd (s : State) (ops : List Instr) : (s.goOn ops).rd = s.rd := rfl
@[simp] theorem goOn_ctl (s : State) (ops : List Instr) : (s.goOn ops).ctl = s.ctl := rfl
@[simp] theorem goOn_todo (s : State) (ops : List Instr) : (s.goOn ops).todo = ops.map .oper ++ s.todo := rfl
@[simp] theorem goOn_wbits (s : State) (ops : List Instr) : (s.goOn ops).wbits = s.wbits := rfl
@[simp] theorem goOn_got (s : State) (ops : List Instr) : (s.goOn ops).got = s.got := rfl
@[simp] theorem goOn_compare (s : State) (ops : List Instr) : (s.goOn ops).compare = s.compare := rfl
@[simp] theorem goOn_haveLen (s : State) (ops : List Instr) : (s.goOn ops).haveLen = s.haveLen := rfl
@[simp] theorem goOn_out (s : State) (ops : List Instr) : (s.goOn ops).out = s.out := rfl
@[simp] theorem goOn_last (s : State) (ops : List Instr) : (s.goOn ops).last = s.last := rfl
@[simp] theorem goOn_mlen (s : State) (ops : List Instr) : (s.goOn ops).mlen = s.mlen := rfl
@[simp] theorem goOn_insLeft (s : State) (ops : List Instr) : (s.goOn ops).insLeft = s.insLeft := rfl
@[simp] theorem goOn_ring (s : State) (ops : List Instr) : (s.goOn ops).ring = s.ring := rfl
@[simp] theorem goOn_ringPtr (s : State) (ops : List Instr) : (s.goOn ops).ringPtr = s.ringPtr := rfl
@[simp] theorem goOn_npostfix (s : State) (ops : List Instr) : (s.goOn ops).npostfix = s.npostfix := rfl
@[simp] theorem goOn_direct (s : State) (ops : List Instr) : (s.goOn ops).direct = s.direct := rfl
@[simp] theorem goOn_blkL (s : State) (ops : List Instr) : (s.goOn ops).blkL = s.blkL := rfl
@[simp] theorem goOn_blkI (s : State) (ops : List Instr) : (s.goOn ops).blkI = s.blkI := rfl
@[simp] theorem goOn_blkD (s : State) (ops : List Instr) : (s.goOn ops).blkD = s.blkD := rfl
@[simp] theorem goOn_modes (s : State) (ops : List Instr) : (s.goOn ops).modes = s.modes := rfl
@[simp] theorem goOn_litCodes (s : State) (ops : List Instr) : (s.goOn ops).litCodes = s.litCodes := rfl
@[simp] theorem goOn_distCodes (s : State) (ops : List Instr) : (s.goOn ops).distCodes = s.distCodes := rfl
@[simp] theorem goOn_litMap (s : State) (ops : List Instr) : (s.goOn ops).litMap = s.litMap := rfl
@[simp] theorem goOn_distMap (s : State) (ops : List Instr) : (s.goOn ops).distMap = s.distMap := rfl
@[simp] theorem goOn_litBank (s : State) (ops : List Instr) : (s.goOn ops).litBank = s.litBank := rfl
@[simp] theorem goOn_iacBank (s : State) (ops : List Instr) : (s.goOn ops).iacBank = s.iacBank := rfl
@[simp] theorem goOn_distBank (s : State) (ops : List Instr) : (s.goOn ops).distBank = s.distBank := rfl
@[simp] theorem goOn_iacSym (s : State) (ops : List Instr) : (s.goOn ops).iacSym = s.iacSym := rfl
@[simp] theorem goOn_copyLen (s : State) (ops : List Instr) : (s.goOn ops).copyLen = s.copyLen := rfl
@[simp] theorem goOn_dsym (s : State) (ops : List Instr) : (s.goOn ops).dsym = s.dsym := rfl
@[simp] theorem goOn_dist (s : State) (ops : List Instr) : (s.goOn ops).dist = s.dist := rfl
@[simp] theorem goOn_desc (s : State) (ops : List Instr) : (s.goOn ops).desc = s.desc := rfl
@[simp] theorem goOn_cmr (s : State) (ops : List Instr) : (s.goOn ops).cmr = s.cmr := rfl
@[simp] theorem goOn_result (s : State) (ops : List Instr) : (s.goOn ops).result = s.result := rfl
@[simp] theorem goOn_consumed (s : State) (ops : List Instr) : (s.goOn ops).consumed = s.consumed := rfl
@[simp] theorem goOn_lat (s : State) (ops : List Instr) : (s.goOn ops).lat = s.lat := rfl

/-! `setBlk`, for any category -/

@[simp] theorem setBlk_ports (s : State) (c : Cat) (b : Block) : (s.setBlk c b).ports = s.ports := by cases c <;> rfl
@[simp] theorem setBlk_rd (s : State) (c : Cat) (b : Block) : (s.setBlk c b).rd = s.rd := by cases c <;> rfl
@[simp] theorem setBlk_ctl (s : State) (c : Cat) (b : Block) : (s.setBlk c b).ctl = s.ctl := by cases c <;> rfl
@[simp] theorem setBlk_todo (s : State) (c : Cat) (b : Block) : (s.setBlk c b).todo = s.todo := by cases c <;> rfl
@[simp] theorem setBlk_wbits (s : State) (c : Cat) (b : Block) : (s.setBlk c b).wbits = s.wbits := by cases c <;> rfl
@[simp] theorem setBlk_got (s : State) (c : Cat) (b : Block) : (s.setBlk c b).got = s.got := by cases c <;> rfl
@[simp] theorem setBlk_compare (s : State) (c : Cat) (b : Block) : (s.setBlk c b).compare = s.compare := by cases c <;> rfl
@[simp] theorem setBlk_haveLen (s : State) (c : Cat) (b : Block) : (s.setBlk c b).haveLen = s.haveLen := by cases c <;> rfl
@[simp] theorem setBlk_out (s : State) (c : Cat) (b : Block) : (s.setBlk c b).out = s.out := by cases c <;> rfl
@[simp] theorem setBlk_last (s : State) (c : Cat) (b : Block) : (s.setBlk c b).last = s.last := by cases c <;> rfl
@[simp] theorem setBlk_mlen (s : State) (c : Cat) (b : Block) : (s.setBlk c b).mlen = s.mlen := by cases c <;> rfl
@[simp] theorem setBlk_insLeft (s : State) (c : Cat) (b : Block) : (s.setBlk c b).insLeft = s.insLeft := by cases c <;> rfl
@[simp] theorem setBlk_ring (s : State) (c : Cat) (b : Block) : (s.setBlk c b).ring = s.ring := by cases c <;> rfl
@[simp] theorem setBlk_ringPtr (s : State) (c : Cat) (b : Block) : (s.setBlk c b).ringPtr = s.ringPtr := by cases c <;> rfl
@[simp] theorem setBlk_npostfix (s : State) (c : Cat) (b : Block) : (s.setBlk c b).npostfix = s.npostfix := by cases c <;> rfl
@[simp] theorem setBlk_direct (s : State) (c : Cat) (b : Block) : (s.setBlk c b).direct = s.direct := by cases c <;> rfl
@[simp] theorem setBlk_modes (s : State) (c : Cat) (b : Block) : (s.setBlk c b).modes = s.modes := by cases c <;> rfl
@[simp] theorem setBlk_litCodes (s : State) (c : Cat) (b : Block) : (s.setBlk c b).litCodes = s.litCodes := by cases c <;> rfl
@[simp] theorem setBlk_distCodes (s : State) (c : Cat) (b : Block) : (s.setBlk c b).distCodes = s.distCodes := by cases c <;> rfl
@[simp] theorem setBlk_litMap (s : State) (c : Cat) (b : Block) : (s.setBlk c b).litMap = s.litMap := by cases c <;> rfl
@[simp] theorem setBlk_distMap (s : State) (c : Cat) (b : Block) : (s.setBlk c b).distMap = s.distMap := by cases c <;> rfl
@[simp] theorem setBlk_litBank (s : State) (c : Cat) (b : Block) : (s.setBlk c b).litBank = s.litBank := by cases c <;> rfl
@[simp] theorem setBlk_iacBank (s : State) (c : Cat) (b : Block) : (s.setBlk c b).iacBank = s.iacBank := by cases c <;> rfl
@[simp] theorem setBlk_distBank (s : State) (c : Cat) (b : Block) : (s.setBlk c b).distBank = s.distBank := by cases c <;> rfl
@[simp] theorem setBlk_iacSym (s : State) (c : Cat) (b : Block) : (s.setBlk c b).iacSym = s.iacSym := by cases c <;> rfl
@[simp] theorem setBlk_copyLen (s : State) (c : Cat) (b : Block) : (s.setBlk c b).copyLen = s.copyLen := by cases c <;> rfl
@[simp] theorem setBlk_dsym (s : State) (c : Cat) (b : Block) : (s.setBlk c b).dsym = s.dsym := by cases c <;> rfl
@[simp] theorem setBlk_dist (s : State) (c : Cat) (b : Block) : (s.setBlk c b).dist = s.dist := by cases c <;> rfl
@[simp] theorem setBlk_desc (s : State) (c : Cat) (b : Block) : (s.setBlk c b).desc = s.desc := by cases c <;> rfl
@[simp] theorem setBlk_cmr (s : State) (c : Cat) (b : Block) : (s.setBlk c b).cmr = s.cmr := by cases c <;> rfl
@[simp] theorem setBlk_result (s : State) (c : Cat) (b : Block) : (s.setBlk c b).result = s.result := by cases c <;> rfl
@[simp] theorem setBlk_consumed (s : State) (c : Cat) (b : Block) : (s.setBlk c b).consumed = s.consumed := by cases c <;> rfl
@[simp] theorem setBlk_lat (s : State) (c : Cat) (b : Block) : (s.setBlk c b).lat = s.lat := by cases c <;> rfl

@[simp] theorem setBlk_blk_same (s : State) (c : Cat) (b : Block) : (s.setBlk c b).blk c = b := by cases c <;> rfl

theorem setBlk_blk_other (s : State) (c d : Cat) (b : Block) (h : d ≠ c) : (s.setBlk c b).blk d = s.blk d := by
  cases c <;> cases d <;> first | rfl | exact absurd rfl h

@[simp] theorem setBlk_setBlk (s : State) (c : Cat) (a b : Block) : (s.setBlk c a).setBlk c b = s.setBlk c b := by
  cases c <;> rfl

@[simp] theorem setBlk_self (s : State) (c : Cat) : s.setBlk c (s.blk c) = s := by cases c <;> rfl

@[simp] theorem seek_blk (s : State) (pos : Nat) (c : Cat) : (s.seek pos).blk c = s.blk c := by cases c <;> rfl

@[simp] theorem setBlk_pos (s : State) (c : Cat) (b : Block) : (s.setBlk c b).pos = s.pos := by simp [State.pos]

@[simp] theorem setBlk_seek (s : State) (c : Cat) (b : Block) (pos : Nat) :
    (s.setBlk c b).seek pos = (s.seek pos).setBlk c b := by cases c <;> rfl

end Sys2Proof.Machine
end

