-- ==== Sys2Proof/Laws/Stream.lean ====
section
/-! SUPPORT. The stream by position: fields, bits and the cursor (R8, R21, R22). -/

namespace Sys2Proof

theorem natOfBits_append (a b : List Bool) : natOfBits (a ++ b) = natOfBits a + 2 ^ a.length * natOfBits b := by
  induction a with
  | nil => simp [natOfBits]
  | cons x a ih => simp only [List.cons_append, natOfBits, ih, List.length_cons, pow_succ]; ring

theorem natOfBits_lt (l : List Bool) : natOfBits l < 2 ^ l.length := by
  induction l with
  | nil => simp [natOfBits]
  | cons x l ih => simp only [natOfBits, List.length_cons, pow_succ]; cases x <;> simp <;> omega

theorem length_bitsLE (n v : Nat) : (bitsLE n v).length = n := by
  induction n generalizing v with
  | zero => rfl
  | succ n ih => simp [bitsLE, ih]

theorem natOfBits_bitsLE (n v : Nat) : natOfBits (bitsLE n v) = v % 2 ^ n := by
  induction n generalizing v with
  | zero => simp [bitsLE, natOfBits, Nat.mod_one]
  | succ n ih =>
    simp only [bitsLE, natOfBits, ih]
    rw [pow_succ, Nat.mul_comm (2 ^ n) 2, Nat.mod_mul]
    rcases Nat.mod_two_eq_zero_or_one v with h | h <;> simp [h]

theorem bitsLE_add (a b v : Nat) : bitsLE (a + b) v = bitsLE a v ++ bitsLE b (v / 2 ^ a) := by
  induction a generalizing v with
  | zero => simp [bitsLE]
  | succ a ih =>
    rw [Nat.add_right_comm]
    simp only [bitsLE, ih, List.cons_append, pow_succ, Nat.mul_comm (2 ^ a) 2, Nat.div_div_eq_div_mul]

namespace Machine

@[simp] theorem length_streamBits (p : Ports) (pos n : Nat) : (p.streamBits pos n).length = n := by
  induction n generalizing pos with
  | zero => rfl
  | succ n ih => simp [Ports.streamBits, ih]

theorem streamBits_add (p : Ports) (pos a b : Nat) :
    p.streamBits pos (a + b) = p.streamBits pos a ++ p.streamBits (pos + a) b := by
  induction a generalizing pos with
  | zero => simp [Ports.streamBits]
  | succ a ih =>
    rw [Nat.add_right_comm]
    simp only [Ports.streamBits, ih, List.cons_append]
    rw [show pos + 1 + a = pos + (a + 1) by omega]

theorem take_streamBits (p : Ports) (pos a n : Nat) (h : a ≤ n) :
    (p.streamBits pos n).take a = p.streamBits pos a := by
  obtain ⟨b, rfl⟩ := Nat.exists_eq_add_of_le h
  rw [streamBits_add, List.take_append_of_le_length (by simp), List.take_of_length_le (by simp)]

theorem drop_streamBits (p : Ports) (pos a n : Nat) (h : a ≤ n) :
    (p.streamBits pos n).drop a = p.streamBits (pos + a) (n - a) := by
  obtain ⟨b, rfl⟩ := Nat.exists_eq_add_of_le h
  rw [streamBits_add, List.drop_append_of_le_length (by simp), List.drop_of_length_le (by simp)]
  simp

theorem field_zero (p : Ports) (pos : Nat) : p.field pos 0 = 0 := rfl

theorem field_add (p : Ports) (pos a b : Nat) :
    p.field pos (a + b) = p.field pos a + 2 ^ a * p.field (pos + a) b := by
  simp [Ports.field, streamBits_add, natOfBits_append]

theorem field_lt (p : Ports) (pos n : Nat) : p.field pos n < 2 ^ n := by
  simpa [Ports.field] using natOfBits_lt (p.streamBits pos n)

theorem field_one (p : Ports) (pos : Nat) : p.field pos 1 = (p.streamBit pos).toNat := by
  simp [Ports.field, Ports.streamBits, natOfBits]

theorem toNat_decide_mod_two (n : Nat) : (decide (n % 2 = 1)).toNat = n % 2 := by
  rcases Nat.mod_two_eq_zero_or_one n with h | h <;> simp [h]

/-- A field inside one byte. -/
theorem field_byte (p : Ports) (k r m : Nat) (h : r + m ≤ 8) :
    p.field (8 * k + r) m = (p.input.get k).toNat / 2 ^ r % 2 ^ m := by
  induction m generalizing r with
  | zero => simp [field_zero, Nat.mod_one]
  | succ m ih =>
    have e : p.field (8 * k + r) (m + 1) = p.field (8 * k + r) 1 + 2 ^ 1 * p.field (8 * k + r + 1) m := by
      rw [← field_add, Nat.add_comm m 1]
    rw [e, field_one, show 8 * k + r + 1 = 8 * k + (r + 1) by omega, ih (r + 1) (by omega)]
    have hb : p.streamBit (8 * k + r) = (p.input.get k).getLsbD r := by
      simp only [Ports.streamBit, show (8 * k + r) / 8 = k by omega, show (8 * k + r) % 8 = r by omega]
    rw [hb, BitVec.getLsbD, Nat.testBit_eq_decide_div_mod_eq, toNat_decide_mod_two, pow_succ 2 m,
      Nat.mul_comm (2 ^ m) 2, Nat.mod_mul, Nat.div_div_eq_div_mul, ← pow_succ]
    ring

theorem field_whole_byte (p : Ports) (k : Nat) : p.field (8 * k) 8 = (p.input.get k).toNat := by
  have := field_byte p k 0 8 (by omega)
  have h := (p.input.get k).isLt
  simpa [Nat.mod_eq_of_lt h] using this

/-! The cursor. -/

@[simp] theorem readerAt_left (p : Ports) (pos : Nat) : (readerAt p pos).left = (8 - pos % 8) % 8 := rfl

@[simp] theorem readerAt_inNext (p : Ports) (pos : Nat) : (readerAt p pos).inNext = (pos + 7) / 8 := rfl

theorem readerAt_pos (p : Ports) (pos : Nat) : 8 * (readerAt p pos).inNext - (readerAt p pos).left = pos := by
  simp only [readerAt_inNext, readerAt_left]; omega

theorem readerAt_resid (p : Ports) (pos : Nat) :
    (readerAt p pos).resid.toNat = p.field pos ((8 - pos % 8) % 8) := by
  unfold readerAt
  by_cases h : pos % 8 = 0
  · simp [h, field_zero]
  · have hb := field_byte p (pos / 8) (pos % 8) (8 - pos % 8) (by omega)
    rw [show 8 * (pos / 8) + pos % 8 = pos by omega] at hb
    have hlt : (p.input.get (pos / 8)).toNat / 2 ^ (pos % 8) < 2 ^ (8 - pos % 8) := by
      rw [Nat.div_lt_iff_lt_mul (by positivity), ← pow_add, show 8 - pos % 8 + pos % 8 = 8 by omega]
      exact (p.input.get (pos / 8)).isLt
    rw [Nat.mod_eq_of_lt hlt] at hb
    simp only [h, if_false, BitVec.toNat_ushiftRight, Nat.shiftRight_eq_div_pow]
    rw [show (8 - pos % 8) % 8 = 8 - pos % 8 by omega, hb]

/-- The cursor a residual of `m < 8` bits at a byte boundary stands for. -/
theorem readerAt_of_field (p : Ports) (k m pos : Nat) (hm : m < 8) (h : pos + m = 8 * k) :
    readerAt p pos = { inNext := k, resid := BitVec.ofNat 8 (p.field pos m), left := m } := by
  have e : (8 - pos % 8) % 8 = m := by omega
  have hr := readerAt_resid p pos
  rw [e] at hr
  have hl : (readerAt p pos).left = m := by simp [e]
  have hi : (readerAt p pos).inNext = k := by simp only [readerAt_inNext]; omega
  have hx : (readerAt p pos).resid = BitVec.ofNat 8 (p.field pos m) := by
    rw [← hr, BitVec.ofNat_toNat, BitVec.setWidth_eq]
  cases hq : readerAt p pos
  simp_all

@[simp] theorem seek_pos (s : State) (pos : Nat) : (s.seek pos).pos = pos := readerAt_pos s.ports pos

@[simp] theorem seek_seek (s : State) (a b : Nat) : (s.seek a).seek b = s.seek b := rfl

theorem seek_self {s : State} (h : s.onStream) : s.seek s.pos = s := by
  have := h.1
  unfold State.seek
  rw [← this]

theorem onStream_seek {s : State} {pos : Nat} (h : pos ≤ 8 * s.ports.inLen) : (s.seek pos).onStream := by
  constructor
  · simp
  · simpa using h

end Machine

end Sys2Proof
end

