-- ==== Sys2Proof/Laws/Decode.lean ====
section
/-! SUPPORT. The decoder and the encoder: each form written and read back, and that no form looks past the bits that
select it. -/

namespace Sys2Proof


theorem ceilLog2From_le (a fuel k : Nat) (h : a ≤ 2 ^ (k + fuel)) : a ≤ 2 ^ ceilLog2From a fuel k := by
  induction fuel generalizing k with
  | zero => simpa [ceilLog2From] using h
  | succ fuel ih =>
    rw [ceilLog2From]
    split_ifs with h1
    · exact h1
    · exact ih (k + 1) (by rw [Nat.add_right_comm]; exact h)

/-- A field of `ceil_log2(a)` bits holds every symbol below `a` (R148). -/
theorem le_two_pow_ceilLog2 (a : Nat) : a ≤ 2 ^ ceilLog2 a :=
  ceilLog2From_le a a 0 (by rw [Nat.zero_add]; exact Nat.le_of_lt Nat.lt_two_pow_self)

/-- A field that holds a value gives it back. -/
theorem natOfBits_bitsLE_lt {n v : Nat} (h : v < 2 ^ n) : natOfBits (bitsLE n v) = v := by
  rw [natOfBits_bitsLE, Nat.mod_eq_of_lt h]

/-- The symbol fields of a simple descriptor, written and read back. -/
theorem takeSymbols_flatMap (a : Nat) (l : List Nat) (rest : List Bool) (h : ∀ v ∈ l, v < a) :
    takeSymbols a (ceilLog2 a) l.length (l.flatMap (bitsLE (ceilLog2 a)) ++ rest) = .ok (l, rest) := by
  induction l with
  | nil => rfl
  | cons v l ih =>
    have hv : v < a := h v (by simp)
    have e : ((bitsLE (ceilLog2 a) v) ++ (l.flatMap (bitsLE (ceilLog2 a)) ++ rest)).take (ceilLog2 a) =
        bitsLE (ceilLog2 a) v := by
      rw [List.take_append_of_le_length (by simp [length_bitsLE]), List.take_of_length_le (by simp [length_bitsLE])]
    have d : ((bitsLE (ceilLog2 a) v) ++ (l.flatMap (bitsLE (ceilLog2 a)) ++ rest)).drop (ceilLog2 a) =
        l.flatMap (bitsLE (ceilLog2 a)) ++ rest := by
      conv_lhs => rw [show ceilLog2 a = (bitsLE (ceilLog2 a) v).length from (length_bitsLE ..).symm]
      simp [length_bitsLE]
    simp only [List.flatMap_cons, List.length_cons, List.append_assoc, takeSymbols, e, d]
    rw [if_neg (by simp [length_bitsLE]), natOfBits_bitsLE_lt (lt_of_lt_of_le hv (le_two_pow_ceilLog2 a)), if_pos hv,
      ih (fun w hw => h w (by simp [hw]))]


/-- A simple descriptor, written and decoded. -/
theorem decodeDesc_simple (a : Nat) (l : List Nat) (rest : List Bool) (hw : simpleOk a l = true)
    (hl : 1 ≤ l.length) (hl4 : l.length ≤ 4) (i : Instr) (rest' : List Bool)
    (hr : simpleRow a l rest = .ok (i, rest')) (hlen : rest'.length ≤ rest.length) :
    decodeDesc a (simpleBits a l ++ rest) = .ok (i, (simpleBits a l).length + (rest.length - rest'.length)) := by
  simp only [simpleOk, Bool.and_eq_true, List.all_eq_true, decide_eq_true_eq] at hw
  have h2 : bitsLE 2 1 = [true, false] := by decide
  obtain ⟨n0, n1, hn⟩ : ∃ n0 n1, bitsLE 2 (l.length - 1) = [n0, n1] := ⟨_, _, rfl⟩
  have hnat : natOfBits [n0, n1] = l.length - 1 := by rw [← hn]; exact natOfBits_bitsLE_lt (by omega)
  have e : simpleBits a l ++ rest =
      true :: false :: n0 :: n1 :: (l.flatMap (bitsLE (ceilLog2 a)) ++ rest) := by
    simp only [simpleBits, h2, hn]; simp
  have hlen2 : (simpleBits a l).length = 4 + (l.flatMap (bitsLE (ceilLog2 a))).length := by
    simp only [simpleBits, h2, hn]; simp; omega
  rw [e, decodeDesc, hnat, show l.length - 1 + 1 = l.length by omega, takeSymbols_flatMap a l rest hw.1.2]
  simp only [hw.2, if_true, hr, hlen2]
  simp only [List.length_append, Except.ok.injEq, Prod.mk.injEq, true_and]
  omega



/-- What the symbol fields answer, and that they do not look past themselves. -/
theorem takeSymbols_ok {a w k : Nat} {bs rest : List Bool} {l : List Nat}
    (h : takeSymbols a w k bs = .ok (l, rest)) :
    l.length = k ∧ (∀ v ∈ l, v < a) ∧ k * w ≤ bs.length ∧ rest = bs.drop (k * w) ∧
      ∀ more, takeSymbols a w k (bs.take (k * w) ++ more) = .ok (l, more) := by
  induction k generalizing bs rest l with
  | zero =>
    simp only [takeSymbols, Except.ok.injEq, Prod.mk.injEq] at h
    obtain ⟨rfl, rfl⟩ := h
    simp [takeSymbols]
  | succ k ih =>
    rw [takeSymbols] at h
    split_ifs at h with h1 h2
    cases hr : takeSymbols a w k (bs.drop w) with
    | error e => rw [hr] at h; cases h
    | ok p =>
      obtain ⟨r, rest'⟩ := p
      rw [hr] at h
      simp only [Except.ok.injEq, Prod.mk.injEq] at h
      obtain ⟨rfl, rfl⟩ := h
      obtain ⟨i1, i2, i3, i4, i5⟩ := ih hr
      have e : (k + 1) * w = w + k * w := by ring
      rw [List.length_drop] at i3
      refine ⟨by simp [i1], ?_, by omega, by rw [i4, List.drop_drop, e], ?_⟩
      · intro v hv
        rcases List.mem_cons.1 hv with rfl | hv
        · exact h2
        · exact i2 v hv
      · intro more
        have ht : (bs.take ((k + 1) * w) ++ more).take w = bs.take w := by
          rw [List.take_append_of_le_length (by rw [List.length_take]; omega), List.take_take, min_eq_left (by omega)]
        have hd : (bs.take ((k + 1) * w) ++ more).drop w = (bs.drop w).take (k * w) ++ more := by
          rw [List.drop_append_of_le_length (by rw [List.length_take]; omega), List.drop_take,
            show (k + 1) * w - w = k * w by omega]
        rw [takeSymbols, ht, hd, i5, if_neg (by simp only [List.length_append, List.length_take]; omega), if_pos h2]

/-- The rows of a simple descriptor, and how many bits after the symbols select them. -/
theorem simpleRow_ok {a : Nat} {l : List Nat} {bs rest : List Bool} {i : Instr} (h : simpleRow a l bs = .ok (i, rest)) :
    (simpleOk a l = true → i.wf = true) ∧ ∃ k, k ≤ bs.length ∧ k ≤ 1 ∧ rest = bs.drop k ∧ l.length ≤ 4 ∧
      ∀ more, simpleRow a l (bs.take k ++ more) = .ok (i, more) := by
  unfold simpleRow at h
  split at h
  all_goals first | (simp only [Except.ok.injEq, Prod.mk.injEq] at h; obtain ⟨rfl, rfl⟩ := h) | cases h
  · exact ⟨fun hw => hw, 0, by simp, by simp, by simp, by simp, fun more => by simp [simpleRow]⟩
  · exact ⟨fun hw => hw, 0, by simp, by simp, by simp, by simp, fun more => by simp [simpleRow]⟩
  · exact ⟨fun hw => hw, 0, by simp, by simp, by simp, by simp, fun more => by simp [simpleRow]⟩
  · exact ⟨fun hw => hw, 1, by simp, by simp, by simp, by simp, fun more => by simp [simpleRow]⟩
  · exact ⟨fun hw => hw, 1, by simp, by simp, by simp, by simp, fun more => by simp [simpleRow]⟩

/-- What a descriptor's row answers, and that it does not look past its selecting bits. -/
theorem decodeDesc_ok {a : Nat} {bs : List Bool} {i : Instr} {k : Nat} (h : decodeDesc a bs = .ok (i, k)) :
    (alphabetOk a = true → i.wf = true) ∧ k ≤ bs.length ∧ k ≤ 5 + 4 * ceilLog2 a ∧ ∀ more, decodeDesc a (bs.take k ++ more) = .ok (i, k) := by
  unfold decodeDesc at h
  split at h
  · rename_i n0 n1 bs
    cases hs : takeSymbols a (ceilLog2 a) (natOfBits [n0, n1] + 1) bs with
    | error e => rw [hs] at h; cases h
    | ok p =>
      obtain ⟨l, rest⟩ := p
      rw [hs] at h
      obtain ⟨i1, i2, i3, i4, i5⟩ := takeSymbols_ok hs
      simp only at h
      split_ifs at h with hd
      cases hr : simpleRow a l rest with
      | error e => rw [hr] at h; cases h
      | ok q =>
        obtain ⟨j, rest'⟩ := q
        rw [hr] at h
        simp only [Except.ok.injEq, Prod.mk.injEq] at h
        obtain ⟨rfl, rfl⟩ := h
        obtain ⟨hwf, m, j1, j2, j3, j4, j5⟩ := simpleRow_ok hr
        have hlen : natOfBits [n0, n1] + 1 ≤ 4 := by cases n0 <;> cases n1 <;> decide
        have hrl : rest.length = bs.length - (natOfBits [n0, n1] + 1) * ceilLog2 a := by rw [i4]; simp
        have hrl' : rest'.length = rest.length - m := by rw [j3]; simp
        set w := (natOfBits [n0, n1] + 1) * ceilLog2 a with hw
        have hwle : w ≤ 4 * ceilLog2 a := Nat.mul_le_mul_right _ hlen
        have hk : bs.length - rest'.length = w + m := by omega
        refine ⟨fun ha => hwf ?_, by simp only [List.length_cons]; omega, by omega, ?_⟩
        · simp only [simpleOk, Bool.and_eq_true, List.all_eq_true, decide_eq_true_eq]
          exact ⟨⟨ha, i2⟩, hd⟩
        · intro more
          rw [hk, show 4 + (w + m) = (w + m) + 4 by omega]
          have e : (true :: false :: n0 :: n1 :: bs).take ((w + m) + 4) ++ more =
              true :: false :: n0 :: n1 :: (bs.take w ++ (rest.take m ++ more)) := by
            rw [i4]
            simp [List.take_add]
          rw [e, decodeDesc, i5]
          simp only [hd, if_true, j5]
          simp only [List.length_append, List.length_take, Except.ok.injEq, Prod.mk.injEq, true_and]
          omega
  · cases h
  · rename_i h0 h1 bs hne1 hne2
    simp only [Except.ok.injEq, Prod.mk.injEq] at h
    obtain ⟨rfl, rfl⟩ := h
    refine ⟨fun ha => ?_, by simp, by omega, ?_⟩
    · simp only [Instr.wf, ha, Bool.true_and, decide_eq_true_eq]
      cases h0 <;> cases h1
      · simp [natOfBits]
      · simp [natOfBits]
      · exact (hne2 rfl rfl).elim
      · simp [natOfBits]
    · intro more
      cases h0 <;> cases h1
      · simp [decodeDesc]
      · simp [decodeDesc]
      · exact (hne2 rfl rfl).elim
      · simp [decodeDesc]
  · cases h


/-- A row that a symbol selects is well formed. -/
theorem symbolRow_wf {alph : Alphabet} {v : Nat} {i : Instr} (ha : alph.wf = true) (h : symbolRow alph v = some i) :
    i.wf = true := by
  cases alph
  case codeLength =>
    simp only [symbolRow, codeLengthRow] at h
    split_ifs at h with h1 <;> cases h <;> first | rfl | (simp only [Instr.wf, decide_eq_true_eq]; omega)
  case blockLength => simp only [symbolRow] at h; unfold blockLengthRow at h; split at h <;> cases h <;> rfl
  case typeChange c num =>
    simp only [Alphabet.wf, Bool.and_eq_true, decide_eq_true_eq] at ha
    simp only [symbolRow, typeChangeRow] at h
    split_ifs at h <;> cases h <;>
      first | rfl | (simp only [Instr.wf, Bool.and_eq_true, decide_eq_true_eq]; omega)
  case insertAndCopy =>
    simp only [symbolRow, iacRow, Nat.shiftRight_eq_div_pow] at h
    split at h <;> cases h <;>
      (simp only [Instr.wf, inRow, Bool.and_eq_true, decide_eq_true_eq]; omega)
  case insertCode => simp only [symbolRow] at h; unfold insertCodeRow at h; split at h <;> cases h <;> rfl
  case copyCode => simp only [symbolRow] at h; unfold copyCodeRow at h; split at h <;> cases h <;> rfl
  case cmap r trees =>
    simp only [Alphabet.wf, Bool.and_eq_true, decide_eq_true_eq] at ha
    simp only [symbolRow, cmapRow] at h
    split_ifs at h <;> cases h <;>
      first | rfl | (simp only [Instr.wf, Bool.and_eq_true, decide_eq_true_eq]; omega)
  case distance direct dalpha =>
    simp only [Alphabet.wf, Bool.and_eq_true, decide_eq_true_eq] at ha
    simp only [symbolRow, distanceRow] at h
    split_ifs at h
    · unfold ringRow at h; split at h <;> cases h <;> rfl
    · cases h; simp only [Instr.wf, Bool.and_eq_true, decide_eq_true_eq]; omega
    · cases h; simp only [Instr.wf, Bool.and_eq_true, decide_eq_true_eq]; omega
  case contextMode =>
    simp only [symbolRow, Option.some.injEq] at h
    subst h
    cases ctxModeOf v <;> rfl


/-- What a window form answers, and that it does not look past its bits. -/
theorem decodeWbits_ok {bs : List Bool} {i : Instr} {k : Nat} (h : decodeWbits bs = .ok (i, k)) :
    i.wf = true ∧ k ≤ bs.length ∧ k ≤ 7 ∧ ∀ more, decodeWbits (bs.take k ++ more) = .ok (i, k) := by
  rcases bs with _ | ⟨a, _ | ⟨b0, _ | ⟨b1, _ | ⟨b2, bs⟩⟩⟩⟩
  · cases h
  · cases a <;> simp [decodeWbits] at h
    obtain ⟨rfl, rfl⟩ := h; simp [Instr.wf, decodeWbits]
  · cases a <;> simp [decodeWbits] at h
    obtain ⟨rfl, rfl⟩ := h; simp [Instr.wf, decodeWbits]
  · cases a <;> simp [decodeWbits] at h
    obtain ⟨rfl, rfl⟩ := h; simp [Instr.wf, decodeWbits]
  · cases a
    · simp [decodeWbits] at h
      obtain ⟨rfl, rfl⟩ := h; simp [Instr.wf, decodeWbits]
    · cases b0 <;> cases b1 <;> cases b2
      · rcases bs with _ | ⟨c0, _ | ⟨c1, _ | ⟨c2, bs⟩⟩⟩
        · simp [decodeWbits, natOfBits] at h
        · simp [decodeWbits, natOfBits] at h
        · simp [decodeWbits, natOfBits] at h
        · cases c0 <;> cases c1 <;> cases c2 <;> simp [decodeWbits, natOfBits] at h <;>
            (obtain ⟨rfl, rfl⟩ := h; simp [Instr.wf, decodeWbits, natOfBits])
      all_goals
        simp [decodeWbits, natOfBits] at h
        obtain ⟨rfl, rfl⟩ := h
        simp [Instr.wf, decodeWbits, natOfBits]

/-- What a codeword of the fixed code answers, and that it does not look past itself. -/
theorem decodeClclLen_ok {bs : List Bool} {i : Instr} {k : Nat} (h : decodeClclLen bs = .ok (i, k)) :
    i.wf = true ∧ k ≤ bs.length ∧ k ≤ 4 ∧ ∀ more, decodeClclLen (bs.take k ++ more) = .ok (i, k) := by
  unfold decodeClclLen at h
  split at h
  all_goals first | (cases h; simp [Instr.wf, decodeClclLen]) | cases h

end Sys2Proof
end

