-- ==== Sys2Proof/Laws/Hoare.lean ====
section
/-! SUPPORT. How an operation runs, one lemma per way of building one, and triples: from a state with `P` an operation
that completes leaves `Q`, and one that stops leaves `E`. -/

namespace Sys2Proof.Machine

variable {α β : Type}

/-! Running an operation. -/

@[simp] theorem run_pure (a : α) (s : State) : (pure a : M α) s = .ok (a, s) := rfl

theorem run_bind (x : M α) (f : α → M β) (s : State) :
    (x >>= f) s = match x s with
      | .ok (a, s') => f a s'
      | .error e => .error e := by
  show (StateT.bind x f) s = _
  simp only [StateT.bind, bind, Except.bind]
  cases x s <;> rfl

theorem run_bind_ok {x : M α} {f : α → M β} {s s' : State} {a : α} (h : x s = .ok (a, s')) :
    (x >>= f) s = f a s' := by rw [run_bind, h]

theorem run_bind_error {x : M α} {f : α → M β} {s : State} {e : Stop} (h : x s = .error e) :
    (x >>= f) s = .error e := by rw [run_bind, h]

@[simp] theorem run_get (s : State) : (get : M State) s = .ok (s, s) := rfl

@[simp] theorem run_modify (f : State → State) (s : State) : (modify f : M PUnit) s = .ok (⟨⟩, f s) := rfl

@[simp] theorem run_get_bind (f : State → M β) (s : State) : ((get : M State) >>= f) s = f s s := rfl

@[simp] theorem run_modify_bind (g : State → State) (f : PUnit → M β) (s : State) :
    ((modify g : M PUnit) >>= f) s = f ⟨⟩ (g s) := rfl

@[simp] theorem run_pure_bind (a : α) (f : α → M β) (s : State) : ((pure a : M α) >>= f) s = f a s := rfl

@[simp] theorem run_raise (k : Result) (s : State) : (raise k : M α) s = .error (.raised (s.takeFault k)) := rfl

@[simp] theorem run_stopFault (f : Fault) (s : State) : (stopFault f : M α) s = .error (.fault f) := rfl

@[simp] theorem run_refuse (r : Refusal) (s : State) : (refuse r : M α) s = .error (.refused r) := rfl

theorem run_require_true {c : Prop} [Decidable c] (h : c) (k : Result) (s : State) :
    require c k s = .ok ((), s) := by simp [require, h]

theorem run_require_false {c : Prop} [Decidable c] (h : ¬ c) (k : Result) (s : State) :
    require c k s = .error (.raised (s.takeFault k)) := by simp [require, h]

theorem run_precondition_true {c : Prop} [Decidable c] (h : c) (s : State) :
    precondition c s = .ok ((), s) := by simp [precondition, h]

theorem run_precondition_false {c : Prop} [Decidable c] (h : ¬ c) (s : State) :
    precondition c s = .error (.refused .outsidePrecondition) := by simp [precondition, h]

theorem run_entry {l : List α} {i : Nat} {a : α} (h : l[i]? = some a) (s : State) : entry l i s = .ok (a, s) := by
  simp [entry, h]

theorem complete_ok {op : M α} {keep : α → State → State} {s s' : State} {a : α} (h : op s = .ok (a, s')) :
    complete op keep s = .next (keep a s') := by simp [complete, h]

theorem complete_raised {op : M α} {keep : α → State → State} {s s' : State} (h : op s = .error (.raised s')) :
    complete op keep s = .next s' := by simp [complete, h]

theorem complete_refused {op : M α} {keep : α → State → State} {s : State} {r : Refusal} (h : op s = .error (.refused r)) :
    complete op keep s = .refused r := by simp [complete, h]

/-! Triples. -/

/-- From a state with `P`, completing leaves `Q` and stopping leaves `E`. -/
def Triple (P : State → Prop) (op : M α) (Q : α → State → Prop) (E : Stop → Prop) : Prop :=
  ∀ s, P s → match op s with
    | .ok (a, s') => Q a s'
    | .error e => E e

namespace Triple

variable {P P' : State → Prop} {Q Q' : α → State → Prop} {R : β → State → Prop} {E E' : Stop → Prop}

theorem bind {x : M α} {f : α → M β} (hx : Triple P x Q E) (hf : ∀ a, Triple (Q a) (f a) R E) :
    Triple P (x >>= f) R E := by
  intro s hs
  have h := hx s hs
  rw [run_bind]
  cases hxs : x s with
  | error e => simpa [hxs] using h
  | ok r =>
    obtain ⟨a, s'⟩ := r
    simp only [hxs] at h
    exact hf a s' h

theorem pure {a : α} (h : ∀ s, P s → Q a s) : Triple P (Pure.pure a) Q E := fun s hs => h s hs

theorem get_bind {f : State → M β} (h : ∀ t, Triple (fun s => P s ∧ s = t) (f t) R E) :
    Triple P (MonadState.get >>= f) R E := fun s hs => h s s ⟨hs, rfl⟩

theorem update {g : State → State} {Q : PUnit → State → Prop} (h : ∀ s, P s → Q ⟨⟩ (g s)) :
    Triple P (MonadState.modifyGet fun s => (⟨⟩, g s)) Q E := fun s hs => h s hs

theorem conseq {op : M α} (h : Triple P op Q E) (hP : ∀ s, P' s → P s) (hQ : ∀ a s, Q a s → Q' a s)
    (hE : ∀ e, E e → E' e) : Triple P' op Q' E' := by
  intro s hs
  have := h s (hP s hs)
  cases hop : op s with
  | error e => simp only [hop] at this ⊢; exact hE e this
  | ok r => obtain ⟨a, s'⟩ := r; simp only [hop] at this ⊢; exact hQ a s' this

/-- A condition that does not depend on the state. -/
theorem given {A B : State → Prop} {c : Prop} {op : M α} (h : c → Triple (fun s => A s ∧ B s) op Q E) :
    Triple (fun s => A s ∧ B s ∧ c) op Q E := fun s hs => h hs.2.2 s ⟨hs.1, hs.2.1⟩

theorem raise {k : Result} (h : ∀ s, P s → E (.raised (s.takeFault k))) : Triple P (Machine.raise k : M α) Q E :=
  fun s hs => h s hs

theorem stopFault {f : Fault} (h : ∀ s, P s → E (.fault f)) : Triple P (Machine.stopFault f : M α) Q E :=
  fun s hs => h s hs

theorem refuse {r : Refusal} (h : ∀ s, P s → E (.refused r)) : Triple P (Machine.refuse r : M α) Q E :=
  fun s hs => h s hs

theorem require {c : Prop} [Decidable c] {k : Result} {Q : Unit → State → Prop} (h : ∀ s, P s → c → Q () s)
    (hE : ∀ s, P s → ¬ c → E (.raised (s.takeFault k))) : Triple P (Machine.require c k) Q E := by
  intro s hs
  by_cases hc : c
  · simpa [Machine.require, hc] using h s hs hc
  · simpa [Machine.require, hc] using hE s hs hc

theorem precondition {c : Prop} [Decidable c] {Q : Unit → State → Prop} (h : ∀ s, P s → c → Q () s)
    (hE : ∀ s, P s → ¬ c → E (.refused .outsidePrecondition)) : Triple P (Machine.precondition c) Q E := by
  intro s hs
  by_cases hc : c
  · simpa [Machine.precondition, hc] using h s hs hc
  · simpa [Machine.precondition, hc] using hE s hs hc

theorem entry {l : List α} {i : Nat} (h : ∀ s a, P s → l[i]? = some a → Q a s)
    (hE : ∀ s, P s → l[i]? = none → E (.fault .absentEntry)) : Triple P (Machine.entry l i) Q E := by
  intro s hs
  cases hl : l[i]? with
  | none => simpa [Machine.entry, hl] using hE s hs hl
  | some a => simpa [Machine.entry, hl] using h s a hs hl

theorem ite {c : Prop} [Decidable c] {x y : M α} (hx : c → Triple P x Q E) (hy : ¬ c → Triple P y Q E) :
    Triple P (if c then x else y) Q E := by
  by_cases hc : c
  · simpa [hc] using hx hc
  · simpa [hc] using hy hc

end Triple

end Sys2Proof.Machine
end

