-- ==== Sys2Proof/Laws/Reader.lean ====
section
/-! SUPPORT. The bit reader on the stream (R120 to R124): with enough bits a request yields the field at the position
and moves the cursor by its width; without, it is `PrematureEof`. -/

namespace Sys2Proof.Machine

theorem fetchByte_ok {s : State} (h : s.rd.inNext < s.ports.inLen) :
    fetchByte s = .ok (s.ports.input.get s.rd.inNext, { s with rd := { s.rd with inNext := s.rd.inNext + 1 } }) := by
  simp only [fetchByte, run_get_bind, run_bind_ok (run_require_true h _ _), run_modify_bind, run_pure]

theorem fetchByte_eof {s : State} (h : ¬ s.rd.inNext < s.ports.inLen) :
    fetchByte s = .error (.raised (s.takeFault .prematureEof)) := by
  simp only [fetchByte, run_get_bind, run_bind_error (run_require_false h _ _)]

/-- Setting `b` above the bits of `val` adds it. -/
theorem or_shiftLeft_eq_add {val b m : Nat} (h : val < 2 ^ m) : val ||| (b <<< m) = val + 2 ^ m * b := by
  rw [Nat.or_comm, Nat.shiftLeft_eq, Nat.mul_comm b, ← Nat.two_pow_add_eq_or_of_lt h]
  ring

/-- The loop of R120 with enough input. -/
theorem refill_ok (s : State) (n pos : Nat) (hb : pos + n ≤ 8 * s.ports.inLen) :
    ∀ fuel m k, pos + m = 8 * k → n ≤ m + 8 * fuel → ∃ m' k', pos + m' = 8 * k' ∧ n ≤ m' ∧ (m' = m ∨ m' < n + 8) ∧
      refill n fuel (s.ports.field pos m) m { s with rd := { s.rd with inNext := k } } =
        .ok ((s.ports.field pos m', m'), { s with rd := { s.rd with inNext := k' } }) := by
  intro fuel
  induction fuel with
  | zero => intro m k hk hf; exact ⟨m, k, hk, by omega, .inl rfl, rfl⟩
  | succ fuel ih =>
    intro m k hk hf
    by_cases hm : m < n
    · have hlt : k < s.ports.inLen := by omega
      have hval : s.ports.field pos m ||| ((s.ports.input.get k).toNat <<< m) = s.ports.field pos (m + 8) := by
        rw [or_shiftLeft_eq_add (field_lt s.ports pos m), field_add, hk, field_whole_byte]
      obtain ⟨m', k', h1, h2, h3, h4⟩ := ih (m + 8) (k + 1) (by omega) (by omega)
      refine ⟨m', k', h1, h2, by omega, ?_⟩
      rw [refill, if_pos hm, run_bind_ok (fetchByte_ok (by simpa using hlt))]
      simpa [hval] using h4
    · exact ⟨m, k, hk, by omega, .inl rfl, by rw [refill, if_neg hm]; rfl⟩

theorem onStream_left {s : State} (h : s.onStream) : s.rd.left = (8 - s.pos % 8) % 8 := by
  rw [h.1]; rfl

theorem onStream_inNext {s : State} (h : s.onStream) : s.rd.inNext = (s.pos + 7) / 8 := by
  rw [h.1]; rfl

theorem onStream_resid {s : State} (h : s.onStream) : s.rd.resid.toNat = s.ports.field s.pos s.rd.left := by
  rw [onStream_left h, ← readerAt_resid, ← h.1]

/-- `BITS(n)` with enough input (R120). -/
theorem bits_ok {s : State} {n : Nat} (h : s.onStream) (hn : n ≤ 25) (hb : s.hasBits n) :
    bits n s = .ok (s.nextField n, s.seek (s.pos + n)) := by
  have hl := onStream_left h
  have hi := onStream_inNext h
  have hp : s.pos + s.rd.left = 8 * s.rd.inNext := by omega
  obtain ⟨m, k, h1, h2, h3, h4⟩ := refill_ok s n s.pos hb n s.rd.left s.rd.inNext hp (by omega)
  have hm : m - n < 8 := by omega
  have hadd : s.ports.field s.pos m = s.nextField n + 2 ^ n * s.ports.field (s.pos + n) (m - n) := by
    rw [State.nextField, ← field_add, Nat.add_sub_cancel' h2]
  have hdiv : s.ports.field s.pos m >>> n = s.ports.field (s.pos + n) (m - n) := by
    rw [hadd, Nat.shiftRight_eq_div_pow, Nat.add_mul_div_left _ _ (by positivity), Nat.div_eq_of_lt]
    · simp
    · exact field_lt ..
  have hmod : s.ports.field s.pos m &&& ((1 <<< n) - 1) = s.nextField n := by
    rw [hadd, Nat.shiftLeft_eq, Nat.one_mul, Nat.and_two_pow_sub_one_eq_mod, Nat.add_mul_mod_self_left,
      Nat.mod_eq_of_lt]
    exact field_lt ..
  have hre := readerAt_of_field s.ports k (m - n) (s.pos + n) hm (by omega)
  rw [← onStream_resid h] at h4
  have h4' : refill n n s.rd.resid.toNat s.rd.left s =
      .ok ((s.ports.field s.pos m, m), { s with rd := { s.rd with inNext := k } }) := h4
  simp only [bits, if_neg (show ¬ 25 < n by omega), run_get_bind, run_bind_ok h4', run_modify_bind, run_pure, hmod,
    hdiv]
  simp only [State.seek, hre]

/-- The loop of R120 without enough input. -/
theorem refill_eof (s : State) (n : Nat) :
    ∀ fuel m k val, n ≤ m + 8 * fuel → 8 * s.ports.inLen + m < n + 8 * k → k ≤ s.ports.inLen →
      ∃ k', k' ≤ s.ports.inLen ∧ k ≤ k' ∧ refill n fuel val m { s with rd := { s.rd with inNext := k } } =
        .error (.raised (({ s with rd := { s.rd with inNext := k' } } : State).takeFault .prematureEof)) := by
  intro fuel
  induction fuel with
  | zero => intro m k val hf hb hk; omega
  | succ fuel ih =>
    intro m k val hf hb hk
    have hm : m < n := by omega
    by_cases hlt : k < s.ports.inLen
    · obtain ⟨k', h1, h2, h3⟩ := ih (m + 8) (k + 1) (val ||| ((s.ports.input.get k).toNat <<< m)) (by omega)
        (by omega) (by omega)
      refine ⟨k', h1, by omega, ?_⟩
      rw [refill, if_pos hm, run_bind_ok (fetchByte_ok (by simpa using hlt))]
      exact h3
    · refine ⟨k, hk, le_refl k, ?_⟩
      rw [refill, if_pos hm, run_bind_error (fetchByte_eof (by simpa using hlt))]

/-- `BITS(n)` without enough input is `PrematureEof` (R120, R342); only the cursor has moved. -/
theorem bits_eof {s : State} {n : Nat} (h : s.onStream) (hn : n ≤ 25) (hb : ¬ s.hasBits n) :
    ∃ k, k ≤ s.ports.inLen ∧ s.rd.inNext ≤ k ∧ bits n s =
      .error (.raised (({ s with rd := { s.rd with inNext := k } } : State).takeFault .prematureEof)) := by
  have hl := onStream_left h
  have hi := onStream_inNext h
  have hp := h.2
  unfold State.hasBits at hb
  obtain ⟨k, h1, h2, h3⟩ := refill_eof s n n s.rd.left s.rd.inNext s.rd.resid.toNat (by omega) (by omega) (by omega)
  refine ⟨k, h1, h2, ?_⟩
  have h3' : refill n n s.rd.resid.toNat s.rd.left s =
      .error (.raised (({ s with rd := { s.rd with inNext := k } } : State).takeFault .prematureEof)) := h3
  simp only [bits, if_neg (show ¬ 25 < n by omega), run_get_bind, run_bind_error h3']

/-- A request wider than 25 bits has no meaning (U1). -/
theorem bits_wide {s : State} {n : Nat} (hn : 25 < n) : bits n s = .error (.refused .bitsTooWide) := by
  simp [bits, hn]

/-- `consume k` with enough input. -/
theorem consume_ok {s : State} {k : Nat} (h : s.onStream) (hb : s.hasBits k) :
    consume k s = .ok ((), s.seek (s.pos + k)) := by
  induction k generalizing s with
  | zero => simp [consume, seek_self h]
  | succ k ih =>
    unfold State.hasBits at hb
    have h1 := bits_ok (n := 1) h (by omega) (by unfold State.hasBits; omega)
    have h2 : (s.seek (s.pos + 1)).onStream := onStream_seek (by omega)
    rw [consume, run_bind_ok h1, ih h2 (by unfold State.hasBits; simp; omega)]
    simp [Nat.add_assoc, Nat.add_comm 1 k]

/-- `ALIGN()` on zero padding (R121). -/
theorem align_ok {s : State} (h : s.rd.resid = 0) :
    align s = .ok ((), { s with rd := { s.rd with left := 0, resid := 0 } }) := by
  simp only [align, run_get_bind, run_bind_ok (run_require_true h _ _), run_modify]

theorem align_nonzero {s : State} (h : s.rd.resid ≠ 0) :
    align s = .error (.raised (s.takeFault (.invalid .nonZeroPadding))) := by
  simp only [align, run_get_bind, run_bind_error (run_require_false h _ _)]

/-- Aligning moves the position to the next byte boundary. -/
theorem align_seek {s : State} (h : s.onStream) (hz : s.rd.resid = 0) :
    align s = .ok ((), s.seek (8 * ((s.pos + 7) / 8))) := by
  have hi := onStream_inNext h
  have hre := readerAt_of_field s.ports ((s.pos + 7) / 8) 0 (8 * ((s.pos + 7) / 8)) (by omega) (by omega)
  rw [align_ok hz]
  simp only [State.seek, hre, hi, field_zero]
  rfl

end Sys2Proof.Machine
end

