-- ==== Sys2Proof/Laws/Fetch.lean ====
section
/-! SUPPORT. The fetch: what the decoder looks at is the stream ahead, and what it selects is consumed. -/

namespace Sys2Proof

/-- Bits that are the bits of a number are given back by it. -/
theorem bitsLE_natOfBits (l : List Bool) : bitsLE l.length (natOfBits l) = l := by
  induction l with
  | nil => rfl
  | cons b l ih =>
    simp only [List.length_cons, bitsLE, natOfBits]
    rw [show (b.toNat + 2 * natOfBits l) / 2 = natOfBits l by have := b.toNat_lt; omega, ih]
    cases b <;> simp

namespace Machine

theorem bitsLE_field (p : Ports) (pos n : Nat) : bitsLE n (p.field pos n) = p.streamBits pos n := by
  have := bitsLE_natOfBits (p.streamBits pos n)
  rwa [length_streamBits] at this

/-- The stream bits of `n` bytes from address `k` on. -/
theorem streamBits_bytes (p : Ports) (k n : Nat) :
    streamBits (p.input.bytes k n) = p.streamBits (8 * k) (8 * n) := by
  induction n generalizing k with
  | zero => rfl
  | succ n ih =>
    have e : p.input.bytes k (n + 1) = p.input.get k :: p.input.bytes (k + 1) n := by
      simp only [Mem.bytes, List.range_succ_eq_map, List.map_cons, Nat.add_zero, List.map_map]
      congr 1
      apply List.map_congr_left
      intro a _
      simp [Nat.add_assoc, Nat.add_comm 1 a]
    rw [e, show 8 * (n + 1) = 8 + 8 * n by ring, streamBits_add, show 8 * k + 8 = 8 * (k + 1) by ring, ← ih,
      ← bitsLE_field, field_whole_byte]
    rfl

/-- The decoder looks at the stream bits ahead, at most as many as asked for and as there are. -/
theorem lookahead_eq {s : State} (h : s.onStream) (k : Nat) :
    s.lookahead k = s.nextBits (min k (8 * s.ports.inLen - s.pos)) := by
  have hl := onStream_left h
  have hi := onStream_inNext h
  have hp := h.2
  have hpl : s.pos + s.rd.left = 8 * s.rd.inNext := by omega
  have hr : bitsLE s.rd.left s.rd.resid.toNat = s.ports.streamBits s.pos s.rd.left := by
    rw [onStream_resid h, bitsLE_field]
  simp only [State.lookahead, hr, streamBits_bytes, State.nextBits]
  rw [← hpl, ← streamBits_add]
  generalize hn : min ((k + 7) / 8) (s.ports.inLen - s.rd.inNext) = n
  have : min k (s.rd.left + 8 * n) = min k (8 * s.ports.inLen - s.pos) := by omega
  rw [← this]
  by_cases hk : k ≤ s.rd.left + 8 * n
  · rw [min_eq_left hk, take_streamBits _ _ _ _ hk]
  · rw [min_eq_right (by omega), List.take_of_length_le (by simp; omega)]

theorem hasBits_lookahead {s : State} (h : s.onStream) {k m : Nat} (hk : s.hasBits k) (hkm : k ≤ m) :
    ∃ rest, s.lookahead m = s.nextBits k ++ rest := by
  unfold State.hasBits at hk
  refine ⟨s.ports.streamBits (s.pos + k) (min m (8 * s.ports.inLen - s.pos) - k), ?_⟩
  rw [lookahead_eq h, State.nextBits, State.nextBits, ← streamBits_add]
  congr 1
  omega

/-- The fetch of an element whose row the bits ahead select. -/
theorem fetch_ok {s : State} {e : Elem} {i : Instr} {k : Nat} (h : s.onStream) (he : s.nextElem = some e)
    (hb : s.hasBits k) (hd : decode e (s.lookahead e.maxBits) = .ok (i, k)) :
    fetch s = .ok (i, ({ s with todo := s.todo.tail } : State).seek (s.pos + k)) := by
  have hs : ({ s with todo := s.todo.tail } : State).onStream := h
  have hc := consume_ok (s := { s with todo := s.todo.tail }) (k := k) hs hb
  simp only [fetch, run_get_bind, he, hd, run_modify_bind]
  rw [run_bind_ok hc]
  rfl

theorem fetch_needMoreBits {s : State} {e : Elem} (he : s.nextElem = some e)
    (hd : decode e (s.lookahead e.maxBits) = .error .needMoreBits) :
    fetch s = .error (.raised (s.takeFault .prematureEof)) := by
  simp only [fetch, run_get_bind, he, hd, run_raise]

theorem fetch_symbolOutOfRange {s : State} {e : Elem} (he : s.nextElem = some e)
    (hd : decode e (s.lookahead e.maxBits) = .error .symbolOutOfRange) :
    fetch s = .error (.raised (s.takeFault (.invalid .symbolOutOfRange))) := by
  simp only [fetch, run_get_bind, he, hd, run_raise]

theorem fetch_repeatedSymbol {s : State} {e : Elem} (he : s.nextElem = some e)
    (hd : decode e (s.lookahead e.maxBits) = .error .repeatedSymbol) :
    fetch s = .error (.refused .dupSimple) := by
  simp only [fetch, run_get_bind, he, hd, run_refuse]

theorem fetch_done {s : State} (h : s.ctl = .done) : fetch s = .error (.fault .runEnded) := by
  simp [fetch, run_get_bind, State.nextElem, h]

end Machine

end Sys2Proof
end

