-- ==== Sys2Proof/Laws/Fields.lean ====
section
/-! SUPPORT. Operations that read one field, and what an operation that begins with a request does. -/

namespace Sys2Proof.Machine

variable {β : Type}

/-- An operation that begins with a request for bits that are there. -/
theorem complete_bits_ok {s : State} {n : Nat} (h : s.onStream) (hn : n ≤ 25) (hb : s.hasBits n) (f : Nat → M β)
    (keep : β → State → State) :
    complete (bits n >>= f) keep s = complete (f (s.nextField n)) keep (s.seek (s.pos + n)) := by
  simp only [complete, run_bind_ok (bits_ok h hn hb)]

/-- An operation that begins with a request for bits that are not there. -/
theorem complete_bits_eof {s : State} {n : Nat} (h : s.onStream) (hn : n ≤ 25) (hb : ¬ s.hasBits n) (f : Nat → M β)
    (keep : β → State → State) : s.endsEarly (complete (bits n >>= f) keep s) := by
  obtain ⟨k, _, _, hk⟩ := bits_eof h hn hb
  exact ⟨{ s.rd with inNext := k }, by simp only [complete, run_bind_error hk]⟩

theorem complete_bits {s : State} {n : Nat} (h : s.onStream) (hn : n ≤ 25) (keep : Nat → State → State) :
    (s.hasBits n → complete (bits n) keep s = .next (keep (s.nextField n) (s.seek (s.pos + n)))) ∧
    (¬ s.hasBits n → s.endsEarly (complete (bits n) keep s)) := by
  refine ⟨fun hb => complete_ok (bits_ok h hn hb), fun hb => ?_⟩
  obtain ⟨k, _, _, hk⟩ := bits_eof h hn hb
  exact ⟨{ s.rd with inNext := k }, by simp only [complete, hk]⟩

/-- `base + BITS(extra)` (R232, R250). -/
theorem complete_baseExtra {s : State} {base extra : Nat} (h : s.onStream) (hn : extra ≤ 25)
    (keep : Nat → State → State) :
    (s.hasBits extra → complete (baseExtra base extra) keep s =
      .next (keep (base + s.nextField extra) (s.seek (s.pos + extra)))) ∧
    (¬ s.hasBits extra → s.endsEarly (complete (baseExtra base extra) keep s)) :=
  ⟨fun hb => by rw [baseExtra, complete_bits_ok h hn hb]; rfl, fun hb => complete_bits_eof h hn hb ..⟩

theorem baseExtra_ok {s : State} {base extra : Nat} (h : s.onStream) (hn : extra ≤ 25) (hb : s.hasBits extra) :
    baseExtra base extra s = .ok (base + s.nextField extra, s.seek (s.pos + extra)) := by
  rw [baseExtra, run_bind_ok (bits_ok h hn hb)]; rfl

/-! Whole bytes (R123, R124). -/

theorem skip_run {s : State} (h : s.rd.left = 0) (k : Nat) : skip k s =
    if s.ports.inLen - s.rd.inNext < k then .error (.raised (s.takeFault .prematureEof))
    else .ok ((), { s with rd := { s.rd with inNext := s.rd.inNext + k } }) := by
  simp only [skip, run_get_bind, run_bind_ok (run_precondition_true h _)]
  split_ifs with hlt
  · exact run_bind_error (run_require_false (by omega) _ _)
  · rw [run_bind_ok (run_require_true (by omega) _ _)]; rfl

/-- The cursor on a byte boundary. -/
theorem readerAt_boundary (p : Ports) (k : Nat) : readerAt p (8 * k) = { inNext := k, resid := 0, left := 0 } :=
  readerAt_of_field p k 0 (8 * k) (by omega) (by omega)

/-- Aligning leaves the cursor on the boundary before the next byte not yet fetched. -/
theorem align_boundary {s : State} (h : s.onStream) (hz : s.rd.resid = 0) :
    align s = .ok ((), s.seek (8 * s.rd.inNext)) := by
  rw [onStream_inNext h]; exact align_seek h hz

/-- Bytes are skipped from a byte boundary. -/
theorem skip_seek {s : State} (a k : Nat) (hk : k ≤ s.ports.inLen - a) :
    skip k (s.seek (8 * a)) = .ok ((), s.seek (8 * (a + k))) := by
  have hr := readerAt_boundary s.ports a
  rw [skip_run (by simp [hr]), if_neg (by simp [hr]; omega)]
  simp only [State.seek, hr, readerAt_boundary]

theorem skip_seek_eof {s : State} (a k : Nat) (hk : s.ports.inLen - a < k) :
    skip k (s.seek (8 * a)) = .error (.raised ((s.seek (8 * a)).takeFault .prematureEof)) := by
  have hr := readerAt_boundary s.ports a
  rw [skip_run (by simp [hr]), if_pos (by simp [hr]; omega)]

end Sys2Proof.Machine
end

