-- ==== Sys2Proof/Laws/Spelling.lean ====
section
/-! SUPPORT. Reading what the stream spells: an operation that reads fields and codewords one after another meets them
one after another. -/

namespace Sys2Proof.Machine

theorem spells_nil {s : State} (h : s.onStream) : s.spells [] := ⟨h.2, rfl⟩

@[simp] theorem seek_add_seek (s : State) (a b : Nat) : (s.seek a).seek b = s.seek b := rfl

/-- Two moves one after the other. -/
theorem seek_then (s : State) (p n : Nat) : (s.seek p).seek ((s.seek p).pos + n) = s.seek (p + n) := by
  rw [seek_pos]; rfl

theorem spells_hasBits {s : State} {l : List Bool} (h : s.spells l) : s.hasBits l.length := h.1

theorem onStream_after {s : State} {l : List Bool} (h : s.spells l) : (s.seek (s.pos + l.length)).onStream :=
  onStream_seek h.1

theorem spells_append {s : State} {a b : List Bool} :
    s.spells (a ++ b) ↔ s.spells a ∧ (s.seek (s.pos + a.length)).spells b := by
  unfold State.spells State.hasBits State.nextBits
  rw [List.length_append, streamBits_add]
  simp only [seek_pos, seek_ports, Nat.add_assoc]
  constructor
  · rintro ⟨h1, h2⟩
    have := List.append_inj h2 (by simp)
    exact ⟨⟨by omega, this.1⟩, by omega, this.2⟩
  · rintro ⟨⟨_, h2⟩, h3, h4⟩
    exact ⟨by omega, by rw [h2, h4]⟩

theorem spells_left {s : State} {a b : List Bool} (h : s.spells (a ++ b)) : s.spells a := (spells_append.1 h).1

theorem spells_right {s : State} {a b : List Bool} (h : s.spells (a ++ b)) :
    (s.seek (s.pos + a.length)).spells b := (spells_append.1 h).2

theorem spells_field {s : State} {n e : Nat} (h : s.spells (bitsLE n e)) (he : e < 2 ^ n) :
    s.hasBits n ∧ s.nextField n = e := by
  have hb := h.1
  rw [length_bitsLE] at hb
  refine ⟨hb, ?_⟩
  have h2 := h.2
  rw [length_bitsLE] at h2
  rw [State.nextField, Ports.field, show s.ports.streamBits s.pos n = bitsLE n e from h2, natOfBits_bitsLE_lt he]

/-- A request for a field that the stream spells. -/
theorem bits_spelled {s : State} {n e : Nat} (h : s.onStream) (hn : n ≤ 25) (he : e < 2 ^ n)
    (hs : s.spells (bitsLE n e)) : bits n s = .ok (e, s.seek (s.pos + n)) := by
  obtain ⟨hb, hf⟩ := spells_field hs he
  rw [bits_ok h hn hb, hf]

/-- The bits ahead spell themselves. -/
theorem spells_nextBits {s : State} {n : Nat} (h : s.hasBits n) : s.spells (s.nextBits n) := by
  unfold State.spells State.nextBits
  simpa using h

theorem baseExtra_spelled {s : State} {base n e : Nat} (h : s.onStream) (hn : n ≤ 25) (he : e < 2 ^ n)
    (hs : s.spells (bitsLE n e)) : baseExtra base n s = .ok (base + e, s.seek (s.pos + n)) := by
  obtain ⟨hb, hf⟩ := spells_field hs he
  rw [baseExtra_ok h hn hb, hf]

theorem baseExtra_eof {s : State} {base n : Nat} (h : s.onStream) (hn : n ≤ 25) (hb : ¬ s.hasBits n) :
    ∃ k, baseExtra base n s =
      .error (.raised (({ s with rd := { s.rd with inNext := k } } : State).takeFault .prematureEof)) := by
  obtain ⟨k, _, _, hk⟩ := bits_eof h hn hb
  exact ⟨k, by rw [baseExtra, run_bind_error hk]⟩

end Sys2Proof.Machine
end

