-- ==== Sys2Proof/Laws/Prefix.lean ====
section
/-! SUPPORT. Prefix codes (spec/41_prefix_code.md section 1): the loop of R144 as a walk over bits, the codewords of
R143 along it, and why a complete code never runs off its end (R145). -/

namespace Sys2Proof

/-- The loop of R144 on a list of bits: the index into `symbol` and how many bits were read. `c` and `first` are the
partial code and the first code, doubled by the turn before. -/
def walk : List Nat → Nat → Nat → Nat → List Bool → Option (Nat × Nat)
  | n :: counts, c, first, index, b :: bs =>
    if c + b.toNat < first + n then some (index + (c + b.toNat - first), 1)
    else (walk counts (2 * (c + b.toNat)) (2 * (first + n)) (index + n) bs).map fun p => (p.1, p.2 + 1)
  | _, _, _, _, _ => none

/-- The counts the loop goes over after `k` turns. -/
def Table.countsFrom (t : Table) (k : Nat) : List Nat := (t.count.drop (k + 1)).take (15 - k)

theorem Table.countsFrom_zero (t : Table) : t.countsFrom 0 = (t.count.drop 1).take 15 := rfl

theorem Table.countsFrom_succ (t : Table) {k : Nat} (hk : k < 15) (hl : k + 1 < t.count.length) :
    t.countsFrom k = t.count.getD (k + 1) 0 :: t.countsFrom (k + 1) := by
  unfold Table.countsFrom
  rw [List.drop_eq_getElem_cons hl, show 15 - k = 15 - (k + 1) + 1 by omega, List.take_succ_cons,
    List.getD_eq_getElem _ _ hl]

theorem Table.firstIndex_succ (t : Table) (n : Nat) :
    t.firstIndex (n + 1) = t.firstIndex n + t.count.getD (n + 1) 0 := rfl

theorem Table.firstCode_succ (t : Table) (n : Nat) :
    t.firstCode (n + 1) = 2 * (t.firstCode n + t.count.getD (n + 1) 0) := by
  rw [Table.firstCode, Nat.shiftLeft_eq]; ring

theorem Table.firstCode_le (t : Table) (k m : Nat) :
    2 ^ (m + 1) * (t.firstCode k + t.count.getD (k + 1) 0) ≤ t.firstCode (k + m + 1) := by
  induction m with
  | zero => rw [Nat.add_zero, Table.firstCode_succ]; simp
  | succ m ih =>
    rw [show k + (m + 1) + 1 = k + m + 1 + 1 by omega, Table.firstCode_succ, pow_succ]
    nlinarith

theorem codewordBits_succ (m c : Nat) :
    codewordBits (m + 1) c = decide (c / 2 ^ m % 2 = 1) :: codewordBits m c := by
  unfold codewordBits
  rw [bitsLE_add]
  simp [bitsLE]

@[simp] theorem length_codewordBits (n c : Nat) : (codewordBits n c).length = n := by
  simp [codewordBits, length_bitsLE]

/-- The walk finds the codeword of R143 it meets. `m + 1` bits of it are still to be read. -/
theorem walk_codeword (t : Table) (j : Nat) (rest : List Bool) :
    ∀ m k, k + m < 15 → j < t.count.getD (k + m + 1) 0 →
      walk (t.countsFrom k) (2 * ((t.firstCode (k + m) + j) / 2 ^ (m + 1))) (t.firstCode k) (t.firstIndex k)
        (codewordBits (m + 1) (t.firstCode (k + m) + j) ++ rest) = some (t.firstIndex (k + m) + j, m + 1) := by
  intro m
  induction m with
  | zero =>
    intro k hk hj
    have hl : k + 1 < t.count.length := by
      by_contra hh; rw [List.getD_eq_default _ _ (by omega)] at hj; omega
    rw [Table.countsFrom_succ t (by omega) hl, codewordBits_succ]
    simp only [Nat.add_zero] at hj ⊢
    generalize hC : t.firstCode k + j = C
    have hb : 2 * (C / 2 ^ (0 + 1)) + (decide (C / 2 ^ 0 % 2 = 1)).toNat = C := by
      rw [Machine.toNat_decide_mod_two]; simp; omega
    simp only [List.cons_append, walk, hb]
    rw [if_pos (by omega), ← hC]
    simp
  | succ m ih =>
    intro k hk hj
    have hl : k + 1 < t.count.length := by
      by_contra hh; rw [List.getD_eq_default _ _ (by omega)] at hj; omega
    have hj' : j < t.count.getD (k + 1 + m + 1) 0 := by rw [show k + 1 + m + 1 = k + (m + 1) + 1 by omega]; exact hj
    have ih := ih (k + 1) (by omega) hj'
    rw [Table.countsFrom_succ t (by omega) hl, codewordBits_succ]
    rw [show k + 1 + m = k + (m + 1) by omega] at ih
    have hge := Table.firstCode_le t k m
    rw [show k + m + 1 = k + (m + 1) by omega] at hge
    generalize hC : t.firstCode (k + (m + 1)) + j = C at ih ⊢
    have hb : 2 * (C / 2 ^ (m + 1 + 1)) + (decide (C / 2 ^ (m + 1) % 2 = 1)).toNat = C / 2 ^ (m + 1) := by
      rw [Machine.toNat_decide_mod_two, pow_succ 2 (m + 1), ← Nat.div_div_eq_div_mul]; omega
    have hfail : ¬ C / 2 ^ (m + 1) < t.firstCode k + t.count.getD (k + 1) 0 := by
      rw [Nat.div_lt_iff_lt_mul (by positivity)]
      have : C ≥ t.firstCode (k + (m + 1)) := by omega
      nlinarith
    simp only [List.cons_append, walk, hb, if_neg hfail]
    rw [Table.firstCode_succ, Table.firstIndex_succ] at ih
    rw [ih]
    rfl

/-- A codeword is met by the walk from the start, whatever follows it. -/
theorem walk_of_isCodeword {t : Table} {v : Nat} {word : List Bool} (h : t.isCodeword v word)
    (h1 : t.count.getD 0 0 ≠ 1) (rest : List Bool) :
    ∃ p, t.symbol[p]? = some v ∧ walk (t.countsFrom 0) 0 0 0 (word ++ rest) = some (p, word.length) := by
  rcases h with ⟨h, _⟩ | ⟨_, n, j, hn, hj, hlt, hv, rfl⟩
  · exact absurd h h1
  · refine ⟨_, hv, ?_⟩
    have := walk_codeword t j rest n 0 (by omega) (by simpa using hj)
    rw [Nat.zero_add, Nat.div_eq_of_lt hlt] at this
    simpa [Table.firstCode, Table.firstIndex] using this

/-- Codewords are prefix-free (R143): what is read first is determined. -/
theorem isCodeword_unique {t : Table} {v v' : Nat} {word word' rest rest' : List Bool} (h : t.isCodeword v word)
    (h' : t.isCodeword v' word') (he : word ++ rest = word' ++ rest') : v = v' ∧ word = word' := by
  by_cases h1 : t.count.getD 0 0 = 1
  · rcases h with ⟨_, rfl, hv⟩ | ⟨hn, _⟩
    · rcases h' with ⟨_, rfl, hv'⟩ | ⟨hn, _⟩
      · rw [hv] at hv'; exact ⟨by simpa using hv', rfl⟩
      · exact absurd h1 hn
    · exact absurd h1 hn
  · obtain ⟨p, hp, hw⟩ := walk_of_isCodeword h h1 rest
    obtain ⟨p', hp', hw'⟩ := walk_of_isCodeword h' h1 rest'
    rw [he, hw'] at hw
    simp only [Option.some.injEq, Prod.mk.injEq] at hw
    obtain ⟨rfl, hl⟩ := hw
    rw [hp] at hp'
    exact ⟨by simpa using hp', (List.append_inj he hl.symm).1⟩

/-- What the walk finds is a codeword (R143). -/
theorem walk_some (t : Table) : ∀ bs k P p len, t.firstCode k ≤ 2 * P →
    walk (t.countsFrom k) (2 * P) (t.firstCode k) (t.firstIndex k) bs = some (p, len) →
    ∃ m j, len = m + 1 ∧ k + m < 15 ∧ j < t.count.getD (k + m + 1) 0 ∧ p = t.firstIndex (k + m) + j ∧
      (t.firstCode (k + m) + j) / 2 ^ (m + 1) = P ∧
      bs.take (m + 1) = codewordBits (m + 1) (t.firstCode (k + m) + j) := by
  intro bs
  induction bs with
  | nil => intro k P p len hP h; cases hc : t.countsFrom k <;> simp [hc, walk] at h
  | cons b bs ih =>
    intro k P p len hP h
    by_cases hk : k < 15 ∧ k + 1 < t.count.length
    · rw [Table.countsFrom_succ t hk.1 hk.2, walk] at h
      have hbt := b.toNat_lt
      split_ifs at h with hlt
      · simp only [Option.some.injEq, Prod.mk.injEq] at h
        obtain ⟨rfl, rfl⟩ := h
        refine ⟨0, 2 * P + b.toNat - t.firstCode k, rfl, by omega, by simp only [Nat.add_zero]; omega, rfl, ?_, ?_⟩
        · simp only [Nat.add_zero]
          rw [show t.firstCode k + (2 * P + b.toNat - t.firstCode k) = 2 * P + b.toNat by omega]
          simp; omega
        · simp only [Nat.add_zero]
          rw [show t.firstCode k + (2 * P + b.toNat - t.firstCode k) = 2 * P + b.toNat by omega, codewordBits_succ]
          cases b <;> simp [codewordBits, bitsLE]
      · simp only [Option.map_eq_some_iff, Prod.mk.injEq] at h
        obtain ⟨⟨p', l⟩, hw, rfl, rfl⟩ := h
        rw [← Table.firstCode_succ, ← Table.firstIndex_succ] at hw
        obtain ⟨m, j, rfl, h1, h2, rfl, h4, h5⟩ := ih (k + 1) (2 * P + b.toNat) _ _
          (by rw [Table.firstCode_succ]; omega) hw
        rw [show k + 1 + m = k + (m + 1) by omega] at h1 h2 h4 h5
        refine ⟨m + 1, j, rfl, h1, h2, by rw [show k + 1 + m = k + (m + 1) by omega], ?_, ?_⟩
        · rw [pow_succ 2 (m + 1), ← Nat.div_div_eq_div_mul, h4]; omega
        · rw [codewordBits_succ, h4, List.take_succ_cons, h5]
          congr 1
          cases b <;> simp
    · have : t.countsFrom k = [] := by
        unfold Table.countsFrom
        rcases not_and_or.1 hk with hk | hk
        · rw [show 15 - k = 0 by omega]; simp
        · rw [List.drop_eq_nil_of_le (by omega)]; simp
      simp [this, walk] at h

theorem Table.kraft_eq (t : Table) : t.kraft = t.firstCode 14 + t.count.getD 15 0 := by
  simp [Table.kraft, List.range', Table.firstCode, Nat.shiftLeft_eq]
  ring

theorem Table.firstIndex_eq (t : Table) (n : Nat) : t.firstIndex n = ((t.count.drop 1).take n).sum := by
  induction n with
  | zero => simp [Table.firstIndex]
  | succ n ih =>
    rw [Table.firstIndex_succ, ih, List.take_add_one, List.sum_append]
    congr 1
    rw [List.getElem?_drop, Nat.add_comm 1 n, List.getD_eq_getElem?_getD]
    cases t.count[n + 1]? <;> simp

theorem Table.firstIndex_mono (t : Table) {a b : Nat} (h : a ≤ b) : t.firstIndex a ≤ t.firstIndex b := by
  induction b with
  | zero => simp [Nat.le_zero.1 h]
  | succ b ih =>
    rcases Nat.lt_or_ge b a with hb | hb
    · rw [show a = b + 1 by omega]
    · rw [Table.firstIndex_succ]; have := ih hb; omega

/-- What complete tables give (R141 (b)). -/
theorem Table.complete_facts {t : Table} (h : t.isComplete = true) :
    t.count.length = 16 ∧ t.count.getD 0 0 = 0 ∧ t.kraft = 2 ^ 15 ∧ t.symbol.length = t.firstIndex 15 := by
  simp only [Table.isComplete, Bool.and_eq_true, decide_eq_true_eq] at h
  obtain ⟨⟨⟨h1, h2⟩, h3⟩, h4⟩ := h
  refine ⟨h1, h2, h3, ?_⟩
  rw [h4, Table.firstIndex_eq, List.take_of_length_le (by simp [h1])]
  cases hc : t.count with
  | nil => simp [hc] at h1
  | cons a l => rw [hc] at h2; simp at h2; simp [h2]

/-- On a complete code the walk never runs off the end (R145). -/
theorem walk_total {t : Table} (h : t.isComplete = true) :
    ∀ r k P bs, k + r = 15 → 0 < r → P < 2 ^ k → r ≤ bs.length →
      walk (t.countsFrom k) (2 * P) (t.firstCode k) (t.firstIndex k) bs ≠ none := by
  obtain ⟨h1, h2, h3, h4⟩ := Table.complete_facts h
  intro r
  induction r with
  | zero => intro k P bs hk hr; omega
  | succ r ih =>
    intro k P bs hk _ hP hl
    cases bs with
    | nil => simp at hl
    | cons b bs =>
      have hbt := b.toNat_lt
      rw [Table.countsFrom_succ t (by omega) (by omega), walk]
      split_ifs with hlt
      · simp
      · by_cases hr : r = 0
        · exfalso
          rw [Table.kraft_eq] at h3
          have : k = 14 := by omega
          subst this
          have e : t.count.getD (14 + 1) 0 = t.count.getD 15 0 := rfl
          omega
        · have := ih (k + 1) (2 * P + b.toNat) bs (by omega) (by omega) (by rw [pow_succ]; omega) (by simpa using hl)
          rw [Table.firstCode_succ, Table.firstIndex_succ] at this
          simpa using this

/-- The bits ahead of a complete code: a codeword of at most 15 bits, or too few bits. -/
theorem walk_isCodeword {t : Table} (h : t.isComplete = true) {bs : List Bool} {p len : Nat}
    (hw : walk (t.countsFrom 0) 0 0 0 bs = some (p, len)) :
    ∃ v, t.symbol[p]? = some v ∧ len ≤ 15 ∧ t.isCodeword v (bs.take len) := by
  obtain ⟨h1, h2, h3, h4⟩ := Table.complete_facts h
  obtain ⟨m, j, rfl, hm, hj, rfl, hd, ht⟩ := walk_some t bs 0 0 p len (by simp [Table.firstCode])
    (by simpa [Table.firstCode, Table.firstIndex] using hw)
  simp only [Nat.zero_add] at hm hj hd ht ⊢
  have hlt : t.firstIndex m + j < t.symbol.length := by
    have := Table.firstIndex_mono t (show m + 1 ≤ 15 by omega)
    rw [Table.firstIndex_succ] at this
    omega
  refine ⟨t.symbol[t.firstIndex m + j], List.getElem?_eq_getElem hlt, by omega, .inr ⟨by rw [h2]; decide, m, j, hm, hj, ?_,
    List.getElem?_eq_getElem hlt, ht⟩⟩
  by_contra hh
  have : 1 ≤ (t.firstCode m + j) / 2 ^ (m + 1) := (Nat.one_le_div_iff (by positivity)).2 (by omega)
  omega

namespace Machine

/-- `SYM`'s loop on the stream is the walk over the bits ahead. -/
theorem symLoop_walk (symbols : List Nat) {p len : Nat} :
    ∀ counts c first index (s : State) N, s.onStream → s.hasBits N → 2 ∣ c →
      walk counts c first index (s.nextBits N) = some (p, len) →
      len ≤ N ∧ symLoop symbols counts c first index s = entry symbols p (s.seek (s.pos + len)) := by
  intro counts
  induction counts generalizing len with
  | nil => intro c first index s N h hb hc hw; simp [walk] at hw
  | cons n counts ih =>
    intro c first index s N h hb hc hw
    unfold State.hasBits at hb
    cases N with
    | zero => simp [State.nextBits, Ports.streamBits, walk] at hw
    | succ N =>
      have hb1 := bits_ok (n := 1) h (by omega) (by unfold State.hasBits; omega)
      have hf : s.nextField 1 = (s.ports.streamBit s.pos).toNat := field_one ..
      have hor : c ||| (s.ports.streamBit s.pos).toNat = c + (s.ports.streamBit s.pos).toNat := by
        obtain ⟨d, rfl⟩ := hc
        have := Nat.two_pow_add_eq_or_of_lt (i := 1) (b := (s.ports.streamBit s.pos).toNat)
          (by have := (s.ports.streamBit s.pos).toNat_lt; omega) d
        simpa using this.symm
      rw [State.nextBits, Ports.streamBits, walk] at hw
      rw [symLoop, run_bind_ok hb1, hf, hor]
      split_ifs at hw ⊢ with hlt
      · simp only [Option.some.injEq, Prod.mk.injEq] at hw
        obtain ⟨rfl, rfl⟩ := hw
        exact ⟨by omega, rfl⟩
      · simp only [Option.map_eq_some_iff, Prod.mk.injEq] at hw
        obtain ⟨⟨p', l⟩, hw, rfl, rfl⟩ := hw
        have ho : (s.seek (s.pos + 1)).onStream := onStream_seek (by omega)
        obtain ⟨h1, h2⟩ := ih _ _ _ (s.seek (s.pos + 1)) N ho (by unfold State.hasBits; simp; omega)
          (Dvd.intro _ rfl) (by simpa [State.nextBits] using hw)
        refine ⟨by omega, ?_⟩
        simp only [Nat.shiftLeft_eq, pow_one, Nat.mul_comm _ 2]
        rw [h2]
        simp [Nat.add_assoc, Nat.add_comm 1 l]

/-- `SYM(code)` on a codeword (R144). -/
theorem sym_codeword {t : Table} {v : Nat} {word : List Bool} {s : State} (h : s.onStream)
    (hc : t.isCodeword v word) (hs : s.spells word) : sym t s = .ok (v, s.seek (s.pos + word.length)) := by
  by_cases h1 : t.count.getD 0 0 = 1
  · rcases hc with ⟨_, rfl, hv⟩ | ⟨hn, _⟩
    · rw [sym, if_pos h1, run_entry hv]
      simp [seek_self h]
    · exact absurd h1 hn
  · obtain ⟨p, hp, hw⟩ := walk_of_isCodeword hc h1 []
    rw [List.append_nil, ← hs.2] at hw
    obtain ⟨_, h2⟩ := symLoop_walk t.symbol _ 0 0 0 s _ h hs.1 (dvd_zero _) hw
    rw [hs.2] at h2
    rw [sym, if_neg h1, ← Table.countsFrom_zero, h2, run_entry hp]

/-- `SYM`'s loop where the stream ends before a codeword. -/
theorem symLoop_eof (symbols : List Nat) : ∀ counts c first index (s : State) N, s.onStream →
    s.pos + N = 8 * s.ports.inLen → 2 ∣ c → N < counts.length → walk counts c first index (s.nextBits N) = none →
    ∃ r, symLoop symbols counts c first index s =
      .error (.raised (({ s with rd := r } : State).takeFault .prematureEof)) := by
  intro counts
  induction counts with
  | nil => intro c first index s N h hb hc hl; simp at hl
  | cons n counts ih =>
    intro c first index s N h hb hc hl hw
    cases N with
    | zero =>
      obtain ⟨k, _, _, hk⟩ := bits_eof (n := 1) h (by omega) (by unfold State.hasBits; omega)
      exact ⟨_, by rw [symLoop, run_bind_error hk]⟩
    | succ N =>
      have hb1 := bits_ok (n := 1) h (by omega) (by unfold State.hasBits; omega)
      have hf : s.nextField 1 = (s.ports.streamBit s.pos).toNat := field_one ..
      have hor : c ||| (s.ports.streamBit s.pos).toNat = c + (s.ports.streamBit s.pos).toNat := by
        obtain ⟨d, rfl⟩ := hc
        have := Nat.two_pow_add_eq_or_of_lt (i := 1) (b := (s.ports.streamBit s.pos).toNat)
          (by have := (s.ports.streamBit s.pos).toNat_lt; omega) d
        simpa using this.symm
      rw [State.nextBits, Ports.streamBits, walk] at hw
      rw [symLoop, run_bind_ok hb1, hf, hor]
      split_ifs at hw ⊢ with hlt
      · have ho : (s.seek (s.pos + 1)).onStream := onStream_seek (by omega)
        obtain ⟨r, hr⟩ := ih _ _ _ (s.seek (s.pos + 1)) N ho (by simp; omega) (Dvd.intro _ rfl)
          (by simpa using hl) (by simpa [State.nextBits] using hw)
        refine ⟨r, ?_⟩
        simp only [Nat.shiftLeft_eq, pow_one, Nat.mul_comm _ 2]
        rw [hr]
        rfl

/-- `SYM` on a valid table (R145): the stream spells a codeword, or it ends within the next 15 bits. -/
theorem sym_valid {t : Table} {s : State} (hv : t.valid = true) (h : s.onStream) :
    (∃ v word, word.length ≤ 15 ∧ v ∈ t.symbol ∧ t.isCodeword v word ∧ s.spells word) ∨
    (¬ s.hasBits 15 ∧ ∃ r, sym t s = .error (.raised (({ s with rd := r } : State).takeFault .prematureEof))) := by
  simp only [Table.valid, Bool.or_eq_true] at hv
  rcases hv with hv | hv
  · simp only [Table.isSingle, Bool.and_eq_true, decide_eq_true_eq] at hv
    obtain ⟨h1, h2⟩ := hv
    obtain ⟨v, hsv⟩ := List.length_eq_one_iff.1 h2
    exact .inl ⟨v, [], by simp, by simp [hsv], .inl ⟨by simp [h1], rfl, by simp [hsv]⟩, spells_nil h⟩
  · have found : ∀ N p len, s.hasBits N → walk (t.countsFrom 0) 0 0 0 (s.nextBits N) = some (p, len) →
        ∃ v word, word.length ≤ 15 ∧ v ∈ t.symbol ∧ t.isCodeword v word ∧ s.spells word := by
      intro N p len hb hw
      obtain ⟨v, hp, hl, hc⟩ := walk_isCodeword hv hw
      have hN := (symLoop_walk t.symbol _ 0 0 0 s N h hb (dvd_zero _) hw).1
      refine ⟨v, s.nextBits len, by simpa [State.nextBits] using hl, List.mem_of_getElem? hp, ?_, spells_nextBits ?_⟩
      · rwa [State.nextBits, take_streamBits _ _ _ _ hN] at hc
      · unfold State.hasBits at hb ⊢; omega
    by_cases hb : s.hasBits 15
    · left
      cases hw : walk (t.countsFrom 0) 0 0 0 (s.nextBits 15) with
      | none =>
        exact absurd hw (by
          have := walk_total hv 15 0 0 (s.nextBits 15) rfl (by omega) (by simp) (by simp [State.nextBits])
          simpa [Table.firstCode, Table.firstIndex] using this)
      | some r => exact found 15 r.1 r.2 hb hw
    · have hp := h.2
      unfold State.hasBits at hb
      obtain ⟨N, hN⟩ := Nat.exists_eq_add_of_le hp
      cases hw : walk (t.countsFrom 0) 0 0 0 (s.nextBits N) with
      | some r => exact .inl (found N r.1 r.2 (by unfold State.hasBits; omega) hw)
      | none =>
        right
        obtain ⟨h1, h2, _, _⟩ := Table.complete_facts hv
        obtain ⟨r, hr⟩ := symLoop_eof t.symbol _ 0 0 0 s N h (by omega) (dvd_zero _)
          (by rw [Table.countsFrom_zero]; simp [h1]; omega) hw
        refine ⟨by unfold State.hasBits; omega, r, ?_⟩
        rw [sym, if_neg (by rw [h2]; decide), ← Table.countsFrom_zero, hr]

end Machine

end Sys2Proof
end

