-- ==== Sys2Proof/Laws/Build.lean ====
section
/-! SUPPORT. The table of a list of code lengths (R142): which symbols it lists and in what order, and that a full Kraft
sum makes it a valid table (R141). -/

namespace Sys2Proof.Machine

theorem mem_symbolsOfLength {lengths : List Nat} {len v : Nat} :
    v ∈ symbolsOfLength lengths len ↔ lengths[v]? = some len := by
  simp only [symbolsOfLength, List.mem_filterMap, Prod.exists]
  constructor
  · rintro ⟨a, b, hab, h⟩
    split_ifs at h with ha
    simp only [Option.some.injEq] at h
    subst h ha
    exact List.mk_mem_zipIdx_iff_getElem?.1 hab
  · intro h
    exact ⟨len, v, List.mk_mem_zipIdx_iff_getElem?.2 h, by simp⟩

theorem symbolsOfLength_go (len : Nat) : ∀ (lengths : List Nat) (k : Nat),
    ((lengths.zipIdx k).filterMap fun p => if p.1 = len then some p.2 else none).length = lengths.count len ∧
    ((lengths.zipIdx k).filterMap fun p => if p.1 = len then some p.2 else none).Pairwise (· < ·) ∧
    ∀ v ∈ (lengths.zipIdx k).filterMap (fun p => if p.1 = len then some p.2 else none), k ≤ v := by
  intro lengths
  induction lengths with
  | nil => intro k; simp
  | cons l ls ih =>
    intro k
    obtain ⟨h1, h2, h3⟩ := ih (k + 1)
    simp only [List.zipIdx_cons, List.filterMap_cons, List.count_cons]
    by_cases hl : l = len
    · simp only [hl, if_true, List.length_cons, h1, List.pairwise_cons, beq_self_eq_true, List.mem_cons]
      exact ⟨trivial, ⟨fun v hv => h3 v hv, h2⟩, by rintro v (rfl | hv); exact le_refl _; have := h3 v hv; omega⟩
    · simp only [hl, if_false, h1, beq_iff_eq, Nat.add_zero]
      exact ⟨trivial, h2, fun v hv => by have := h3 v hv; omega⟩

theorem length_symbolsOfLength (lengths : List Nat) (len : Nat) :
    (symbolsOfLength lengths len).length = lengths.count len := (symbolsOfLength_go len lengths 0).1

theorem pairwise_symbolsOfLength (lengths : List Nat) (len : Nat) :
    (symbolsOfLength lengths len).Pairwise (· < ·) := (symbolsOfLength_go len lengths 0).2.1

theorem mem_buildTable {lengths : List Nat} (h : ∀ l ∈ lengths, l ≤ 15) {v : Nat} :
    v ∈ (buildTable lengths).symbol ↔ ∃ l, lengths[v]? = some l ∧ l ≠ 0 := by
  simp only [buildTable, List.mem_flatMap, List.mem_range'_1, mem_symbolsOfLength]
  constructor
  · rintro ⟨l, hl, hv⟩; exact ⟨l, hv, by omega⟩
  · rintro ⟨l, hv, hl⟩; exact ⟨l, by have := h l (List.mem_of_getElem? hv); omega, hv⟩

theorem pairwise_buildTable (lengths : List Nat) :
    (buildTable lengths).symbol.Pairwise (fun v w =>
      lengths.getD v 0 < lengths.getD w 0 ∨ (lengths.getD v 0 = lengths.getD w 0 ∧ v < w)) := by
  have get : ∀ {len v}, v ∈ symbolsOfLength lengths len → lengths.getD v 0 = len := by
    intro len v hv
    rw [mem_symbolsOfLength] at hv
    simp [List.getD_eq_getElem?_getD, hv]
  simp only [buildTable]
  rw [List.pairwise_flatMap]
  constructor
  · intro len _
    refine List.Pairwise.imp_of_mem ?_ (pairwise_symbolsOfLength lengths len)
    intro v w hv hw hlt
    rw [get hv, get hw]
    exact .inr ⟨rfl, hlt⟩
  · refine List.Pairwise.imp ?_ (List.pairwise_lt_range' (s := 1) (n := 15))
    intro l m hlm v hv w hw
    rw [get hv, get hw]
    exact .inl hlm

theorem count_buildTable (lengths : List Nat) {n : Nat} (hn : n < 16) :
    (buildTable lengths).count[n]? = some (if n = 0 then 0 else lengths.count n) := by
  simp [buildTable, hn]

theorem getD_count_buildTable (lengths : List Nat) {n : Nat} (hn : n < 16) :
    (buildTable lengths).count.getD n 0 = if n = 0 then 0 else lengths.count n := by
  rw [List.getD_eq_getElem?_getD, count_buildTable lengths hn]; rfl

theorem kraftOf_cons (l : Nat) (ls : List Nat) :
    kraftOf (l :: ls) = (if l = 0 then 0 else 2 ^ (15 - l)) + kraftOf ls := by simp [kraftOf]

theorem kraft_buildTable {lengths : List Nat} (h : ∀ l ∈ lengths, l ≤ 15) :
    (buildTable lengths).kraft = kraftOf lengths := by
  have e : (buildTable lengths).kraft = ((List.range' 1 15).map fun n => lengths.count n * 2 ^ (15 - n)).sum := by
    unfold Table.kraft
    congr 1
  rw [e]
  clear e
  induction lengths with
  | nil => simp [kraftOf]
  | cons l ls ih =>
    rw [kraftOf_cons, ← ih fun x hx => h x (by simp [hx])]
    have hl : l ≤ 15 := h l (by simp)
    have e : (fun n => (l :: ls).count n * 2 ^ (15 - n)) =
        fun n => (if l = n then 2 ^ (15 - n) else 0) + ls.count n * 2 ^ (15 - n) := by
      funext n
      rw [List.count_cons]
      by_cases hln : l = n <;> simp [hln, Nat.add_mul, Nat.add_comm]
    rw [e, List.sum_map_add]
    congr 1
    clear e ih h
    interval_cases l <;> decide

theorem length_buildTable (lengths : List Nat) :
    (buildTable lengths).symbol.length = (buildTable lengths).count.sum := by
  simp only [buildTable, List.length_flatMap]
  simp [List.range, List.range.loop, List.range', length_symbolsOfLength]

/-- A full Kraft sum makes a valid table over the alphabet. -/
theorem over_buildTable {lengths : List Nat} (h : ∀ l ∈ lengths, l ≤ 15) (hk : kraftOf lengths = 2 ^ 15) :
    (buildTable lengths).over lengths.length = true := by
  simp only [Table.over, Table.valid, Bool.and_eq_true, Bool.or_eq_true, List.all_eq_true, decide_eq_true_eq]
  refine ⟨.inr ?_, ?_⟩
  · simp only [Table.isComplete, Bool.and_eq_true, decide_eq_true_eq]
    refine ⟨⟨⟨by simp [buildTable], ?_⟩, by rw [kraft_buildTable h, hk]⟩, length_buildTable lengths⟩
    rw [getD_count_buildTable lengths (by omega)]; rfl
  · intro v hv
    obtain ⟨l, hl, _⟩ := (mem_buildTable h).1 hv
    exact (List.getElem?_eq_some_iff.1 hl).1

end Sys2Proof.Machine
end

