-- ==== Sys2Proof/Laws/Descriptor.lean ====
section
/-! SUPPORT. Reading prefix-code descriptors that the stream spells (spec/41_prefix_code.md sections 2 and 3). -/

namespace Sys2Proof.Machine

/-! The simple form. -/

theorem ceilLog2_le (a : Nat) (h : a ≤ 704) : ceilLog2 a ≤ 25 := by
  have : ∀ a : Fin 705, ceilLog2 a.val ≤ 25 := by decide +kernel
  exact this ⟨a, by omega⟩

theorem readSymbols_spelled (a : Nat) (ha : a ≤ 704) : ∀ (l : List Nat) (s : State), s.onStream → (∀ v ∈ l, v < a) →
    s.spells (l.flatMap (bitsLE (ceilLog2 a))) →
    readSymbols a (ceilLog2 a) l.length s = .ok (l, s.seek (s.pos + (l.flatMap (bitsLE (ceilLog2 a))).length)) := by
  intro l
  induction l with
  | nil => intro s h _ _; simp [readSymbols, seek_self h]
  | cons v l ih =>
    intro s h hv hs
    rw [List.flatMap_cons] at hs
    have h1 := bits_spelled (e := v) h (ceilLog2_le a ha) (lt_of_lt_of_le (hv v (by simp)) (le_two_pow_ceilLog2 a))
      (spells_left hs)
    have h2 := spells_right hs
    have h3 := onStream_after (spells_left hs)
    rw [length_bitsLE] at h2 h3
    rw [List.length_cons, readSymbols, run_bind_ok h1, run_bind_ok (run_require_true (hv v (by simp)) _ _),
      run_bind_ok (ih _ h3 (fun x hx => hv x (by simp [hx])) h2)]
    simp [length_bitsLE, Nat.add_assoc]

/-- A symbol out of range is `Invalid` as soon as it is read (R148). -/
theorem readSymbols_out_of_range (a : Nat) (ha : a ≤ 704) {v : Nat} (hv : a ≤ v ∧ v < 2 ^ ceilLog2 a) :
    ∀ (l : List Nat) (k : Nat) (s : State), l.length < k → s.onStream → (∀ w ∈ l, w < a) →
    s.spells ((l ++ [v]).flatMap (bitsLE (ceilLog2 a))) →
    ∃ u : State, readSymbols a (ceilLog2 a) k s = .error (.raised (u.takeFault (.invalid .symbolOutOfRange))) := by
  intro l
  induction l with
  | nil =>
    intro k s hk h _ hs
    obtain ⟨k, rfl⟩ : ∃ j, k = j + 1 := ⟨k - 1, by simp at hk; omega⟩
    rw [List.nil_append, List.flatMap_cons] at hs
    have h1 := bits_spelled (e := v) h (ceilLog2_le a ha) hv.2 (spells_left hs)
    exact ⟨_, (run_bind_ok h1).trans (run_bind_error (run_require_false (by omega) _ _))⟩
  | cons w l ih =>
    intro k s hk h hl hs
    obtain ⟨k, rfl⟩ : ∃ j, k = j + 1 := ⟨k - 1, by simp at hk; omega⟩
    rw [List.cons_append, List.flatMap_cons] at hs
    have h1 := bits_spelled (e := w) h (ceilLog2_le a ha) (lt_of_lt_of_le (hl w (by simp)) (le_two_pow_ceilLog2 a))
      (spells_left hs)
    have h2 := spells_right hs
    have h3 := onStream_after (spells_left hs)
    rw [length_bitsLE] at h2 h3
    obtain ⟨u, hu⟩ := ih k _ (by simpa using hk) h3 (fun x hx => hl x (by simp [hx])) h2
    exact ⟨u, (run_bind_ok h1).trans ((run_bind_ok (run_require_true (hl w (by simp)) _ _)).trans (run_bind_error hu))⟩

/-- `SIMPLE(A)` with a symbol out of range (R148). -/
theorem simple_out_of_range {a n v : Nat} {l : List Nat} {s : State} (h : s.onStream) (ha : a ≤ 704) (hn : n < 4)
    (hl : l.length ≤ n) (hla : ∀ w ∈ l, w < a) (hv : a ≤ v ∧ v < 2 ^ ceilLog2 a)
    (hs : s.spells (bitsLE 2 n ++ (l ++ [v]).flatMap (bitsLE (ceilLog2 a)))) :
    ∃ u : State, simple a s = .error (.raised (u.takeFault (.invalid .symbolOutOfRange))) := by
  have h1 := bits_spelled (e := n) h (by omega) (by omega) (spells_left hs)
  have h2 := spells_right hs
  have h3 := onStream_after (spells_left hs)
  rw [length_bitsLE] at h2 h3
  obtain ⟨u, hu⟩ := readSymbols_out_of_range a ha hv l (n + 1) _ (by omega) h3 hla h2
  exact ⟨u, (run_bind_ok h1).trans (run_bind_error hu)⟩

/-- `SIMPLE(A)` with a repeated symbol (R149). -/
theorem simple_repeated {a : Nat} {l : List Nat} {s : State} (h : s.onStream) (ha : a ≤ 704)
    (hl : 1 ≤ l.length ∧ l.length ≤ 4) (hla : ∀ w ∈ l, w < a) (hd : ¬ l.Nodup)
    (hs : s.spells (bitsLE 2 (l.length - 1) ++ l.flatMap (bitsLE (ceilLog2 a)))) :
    simple a s = .error (.refused .dupSimple) := by
  have h1 := bits_spelled (e := l.length - 1) h (by omega) (by omega) (spells_left hs)
  have h2 := spells_right hs
  have h3 := onStream_after (spells_left hs)
  rw [length_bitsLE] at h2 h3
  rw [simple, run_bind_ok h1, show l.length - 1 + 1 = l.length by omega, run_bind_ok (readSymbols_spelled a ha l _ h3 hla h2),
    if_neg hd, run_refuse]

/-- `SIMPLE(A)` on a descriptor with at most three symbols. -/
theorem simple_spelled {a : Nat} {l : List Nat} {s : State} {t : Table} (h : s.onStream) (hw : simpleOk a l = true)
    (hl : 1 ≤ l.length ∧ l.length ≤ 3)
    (ht : ∀ s', (match l with
      | [s1] => pure (singleTable s1)
      | [s1, s2] => pure (simple2Table s1 s2)
      | [s1, s2, s3] => pure (simple3Table s1 s2 s3)
      | _ => refuse .outsidePrecondition : M Table) s' = .ok (t, s'))
    (hs : s.spells (bitsLE 2 (l.length - 1) ++ l.flatMap (bitsLE (ceilLog2 a)))) :
    simple a s = .ok (t, s.seek (s.pos + (bitsLE 2 (l.length - 1) ++ l.flatMap (bitsLE (ceilLog2 a))).length)) := by
  simp only [simpleOk, alphabetOk, Bool.and_eq_true, decide_eq_true_eq, List.all_eq_true] at hw
  obtain ⟨⟨⟨_, ha⟩, hv⟩, hn⟩ := hw
  have h1 := bits_spelled (e := l.length - 1) h (by omega) (by omega) (spells_left hs)
  have h2 := spells_right hs
  have h3 := onStream_after (spells_left hs)
  rw [length_bitsLE] at h2 h3
  rw [simple, run_bind_ok h1, show l.length - 1 + 1 = l.length by omega, run_bind_ok (readSymbols_spelled a ha l _ h3 hv h2),
    if_pos hn]
  have := ht ((s.seek (s.pos + 2)).seek ((s.seek (s.pos + 2)).pos + (l.flatMap (bitsLE (ceilLog2 a))).length))
  match l, hl, this with
  | [_], _, this => simpa [length_bitsLE, Nat.add_assoc] using this
  | [_, _], _, this => simpa [length_bitsLE, Nat.add_assoc] using this
  | [_, _, _], _, this => simpa [length_bitsLE, Nat.add_assoc] using this

/-- `SIMPLE(A)` on a descriptor with four symbols. -/
theorem simple4_spelled {a s1 s2 s3 s4 sel : Nat} {s : State} (h : s.onStream)
    (hw : simpleOk a [s1, s2, s3, s4] = true) (hsel : sel < 2)
    (hs : s.spells (bitsLE 2 3 ++ [s1, s2, s3, s4].flatMap (bitsLE (ceilLog2 a)) ++ bitsLE 1 sel)) :
    simple a s = .ok (if sel = 0 then simple4aTable s1 s2 s3 s4 else simple4bTable s1 s2 s3 s4,
      s.seek (s.pos + (bitsLE 2 3 ++ [s1, s2, s3, s4].flatMap (bitsLE (ceilLog2 a)) ++ bitsLE 1 sel).length)) := by
  simp only [simpleOk, alphabetOk, Bool.and_eq_true, decide_eq_true_eq, List.all_eq_true] at hw
  obtain ⟨⟨⟨_, ha⟩, hv⟩, hn⟩ := hw
  have h12 := spells_left hs
  have h1 := bits_spelled (e := 3) h (by omega) (by omega) (spells_left h12)
  have h2 := spells_right h12
  have h3 := onStream_after (spells_left h12)
  rw [length_bitsLE] at h2 h3
  have h5 := bits_spelled (n := 1) (e := sel) (onStream_after h12) (by omega) (by omega) (spells_right hs)
  have h4 := readSymbols_spelled a ha [s1, s2, s3, s4] _ h3 hv h2
  rw [simple, run_bind_ok h1, show 3 + 1 = [s1, s2, s3, s4].length from rfl, run_bind_ok h4, if_pos hn]
  have e : (s.seek (s.pos + 2)).seek ((s.seek (s.pos + 2)).pos +
      ([s1, s2, s3, s4].flatMap (bitsLE (ceilLog2 a))).length) =
      s.seek (s.pos + (bitsLE 2 3 ++ [s1, s2, s3, s4].flatMap (bitsLE (ceilLog2 a))).length) := by
    simp [length_bitsLE, Nat.add_assoc]
  rw [e]
  simp only [run_bind_ok h5]
  split_ifs <;> simp [length_bitsLE, Nat.add_assoc]

/-- `SIMPLE(A)` on what follows the two bits of a simple descriptor. -/
theorem simple_of_result {i : Instr} {a : Nat} {t : Table} {s : State} {l : List Bool} (h : s.onStream)
    (hw : i.wf = true) (hr : simpleResult i = some (a, t)) (hb : (encode i).2 = bitsLE 2 1 ++ l) (hs : s.spells l) :
    simple a s = .ok (t, s.seek (s.pos + l.length)) := by
  have key : ∀ l', bitsLE 2 1 ++ l' = bitsLE 2 1 ++ l → l' = l := fun l' h => List.append_cancel_left h
  cases i <;> simp only [simpleResult, reduceCtorEq, Option.some.injEq, Prod.mk.injEq] at hr <;> obtain ⟨rfl, rfl⟩ := hr
  case simple1 a s1 =>
    obtain rfl := key (bitsLE 2 0 ++ [s1].flatMap (bitsLE (ceilLog2 a))) (by rw [← hb]; simp [encode, simpleBits])
    exact simple_spelled (l := [s1]) h hw (by simp) (fun _ => rfl) hs
  case simple2 a s1 s2 =>
    obtain rfl := key (bitsLE 2 1 ++ [s1, s2].flatMap (bitsLE (ceilLog2 a))) (by rw [← hb]; simp [encode, simpleBits])
    exact simple_spelled (l := [s1, s2]) h hw (by simp) (fun _ => rfl) hs
  case simple3 a s1 s2 s3 =>
    obtain rfl := key (bitsLE 2 2 ++ [s1, s2, s3].flatMap (bitsLE (ceilLog2 a))) (by rw [← hb]; simp [encode, simpleBits])
    exact simple_spelled (l := [s1, s2, s3]) h hw (by simp) (fun _ => rfl) hs
  case simple4a a s1 s2 s3 s4 =>
    obtain rfl := key (bitsLE 2 3 ++ [s1, s2, s3, s4].flatMap (bitsLE (ceilLog2 a)) ++ bitsLE 1 0)
      (by rw [← hb]; simp [encode, simpleBits, bitsLE])
    exact simple4_spelled (sel := 0) h hw (by omega) hs
  case simple4b a s1 s2 s3 s4 =>
    obtain rfl := key (bitsLE 2 3 ++ [s1, s2, s3, s4].flatMap (bitsLE (ceilLog2 a)) ++ bitsLE 1 1)
      (by rw [← hb]; simp [encode, simpleBits, bitsLE])
    exact simple4_spelled (sel := 1) h hw (by omega) hs

/-! The code-length code. -/

/-- The values of the fixed code have its codewords (R156). -/
theorem fixedCode_isCodeword {v : Nat} (h : v ≤ 5) : fixedCode.isCodeword v (fixedCodeword v) := by
  interval_cases v
  · exact .inr ⟨by decide, 1, 0, by decide, by decide, by decide, by decide, by decide⟩
  · exact .inr ⟨by decide, 3, 0, by decide, by decide, by decide, by decide, by decide⟩
  · exact .inr ⟨by decide, 2, 0, by decide, by decide, by decide, by decide, by decide⟩
  · exact .inr ⟨by decide, 1, 1, by decide, by decide, by decide, by decide, by decide⟩
  · exact .inr ⟨by decide, 1, 2, by decide, by decide, by decide, by decide, by decide⟩
  · exact .inr ⟨by decide, 3, 1, by decide, by decide, by decide, by decide, by decide⟩

theorem clOf_concat (hskip : Nat) (vs : List Nat) (v : Nat) :
    clOf hskip (vs ++ [v]) = (clOf hskip vs).set (clclOrder.getD (hskip + vs.length) 0) v := by
  simp [clOf, List.zipIdx_append, List.foldl_append]

theorem clclSum_concat (vs : List Nat) (v : Nat) :
    clclSum (vs ++ [v]) = clclSum vs + if v = 0 then 0 else 32 >>> v := by simp [clclSum]

/-- One turn of R157. -/
theorem clclStep_run (s : State) (d : Desc) (hskip : Nat) (vs : List Nat) (v : Nat)
    (hd : s.desc = d.afterClcl hskip vs) (h32 : clclSum vs ≤ 32) :
    clclStep v s = if 32 < clclSum (vs ++ [v])
      then .error (.raised (({ s with desc := d.afterClcl hskip (vs ++ [v]) } : State).takeFault
        (.invalid .clcOverSubscribed)))
      else .ok ((), { s with desc := d.afterClcl hskip (vs ++ [v]) }) := by
  rw [clclSum_concat]
  by_cases hv : v = 0
  · subst hv
    have e : ({ s with desc := { s.desc with cl := s.desc.cl.set (clclOrder.getD s.desc.pos 0) 0, pos := s.desc.pos + 1 } }
        : State) = { s with desc := d.afterClcl hskip (vs ++ [0]) } := by
      simp only [hd, Desc.afterClcl, clOf_concat, clclSum_concat]
      simp [Nat.add_assoc]
    rw [clclStep, run_modify_bind, e, if_neg (by simp), if_neg (by simp; omega)]
    rfl
  · rw [clclStep, run_modify_bind, if_pos hv]
    simp only [run_modify_bind]
    have e : ∀ sp : Int, sp = 32 - ((clclSum vs + 32 >>> v : Nat) : Int) →
        ({ s with desc := { s.desc with cl := s.desc.cl.set (clclOrder.getD s.desc.pos 0) v, pos := s.desc.pos + 1, nz := s.desc.nz + 1, space := sp } } : State) = { s with desc := d.afterClcl hskip (vs ++ [v]) } := by
      rintro sp rfl
      simp only [hd, Desc.afterClcl, clOf_concat, clclSum_concat]
      simp [hv, Nat.add_assoc]
    have hsp : s.desc.space - ((32 >>> v : Nat) : Int) = 32 - ((clclSum vs + 32 >>> v : Nat) : Int) := by
      rw [hd]; simp [Desc.afterClcl]; omega
    rw [e _ hsp, run_get_bind]
    simp only [if_neg hv]
    have hs' : (d.afterClcl hskip (vs ++ [v])).space = 32 - ((clclSum vs + 32 >>> v : Nat) : Int) := by
      simp [Desc.afterClcl, clclSum_concat, hv]
    split_ifs with hlt
    · exact run_require_false (by rw [hs']; omega) _ _
    · exact run_require_true (by rw [hs']; omega) _ _

/-- The loop of R157 from the values `pre` on. -/
theorem clclLoop_run (d : Desc) (hskip : Nat) (_ : hskip ≤ 18) : ∀ (post pre : List Nat) (s : State) (k : Nat),
    s.onStream → s.desc = d.afterClcl hskip pre → clclSum pre ≤ 32 → pre.length + k = 18 - hskip →
    (∀ v ∈ post, v ≤ 5) → (k ≠ 0 → clclSum pre < 32) →
    (∀ j, j < post.length → clclGoesOn hskip (pre ++ post.take j)) → s.spells (post.flatMap fixedCodeword) →
    (32 < clclSum (pre ++ post) → ∃ t : State, clclLoop k s =
      .error (.raised (t.takeFault (.invalid .clcOverSubscribed)))) ∧
    (clclSum (pre ++ post) ≤ 32 → ¬ clclGoesOn hskip (pre ++ post) → clclLoop k s =
      .ok ((), { s.seek (s.pos + (post.flatMap fixedCodeword).length) with desc := d.afterClcl hskip (pre ++ post) })) := by
  intro post
  induction post with
  | nil =>
    intro pre s k h hd h32 hk hv hlt hg hs
    simp only [List.append_nil, List.flatMap_nil, List.length_nil, Nat.add_zero]
    refine ⟨fun h => by omega, fun _ hn => ?_⟩
    have hk0 : k = 0 := by
      by_contra hk0
      exact hn ⟨by omega, hlt hk0⟩
    subst hk0
    rw [clclLoop, run_pure, seek_self h, ← hd]
  | cons v post ih =>
    intro pre s k h hd h32 hk hv hlt hg hs
    have hg0 := hg 0 (by simp)
    simp only [List.take_zero, List.append_nil, clclGoesOn] at hg0
    obtain ⟨k, rfl⟩ : ∃ j, k = j + 1 := ⟨k - 1, by omega⟩
    rw [List.flatMap_cons] at hs
    have h1 := sym_codeword h (fixedCode_isCodeword (hv v (by simp))) (spells_left hs)
    have h2 := spells_right hs
    have h3 := onStream_after (spells_left hs)
    have hst := clclStep_run (s.seek (s.pos + (fixedCodeword v).length)) d hskip pre v hd h32
    rw [clclLoop, run_bind_ok h1]
    by_cases ho : 32 < clclSum (pre ++ [v])
    · rw [if_pos ho] at hst
      rw [run_bind_error hst]
      cases post with
      | nil => exact ⟨fun _ => ⟨_, rfl⟩, fun h => by omega⟩
      | cons w post =>
        have := (hg 1 (by simp)).2
        simp at this
        omega
    · rw [if_neg ho] at hst
      rw [run_bind_ok hst, run_get_bind]
      have hsp : (d.afterClcl hskip (pre ++ [v])).space = 32 - (clclSum (pre ++ [v]) : Int) := rfl
      have happ : pre ++ v :: post = (pre ++ [v]) ++ post := by simp
      by_cases hz : clclSum (pre ++ [v]) = 32
      · rw [if_pos (show (d.afterClcl hskip (pre ++ [v])).space = 0 by rw [hsp]; omega)]
        cases post with
        | nil =>
          refine ⟨fun h => by omega, fun _ _ => ?_⟩
          rw [run_pure]
          simp [State.seek]
        | cons w post =>
          have := (hg 1 (by simp)).2
          simp at this
          omega
      · rw [if_neg (show ¬ (d.afterClcl hskip (pre ++ [v])).space = 0 by rw [hsp]; omega)]
        have := ih (pre ++ [v]) { s.seek (s.pos + (fixedCodeword v).length) with desc := d.afterClcl hskip (pre ++ [v]) } k
          h3 rfl (by omega) (by simp; omega) (fun x hx => hv x (by simp [hx])) (fun _ => by omega)
          (fun j hj => by
            have := hg (j + 1) (by simpa using hj)
            simpa using this) h2
        rw [happ]
        refine ⟨this.1, fun h1 h2 => ?_⟩
        rw [this.2 h1 h2]
        simp only [List.flatMap_cons, List.length_append, State.seek, State.pos]
        simp only [readerAt_pos, Nat.add_assoc]

theorem clcl_run (hskip : Nat) (hh : hskip ≤ 18) (vs : List Nat) (s : State) (h : s.onStream) (hv : ∀ v ∈ vs, v ≤ 5)
    (hg : ∀ j, j < vs.length → clclGoesOn hskip (vs.take j)) (hs : s.spells (vs.flatMap fixedCodeword)) :
    (32 < clclSum vs → ∃ t : State, clcl hskip s = .error (.raised (t.takeFault (.invalid .clcOverSubscribed)))) ∧
    (clclSum vs ≤ 32 → ¬ clclGoesOn hskip vs → clcl hskip s =
      .ok ((), { s.seek (s.pos + (vs.flatMap fixedCodeword).length) with desc := s.desc.afterClcl hskip vs })) := by
  rw [clcl, run_modify_bind]
  have := clclLoop_run s.desc hskip hh vs [] { s with desc := { s.desc with cl := List.replicate 18 0, pos := hskip, space := 32, nz := 0 } }
    (18 - hskip) h (by simp [Desc.afterClcl, clOf, clclSum]) (by simp [clclSum]) (by simp) hv (fun _ => by simp [clclSum])
    (by simpa using hg) hs
  exact this

/-! Stages 2 and 3. -/

theorem clExtra_le (v : Nat) : clExtra v ≤ 25 := by unfold clExtra; split_ifs <;> omega

theorem repTotal_grows (rep e : Nat) : rep < repTotal rep e := by
  unfold repTotal
  rw [Nat.shiftLeft_eq]
  split_ifs <;> omega

theorem zeroTotal_grows (zer e : Nat) : zer < zeroTotal zer e := by
  unfold zeroTotal
  rw [Nat.shiftLeft_eq]
  split_ifs <;> omega

@[simp] theorem Desc.take_alphabet (d : Desc) (v e : Nat) : (d.take v e).alphabet = d.alphabet := by
  unfold Desc.take; split_ifs <;> rfl

@[simp] theorem Desc.take_clc (d : Desc) (v e : Nat) : (d.take v e).clc = d.clc := by
  unfold Desc.take; split_ifs <;> rfl

theorem Desc.take_grows (d : Desc) (v e : Nat) : d.lens.length < (d.take v e).lens.length := by
  have h1 := repTotal_grows d.rep e
  have h2 := zeroTotal_grows d.zer e
  unfold Desc.take
  by_cases hv : v < 16
  · simp [hv]
  · by_cases h16 : v = 16
    · simp [h16]; omega
    · simp [hv, h16]; omega

/-- `CL.LEN`, `CL.REP`, `CL.ZERO` on spelled extra bits (R160 to R162). -/
theorem clSymbol_run {s : State} {v e : Nat} (h : s.onStream) (he : e < 2 ^ clExtra v)
    (hs : s.spells (bitsLE (clExtra v) e)) (hfit : (s.desc.take v e).lens.length ≤ s.desc.alphabet) :
    clSymbol v s = .ok ((), { s.seek (s.pos + clExtra v) with desc := s.desc.take v e }) := by
  unfold clSymbol
  by_cases hv : v < 16
  · have e0 : clExtra v = 0 := by simp [clExtra, hv]
    rw [if_pos hv, clLen, run_modify_bind, e0, Nat.add_zero, seek_self h]
    unfold Desc.take
    rw [if_pos hv]
    by_cases h0 : v = 0
    · simp [h0]
    · simp [h0]
  · rw [if_neg hv]
    by_cases h16 : v = 16
    · subst h16
      have hb := bits_spelled (s := { s with desc := { s.desc with zer := 0 } }) h (by decide) he hs
      rw [if_pos rfl, clRep, run_modify_bind, show (2 : Nat) = clExtra 16 from rfl, run_bind_ok hb]
      simp only [run_get_bind, run_modify_bind]
      have hg := repTotal_grows s.desc.rep e
      rw [run_bind_ok (run_require_true (by simpa [Desc.take] using hfit) _ _)]
      rfl
    · have e3 : clExtra v = 3 := by simp [clExtra, hv, h16]
      rw [e3] at he hs ⊢
      have hb := bits_spelled (s := { s with desc := { s.desc with rep := 0 } }) h (by decide) he hs
      rw [if_neg h16, clZero, run_modify_bind, run_bind_ok hb]
      simp only [run_get_bind, run_modify_bind]
      rw [run_bind_ok (run_require_true (by simpa [Desc.take, hv, h16] using hfit) _ _)]
      simp [Desc.take, hv, h16, State.seek, State.pos]

/-- The loop of R159. -/
theorem stage2_run {clc : Table} {d d' : Desc} {l : List Bool} (hr : lengthsRead clc d l d') :
    ∀ (s : State) fuel, s.onStream → s.desc = d → d.clc = clc → d.alphabet ≤ d.lens.length + fuel → s.spells l →
      stage2 fuel s = .ok ((), { s.seek (s.pos + l.length) with desc := d' }) := by
  induction hr with
  | stop d hn =>
    intro s fuel h hd hc hf hs
    have : (stage2 fuel) s = .ok ((), s) := by
      cases fuel with
      | zero => rfl
      | succ fuel =>
        rw [stage2, run_get_bind, if_neg (by rw [hd]; exact hn)]
        rfl
    rw [this, List.length_nil, Nat.add_zero, seek_self h, ← hd]
  | take d d' v e word rest hgo hw he hfit hr ih =>
    intro s fuel h hd hc hf hs
    have hgo' := hgo.1
    obtain ⟨fuel, rfl⟩ : ∃ j, fuel = j + 1 := ⟨fuel - 1, by omega⟩
    have s1 := spells_left (spells_left hs)
    have h1 := sym_codeword h hw s1
    have s2 := spells_right (spells_left hs)
    have o2 := onStream_after s1
    have h2 := clSymbol_run (s := s.seek (s.pos + word.length)) o2 he s2 (by rw [seek_desc, hd]; exact hfit)
    have s3 := spells_right hs
    have o3 := onStream_after (spells_left hs)
    have hg := d.take_grows v e
    have h3 := ih { s.seek (s.pos + (word ++ bitsLE (clExtra v) e).length) with desc := d.take v e } fuel o3 rfl (by simp [hc])
      (by simp; omega) s3
    rw [stage2, run_get_bind, if_pos (by rw [hd]; exact hgo), hd, hc, run_bind_ok h1, run_bind_ok h2]
    have e1 : ({ (s.seek (s.pos + word.length)).seek ((s.seek (s.pos + word.length)).pos + clExtra v) with
        desc := (s.seek (s.pos + word.length)).desc.take v e } : State) =
        { s.seek (s.pos + (word ++ bitsLE (clExtra v) e).length) with desc := d.take v e } := by
      simp [hd, length_bitsLE, Nat.add_assoc]
    have ep : ({ s.seek (s.pos + (word ++ bitsLE (clExtra v) e).length) with desc := d.take v e } : State).pos +
        rest.length = s.pos + (word ++ bitsLE (clExtra v) e ++ rest).length := by
      show (s.seek _).pos + _ = _
      rw [seek_pos, List.length_append (as := word ++ bitsLE (clExtra v) e), Nat.add_assoc]
    rw [e1, h3, ep]
    rfl

/-- Building the code-length code (R158). -/
theorem buildClc_run {s : State} {d : Desc} {hskip : Nat} {vs : List Nat} {clc : Table}
    (hd : s.desc = d.afterClcl hskip vs) (hc : clcOf hskip vs = some clc) :
    buildClc s = .ok ((), { s with desc := { s.desc with clc } }) := by
  rw [buildClc, run_get_bind]
  unfold clcOf at hc
  have e1 : s.desc.nz = (vs.filter fun v => v ≠ 0).length := by rw [hd]; rfl
  have e2 : s.desc.cl = clOf hskip vs := by rw [hd]; rfl
  have e3 : s.desc.space = 32 - (clclSum vs : Int) := by rw [hd]; rfl
  rw [e1]
  split_ifs at hc ⊢ with h1 h2
  · simp only [Option.some.injEq] at hc
    subst hc
    rw [← e2]; rfl
  · simp only [Option.some.injEq] at hc
    subst hc
    rw [run_bind_ok (run_require_true (by rw [e3]; omega) _ _), run_modify, e2]

/-- A code-length code that is neither complete nor of one symbol is `Invalid` (R158). -/
theorem buildClc_incomplete {s : State} {d : Desc} {hskip : Nat} {vs : List Nat} (hd : s.desc = d.afterClcl hskip vs)
    (hc : clcOf hskip vs = none) : buildClc s = .error (.raised (s.takeFault (.invalid .clcIncomplete))) := by
  rw [buildClc, run_get_bind]
  unfold clcOf at hc
  have e1 : s.desc.nz = (vs.filter fun v => v ≠ 0).length := by rw [hd]; rfl
  have e3 : s.desc.space = 32 - (clclSum vs : Int) := by rw [hd]; rfl
  rw [e1]
  split_ifs at hc ⊢ with h1 h2
  exact run_bind_error (run_require_false (by rw [e3]; omega) _ _)

theorem lengthsRead_alphabet {clc : Table} {d d' : Desc} {l : List Bool} (hr : lengthsRead clc d l d') :
    d'.alphabet = d.alphabet := by
  induction hr with
  | stop => rfl
  | take d d' v e word rest hgo hw he hfit hr ih => rw [ih]; simp

/-- Where `CLCL` read a value, an order position was left (R157). -/
theorem hskip_le {hskip : Nat} {vs : List Nat} (hg : ∀ k, k < vs.length → clclGoesOn hskip (vs.take k)) (hv : vs ≠ []) :
    hskip ≤ 18 := by
  have := (hg 0 (List.length_pos_of_ne_nil hv)).1
  simp at this
  omega

/-- `COMPLEX` once the code-length code's lengths are read (R155). -/
theorem complex_after_clcl {s : State} {a hskip : Nat} {vs : List Nat} (h : s.onStream) (hh : hskip ≤ 18)
    (hr : clclReads hskip vs) (hs : s.spells (vs.flatMap fixedCodeword)) :
    complex a hskip s = (do buildClc; stage2 a; stage3 : M Table)
      { s.seek (s.pos + (vs.flatMap fixedCodeword).length) with desc := (Desc.start a hskip).afterClcl hskip vs } := by
  obtain ⟨hv, hg, hn, h32⟩ := hr
  exact (run_modify_bind ..).trans
    (run_bind_ok ((clcl_run hskip hh vs { s with desc := Desc.start a hskip } h hv hg hs).2 h32 hn))

/-- `COMPLEX` with a code-length code that is neither complete nor of one symbol (R158). -/
theorem complex_clcIncomplete {s : State} {a hskip : Nat} {vs : List Nat} (h : s.onStream) (hh : hskip ≤ 18)
    (hr : clclReads hskip vs) (hc : clcOf hskip vs = none) (hs : s.spells (vs.flatMap fixedCodeword)) :
    ∃ u : State, complex a hskip s = .error (.raised (u.takeFault (.invalid .clcIncomplete))) :=
  ⟨_, (complex_after_clcl h hh hr hs).trans (run_bind_error (buildClc_incomplete rfl hc))⟩

/-- `COMPLEX` once stage 2 has ended with the registers `d` (R159). -/
theorem complex_after_stage2 {s : State} {a hskip : Nat} {vs : List Nat} {clc : Table} {rest : List Bool} {d : Desc}
    (h : s.onStream) (hh : hskip ≤ 18) (hc : clclReads hskip vs) (hclc : clcOf hskip vs = some clc)
    (hr : lengthsRead clc (.atStage2 a hskip vs clc) rest d) (hs : s.spells (vs.flatMap fixedCodeword ++ rest)) :
    complex a hskip s = stage3 { s.seek (s.pos + (vs.flatMap fixedCodeword ++ rest).length) with desc := d } := by
  have o2 := onStream_after (spells_left hs)
  have h2 := buildClc_run (s := { s.seek (s.pos + (vs.flatMap fixedCodeword).length) with
    desc := (Desc.start a hskip).afterClcl hskip vs }) rfl hclc
  have h3 := stage2_run hr { s.seek (s.pos + (vs.flatMap fixedCodeword).length) with
    desc := .atStage2 a hskip vs clc } a o2 rfl rfl (by simp [Desc.atStage2, Desc.afterClcl, Desc.start]) (spells_right hs)
  have ep : ({ s.seek (s.pos + (vs.flatMap fixedCodeword).length) with
      desc := .atStage2 a hskip vs clc } : State).pos + rest.length =
      s.pos + (vs.flatMap fixedCodeword ++ rest).length := by
    show (s.seek _).pos + _ = _
    rw [seek_pos, List.length_append, Nat.add_assoc]
  rw [ep] at h3
  exact (complex_after_clcl h hh hc (spells_left hs)).trans ((run_bind_ok h2).trans (run_bind_ok h3))

/-- `COMPLEX` with lengths whose sum is not `2^15` (R164). -/
theorem complex_notComplete {s : State} {a hskip : Nat} {vs : List Nat} {clc : Table} {rest : List Bool} {d : Desc}
    (h : s.onStream) (hh : hskip ≤ 18) (hc : clclReads hskip vs) (hclc : clcOf hskip vs = some clc)
    (hr : lengthsRead clc (.atStage2 a hskip vs clc) rest d) (hroom : d.room ≠ 0)
    (hs : s.spells (vs.flatMap fixedCodeword ++ rest)) :
    ∃ u : State, complex a hskip s = .error (.raised (u.takeFault (.invalid .codeNotComplete))) :=
  ⟨_, (complex_after_stage2 h hh hc hclc hr hs).trans ((run_get_bind ..).trans
    (run_bind_error (run_require_false hroom _ _)))⟩

/-- `COMPLEX(A, hskip)` on a spelled descriptor (R155). -/
theorem complex_run {s : State} {a hskip : Nat} {t : Table} {l : List Bool} (h : s.onStream) (hc : isComplex a hskip t l)
    (hs : s.spells l) : ∃ d, complex a hskip s = .ok (t, { s.seek (s.pos + l.length) with desc := d }) := by
  obtain ⟨vs, clc, rest, d, hc, hclc, hr, hroom, rfl, rfl⟩ := hc
  have hv : vs ≠ [] := by
    rintro rfl
    simp [clcOf, clclSum] at hclc
  have ha : d.alphabet = a := lengthsRead_alphabet hr
  refine ⟨d, (complex_after_stage2 h (hskip_le hc.2.1 hv) hc hclc hr hs).trans ((run_get_bind ..).trans
    ((run_bind_ok (run_require_true hroom _ _)).trans ?_))⟩
  show Except.ok (buildTable (d.lens ++ List.replicate (d.alphabet - d.lens.length) 0), _) = _
  rw [ha]

/-- `READ_CODE(A)` on a complex descriptor is `COMPLEX` after its two bits (R146). -/
theorem readCode_complex {s : State} {a hskip : Nat} (h : s.onStream) (hh : hskip = 0 ∨ hskip = 2 ∨ hskip = 3)
    (hs : s.spells (bitsLE 2 hskip)) : readCode a s = complex a hskip (s.seek (s.pos + 2)) := by
  have h1 := bits_spelled (e := hskip) h (by omega) (by omega) hs
  rw [readCode, run_bind_ok h1, if_neg (by omega)]

/-- `READ_CODE(A)` on a simple descriptor is `SIMPLE` after its two bits (R146). -/
theorem readCode_simple {s : State} {a : Nat} (h : s.onStream) (hs : s.spells (bitsLE 2 1)) :
    readCode a s = simple a (s.seek (s.pos + 2)) := by
  have h1 := bits_spelled (e := 1) h (by omega) (by omega) hs
  rw [readCode, run_bind_ok h1, if_pos rfl]

/-- `READ_CODE(A)` on a spelled descriptor (R146). -/
theorem readCode_run {s : State} {a : Nat} {t : Table} {l : List Bool} (h : s.onStream) (hc : isDescriptor a t l)
    (hs : s.spells l) : ∃ d, readCode a s = .ok (t, { s.seek (s.pos + l.length) with desc := d }) := by
  obtain ⟨i, hw, hr, rfl⟩ | ⟨hskip, rest, hh, hc, rfl⟩ := hc
  · obtain ⟨bits, hb⟩ : ∃ bits, (encode i).2 = bitsLE 2 1 ++ bits := by
      cases i <;> simp only [simpleResult, reduceCtorEq] at hr <;> exact ⟨_, by simp [encode, simpleBits, bitsLE]; rfl⟩
    rw [hb] at hs ⊢
    have h2 := simple_of_result (onStream_after (spells_left hs)) hw hr hb (spells_right hs)
    rw [length_bitsLE, seek_then] at h2
    rw [readCode_simple h (spells_left hs), h2, List.length_append, length_bitsLE, Nat.add_assoc]
    exact ⟨s.desc, rfl⟩
  · obtain ⟨d, hd⟩ := complex_run (onStream_after (spells_left hs)) hc (spells_right hs)
    rw [length_bitsLE, seek_then] at hd
    rw [readCode_complex h hh (spells_left hs), hd, List.length_append, length_bitsLE, Nat.add_assoc]
    exact ⟨d, rfl⟩

end Sys2Proof.Machine
end

