-- ==== Sys2Proof/Laws/Blocks.lean ====
section
/-! SUPPORT. Block descriptors, block lengths, block switches and counting down, where the stream spells them
(spec/43_block_switch.md). -/

namespace Sys2Proof.Machine

theorem blenExtra_le (i : Nat) : blenExtra.getD i 0 ≤ 25 := by
  by_cases h : i < 26
  · revert i; decide
  · rw [List.getD_eq_default]; omega; exact Nat.not_lt.1 h

theorem blenBase_ge {i : Nat} (h : i < 26) : 1 ≤ blenBase.getD i 0 := by revert i; decide

theorem count_pos {n : Nat} {l : List Bool} (h : isCount n l) : 1 ≤ n := by
  rcases h with ⟨rfl, _⟩ | ⟨k, e, _, _, rfl, _⟩ <;> omega

theorem nbltypesN_run {s : State} {k e : Nat} (h : s.onStream) (hk : k < 8) (he : e < 2 ^ k)
    (hs : s.spells (bitsLE 3 k ++ bitsLE k e)) :
    nbltypesN s = .ok (1 + 2 ^ k + e, s.seek (s.pos + (bitsLE 3 k ++ bitsLE k e).length)) := by
  have a1 := spells_left hs
  have a2 := spells_right hs
  have h2 := onStream_after a1
  rw [length_bitsLE] at a2 h2
  rw [nbltypesN, run_bind_ok (bits_spelled h (by omega) (by omega) a1),
    run_bind_ok (bits_spelled h2 (by omega) he a2), run_pure, Nat.one_shiftLeft]
  simp [Nat.add_assoc, length_bitsLE]

theorem nbltypes_run {s : State} {n : Nat} {l : List Bool} (h : s.onStream) (hc : isCount n l) (hs : s.spells l) :
    nbltypes s = .ok (n, s.seek (s.pos + l.length)) := by
  rcases hc with ⟨rfl, rfl⟩ | ⟨k, e, hk, he, rfl, rfl⟩
  · have := bits_spelled (n := 1) (e := 0) h (by omega) (by omega) hs
    rw [nbltypes, run_bind_ok this, if_pos rfl]; rfl
  · have hs' : s.spells (bitsLE 1 1 ++ (bitsLE 3 k ++ bitsLE k e)) := hs
    have a1 := spells_left hs'
    have a2 := spells_right hs'
    have h2 := onStream_after a1
    rw [length_bitsLE] at a2 h2
    rw [nbltypes, run_bind_ok (bits_spelled h (by omega) (by omega) a1), if_neg (by decide), nbltypesN_run h2 hk he a2,
      seek_then]
    rw [show s.pos + 1 + (bitsLE 3 k ++ bitsLE k e).length = s.pos + (true :: (bitsLE 3 k ++ bitsLE k e)).length by
      simp only [List.length_cons]; omega]

theorem blen_run {s : State} {code : Table} {n : Nat} {l : List Bool} (h : s.onStream) (hc : isBlen code n l)
    (hs : s.spells l) : blen code s = .ok (n, s.seek (s.pos + l.length)) := by
  obtain ⟨v, e, word, _, hw, he, rfl, rfl⟩ := hc
  have a1 := spells_left hs
  have a2 := spells_right hs
  rw [blen, run_bind_ok (sym_codeword h hw a1), baseExtra_spelled (onStream_after a1) (blenExtra_le v) he a2, seek_then]
  simp [Nat.add_assoc, length_bitsLE]

theorem blen_pos {code : Table} {n : Nat} {l : List Bool} (hc : isBlen code n l) : 1 ≤ n := by
  obtain ⟨v, e, word, hv, _, _, rfl, _⟩ := hc
  have := blenBase_ge hv
  omega

/-! A state whose cursor, descriptor registers and one category have been set. -/

/-- The state at stream position `q` with the descriptor registers and one category set. -/
def State.placed (s : State) (q : Nat) (d : Desc) (c : Cat) (b : Block) : State :=
  ({ s.seek q with desc := d } : State).setBlk c b

section placed

variable {s : State} {q : Nat} {d : Desc} {c : Cat} {b : Block} {l : List Bool}

theorem placed_pos : (s.placed q d c b).pos = q := by cases c <;> exact readerAt_pos s.ports q

theorem placed_onStream : (s.placed q d c b).onStream ↔ (s.seek q).onStream := by cases c <;> exact Iff.rfl

theorem placed_spells : (s.placed q d c b).spells l ↔ (s.seek q).spells l := by cases c <;> exact Iff.rfl

theorem placed_blk : (s.placed q d c b).blk c = b := by cases c <;> rfl

theorem placed_setBlk (b' : Block) : (s.placed q d c b).setBlk c b' = s.placed q d c b' := by cases c <;> rfl

theorem placed_seek (q' : Nat) : (s.placed q d c b).seek q' = s.placed q' d c b := by cases c <;> rfl

theorem placed_desc (q' : Nat) (d' : Desc) :
    ({ (s.placed q d c b).seek q' with desc := d' } : State) = s.placed q' d' c b := by cases c <;> rfl

theorem readCode_placed {a : Nat} {t : Table} (h : (s.seek q).onStream) (hc : isDescriptor a t l)
    (hs : (s.seek q).spells l) : ∃ d', readCode a (s.placed q d c b) = .ok (t, s.placed (q + l.length) d' c b) := by
  obtain ⟨d', hd⟩ := readCode_run (placed_onStream.2 h) hc (placed_spells.2 hs)
  exact ⟨d', by rw [hd, placed_pos, placed_desc]⟩

theorem blen_placed {code : Table} {n : Nat} (h : (s.seek q).onStream) (hc : isBlen code n l)
    (hs : (s.seek q).spells l) : blen code (s.placed q d c b) = .ok (n, s.placed (q + l.length) d c b) := by
  rw [blen_run (placed_onStream.2 h) hc (placed_spells.2 hs), placed_pos, placed_seek]

theorem sym_placed {t : Table} {v : Nat} (h : (s.seek q).onStream) (hc : t.isCodeword v l)
    (hs : (s.seek q).spells l) : sym t (s.placed q d c b) = .ok (v, s.placed (q + l.length) d c b) := by
  rw [sym_codeword (placed_onStream.2 h) hc (placed_spells.2 hs), placed_pos, placed_seek]

end placed

theorem placed_self {s : State} (h : s.onStream) (c : Cat) : s = s.placed s.pos s.desc c (s.blk c) := by
  have := seek_self h
  cases c <;> exact this.symm

theorem seek_placed {s : State} (q : Nat) (c : Cat) : s.seek q = s.placed q s.desc c (s.blk c) := by
  cases c <;> rfl

theorem blkdesc_run {s : State} {c : Cat} {b : Block} {l : List Bool} (h : s.onStream) (hb : isBlkdesc b l)
    (hs : s.spells l) : ∃ d, blkdesc c s = .ok ((), s.placed (s.pos + l.length) d c b) := by
  rcases hb with ⟨rfl, hc⟩ | ⟨n, tcode, lcode, cnt, b1, b2, b3, b4, hn, hc, ht, hl, hb, rfl, rfl⟩
  · refine ⟨s.desc, ?_⟩
    rw [blkdesc, run_bind_ok (nbltypes_run h hc hs), run_modify_bind, if_neg (by omega), run_modify,
      seek_placed (s := s) (s.pos + l.length) c, placed_blk, placed_setBlk, placed_blk, placed_setBlk]
  · have a4 := spells_right hs
    have a123 := spells_left hs
    have a3 := spells_right a123
    have a12 := spells_left a123
    have a2 := spells_right a12
    have a1 := spells_left a12
    have o1 := onStream_after a1
    have o2 := onStream_after a12
    have o3 := onStream_after a123
    obtain ⟨d1, e1⟩ := readCode_placed (d := s.desc) (c := c)
      (b := { s.blk c with num := n, cur := 0, prev := 1 }) o1 ht a2
    rw [Nat.add_assoc, ← List.length_append] at e1
    obtain ⟨d2, e2⟩ := readCode_placed (d := d1) (c := c)
      (b := { s.blk c with num := n, cur := 0, prev := 1, tcode := some tcode }) o2 hl a3
    rw [Nat.add_assoc, ← List.length_append] at e2
    have e3 := blen_placed (d := d2) (c := c)
      (b := { s.blk c with num := n, cur := 0, prev := 1, tcode := some tcode, lcode := some lcode }) o3 hb a4
    rw [Nat.add_assoc, ← List.length_append] at e3
    refine ⟨d2, ?_⟩
    rw [blkdesc, run_bind_ok (nbltypes_run h hc a1), run_modify_bind, if_pos hn, seek_placed (s := s) _ c, placed_blk,
      placed_setBlk, run_bind_ok e1, run_modify_bind, placed_blk, placed_setBlk, run_bind_ok e2, run_modify_bind,
      placed_blk, placed_setBlk, run_bind_ok e3, run_modify, placed_blk, placed_setBlk]

theorem typeChange_placed {s : State} {q : Nat} {d : Desc} {c : Cat} {b : Block} (n : Nat) :
    typeChange c n (s.placed q d c b) =
      .ok ((), s.placed q d c { b with prev := b.cur, cur := b.newType n }) := by
  unfold typeChange Block.newType
  split_ifs
  · rw [bswitchAbs, installType, run_modify, placed_blk, placed_setBlk]
  · rw [bswitchNext, run_get_bind, installType, run_modify, placed_blk, placed_setBlk]
  · rw [bswitchPrev, run_get_bind, installType, run_modify, placed_blk, placed_setBlk]

theorem bswitch_run {s t : State} {c : Cat} (h : s.onStream) (hs : s.switches c t) : bswitch c s = .ok ((), t) := by
  obtain ⟨h1, h0, tcode, lcode, n, word, cnt, rest, ht, hl, hw, hb, hsp, rfl⟩ := hs
  have a1 := spells_left hsp
  have a2 := spells_right hsp
  have o1 := onStream_after a1
  have e1 := sym_codeword h hw a1
  have e2 := blen_placed (d := s.desc) (c := c)
    (b := { s.blk c with prev := (s.blk c).cur, cur := (s.blk c).newType n }) o1 hb a2
  rw [Nat.add_assoc, ← List.length_append] at e2
  have ex : ∀ u : State, existing (s.blk c).lcode u = .ok (lcode, u) := by intro u; rw [hl]; rfl
  rw [bswitch, run_get_bind, run_bind_ok (run_precondition_true ⟨h1, h0⟩ _)]
  rw [run_bind_ok (show existing (s.blk c).tcode s = .ok (tcode, s) by rw [ht]; rfl), run_bind_ok e1,
    seek_placed (s := s) _ c, run_bind_ok (typeChange_placed n),
    run_bind_ok (ex _),
    run_bind_ok e2, run_modify,
    placed_blk, placed_setBlk, seek_placed (s := s) _ c, placed_setBlk]

theorem tick_run {s t : State} {c : Cat} (h : s.onStream) (hs : s.ticks c t) : tick c s = .ok ((), t) := by
  rw [tick, run_get_bind]
  rcases hs with ⟨h1, rfl⟩ | ⟨n, h1, hc, rfl⟩ | ⟨u, n, hu, hc, rfl⟩
  · rw [if_neg (by omega), run_pure]
  · rw [if_pos h1, if_neg (by simp [hc]), countDown, run_modify, hc]; rfl
  · rw [if_pos hu.1, if_pos hu.2.1, run_bind_ok (bswitch_run h hu), countDown, run_modify, hc]; rfl

/-- Counting down leaves the cursor on the stream. -/
theorem ticks_onStream {s t : State} {c : Cat} (h : s.onStream) (hs : s.ticks c t) : t.onStream := by
  have key : ∀ (u : State) b, (u.setBlk c b).onStream ↔ u.onStream := by intro u b; cases c <;> exact Iff.rfl
  rcases hs with ⟨_, rfl⟩ | ⟨n, _, _, rfl⟩ | ⟨u, n, ⟨_, _, tcode, lcode, m, word, cnt, rest, _, _, _, _, hsp, rfl⟩, _, rfl⟩
  · exact h
  · exact (key _ _).2 h
  · exact (key _ _).2 ((key _ _).2 (onStream_after hsp))

end Sys2Proof.Machine
end

