-- ==== Sys2Proof/Laws/Maps.lean ====
section
/-! SUPPORT. Context maps: the inverse move-to-front transform, and what reading a map gives (spec/45_context.md
section 1). -/

namespace Sys2Proof.Machine

/-! The move-to-front list. -/

theorem length_moveToFront {mtf : List Nat} {i v : Nat} (h : i < mtf.length) :
    (moveToFront mtf i v).length = mtf.length := by
  simp [moveToFront, List.length_eraseIdx, h]; omega

theorem length_inverseMtf : ∀ (l mtf : List Nat), (inverseMtf mtf l).length = l.length
  | [], _ => rfl
  | i :: l, mtf => by simp [inverseMtf, length_inverseMtf l]

/-- The first `n` entries of the list are below `n`. -/
def Below (n : Nat) (mtf : List Nat) : Prop := n ≤ mtf.length ∧ ∀ j, j < n → mtf.getD j 0 < n

theorem below_range {n : Nat} (h : n ≤ 256) : Below n (List.range 256) := by
  refine ⟨by simpa using h, fun j hj => ?_⟩
  rw [List.getD_eq_getElem _ _ (by simp; omega)]; simpa using hj

theorem below_moveToFront {n i : Nat} {mtf : List Nat} (h : Below n mtf) (hi : i < n) :
    Below n (moveToFront mtf i (mtf.getD i 0)) := by
  refine ⟨by rw [length_moveToFront (by have := h.1; omega)]; exact h.1, fun j hj => ?_⟩
  cases j with
  | zero => exact h.2 i hi
  | succ j =>
    show (mtf.eraseIdx i).getD j 0 < n
    rw [List.getD_eq_getElem?_getD, List.getElem?_eraseIdx]
    split_ifs
    · rw [← List.getD_eq_getElem?_getD]; exact h.2 j (by omega)
    · rw [← List.getD_eq_getElem?_getD]; exact h.2 (j + 1) hj

theorem inverseMtf_lt {n : Nat} : ∀ {l mtf : List Nat}, Below n mtf → (∀ i ∈ l, i < n) → ∀ k ∈ inverseMtf mtf l, k < n
  | [], _, _, _ => by simp [inverseMtf]
  | i :: l, mtf, h, hl => by
    intro k hk
    have hi := hl i (by simp)
    rcases List.mem_cons.1 hk with rfl | hk
    · exact h.2 i hi
    · exact inverseMtf_lt (below_moveToFront h hi) (fun j hj => hl j (by simp [hj])) k hk

theorem imtfLoop_run : ∀ (l done : List Nat) (s : State), (∀ i ∈ l, i < s.cmr.mtf.length) → ∃ m,
    imtfLoop done l s = .ok ((), { s with cmr := { s.cmr with map := done ++ inverseMtf s.cmr.mtf l, mtf := m } })
  | [], done, s, _ => ⟨s.cmr.mtf, by rw [imtfLoop, run_modify]; simp [inverseMtf]⟩
  | i :: l, done, s, h => by
    have hi := h i (by simp)
    have hg : s.cmr.mtf[i]? = some (s.cmr.mtf.getD i 0) := by
      rw [List.getD_eq_getElem _ _ hi, List.getElem?_eq_getElem hi]
    obtain ⟨m, hm⟩ := imtfLoop_run l (done ++ [s.cmr.mtf.getD i 0])
      { s with cmr := { s.cmr with mtf := moveToFront s.cmr.mtf i (s.cmr.mtf.getD i 0) } }
      (fun j hj => by
        show j < (moveToFront s.cmr.mtf i (s.cmr.mtf.getD i 0)).length
        rw [length_moveToFront hi]; exact h j (by simp [hj]))
    refine ⟨m, ?_⟩
    rw [imtfLoop, run_get_bind, run_bind_ok (run_entry hg s), run_modify_bind]
    refine hm.trans ?_
    simp [inverseMtf]

theorem imtfLoop_from (mtf : List Nat) (s : State) (h : ∀ i ∈ s.cmr.map, i < mtf.length) : ∃ m,
    imtfLoop [] s.cmr.map { s with cmr := { s.cmr with mtf } } =
      .ok ((), { s with cmr := { s.cmr with map := inverseMtf mtf s.cmr.map, mtf := m } }) :=
  imtfLoop_run s.cmr.map [] { s with cmr := { s.cmr with mtf } } h

theorem imtf_run (s : State) (h : ∀ i ∈ s.cmr.map, i < 256) : ∃ m, imtf s =
    .ok ((), { s with cmr := { s.cmr with map := inverseMtf (List.range 256) s.cmr.map, mtf := m } }) := by
  obtain ⟨m, hm⟩ := imtfLoop_from (List.range 256) s (by simpa using h)
  refine ⟨m, ?_⟩
  rw [imtf, run_modify_bind, run_get_bind]
  exact hm

theorem imtfIf_run (flag : Bool) (s : State) (h : flag = true → ∀ i ∈ s.cmr.map, i < 256) : ∃ m, imtfIf flag.toNat s =
    .ok ((), { s with cmr := { s.cmr with
      map := if flag = true then inverseMtf (List.range 256) s.cmr.map else s.cmr.map, mtf := m } }) := by
  cases flag with
  | false => exact ⟨s.cmr.mtf, rfl⟩
  | true => exact imtf_run s (h rfl)

/-! A map that the stream spells. -/

/-- The flag and what it selects (R275), on the map read so far. -/
theorem imtfFlag_run {s : State} {flag : Bool} (h : s.onStream) (hs : s.spells [flag])
    (hm : flag = true → ∀ i ∈ s.cmr.map, i < 256) : ∃ m, imtfFlag s = .ok (flag.toNat, { s.seek (s.pos + 1) with
      cmr := { s.cmr with map := if flag = true then inverseMtf (List.range 256) s.cmr.map else s.cmr.map, mtf := m } }) := by
  have e := bits_spelled (n := 1) (e := flag.toNat) h (by omega) (by cases flag <;> decide) (by cases flag <;> exact hs)
  obtain ⟨m, hm⟩ := imtfIf_run flag (s.seek (s.pos + 1)) hm
  refine ⟨m, ?_⟩
  rw [imtfFlag, run_bind_ok e, run_bind_ok hm]
  rfl

theorem rlemax_run {s : State} {len r : Nat} {l : List Bool} (h : s.onStream) (hr : isRlemax len r l)
    (hs : s.spells l) : rlemax len s = .ok (r, s.seek (s.pos + l.length)) := by
  obtain ⟨hw, ⟨rfl, rfl⟩ | ⟨e, he, rfl, rfl⟩⟩ := hr
  · have := bits_spelled (n := 1) (e := 0) h (by omega) (by omega) hs
    rw [rlemax, run_bind_ok this, if_pos rfl, rlemax0, run_bind_ok (run_require_true (by simp; omega) _ _)]; rfl
  · have hs' : s.spells (bitsLE 1 1 ++ bitsLE 4 e) := hs
    have a1 := spells_left hs'
    have a2 := spells_right hs'
    have h2 := onStream_after a1
    rw [length_bitsLE] at a2 h2
    rw [rlemax, run_bind_ok (bits_spelled h (by omega) (by omega) a1), if_neg (by decide), rlemaxN,
      run_bind_ok (bits_spelled h2 (by omega) he a2),
      run_bind_ok (run_require_true (by rw [Nat.one_shiftLeft]; omega) _ _), run_pure, seek_then]
    simp [length_bitsLE]

theorem mapExtra_le {r v : Nat} (hr : r ≤ 16) : mapExtra r v ≤ 25 := by
  unfold mapExtra; split_ifs <;> omega

theorem cmSymbol_run {s : State} {r v e : Nat} {m : List Nat} (h : s.onStream) (hr : r ≤ 16)
    (hr' : s.cmr.rlemax = r) (hm : s.cmr.map = m) (he : e < 2 ^ mapExtra r v)
    (hs : s.spells (bitsLE (mapExtra r v) e)) (hfit : (m ++ mapEntries r v e).length ≤ s.cmr.len) :
    cmSymbol v s = .ok ((), { s.seek (s.pos + mapExtra r v) with
      cmr := { s.cmr with map := m ++ mapEntries r v e } }) := by
  subst hr' hm
  rw [cmSymbol, run_get_bind]
  unfold mapExtra at hs he ⊢
  unfold mapEntries at hfit ⊢
  by_cases h0 : v = 0
  · simp only [if_pos h0] at *
    rw [cmZero, run_modify, Nat.add_zero, seek_self h]
  by_cases h1 : v ≤ s.cmr.rlemax
  · simp only [if_neg h0, if_pos h1] at *
    simp only [List.length_append, List.length_replicate] at hfit
    rw [cmRun, run_bind_ok (bits_spelled h (by omega) he hs), run_get_bind, Nat.one_shiftLeft,
      run_bind_ok (run_require_true (by exact hfit) _ _), run_modify]
    rfl
  · simp only [if_neg h0, if_neg h1] at *
    rw [cmVal, run_get_bind, run_bind_ok (run_precondition_true (by omega) _), run_modify, Nat.add_zero, seek_self h]

theorem cmapLoop_run {code : Table} {r len : Nat} (hr : r ≤ 16) {m m' : List Nat} {l : List Bool}
    (he : entriesRead code r len m l m') :
    ∀ (s : State) fuel, s.onStream → s.cmr.code = code → s.cmr.rlemax = r → s.cmr.len = len → s.cmr.map = m →
      len ≤ m.length + fuel → s.spells l →
      cmapLoop fuel s = .ok ((), { s.seek (s.pos + l.length) with cmr := { s.cmr with map := m' } }) := by
  induction he with
  | stop m hn =>
    intro s fuel h hc hr' hl hm hf hs
    have e : (Except.ok ((), s) : Except Stop (Unit × State)) =
        .ok ((), { s.seek (s.pos + ([] : List Bool).length) with cmr := { s.cmr with map := m } }) := by
      rw [List.length_nil, Nat.add_zero, seek_self h, ← hm]
    cases fuel with
    | zero => rw [cmapLoop, run_pure]; exact e
    | succ fuel => rw [cmapLoop, run_get_bind, if_neg (by rw [hm, hl]; exact hn), run_pure]; exact e
  | take m m' v e word rest hlt hw hev hfit hr' ih =>
    intro s fuel h hc hr1 hl hm hf hs
    cases fuel with
    | zero => omega
    | succ fuel =>
      have a12 := spells_left hs
      have a3 := spells_right hs
      have a1 := spells_left a12
      have a2 := spells_right a12
      have o1 := onStream_after a1
      have o2 := onStream_after a12
      rw [cmapLoop, run_get_bind, if_pos (by rw [hm, hl]; exact hlt), hc, run_bind_ok (sym_codeword h hw a1)]
      have e1 := cmSymbol_run (s := s.seek (s.pos + word.length)) (v := v) (e := e) o1 hr hr1 hm hev a2
        (by rw [seek_cmr, hl]; exact hfit)
      have hp : s.pos + word.length + mapExtra r v = s.pos + (word ++ bitsLE (mapExtra r v) e).length := by
        rw [List.length_append, length_bitsLE]; omega
      rw [run_bind_ok e1, seek_then, hp]
      have hpos : 1 ≤ (mapEntries r v e).length := by
        unfold mapEntries
        split_ifs <;> simp
        have := Nat.one_le_two_pow (n := v); omega
      have := ih { s.seek (s.pos + (word ++ bitsLE (mapExtra r v) e).length) with
        cmr := { s.cmr with map := m ++ mapEntries r v e } } fuel o2 hc hr1 hl rfl (by simp; omega) a3
      have hq : ({ s.seek (s.pos + (word ++ bitsLE (mapExtra r v) e).length) with
        cmr := { s.cmr with map := m ++ mapEntries r v e } } : State).pos =
          s.pos + (word ++ bitsLE (mapExtra r v) e).length := readerAt_pos _ _
      rw [hq, Nat.add_assoc, ← List.length_append] at this
      exact this

theorem cmap_run {s : State} {len trees : Nat} {m : List Nat} {l : List Bool} (h : s.onStream)
    (hm : isMap len trees m l) (hs : s.spells l) :
    ∃ d c, cmap len trees s = .ok (m, { s.seek (s.pos + l.length) with desc := d, cmr := c }) := by
  rcases hm with ⟨rfl, rfl, rfl⟩ | ⟨hn, r, code, m', b1, b2, b3, flag, hr, hd, he, rfl, hm⟩
  · exact ⟨s.desc, s.cmr, by rw [cmap, if_pos rfl, run_pure, List.length_nil, Nat.add_zero, seek_self h]⟩
  · have a4 := spells_right hs
    have a123 := spells_left hs
    have a3 := spells_right a123
    have a12 := spells_left a123
    have a2 := spells_right a12
    have a1 := spells_left a12
    have o1 := onStream_after a1
    have o2 := onStream_after a12
    have o3 := onStream_after a123
    have hr16 : r ≤ 16 := by
      obtain ⟨_, ⟨rfl, _⟩ | ⟨e, he, rfl, _⟩⟩ := hr <;> omega
    obtain ⟨d, e2⟩ := readCode_run o1 hd a2
    rw [seek_then, Nat.add_assoc, ← List.length_append] at e2
    have e3 := cmapLoop_run hr16 he ({ s.seek (s.pos + (b1 ++ b2).length) with desc := d, cmr := .start len r code })
      len o2 rfl rfl rfl rfl (by simp) a3
    have hp : ({ s.seek (s.pos + (b1 ++ b2).length) with desc := d, cmr := .start len r code } : State).pos =
      s.pos + (b1 ++ b2).length := readerAt_pos _ _
    rw [hp, Nat.add_assoc, ← List.length_append] at e3
    have hp : ({ s.seek (s.pos + (b1 ++ b2 ++ b3).length) with
        desc := d, cmr := { MapRegs.start len r code with map := m' } } : State).pos =
          s.pos + (b1 ++ b2 ++ b3).length := readerAt_pos _ _
    obtain ⟨c, e4⟩ := imtfFlag_run (s := { s.seek (s.pos + (b1 ++ b2 ++ b3).length) with
      desc := d, cmr := { MapRegs.start len r code with map := m' } }) o3 a4 (by
        rcases hm with ⟨rfl, rfl⟩ | ⟨rfl, hlt, rfl⟩
        · exact fun h => absurd h (by decide)
        · exact fun _ => hlt)
    rw [hp] at e4
    refine ⟨d, { MapRegs.start len r code with map := m, mtf := c }, ?_⟩
    rw [cmap, if_neg hn, run_bind_ok (rlemax_run h hr a1), run_bind_ok e2, run_modify_bind, run_bind_ok e3]
    refine (run_bind_ok e4).trans ?_
    simp only [List.length_append (bs := [flag]), List.length_singleton, ← Nat.add_assoc]
    rcases hm with ⟨rfl, rfl⟩ | ⟨rfl, hlt, rfl⟩ <;> rfl

end Sys2Proof.Machine
end

