-- ==== Sys2Proof/Laws/Memory.lean ====
section
/-! SUPPORT. Byte memory: read after write, the canonical form, and the output primitive. -/

namespace Sys2Proof.Machine

/-! Read after write. -/

theorem get_of_lt {m : Mem} {lo a : Nat} (h : Mem.wfFrom lo m = true) (ha : a < lo) : m.get a = 0 := by
  induction m generalizing lo with
  | nil => rfl
  | cons c m ih =>
    obtain ⟨b, v⟩ := c
    simp only [Mem.wfFrom, Bool.and_eq_true, decide_eq_true_eq] at h
    rw [Mem.get, if_neg (by omega)]
    exact ih h.2 (by omega)

theorem get_put_same {m : Mem} {lo : Nat} (h : Mem.wfFrom lo m = true) (a : Nat) (v : Byte) :
    (m.put a v).get a = v := by
  induction m generalizing lo with
  | nil => simp only [Mem.put]; split_ifs with hv <;> simp [Mem.get, hv]
  | cons c m ih =>
    obtain ⟨b, w⟩ := c
    simp only [Mem.wfFrom, Bool.and_eq_true, decide_eq_true_eq] at h
    rw [Mem.put]
    split_ifs with h1 h2 h3 h4
    · rw [Mem.get, if_neg (by omega), get_of_lt h.2 (by omega), h2]
    · simp [Mem.get]
    · rw [get_of_lt h.2 (by omega), h4]
    · simp [Mem.get]
    · rw [Mem.get, if_neg h3]; exact ih h.2

theorem get_put_other {m : Mem} {a b : Nat} (v : Byte) (hab : b ≠ a) : (m.put a v).get b = m.get b := by
  induction m with
  | nil => simp only [Mem.put]; split_ifs with hv <;> simp [Mem.get, hab]
  | cons c m ih =>
    obtain ⟨d, w⟩ := c
    rw [Mem.put]
    split_ifs with h1 h2 h3 h4
    · rfl
    · simp [Mem.get, hab]
    · subst h3; simp [Mem.get, hab]
    · subst h3; simp [Mem.get, hab]
    · simp only [Mem.get, ih]

/-! The canonical form. -/

theorem wfFrom_mono {m : Mem} {lo lo' : Nat} (h : Mem.wfFrom lo m = true) (hl : lo' ≤ lo) :
    Mem.wfFrom lo' m = true := by
  cases m with
  | nil => rfl
  | cons c m =>
    obtain ⟨b, v⟩ := c
    simp only [Mem.wfFrom, Bool.and_eq_true, decide_eq_true_eq] at h ⊢
    exact ⟨⟨by omega, h.1.2⟩, h.2⟩

theorem wfFrom_put {m : Mem} {lo a : Nat} (v : Byte) (h : Mem.wfFrom lo m = true) (ha : lo ≤ a) :
    Mem.wfFrom lo (m.put a v) = true := by
  induction m generalizing lo with
  | nil =>
    simp only [Mem.put]
    split_ifs with hv
    · rfl
    · simp only [Mem.wfFrom, Bool.and_eq_true, decide_eq_true_eq]; exact ⟨⟨ha, hv⟩, trivial⟩
  | cons c m ih =>
    obtain ⟨b, w⟩ := c
    have h' := h
    simp only [Mem.wfFrom, Bool.and_eq_true, decide_eq_true_eq] at h
    rw [Mem.put]
    split_ifs with h1 h2 h3 h4
    · exact h'
    · simp only [Mem.wfFrom, Bool.and_eq_true, decide_eq_true_eq]
      exact ⟨⟨ha, h2⟩, ⟨by omega, h.1.2⟩, h.2⟩
    · exact wfFrom_mono h.2 (by omega)
    · simp only [Mem.wfFrom, Bool.and_eq_true, decide_eq_true_eq]
      subst h3
      exact ⟨⟨ha, h4⟩, h.2⟩
    · simp only [Mem.wfFrom, Bool.and_eq_true, decide_eq_true_eq]
      exact ⟨h.1, ih h.2 (by omega)⟩

/-- A write keeps the canonical form. -/
theorem wf_put {m : Mem} (a : Nat) (v : Byte) (h : m.wf = true) : (m.put a v).wf = true := wfFrom_put v h (Nat.zero_le a)

theorem wfFrom_ofBytes (a : Nat) (l : List Byte) : Mem.wfFrom a (Mem.ofBytes a l) = true := by
  induction l generalizing a with
  | nil => rfl
  | cons v l ih =>
    rw [Mem.ofBytes]
    split_ifs with h
    · exact wfFrom_mono (ih (a + 1)) (by omega)
    · simp only [Mem.wfFrom, Bool.and_eq_true, decide_eq_true_eq]; exact ⟨⟨le_refl a, h⟩, ih (a + 1)⟩

/-- A space made from bytes is in canonical form. -/
theorem wf_ofBytes (l : List Byte) : (Mem.ofBytes 0 l).wf = true := wfFrom_ofBytes 0 l

theorem get_ofBytes_lt {a b : Nat} (l : List Byte) (h : b < a) : (Mem.ofBytes a l).get b = 0 :=
  get_of_lt (wfFrom_ofBytes a l) h

theorem get_ofBytes (a : Nat) (l : List Byte) (k : Nat) : (Mem.ofBytes a l).get (a + k) = l.getD k 0 := by
  induction l generalizing a k with
  | nil => rfl
  | cons v l ih =>
    rw [Mem.ofBytes]
    cases k with
    | zero =>
      split_ifs with h
      · simpa [h] using get_ofBytes_lt l (show a < a + 1 by omega)
      · simp [Mem.get]
    | succ k =>
      have := ih (a + 1) k
      rw [show a + 1 + k = a + (k + 1) by omega] at this
      split_ifs with h
      · simpa using this
      · simpa [Mem.get] using this

theorem wf_writes {m : Mem} (a : Nat) (l : List Byte) (h : m.wf = true) : (m.writes a l).wf = true := by
  induction l generalizing m a with
  | nil => exact h
  | cons b l ih => exact ih (a + 1) (wf_put a b h)

/-- Equal bytes everywhere are equal memories. -/
theorem ext_wfFrom {m n : Mem} {lo : Nat} (hm : Mem.wfFrom lo m = true) (hn : Mem.wfFrom lo n = true)
    (h : ∀ a, m.get a = n.get a) : m = n := by
  induction m generalizing n lo with
  | nil =>
    cases n with
    | nil => rfl
    | cons c n =>
      obtain ⟨b, v⟩ := c
      simp only [Mem.wfFrom, Bool.and_eq_true, decide_eq_true_eq] at hn
      have := h b
      simp only [Mem.get, if_true] at this
      exact absurd this.symm hn.1.2
  | cons c m ih =>
    obtain ⟨b, v⟩ := c
    simp only [Mem.wfFrom, Bool.and_eq_true, decide_eq_true_eq] at hm
    cases n with
    | nil =>
      have := h b
      simp only [Mem.get, if_true] at this
      exact absurd this hm.1.2
    | cons d n =>
      obtain ⟨b', v'⟩ := d
      simp only [Mem.wfFrom, Bool.and_eq_true, decide_eq_true_eq] at hn
      have hbb : b = b' := by
        rcases lt_trichotomy b b' with hlt | heq | hgt
        · have := h b
          rw [Mem.get, if_pos rfl, Mem.get, if_neg (by omega), get_of_lt hn.2 (by omega)] at this
          exact absurd this hm.1.2
        · exact heq
        · have := h b'
          rw [Mem.get, if_neg (by omega), get_of_lt hm.2 (by omega), Mem.get, if_pos rfl] at this
          exact absurd this.symm hn.1.2
      subst hbb
      have hv : v = v' := by simpa [Mem.get] using h b
      subst hv
      have := ih hm.2 hn.2 (by
        intro a
        by_cases hab : a = b
        · subst hab; rw [get_of_lt hm.2 (by omega), get_of_lt hn.2 (by omega)]
        · simpa [Mem.get, hab] using h a)
      rw [this]

/-! Addresses in use. -/

theorem mem_put {m : Mem} {a : Nat} {v : Byte} {c : Host.Cell} (h : c ∈ m.put a v) : c = (a, v) ∨ c ∈ m := by
  induction m with
  | nil => simp only [Mem.put] at h; split_ifs at h <;> simp_all
  | cons d m ih =>
    obtain ⟨b, w⟩ := d
    rw [Mem.put] at h
    split_ifs at h
    · exact .inr h
    · rcases List.mem_cons.1 h with h | h
      · exact .inl h
      · exact .inr h
    · exact .inr (List.mem_cons_of_mem _ h)
    · rcases List.mem_cons.1 h with h | h
      · exact .inl h
      · exact .inr (List.mem_cons_of_mem _ h)
    · rcases List.mem_cons.1 h with h | h
      · exact .inr (h ▸ List.mem_cons_self)
      · exact (ih h).imp_right (List.mem_cons_of_mem _)

theorem below_put {m : Mem} {n a : Nat} (v : Byte) (h : m.below n = true) (ha : a < n) :
    (m.put a v).below n = true := by
  simp only [Mem.below, List.all_eq_true, decide_eq_true_eq] at h ⊢
  intro c hc
  rcases mem_put hc with rfl | hc
  · exact ha
  · exact h c hc

theorem below_mono {m : Mem} {n n' : Nat} (h : m.below n = true) (hn : n ≤ n') : m.below n' = true := by
  simp only [Mem.below, List.all_eq_true, decide_eq_true_eq] at h ⊢
  exact fun c hc => Nat.lt_of_lt_of_le (h c hc) hn

theorem get_of_below {m : Mem} {n a : Nat} (h : m.below n = true) (ha : n ≤ a) : m.get a = 0 := by
  induction m with
  | nil => rfl
  | cons c m ih =>
    obtain ⟨b, w⟩ := c
    simp only [Mem.below, List.all_cons, Bool.and_eq_true, decide_eq_true_eq] at h ih
    rw [Mem.get, if_neg (by omega)]
    exact ih h.2

theorem get_writes_lt {m : Mem} (a : Nat) (l : List Byte) {b : Nat} (hb : b < a) : (m.writes a l).get b = m.get b := by
  induction l generalizing m a with
  | nil => rfl
  | cons v l ih => rw [Mem.writes, ih (a + 1) (by omega), get_put_other v (by omega)]

theorem get_writes_ge {m : Mem} (a : Nat) (l : List Byte) {b : Nat} (hb : a + l.length ≤ b) :
    (m.writes a l).get b = m.get b := by
  induction l generalizing m a with
  | nil => rfl
  | cons v l ih =>
    simp only [List.length_cons] at hb
    rw [Mem.writes, ih (a + 1) (by omega), get_put_other v (by omega)]

theorem get_writes_at {m : Mem} (h : m.wf = true) (a : Nat) (l : List Byte) (k : Nat) (hk : k < l.length) :
    (m.writes a l).get (a + k) = l[k] := by
  induction l generalizing m a k with
  | nil => simp at hk
  | cons v l ih =>
    rw [Mem.writes]
    cases k with
    | zero => rw [Nat.add_zero, get_writes_lt (a + 1) l (by omega)]; exact get_put_same h a v
    | succ k =>
      have := ih (wf_put a v h) (a + 1) k (by simpa using hk)
      rw [show a + 1 + k = a + (k + 1) by omega] at this
      simpa using this

theorem below_writes {m : Mem} {n : Nat} (l : List Byte) (h : m.below n = true) :
    (m.writes n l).below (n + l.length) = true := by
  induction l generalizing m n with
  | nil => exact h
  | cons v l ih =>
    rw [Mem.writes]
    have := ih (below_put (a := n) (n := n + 1) v (below_mono h (by omega)) (by omega))
    rwa [show n + 1 + l.length = n + (v :: l).length by simp; omega] at this

/-! The output primitive (R66). -/

theorem acceptsAt_normal {s : State} (h : s.compare = false) (k : Nat) (b : Byte) : s.acceptsAt k b :=
  fun hc => absurd hc (by simp [h])

theorem accepts_normal {s : State} (h : s.compare = false) (l : List Byte) : s.accepts l :=
  fun k _ => acceptsAt_normal h k _

theorem emit_normal {s : State} (h : s.compare = false) (b : Byte) :
    emit b s = .ok ((), { s with out := s.out.put s.got b, got := s.got + 1 }) := by
  simp [emit, h]

theorem emit_compare {s : State} (h : s.compare = true) {b : Byte}
    (hb : s.got < s.haveLen ∧ s.ports.expected.get s.got = b) :
    emit b s = .ok ((), { s with got := s.got + 1 }) := by
  simp only [emit, run_get_bind, h, if_true, run_bind_ok (run_require_true hb _ _), run_modify]

theorem emit_mismatch {s : State} (h : s.compare = true) {b : Byte}
    (hb : ¬ (s.got < s.haveLen ∧ s.ports.expected.get s.got = b)) :
    emit b s = .error (.raised (s.takeFault .compareMismatch)) := by
  simp only [emit, run_get_bind, h, if_true, run_bind_error (run_require_false hb _ _)]

theorem emit_ok {s : State} {b : Byte} (h : s.acceptsAt 0 b) : emit b s = .ok ((), s.withOutput [b]) := by
  cases hc : s.compare with
  | false => rw [emit_normal hc]; simp [State.withOutput, hc, Mem.writes]
  | true => rw [emit_compare hc (h hc)]; simp [State.withOutput, hc]

theorem emit_differs {s : State} {b : Byte} (h : ¬ s.acceptsAt 0 b) :
    emit b s = .error (.raised (s.takeFault .compareMismatch)) := by
  cases hc : s.compare with
  | false => exact absurd (acceptsAt_normal hc 0 b) h
  | true => exact emit_mismatch hc fun hn => h fun _ => hn

theorem withOutput_nil (s : State) : s.withOutput [] = s := by
  simp [State.withOutput, Mem.writes]

theorem withOutput_append (s : State) (a b : List Byte) : (s.withOutput a).withOutput b = s.withOutput (a ++ b) := by
  have hw : ∀ (l : List Byte) (m : Mem) (n : Nat), (m.writes n l).writes (n + l.length) b = m.writes n (l ++ b) := by
    intro l
    induction l with
    | nil => intro m n; rfl
    | cons v l ih =>
      intro m n
      simp only [Mem.writes, List.cons_append, List.length_cons]
      rw [← ih, show n + 1 + l.length = n + (l.length + 1) by omega]
  cases hc : s.compare <;> simp [State.withOutput, hc, Nat.add_assoc, hw]

@[simp] theorem accepts_nil (s : State) : s.accepts [] := fun k h => absurd h (Nat.not_lt_zero k)

theorem acceptsAt_withOutput (s : State) (l : List Byte) (k : Nat) (b : Byte) :
    (s.withOutput l).acceptsAt k b ↔ s.acceptsAt (l.length + k) b := by
  simp [State.acceptsAt, State.withOutput, Nat.add_assoc]

theorem accepts_cons {s : State} {b : Byte} {l : List Byte} :
    s.accepts (b :: l) ↔ s.acceptsAt 0 b ∧ (s.withOutput [b]).accepts l := by
  unfold State.accepts
  simp only [acceptsAt_withOutput, List.length_singleton, Nat.add_comm 1]
  refine ⟨fun h => ⟨h 0 (by simp), fun k hk => h (k + 1) (by simpa using hk)⟩, fun h k hk => ?_⟩
  cases k with
  | zero => exact h.1
  | succ k => exact h.2 k (by simpa using hk)

theorem accepts_singleton {s : State} {b : Byte} : s.accepts [b] ↔ s.acceptsAt 0 b := by simp [accepts_cons]

theorem accepts_append {s : State} {a b : List Byte} : s.accepts (a ++ b) ↔ s.accepts a ∧ (s.withOutput a).accepts b := by
  induction a generalizing s with
  | nil => simp [withOutput_nil]
  | cons x a ih => rw [List.cons_append, accepts_cons, accepts_cons, ih, withOutput_append, and_assoc]; rfl

theorem not_acceptsAt_of_differsAt_zero {s : State} {b : Byte} {l : List Byte} (h : s.differsAt (b :: l) 0) :
    ¬ s.acceptsAt 0 b := h.2.2

theorem differsAt_succ {s : State} {b : Byte} {l : List Byte} {k : Nat} (h : s.differsAt (b :: l) (k + 1)) :
    s.acceptsAt 0 b ∧ (s.withOutput [b]).differsAt l k := by
  obtain ⟨ha, hk, h⟩ := h
  obtain ⟨h1, h2⟩ := accepts_cons.1 (List.take_succ_cons ▸ ha)
  refine ⟨h1, h2, by simpa using hk, ?_⟩
  simpa [acceptsAt_withOutput, Nat.add_comm 1 k] using h

/-- A list of bytes is accepted, or there is a first byte that is not (R66). -/
theorem accepts_or_differs (s : State) (l : List Byte) : s.accepts l ∨ ∃ k, s.differsAt l k := by
  induction l generalizing s with
  | nil => exact .inl (accepts_nil s)
  | cons b l ih =>
    by_cases hb : s.acceptsAt 0 b
    · rcases ih (s.withOutput [b]) with h | ⟨k, h, hk, hn⟩
      · exact .inl (accepts_cons.2 ⟨hb, h⟩)
      · refine .inr ⟨k + 1, ?_, by simpa using hk, ?_⟩
        · rw [List.take_succ_cons]; exact accepts_cons.2 ⟨hb, h⟩
        · simpa [acceptsAt_withOutput, Nat.add_comm 1 k] using hn
    · exact .inr ⟨0, accepts_nil s, by simp, hb⟩

/-- A byte that is not accepted is met in compare mode only, so nothing has been stored (R62). -/
theorem compare_of_differsAt {s : State} {l : List Byte} {k : Nat} (h : s.differsAt l k) : s.compare = true := by
  cases hc : s.compare with
  | false => exact absurd (acceptsAt_normal hc _ _) h.2.2
  | true => rfl

theorem emitAll_ok {s : State} {l : List Byte} (h : s.accepts l) : emitAll l s = .ok ((), s.withOutput l) := by
  induction l generalizing s with
  | nil => simp [emitAll, withOutput_nil]
  | cons b l ih =>
    obtain ⟨h1, h2⟩ := accepts_cons.1 h
    rw [emitAll, run_bind_ok (emit_ok h1), ih h2, withOutput_append]
    rfl

/-- Where byte `k` is the first that is not accepted, `CompareMismatch` is raised after `k` bytes (R66). -/
theorem emitAll_differs {l : List Byte} : ∀ {s : State} {k : Nat}, s.differsAt l k → ∃ u : State,
    emitAll l s = .error (.raised (u.takeFault .compareMismatch)) ∧ u.got = s.got + k ∧ u.out = s.out := by
  induction l with
  | nil => exact fun h => absurd h.2.1 (Nat.not_lt_zero _)
  | cons b l ih =>
    intro s k h
    cases k with
    | zero => exact ⟨s, run_bind_error (emit_differs (not_acceptsAt_of_differsAt_zero h)), rfl, rfl⟩
    | succ k =>
      have hc := compare_of_differsAt h
      obtain ⟨h1, h2⟩ := differsAt_succ h
      obtain ⟨u, h3, h4, h5⟩ := ih h2
      refine ⟨u, (run_bind_ok (emit_ok h1)).trans h3, ?_, ?_⟩
      · rw [h4]; simp [State.withOutput]; omega
      · rw [h5]; simp [State.withOutput, hc]

end Sys2Proof.Machine
end

