-- ==== Sys2Proof/Laws/Frame.lean ====
section
/-! SUPPORT. What operations leave unchanged: `Kept L s t` says that of the pieces of state only those of `L` differ and
that the output and the stream position only grew; `Keeps L op` says that `op` does so however it ends. One lemma per operation. -/

namespace Sys2Proof.Machine

variable {α β : Type}

/-- Only the pieces of `L` differ, the output only grew, and the reader only moved on (R122 (c)). -/
def Kept (L : List Fld) (s t : State) : Prop :=
  sameBut L s t ∧ s.got ≤ t.got ∧ (∀ a, a < s.got ∨ t.got ≤ a → t.out.get a = s.out.get a) ∧
    s.rd.inNext ≤ t.rd.inNext ∧ s.pos ≤ t.pos

theorem Fld.same_refl (s : State) (f : Fld) : f.same s s := by cases f <;> rfl

theorem Fld.same_trans {s t u : State} {f : Fld} (h : f.same s t) (h' : f.same t u) : f.same s u := by
  cases f <;> exact Eq.trans h h'

theorem sameBut_refl (L : List Fld) (s : State) : sameBut L s s := fun f _ => Fld.same_refl s f

theorem sameBut_trans {L : List Fld} {s t u : State} (h : sameBut L s t) (h' : sameBut L t u) : sameBut L s u :=
  fun f hf => Fld.same_trans (h f hf) (h' f hf)

theorem sameBut_mono {L L' : List Fld} {s t : State} (h : sameBut L s t) (hl : L ⊆ L') : sameBut L' s t :=
  fun f hf => h f fun hm => hf (hl hm)

namespace Kept

variable {L L' : List Fld} {s t u : State}

theorem refl : Kept L s s := ⟨sameBut_refl L s, le_refl _, fun _ _ => rfl, le_refl _, le_refl _⟩

theorem trans (h : Kept L s t) (h' : Kept L t u) : Kept L s u :=
  ⟨sameBut_trans h.1 h'.1, le_trans h.2.1 h'.2.1, fun a ha => by
    have h1 := h.2.1
    have h2 := h'.2.1
    rw [h'.2.2.1 a (by omega), h.2.2.1 a (by omega)], le_trans h.2.2.2.1 h'.2.2.2.1, le_trans h.2.2.2.2 h'.2.2.2.2⟩

theorem mono (h : Kept L s t) (hl : L ⊆ L') : Kept L' s t := ⟨sameBut_mono h.1 hl, h.2⟩

theorem rd_same (r : Reader) : sameBut [.rd] s { s with rd := r } := by
  intro f hf; cases f <;> first | rfl | exact absurd (by simp) hf

theorem rd {r : Reader} (h1 : s.rd.inNext ≤ r.inNext) (h2 : s.pos ≤ 8 * r.inNext - r.left) :
    Kept [.rd] s { s with rd := r } := ⟨rd_same r, le_refl _, fun _ _ => rfl, h1, h2⟩

theorem seek {pos : Nat} (h : s.onStream) (hp : s.pos ≤ pos) : Kept [.rd] s (s.seek pos) :=
  rd (by rw [onStream_inNext h, readerAt_inNext]; omega) (by rw [readerAt_pos]; exact hp)

theorem desc (d : Desc) : Kept descFlds s { s with desc := d } := by
  refine ⟨?_, le_refl _, fun _ _ => rfl, le_refl _, le_refl _⟩
  intro f hf; cases f <;> first | rfl | exact absurd (by simp [descFlds]) hf

theorem descStep (cl : List Nat) (pos nz : Nat) (space : Int) : Kept [.descCl, .descPos, .descSpace, .descNz] s
    { s with desc := { s.desc with cl, pos, nz, space } } := by
  refine ⟨?_, le_refl _, fun _ _ => rfl, le_refl _, le_refl _⟩
  intro f hf; cases f <;> first | rfl | exact absurd (by simp) hf

theorem descLens (lens : List Nat) (lastLen rep zer : Nat) (room : Int) :
    Kept [.descLens, .descLast, .descRep, .descZer, .descRoom] s
      { s with desc := { s.desc with lens, lastLen, rep, zer, room } } := by
  refine ⟨?_, le_refl _, fun _ _ => rfl, le_refl _, le_refl _⟩
  intro f hf; cases f <;> first | rfl | exact absurd (by simp) hf

theorem descRep (lens : List Nat) (rep zer : Nat) (room : Int) :
    Kept [.descLens, .descRep, .descZer, .descRoom] s { s with desc := { s.desc with lens, rep, zer, room } } := by
  refine ⟨?_, le_refl _, fun _ _ => rfl, le_refl _, le_refl _⟩
  intro f hf; cases f <;> first | rfl | exact absurd (by simp) hf

theorem descZero (lens : List Nat) (rep zer : Nat) :
    Kept [.descLens, .descRep, .descZer] s { s with desc := { s.desc with lens, rep, zer } } := by
  refine ⟨?_, le_refl _, fun _ _ => rfl, le_refl _, le_refl _⟩
  intro f hf; cases f <;> first | rfl | exact absurd (by simp) hf

theorem descClc (clc : Table) : Kept [.descClc] s { s with desc := { s.desc with clc } } := by
  refine ⟨?_, le_refl _, fun _ _ => rfl, le_refl _, le_refl _⟩
  intro f hf; cases f <;> first | rfl | exact absurd (by simp) hf

theorem cmr (c : MapRegs) : Kept mapFlds s { s with cmr := c } := by
  refine ⟨?_, le_refl _, fun _ _ => rfl, le_refl _, le_refl _⟩
  intro f hf; cases f <;> first | rfl | exact absurd (by simp [mapFlds]) hf

theorem mapEntries (m : List Nat) : Kept [.mapEntries] s { s with cmr := { s.cmr with map := m } } := by
  refine ⟨?_, le_refl _, fun _ _ => rfl, le_refl _, le_refl _⟩
  intro f hf; cases f <;> first | rfl | exact absurd (by simp) hf

theorem mapMtf (m : List Nat) : Kept [.mapMtf] s { s with cmr := { s.cmr with mtf := m } } := by
  refine ⟨?_, le_refl _, fun _ _ => rfl, le_refl _, le_refl _⟩
  intro f hf; cases f <;> first | rfl | exact absurd (by simp) hf

theorem blk (c : Cat) (b : Block) : Kept (blkFlds c) s (s.setBlk c b) := by
  cases c <;> refine ⟨?_, le_refl _, fun _ _ => rfl, le_refl _, le_refl _⟩ <;> intro f hf <;> cases f <;>
    first | rfl | (rename_i c; cases c <;> first | rfl | exact absurd (by simp [blkFlds]) hf)

theorem types (c : Cat) (cur prev : Nat) (cnt : Option Nat) :
    Kept [.cur c, .prev c, .cnt c] s (s.setBlk c { s.blk c with cur, prev, cnt }) := by
  cases c <;> refine ⟨?_, le_refl _, fun _ _ => rfl, le_refl _, le_refl _⟩ <;> intro f hf <;> cases f <;>
    first | rfl | (rename_i c; cases c <;> first | rfl | exact absurd (by simp) hf)

theorem type (c : Cat) (cur prev : Nat) :
    Kept [.cur c, .prev c] s (s.setBlk c { s.blk c with cur, prev }) := by
  cases c <;> refine ⟨?_, le_refl _, fun _ _ => rfl, le_refl _, le_refl _⟩ <;> intro f hf <;> cases f <;>
    first | rfl | (rename_i c; cases c <;> first | rfl | exact absurd (by simp) hf)

theorem header (n dr lc dc : Nat) (m : List CtxMode) (lm dm : List Nat) (lb ib db : List Table) :
    Kept [.npostfix, .direct, .modes, .litCodes, .distCodes, .litMap, .distMap, .litBank, .iacBank, .distBank] s
      { s with npostfix := n, direct := dr, modes := m, litCodes := lc, distCodes := dc, litMap := lm, distMap := dm,
               litBank := lb, iacBank := ib, distBank := db } := by
  refine ⟨?_, le_refl _, fun _ _ => rfl, le_refl _, le_refl _⟩
  intro f hf; cases f <;> first | rfl | exact absurd (by simp) hf

theorem npostfix (n : Nat) : Kept [.npostfix] s { s with npostfix := n } := by
  refine ⟨?_, le_refl _, fun _ _ => rfl, le_refl _, le_refl _⟩
  intro f hf; cases f <;> first | rfl | exact absurd (by simp) hf

theorem direct (n : Nat) : Kept [.direct] s { s with direct := n } := by
  refine ⟨?_, le_refl _, fun _ _ => rfl, le_refl _, le_refl _⟩
  intro f hf; cases f <;> first | rfl | exact absurd (by simp) hf

theorem modes (m : List CtxMode) : Kept [.modes] s { s with modes := m } := by
  refine ⟨?_, le_refl _, fun _ _ => rfl, le_refl _, le_refl _⟩
  intro f hf; cases f <;> first | rfl | exact absurd (by simp) hf

theorem lits (n : Nat) (m : List Nat) : Kept [.litCodes, .litMap] s { s with litCodes := n, litMap := m } := by
  refine ⟨?_, le_refl _, fun _ _ => rfl, le_refl _, le_refl _⟩
  intro f hf; cases f <;> first | rfl | exact absurd (by simp) hf

theorem dists (n : Nat) (m : List Nat) : Kept [.distCodes, .distMap] s { s with distCodes := n, distMap := m } := by
  refine ⟨?_, le_refl _, fun _ _ => rfl, le_refl _, le_refl _⟩
  intro f hf; cases f <;> first | rfl | exact absurd (by simp) hf

theorem banks (l i d : List Table) :
    Kept [.litBank, .iacBank, .distBank] s { s with litBank := l, iacBank := i, distBank := d } := by
  refine ⟨?_, le_refl _, fun _ _ => rfl, le_refl _, le_refl _⟩
  intro f hf; cases f <;> first | rfl | exact absurd (by simp) hf

theorem last (b : Bool) : Kept [.last] s { s with last := b } := by
  refine ⟨?_, le_refl _, fun _ _ => rfl, le_refl _, le_refl _⟩
  intro f hf; cases f <;> first | rfl | exact absurd (by simp) hf

theorem mlen (n : Nat) : Kept [.mlen] s { s with mlen := n } := by
  refine ⟨?_, le_refl _, fun _ _ => rfl, le_refl _, le_refl _⟩
  intro f hf; cases f <;> first | rfl | exact absurd (by simp) hf

theorem ctl (c : Ctl) : Kept [.ctl] s { s with ctl := c } := by
  refine ⟨?_, le_refl _, fun _ _ => rfl, le_refl _, le_refl _⟩
  intro f hf; cases f <;> first | rfl | exact absurd (by simp) hf

theorem wbits (w : Nat) (c : Ctl) : Kept [.wbits, .ctl] s { s with wbits := w, ctl := c } := by
  refine ⟨?_, le_refl _, fun _ _ => rfl, le_refl _, le_refl _⟩
  intro f hf; cases f <;> first | rfl | exact absurd (by simp) hf

theorem ended (n : Nat) (k : Option Result) (c : Ctl) (l : List Elem) :
    Kept [.consumed, .result, .ctl, .todo] s { s with consumed := n, result := k, ctl := c, todo := l } := by
  refine ⟨?_, le_refl _, fun _ _ => rfl, le_refl _, le_refl _⟩
  intro f hf; cases f <;> first | rfl | exact absurd (by simp) hf

theorem insLeft (n : Nat) : Kept [.insLeft] s { s with insLeft := n } := by
  refine ⟨?_, le_refl _, fun _ _ => rfl, le_refl _, le_refl _⟩
  intro f hf; cases f <;> first | rfl | exact absurd (by simp) hf

theorem iacSym (n : Nat) : Kept [.iacSym] s { s with iacSym := n } := by
  refine ⟨?_, le_refl _, fun _ _ => rfl, le_refl _, le_refl _⟩
  intro f hf; cases f <;> first | rfl | exact absurd (by simp) hf

theorem copyLen (n : Nat) : Kept [.copyLen] s { s with copyLen := n } := by
  refine ⟨?_, le_refl _, fun _ _ => rfl, le_refl _, le_refl _⟩
  intro f hf; cases f <;> first | rfl | exact absurd (by simp) hf

theorem paid (n k : Nat) : Kept [.mlen, .insLeft] s { s with mlen := n, insLeft := k } := by
  refine ⟨?_, le_refl _, fun _ _ => rfl, le_refl _, le_refl _⟩
  intro f hf; cases f <;> first | rfl | exact absurd (by simp) hf

theorem distance (v : Nat) (d : Int) : Kept [.dsym, .dist] s { s with dsym := v, dist := d } := by
  refine ⟨?_, le_refl _, fun _ _ => rfl, le_refl _, le_refl _⟩
  intro f hf; cases f <;> first | rfl | exact absurd (by simp) hf

theorem ring (p : Fin 4) (r : Vector Nat 4) : Kept [.ring, .ringPtr] s { s with ringPtr := p, ring := r } := by
  refine ⟨?_, le_refl _, fun _ _ => rfl, le_refl _, le_refl _⟩
  intro f hf; cases f <;> first | rfl | exact absurd (by simp) hf

theorem val (v : Nat) : Kept [.latVal] s (keepVal v s) := by
  refine ⟨?_, le_refl _, fun _ _ => rfl, le_refl _, le_refl _⟩
  intro f hf; cases f <;> first | rfl | exact absurd (by simp) hf

theorem sval (v : Int) : Kept [.latSval] s (keepSval v s) := by
  refine ⟨?_, le_refl _, fun _ _ => rfl, le_refl _, le_refl _⟩
  intro f hf; cases f <;> first | rfl | exact absurd (by simp) hf

theorem tbl (v : Table) : Kept [.latTbl] s (keepTable v s) := by
  refine ⟨?_, le_refl _, fun _ _ => rfl, le_refl _, le_refl _⟩
  intro f hf; cases f <;> first | rfl | exact absurd (by simp) hf

theorem map (v : List Nat) : Kept [.latMap] s (keepMap v s) := by
  refine ⟨?_, le_refl _, fun _ _ => rfl, le_refl _, le_refl _⟩
  intro f hf; cases f <;> first | rfl | exact absurd (by simp) hf

theorem word (v : List Byte) : Kept [.latWord] s (keepWord v s) := by
  refine ⟨?_, le_refl _, fun _ _ => rfl, le_refl _, le_refl _⟩
  intro f hf; cases f <;> first | rfl | exact absurd (by simp) hf

theorem insLen (v : Nat) : Kept [.latInsLen] s (keepInsLen v s) := by
  refine ⟨?_, le_refl _, fun _ _ => rfl, le_refl _, le_refl _⟩
  intro f hf; cases f <;> first | rfl | exact absurd (by simp) hf

theorem split (r : Nat × Nat) : Kept [.latInsLen, .copyLen] s (keepSplit r s) := by
  refine ⟨?_, le_refl _, fun _ _ => rfl, le_refl _, le_refl _⟩
  intro f hf; cases f <;> first | rfl | exact absurd (by simp) hf

theorem got : Kept [.got, .out] s { s with got := s.got + 1 } := by
  refine ⟨?_, Nat.le_succ _, fun _ _ => rfl, le_refl _, le_refl _⟩
  intro f hf; cases f <;> first | rfl | exact absurd (by simp) hf

theorem out (b : Byte) : Kept [.got, .out] s { s with out := s.out.put s.got b, got := s.got + 1 } := by
  refine ⟨?_, Nat.le_succ _, fun a ha => get_put_other b ?_, le_refl _, le_refl _⟩
  · intro f hf; cases f <;> first | rfl | exact absurd (by simp) hf
  · simp only at ha; omega

end Kept

/-- The bytes that the loop of R120 fetches are all at hand. -/
theorem refill_counts (n : Nat) : ∀ fuel val m (s : State) r t, refill n fuel val m s = .ok (r, t) →
    t.rd.left = s.rd.left ∧ ∃ d, t.rd.inNext = s.rd.inNext + d ∧ r.2 = m + 8 * d
  | 0, val, m, s, r, t, h => by
    rw [refill, run_pure] at h
    cases h
    exact ⟨rfl, 0, rfl, rfl⟩
  | fuel + 1, val, m, s, r, t, h => by
    rw [refill] at h
    split_ifs at h with hm
    · by_cases hb : s.rd.inNext < s.ports.inLen
      · rw [run_bind_ok (fetchByte_ok hb)] at h
        obtain ⟨h1, d, h2, h3⟩ := refill_counts n fuel _ _ _ r t h
        exact ⟨h1, d + 1, by rw [h2]; show s.rd.inNext + 1 + d = _; omega, by omega⟩
      · rw [run_bind_error (fetchByte_eof hb)] at h
        cases h
    · rw [run_pure] at h
      cases h
      exact ⟨rfl, 0, rfl, rfl⟩

/-- However the operation ends, only the pieces of `L` differ; a raised result is a fault. -/
def Keeps (L : List Fld) (op : M α) : Prop :=
  ∀ s, match op s with
    | .ok (_, t) => Kept L s t
    | .error (.raised t) => ∃ u k, k ≠ .ok ∧ Kept L s u ∧ t = u.takeFault k
    | .error _ => True

namespace Keeps

variable {L L' : List Fld}

theorem mono {op : M α} (h : Keeps L op) (hl : L ⊆ L') : Keeps L' op := by
  intro s
  have := h s
  cases hop : op s with
  | ok r => rw [hop] at this; exact Kept.mono this hl
  | error e =>
    rw [hop] at this
    cases e with
    | raised t => obtain ⟨u, k, h1, h2, h3⟩ := this; exact ⟨u, k, h1, h2.mono hl, h3⟩
    | fault f => trivial
    | refused r => trivial

theorem bind {x : M α} {f : α → M β} (hx : Keeps L x) (hf : ∀ a, Keeps L (f a)) : Keeps L (x >>= f) := by
  intro s
  have h := hx s
  rw [run_bind]
  cases hxs : x s with
  | ok r =>
    obtain ⟨a, t⟩ := r
    rw [hxs] at h
    have h' := hf a t
    simp only
    cases hft : f a t with
    | ok r => rw [hft] at h'; exact Kept.trans h h'
    | error e =>
      rw [hft] at h'
      cases e with
      | raised v => obtain ⟨u, k, h1, h2, h3⟩ := h'; exact ⟨u, k, h1, Kept.trans h h2, h3⟩
      | fault f => trivial
      | refused r => trivial
  | error e =>
    rw [hxs] at h
    cases e with
    | raised v => exact h
    | fault f => trivial
    | refused r => trivial

theorem pure (a : α) : Keeps L (Pure.pure a : M α) := fun _ => Kept.refl

theorem get : Keeps L (MonadState.get : M State) := fun _ => Kept.refl

theorem update {g : State → State} (h : ∀ s, Kept L s (g s)) : Keeps L (modify g : M PUnit) := fun s => h s

theorem raise {k : Result} (h : k ≠ .ok) : Keeps L (Machine.raise k : M α) := fun s => ⟨s, k, h, Kept.refl, rfl⟩

theorem refuse (r : Refusal) : Keeps L (Machine.refuse r : M α) := fun _ => trivial

theorem stopFault (f : Fault) : Keeps L (Machine.stopFault f : M α) := fun _ => trivial

theorem ite {c : Prop} [Decidable c] {x y : M α} (hx : Keeps L x) (hy : Keeps L y) : Keeps L (if c then x else y) := by
  split_ifs
  · exact hx
  · exact hy

theorem require {c : Prop} [Decidable c] {k : Result} (h : k ≠ .ok) : Keeps L (Machine.require c k) :=
  ite (pure ()) (raise h)

theorem precondition {c : Prop} [Decidable c] : Keeps L (Machine.precondition c) := ite (pure ()) (refuse _)

theorem entry (l : List α) (i : Nat) : Keeps L (Machine.entry l i) := by
  unfold Machine.entry
  cases l[i]? with
  | none => exact stopFault _
  | some a => exact pure a

theorem existing (t : Option Table) : Keeps L (Machine.existing t) := by
  unfold Machine.existing
  cases t with
  | none => exact stopFault _
  | some a => exact pure a

/-! The operations. -/

theorem fetchByte : Keeps [.rd] fetchByte :=
  get.bind fun _ => (require (by decide)).bind fun _ =>
    (update fun _ => Kept.rd (Nat.le_succ _) (by simp only [State.pos]; omega)).bind fun _ => pure _

theorem refill (n : Nat) : ∀ fuel val m, Keeps [.rd] (refill n fuel val m)
  | 0, _, _ => pure _
  | fuel + 1, _, _ => ite (fetchByte.bind fun _ => refill n fuel _ _) (pure _)

/-- `BITS(n)` (R120): each byte fetched adds its eight bits to those at hand, so the position does not go back. -/
theorem bits (n : Nat) : Keeps [.rd] (bits n) := by
  refine ite (refuse _) fun s => ?_
  have hf := refill_counts n n s.rd.resid.toNat s.rd.left s
  have hk := refill n n s.rd.resid.toNat s.rd.left s
  cases hr : Machine.refill n n s.rd.resid.toNat s.rd.left s with
  | error e =>
    rw [hr] at hk
    rw [run_get_bind, run_bind_error hr]
    cases e with
    | raised v => exact hk
    | fault f => trivial
    | refused r => trivial
  | ok r =>
    obtain ⟨r, t⟩ := r
    obtain ⟨h1, d, h2, h3⟩ := hf r t hr
    rw [hr] at hk
    rw [run_get_bind, run_bind_ok hr]
    refine ⟨sameBut_trans hk.1 (Kept.rd_same _), hk.2.1, hk.2.2.1, hk.2.2.2.1, ?_⟩
    show 8 * s.rd.inNext - s.rd.left ≤ 8 * t.rd.inNext - (r.2 - n)
    omega

theorem align : Keeps [.rd] align :=
  get.bind fun _ => (require (by decide)).bind fun _ => update fun _ => Kept.rd (le_refl _) (Nat.sub_le _ _)

theorem rawbyte : Keeps [.rd] rawbyte := get.bind fun _ => precondition.bind fun _ => fetchByte

theorem skip (k : Nat) : Keeps [.rd] (skip k) :=
  get.bind fun _ => precondition.bind fun _ => (require (by decide)).bind fun _ =>
    update fun _ => Kept.rd (Nat.le_add_right _ _) (by simp only [State.pos]; omega)

theorem emit (b : Byte) : Keeps [.got, .out] (emit b) :=
  get.bind fun _ => ite ((require (by decide)).bind fun _ => update fun _ => Kept.got) (update fun _ => Kept.out b)

theorem emitAll : ∀ l, Keeps [.got, .out] (emitAll l)
  | [] => pure _
  | _ :: l => (emit _).bind fun _ => emitAll l

theorem symLoop (symbols : List Nat) : ∀ counts c f i, Keeps [.rd] (symLoop symbols counts c f i)
  | [], _, _, _ => refuse _
  | _ :: counts, _, _, _ => (bits 1).bind fun _ => ite (entry _ _) (symLoop symbols counts _ _ _)

theorem sym (t : Table) : Keeps [.rd] (sym t) := ite (entry _ _) (symLoop _ _ _ _ _)

theorem readSymbols (a w : Nat) : ∀ k, Keeps [.rd] (readSymbols a w k)
  | 0 => pure _
  | k + 1 => (bits w).bind fun _ => (require (by decide)).bind fun _ => (readSymbols a w k).bind fun _ => pure _

theorem simple (a : Nat) : Keeps [.rd] (simple a) := by
  refine (bits 2).bind fun n => (readSymbols _ _ _).bind fun l => ite ?_ (refuse _)
  match l with
  | [] => exact refuse _
  | [_] => exact pure _
  | [_, _] => exact pure _
  | [_, _, _] => exact pure _
  | [_, _, _, _] => exact (bits 1).bind fun _ => ite (pure _) (pure _)
  | _ :: _ :: _ :: _ :: _ :: _ => exact refuse _

theorem clclStep (v : Nat) : Keeps [.descCl, .descPos, .descSpace, .descNz] (clclStep v) :=
  (update fun s => Kept.descStep (s := s) _ _ s.desc.nz s.desc.space).bind fun _ =>
    ite ((update fun s => Kept.descStep (s := s) s.desc.cl s.desc.pos _ _).bind fun _ => get.bind fun _ => require (by decide))
      (pure _)

theorem clclLoop : ∀ k, Keeps [.rd, .descCl, .descPos, .descSpace, .descNz] (clclLoop k)
  | 0 => pure _
  | k + 1 => ((sym _).mono (by simp)).bind fun _ => ((clclStep _).mono (by simp)).bind fun _ =>
      get.bind fun _ => ite (pure _) (clclLoop k)

theorem clcl (h : Nat) : Keeps [.rd, .descCl, .descPos, .descSpace, .descNz] (clcl h) :=
  ((update fun _ => Kept.descStep _ _ _ _).mono (by simp)).bind fun _ => clclLoop _

theorem clLen (v : Nat) : Keeps [.descLens, .descLast, .descRep, .descZer, .descRoom] (clLen v) :=
  (update fun s => Kept.descLens (s := s) _ s.desc.lastLen _ _ s.desc.room).bind fun _ =>
    ite (update fun s => Kept.descLens (s := s) s.desc.lens _ s.desc.rep s.desc.zer _) (pure _)

theorem clRep : Keeps [.rd, .descLens, .descRep, .descZer, .descRoom] clRep :=
  ((update fun s => Kept.descRep (s := s) s.desc.lens s.desc.rep _ s.desc.room).mono (by simp)).bind fun _ =>
    ((bits 2).mono (by simp)).bind fun _ => get.bind fun _ =>
    ((update fun s => Kept.descRep (s := s) s.desc.lens _ s.desc.zer s.desc.room).mono (by simp)).bind fun _ =>
    (require (by decide)).bind fun _ =>
    (update fun s => Kept.descRep (s := s) _ s.desc.rep s.desc.zer _).mono (by simp)

theorem clZero : Keeps [.rd, .descLens, .descRep, .descZer] clZero :=
  ((update fun s => Kept.descZero (s := s) s.desc.lens _ s.desc.zer).mono (by simp)).bind fun _ =>
    ((bits 3).mono (by simp)).bind fun _ => get.bind fun _ =>
    ((update fun s => Kept.descZero (s := s) s.desc.lens s.desc.rep _).mono (by simp)).bind fun _ =>
    (require (by decide)).bind fun _ =>
    (update fun s => Kept.descZero (s := s) _ s.desc.rep s.desc.zer).mono (by simp)

theorem clSymbol (v : Nat) : Keeps (.rd :: descFlds) (clSymbol v) :=
  ite ((clLen v).mono (by simp [descFlds])) (ite (clRep.mono (by simp [descFlds])) (clZero.mono (by simp [descFlds])))

theorem stage2 : ∀ fuel, Keeps (.rd :: descFlds) (stage2 fuel)
  | 0 => pure _
  | fuel + 1 => get.bind fun _ =>
      ite (((sym _).mono (by simp)).bind fun _ => (clSymbol _).bind fun _ => stage2 fuel) (pure _)

theorem buildClc : Keeps [.descClc] buildClc :=
  get.bind fun _ => ite (update fun _ => Kept.descClc _)
    ((require (by decide)).bind fun _ => update fun _ => Kept.descClc _)

theorem complex (a h : Nat) : Keeps (.rd :: descFlds) (complex a h) :=
  ((update fun _ => Kept.desc _).mono (by simp)).bind fun _ => ((clcl h).mono (by simp [descFlds])).bind fun _ =>
    (get.bind fun _ => ite ((update fun _ => Kept.desc _).mono (by simp))
      ((require (by decide)).bind fun _ => (update fun _ => Kept.desc _).mono (by simp))).bind fun _ =>
    (stage2 a).bind fun _ => get.bind fun _ => (require (by decide)).bind fun _ => pure _

theorem readCode (a : Nat) : Keeps (.rd :: descFlds) (readCode a) :=
  ((bits 2).mono (by simp)).bind fun _ => ite ((simple a).mono (by simp)) (complex a _)

theorem nbltypesN : Keeps [.rd] nbltypesN := (bits 3).bind fun _ => (bits _).bind fun _ => pure _

theorem nbltypes : Keeps [.rd] nbltypes := (bits 1).bind fun _ => ite (pure _) nbltypesN

theorem baseExtra (b e : Nat) : Keeps [.rd] (baseExtra b e) := (bits e).bind fun _ => pure _

theorem blen (t : Table) : Keeps [.rd] (blen t) := (sym t).bind fun _ => baseExtra _ _

theorem blkdesc (c : Cat) : Keeps (.rd :: blkFlds c ++ descFlds) (blkdesc c) := by
  have hb : ∀ g : State → Block, Keeps (.rd :: blkFlds c ++ descFlds) (modify fun s => s.setBlk c (g s) : M PUnit) :=
    fun g => (update fun _ => Kept.blk c _).mono (by simp)
  have hc : ∀ a, Keeps (.rd :: blkFlds c ++ descFlds) (Machine.readCode a) := fun a =>
    (readCode a).mono (by simp)
  exact (nbltypes.mono (by simp)).bind fun _ => (hb _).bind fun _ => ite ((hc _).bind fun _ => (hb _).bind fun _ =>
    (hc _).bind fun _ => (hb _).bind fun _ => ((blen _).mono (by simp)).bind fun _ => hb _) (hb _)

theorem installType (c : Cat) (n : Nat) : Keeps [.cur c, .prev c] (installType c n) := update fun _ => Kept.type c _ _

theorem typeChange (c : Cat) (n : Nat) : Keeps [.cur c, .prev c] (typeChange c n) :=
  ite (installType _ _) (ite (get.bind fun _ => installType _ _) (get.bind fun _ => installType _ _))

theorem bswitch (c : Cat) : Keeps (tickFlds c) (bswitch c) :=
  get.bind fun _ => precondition.bind fun _ => (existing _).bind fun _ => ((sym _).mono (by simp [tickFlds])).bind fun _ =>
    ((typeChange c _).mono (by simp [tickFlds])).bind fun _ => (existing _).bind fun _ =>
    ((blen _).mono (by simp [tickFlds])).bind fun _ =>
    (update fun s => Kept.types (s := s) c (s.blk c).cur (s.blk c).prev _).mono (by simp [tickFlds])

theorem countDown (c : Cat) : Keeps (tickFlds c) (countDown c) :=
  (update fun s => Kept.types (s := s) c (s.blk c).cur (s.blk c).prev _).mono (by simp [tickFlds])

theorem tick (c : Cat) : Keeps (tickFlds c) (tick c) :=
  get.bind fun _ => ite (ite ((bswitch c).bind fun _ => countDown c) (countDown c)) (pure _)

theorem splitCodes (i j : Nat) : Keeps [.rd] (splitCodes i j) :=
  (baseExtra _ _).bind fun _ => (baseExtra _ _).bind fun _ => pure _

theorem rlemax0 (n : Nat) : Keeps [.rd] (rlemax0 n) := (require (by decide)).bind fun _ => pure _

theorem rlemaxN (n : Nat) : Keeps [.rd] (rlemaxN n) :=
  (bits 4).bind fun _ => (require (by decide)).bind fun _ => pure _

theorem cmZero : Keeps [.mapEntries] cmZero := update fun _ => Kept.mapEntries _

theorem cmRun (v : Nat) : Keeps [.rd, .mapEntries] (cmRun v) :=
  ((bits v).mono (by simp)).bind fun _ => get.bind fun _ => (require (by decide)).bind fun _ =>
    (update fun _ => Kept.mapEntries _).mono (by simp)

theorem cmVal (v : Nat) : Keeps [.mapEntries] (cmVal v) :=
  get.bind fun _ => precondition.bind fun _ => update fun _ => Kept.mapEntries _

theorem cmapLoop : ∀ k, Keeps [.rd, .mapEntries] (cmapLoop k)
  | 0 => pure _
  | k + 1 => get.bind fun _ => ite (((sym _).mono (by simp)).bind fun _ =>
      (get.bind fun _ => ite (cmZero.mono (by simp)) (ite (cmRun _) ((cmVal _).mono (by simp)))).bind fun _ =>
      cmapLoop k) (pure _)

theorem imtfLoop : ∀ done rest, Keeps [.mapEntries, .mapMtf] (imtfLoop done rest)
  | _, [] => (update fun _ => Kept.mapEntries _).mono (by simp)
  | _, _ :: rest => get.bind fun _ => (entry _ _).bind fun _ =>
      ((update fun _ => Kept.mapMtf _).mono (by simp)).bind fun _ => imtfLoop _ rest

theorem imtf : Keeps [.mapEntries, .mapMtf] imtf :=
  ((update fun _ => Kept.mapMtf _).mono (by simp)).bind fun _ => get.bind fun _ => imtfLoop _ _

theorem imtfFlag : Keeps [.rd, .mapEntries, .mapMtf] imtfFlag :=
  ((bits 1).mono (by simp)).bind fun _ => Keeps.bind (ite (imtf.mono (by simp)) (pure _)) fun _ => pure _

theorem cmap (n k : Nat) : Keeps (.rd :: (descFlds ++ mapFlds)) (cmap n k) := by
  refine ite (pure _) ?_
  refine (((bits 1).bind fun _ => ite (rlemax0 n) (rlemaxN n)).mono (by simp)).bind fun _ => ?_
  refine ((readCode _).mono ?_).bind fun _ => ?_
  · simp
  refine ((update fun _ => Kept.cmr _).mono (by simp)).bind fun _ => ?_
  refine ((cmapLoop n).mono (by simp [mapFlds])).bind fun _ => (imtfFlag.mono (by simp [mapFlds])).bind fun _ => ?_
  exact get.bind fun _ => pure _

theorem dDirect (v : Nat) : Keeps [.rd] (dDirect v) := get.bind fun _ => precondition.bind fun _ => pure _

theorem dLong (v : Nat) : Keeps [.rd] (dLong v) :=
  get.bind fun _ => precondition.bind fun _ => (bits _).bind fun _ => pure _

theorem distval (v : Nat) : Keeps [.rd] (distval v) :=
  (get.bind fun _ => ite (get.bind fun _ => pure _) (ite (dDirect v) (dLong v))).bind fun _ =>
    (require (by decide)).bind fun _ => pure _

theorem ringpush (d : Nat) : Keeps [.ring, .ringPtr] (ringpush d) :=
  precondition.bind fun _ => update fun _ => Kept.ring _ _

theorem copyDict (id n : Nat) : Keeps [.mlen, .got, .out] (copyDict id n) :=
  (require (by decide)).bind fun _ => (require (by decide)).bind fun _ => get.bind fun _ =>
    (require (by decide)).bind fun _ => ((update fun _ => Kept.mlen _).mono (by simp)).bind fun _ =>
    (emitAll _).mono (by simp)

theorem copyLoop : ∀ k, Keeps [.got, .out] (copyLoop k)
  | 0 => pure _
  | k + 1 => get.bind fun _ => (emit _).bind fun _ => copyLoop k

theorem copyPast : Keeps [.mlen, .got, .out] copyPast :=
  get.bind fun _ => precondition.bind fun _ => (require (by decide)).bind fun _ =>
    ((update fun _ => Kept.mlen _).mono (by simp)).bind fun _ => (copyLoop _).mono (by simp)

theorem copy : Keeps [.mlen, .got, .out] copy := get.bind fun _ => ite (copyDict _ _) copyPast

theorem islast : Keeps [.rd, .last] islast :=
  ((bits 1).mono (by simp)).bind fun _ => (update fun _ => Kept.last _).mono (by simp)

theorem mlen (n : Nat) : Keeps [.rd, .mlen] (mlen n) :=
  ((bits _).mono (by simp)).bind fun _ => (require (by decide)).bind fun _ =>
    ((update fun _ => Kept.mlen _).mono (by simp)).bind fun _ => get.bind fun s => require (by cases s.compare <;> decide)

theorem rawLoop : ∀ k, Keeps [.rd, .mlen, .got, .out] (rawLoop k)
  | 0 => pure _
  | k + 1 => (rawbyte.mono (by simp)).bind fun _ => ((emit _).mono (by simp)).bind fun _ =>
      ((update fun _ => Kept.mlen _).mono (by simp)).bind fun _ => rawLoop k

theorem rawcopy : Keeps [.rd, .mlen, .got, .out] rawcopy :=
  (align.mono (by simp)).bind fun _ => get.bind fun _ => (require (by decide)).bind fun _ => rawLoop _

theorem metaRsvd : Keeps [.rd] metaRsvd := (bits 1).bind fun _ => require (by decide)

theorem mskiplen (n : Nat) : Keeps [.rd] (mskiplen n) :=
  ite (pure _) ((bits _).bind fun _ => get.bind fun _ => (require (by decide)).bind fun _ => pure _)

theorem metaSkip (k : Nat) : Keeps [.rd] (metaSkip k) := align.bind fun _ => skip k

theorem npostfix : Keeps [.rd, .npostfix] npostfix :=
  ((bits 2).mono (by simp)).bind fun _ => (update fun _ => Kept.npostfix _).mono (by simp)

theorem ndirect : Keeps [.rd, .direct] ndirect :=
  ((bits 4).mono (by simp)).bind fun _ => (update fun _ => Kept.direct _).mono (by simp)

theorem cmode (t : Nat) : Keeps [.rd, .modes] (cmode t) :=
  ((bits 2).mono (by simp)).bind fun _ => (update fun _ => Kept.modes _).mono (by simp)

theorem cmodes : ∀ k t, Keeps [.rd, .modes] (cmodes k t)
  | 0, _ => pure _
  | k + 1, t => (cmode t).bind fun _ => cmodes k (t + 1)

theorem ntreesl : Keeps ([.rd, .litCodes, .litMap] ++ descFlds ++ mapFlds) ntreesl :=
  (nbltypes.mono (by simp)).bind fun _ =>
    ((update fun s => Kept.lits (s := s) _ s.litMap).mono (by simp)).bind fun _ => get.bind fun _ =>
    ((cmap _ _).mono (by intro f; simp; tauto)).bind fun _ => (update fun s => Kept.lits (s := s) s.litCodes _).mono (by simp)

theorem ntreesd : Keeps ([.rd, .distCodes, .distMap] ++ descFlds ++ mapFlds) ntreesd :=
  (nbltypes.mono (by simp)).bind fun _ =>
    ((update fun s => Kept.dists (s := s) _ s.distMap).mono (by simp)).bind fun _ => get.bind fun _ =>
    ((cmap _ _).mono (by intro f; simp; tauto)).bind fun _ => (update fun s => Kept.dists (s := s) s.distCodes _).mono (by simp)

theorem readCodes (a : Nat) : ∀ k, Keeps (.rd :: descFlds) (readCodes a k)
  | 0 => pure _
  | k + 1 => (readCode a).bind fun _ => (readCodes a k).bind fun _ => pure _

theorem banks : Keeps ([.rd, .litBank, .iacBank, .distBank] ++ descFlds) banks := by
  have hc : ∀ a k, Keeps ([.rd, .litBank, .iacBank, .distBank] ++ descFlds) (Machine.readCodes a k) := fun a k =>
    (readCodes a k).mono (by intro f; simp; tauto)
  exact get.bind fun _ => (hc _ _).bind fun _ =>
    ((update fun s => Kept.banks (s := s) _ s.iacBank s.distBank).mono (by simp)).bind fun _ => (hc _ _).bind fun _ =>
    ((update fun s => Kept.banks (s := s) s.litBank _ s.distBank).mono (by simp)).bind fun _ => (hc _ _).bind fun _ =>
    (update fun s => Kept.banks (s := s) s.litBank s.iacBank _).mono (by simp)

theorem header : Keeps (instrWrites .header) header := by
  have hb : ∀ c, Keeps _ (Machine.blkdesc c) := fun c => (blkdesc c).mono (L' := instrWrites .header)
    (by cases c <;> intro f <;> simp [instrWrites] <;> tauto)
  refine (hb _).bind fun _ => (hb _).bind fun _ => (hb _).bind fun _ => ?_
  refine (npostfix.mono (by simp [instrWrites])).bind fun _ => (ndirect.mono (by simp [instrWrites])).bind fun _ => ?_
  refine ((update fun _ => Kept.modes _).mono (by simp [instrWrites])).bind fun _ => get.bind fun _ => ?_
  refine ((cmodes _ _).mono (by simp [instrWrites])).bind fun _ => (ntreesl.mono ?_).bind fun _ => (ntreesd.mono ?_).bind fun _ =>
    banks.mono ?_ <;> (intro f; simp [instrWrites]; tauto)

theorem mbEnd : Keeps [.ctl] mbEnd := update fun _ => Kept.ctl _

theorem streamEnd : Keeps [.rd, .consumed, .result, .ctl, .todo] streamEnd :=
  (align.mono (by simp)).bind fun _ => get.bind fun _ => (require (by decide)).bind fun _ =>
    (update fun _ => Kept.ended _ _ _ _).mono (by simp)

theorem cmd : Keeps (tickFlds .I ++ [.iacSym, .copyLen, .mlen, .insLeft]) cmd :=
  get.bind fun _ => precondition.bind fun _ => ((tick _).mono (by simp)).bind fun _ => get.bind fun _ =>
    (entry _ _).bind fun _ => ((sym _).mono (by simp [tickFlds])).bind fun _ =>
    ((update fun _ => Kept.iacSym _).mono (by simp)).bind fun _ => ((splitCodes _ _).mono (by simp [tickFlds])).bind fun _ =>
    ((update fun _ => Kept.copyLen _).mono (by simp)).bind fun _ => get.bind fun _ => (require (by decide)).bind fun _ =>
    (update fun _ => Kept.paid _ _).mono (by simp)

theorem lit : Keeps (tickFlds .L ++ [.insLeft, .got, .out]) lit :=
  get.bind fun _ => precondition.bind fun _ => ((tick _).mono (by simp)).bind fun _ =>
    (get.bind fun _ => (entry _ _).bind fun _ => (entry _ _).bind fun _ => entry _ _).bind fun _ =>
    ((sym _).mono (by simp [tickFlds])).bind fun _ => precondition.bind fun _ => ((emit _).mono (by simp)).bind fun _ =>
    (update fun _ => Kept.insLeft _).mono (by simp)

theorem dist : Keeps (tickFlds .D ++ [.dsym, .dist, .ring, .ringPtr]) dist :=
  get.bind fun _ => precondition.bind fun _ => ite ((update fun _ => Kept.distance _ _).mono (by simp))
    (((tick _).mono (by simp)).bind fun _ =>
    (get.bind fun _ => (entry _ _).bind fun _ => entry _ _).bind fun _ =>
    ((sym _).mono (by simp [tickFlds])).bind fun _ =>
    ((update fun s => Kept.distance (s := s) _ s.dist).mono (by simp)).bind fun _ =>
    ((distval _).mono (by simp [tickFlds])).bind fun _ =>
    ((update fun s => Kept.distance (s := s) s.dsym _).mono (by simp)).bind fun _ => get.bind fun _ =>
    ite ((ringpush _).mono (by simp)) (pure _))

/-- An operation run as a step of its own. -/
theorem complete {op : M α} {keep : α → State → State} (h : Keeps L op) (hk : ∀ a s, Kept L s (keep a s)) {s t : State}
    (hc : Machine.complete op keep s = .next t) :
    ∃ u, Kept L s u ∧ (t = u ∨ ∃ k, k ≠ .ok ∧ t = u.takeFault k) := by
  have := h s
  unfold Machine.complete at hc
  cases hop : op s with
  | ok r =>
    obtain ⟨a, s'⟩ := r
    rw [hop] at this hc
    simp only [Host.Outcome.next.injEq] at hc
    exact ⟨t, hc ▸ Kept.trans this (hk a s'), .inl rfl⟩
  | error e =>
    rw [hop] at this hc
    cases e with
    | raised v =>
      simp only [Host.Outcome.next.injEq] at hc
      obtain ⟨u, k, h1, h2, h3⟩ := this
      exact ⟨u, h2, .inr ⟨k, h1, hc ▸ h3⟩⟩
    | fault f => simp at hc
    | refused r => simp at hc

end Keeps

end Sys2Proof.Machine
end

