-- ==== Sys2Proof/Laws/Valid.lean ====
section
/-! SUPPORT. What reading gives whatever the stream holds: triples from states on the stream. A stop is a raised fault or
the repeated symbol of a simple descriptor; `X` is any property that the registers an operation writes do not touch. -/

namespace Sys2Proof.Machine

variable {α : Type}

/-- How a run may stop: with a fault raised, or at a repeated symbol. -/
def Stops : Stop → Prop
  | .raised t => ∃ u k, k ≠ .ok ∧ t = State.takeFault u k
  | .fault _ => False
  | .refused r => r = .dupSimple

/-- On the stream, not before position `p`. -/
def OnS (p : Nat) (s : State) : Prop := s.onStream ∧ p ≤ s.pos

/-- The property does not depend on the cursor. -/
def FreeRd (X : State → Prop) : Prop := ∀ s r, X s → X { s with rd := r }

/-- The property depends neither on the cursor nor on the descriptor registers. -/
def FreeDesc (X : State → Prop) : Prop := ∀ s r d, X s → X { s with rd := r, desc := d }

theorem FreeDesc.rd {X : State → Prop} (h : FreeDesc X) : FreeRd X := fun s r hx => h s r s.desc hx

theorem stops_raise (s : State) {k : Result} (h : k ≠ .ok) : Stops (.raised (s.takeFault k)) := ⟨s, k, h, rfl⟩

variable {p : Nat} {X : State → Prop}

theorem bits_triple (hX : FreeRd X) {n : Nat} (hn : n ≤ 25) :
    Triple (fun s => OnS p s ∧ X s) (bits n) (fun v s => OnS p s ∧ X s ∧ v < 2 ^ n) Stops := by
  rintro s ⟨⟨h, hp⟩, hx⟩
  by_cases hb : s.hasBits n
  · rw [bits_ok h hn hb]
    exact ⟨⟨onStream_seek hb, by rw [seek_pos]; omega⟩, hX _ _ hx, field_lt ..⟩
  · obtain ⟨k, _, _, hk⟩ := bits_eof h hn hb
    rw [hk]
    exact stops_raise _ (by decide)

theorem sym_triple (hX : FreeRd X) {t : Table} (ht : t.valid = true) :
    Triple (fun s => OnS p s ∧ X s) (sym t) (fun v s => OnS p s ∧ X s ∧ v ∈ t.symbol) Stops := by
  rintro s ⟨⟨h, hp⟩, hx⟩
  rcases sym_valid ht h with ⟨v, word, _, h2, h3, h4⟩ | ⟨_, r, hr⟩
  · rw [sym_codeword h h3 h4]
    exact ⟨⟨onStream_after h4, by rw [seek_pos]; omega⟩, hX _ _ hx, h2⟩
  · rw [hr]
    exact stops_raise _ (by decide)

theorem over_valid {t : Table} {a : Nat} (h : t.over a = true) : t.valid = true := by
  simp only [Table.over, Bool.and_eq_true] at h; exact h.1

theorem over_lt {t : Table} {a v : Nat} (h : t.over a = true) (hv : v ∈ t.symbol) : v < a := by
  simp only [Table.over, Bool.and_eq_true, List.all_eq_true, decide_eq_true_eq] at h; exact h.2 v hv

theorem sym_over (hX : FreeRd X) {t : Table} {a : Nat} (ht : t.over a = true) :
    Triple (fun s => OnS p s ∧ X s) (sym t) (fun v s => OnS p s ∧ X s ∧ v < a) Stops :=
  (sym_triple hX (over_valid ht)).conseq (fun _ h => h) (fun _ _ h => ⟨h.1, h.2.1, over_lt ht h.2.2⟩) (fun _ h => h)

theorem baseExtra_triple (hX : FreeRd X) {b n : Nat} (hn : n ≤ 25) :
    Triple (fun s => OnS p s ∧ X s) (baseExtra b n) (fun v s => OnS p s ∧ X s ∧ b ≤ v) Stops :=
  (bits_triple hX hn).bind fun _ => Triple.pure fun _ h => ⟨h.1, h.2.1, by omega⟩

/-! Simple descriptors. -/

theorem mem_insertAsc (a : Nat) (l : List Nat) (x : Nat) : x ∈ insertAsc a l ↔ x = a ∨ x ∈ l := by
  induction l with
  | nil => simp [insertAsc]
  | cons b l ih => simp only [insertAsc]; split_ifs <;> simp [ih]; tauto

theorem mem_sortAsc (l : List Nat) (x : Nat) : x ∈ sortAsc l ↔ x ∈ l := by
  induction l with
  | nil => simp [sortAsc]
  | cons a l ih => show x ∈ insertAsc a (sortAsc l) ↔ _; rw [mem_insertAsc, ih]; simp

theorem length_sortAsc (l : List Nat) : (sortAsc l).length = l.length := by
  have il : ∀ a l, (insertAsc a l).length = l.length + 1 := by
    intro a l
    induction l with
    | nil => rfl
    | cons b l ih => simp only [insertAsc]; split_ifs <;> simp [ih]
  induction l with
  | nil => rfl
  | cons a l ih => show (insertAsc a (sortAsc l)).length = _; rw [il, ih]; rfl

theorem over_single {a v : Nat} (h : v < a) : (singleTable v).over a = true := by
  simp [Table.over, Table.valid, Table.isSingle, singleTable, counts4, h]

theorem over_simple2 {a s1 s2 : Nat} (h : ∀ v ∈ [s1, s2], v < a) : (simple2Table s1 s2).over a = true := by
  simp only [Table.over, Table.valid, Bool.and_eq_true, Bool.or_eq_true, List.all_eq_true, decide_eq_true_eq]
  exact ⟨.inr (by simp [Table.isComplete, simple2Table, counts4, length_sortAsc, Table.kraft, List.range']),
    by simpa [simple2Table, mem_sortAsc] using h⟩

theorem over_simple3 {a s1 s2 s3 : Nat} (h : ∀ v ∈ [s1, s2, s3], v < a) : (simple3Table s1 s2 s3).over a = true := by
  simp only [Table.over, Table.valid, Bool.and_eq_true, Bool.or_eq_true, List.all_eq_true, decide_eq_true_eq]
  exact ⟨.inr (by simp [Table.isComplete, simple3Table, counts4, length_sortAsc, Table.kraft, List.range']),
    by simpa [simple3Table, mem_sortAsc] using h⟩

theorem over_simple4a {a s1 s2 s3 s4 : Nat} (h : ∀ v ∈ [s1, s2, s3, s4], v < a) :
    (simple4aTable s1 s2 s3 s4).over a = true := by
  simp only [Table.over, Table.valid, Bool.and_eq_true, Bool.or_eq_true, List.all_eq_true, decide_eq_true_eq]
  exact ⟨.inr (by simp [Table.isComplete, simple4aTable, counts4, length_sortAsc, Table.kraft, List.range']),
    by simpa [simple4aTable, mem_sortAsc] using h⟩

theorem over_simple4b {a s1 s2 s3 s4 : Nat} (h : ∀ v ∈ [s1, s2, s3, s4], v < a) :
    (simple4bTable s1 s2 s3 s4).over a = true := by
  simp only [Table.over, Table.valid, Bool.and_eq_true, Bool.or_eq_true, List.all_eq_true, decide_eq_true_eq]
  exact ⟨.inr (by simp [Table.isComplete, simple4bTable, counts4, length_sortAsc, Table.kraft, List.range']),
    by simpa [simple4bTable, mem_sortAsc] using h⟩

theorem readSymbols_triple (hX : FreeRd X) {a : Nat} (ha : a ≤ 704) : ∀ k,
    Triple (fun s => OnS p s ∧ X s) (readSymbols a (ceilLog2 a) k)
      (fun l s => OnS p s ∧ X s ∧ l.length = k ∧ ∀ v ∈ l, v < a) Stops
  | 0 => Triple.pure fun _ h => ⟨h.1, h.2, rfl, by simp⟩
  | k + 1 => (bits_triple hX (ceilLog2_le a ha)).bind fun v =>
      (Triple.require (Q := fun _ s => (OnS p s ∧ X s) ∧ v < a) (fun _ h hv => ⟨⟨h.1, h.2.1⟩, hv⟩)
        (fun s _ _ => stops_raise s (by decide))).bind fun _ => by
      intro s hs
      have := ((readSymbols_triple hX ha k).bind (f := fun r => pure (v :: r)) (R := fun l s =>
        OnS p s ∧ X s ∧ l.length = k + 1 ∧ ∀ x ∈ l, x < a) fun r => Triple.pure fun t ht =>
          ⟨ht.1, ht.2.1, by simp [ht.2.2.1], by simpa using ⟨hs.2, ht.2.2.2⟩⟩) s hs.1
      exact this

theorem simple_triple (hX : FreeRd X) {a : Nat} (ha : a ≤ 704) :
    Triple (fun s => OnS p s ∧ X s) (simple a) (fun t s => OnS p s ∧ X s ∧ t.over a = true) Stops := by
  refine (bits_triple hX (by omega)).bind fun n => Triple.given fun hn => ?_
  refine (readSymbols_triple hX ha (n + 1)).bind fun l => ?_
  intro s hs
  obtain ⟨h1, h2, hl, hv⟩ := hs
  have hs : OnS p s ∧ X s := ⟨h1, h2⟩
  split_ifs
  · match l, hl, hv with
    | [], hl, _ => simp at hl
    | [_], _, hv => exact ⟨hs.1, hs.2, over_single (hv _ (by simp))⟩
    | [_, _], _, hv => exact ⟨hs.1, hs.2, over_simple2 hv⟩
    | [_, _, _], _, hv => exact ⟨hs.1, hs.2, over_simple3 hv⟩
    | [s1, s2, s3, s4], _, hv =>
      have := ((bits_triple hX (n := 1) (by omega)).bind (f := fun select => if select = 0 then pure (simple4aTable s1 s2 s3 s4)
        else pure (simple4bTable s1 s2 s3 s4)) (R := fun t s => OnS p s ∧ X s ∧ t.over a = true) fun v =>
        Triple.ite (fun _ => Triple.pure fun _ h => ⟨h.1, h.2.1, over_simple4a hv⟩)
          (fun _ => Triple.pure fun _ h => ⟨h.1, h.2.1, over_simple4b hv⟩)) s hs
      exact this
    | _ :: _ :: _ :: _ :: _ :: _, hl, _ => simp at hl; omega
  · exact rfl

/-! The code-length code. -/

/-- How many entries are not 0. -/
def nonzeros (l : List Nat) : Nat := (l.filter fun v => v ≠ 0).length

theorem nonzeros_set {l : List Nat} {i v : Nat} (hi : i < l.length) (h0 : l.getD i 0 = 0) :
    nonzeros (l.set i v) = nonzeros l + if v = 0 then 0 else 1 := by
  induction l generalizing i with
  | nil => simp at hi
  | cons a l ih =>
    cases i with
    | zero =>
      simp at h0
      by_cases hv : v = 0 <;> simp [nonzeros, h0, hv]
    | succ i =>
      have := ih (i := i) (by simpa using hi) (by simpa using h0)
      simp only [nonzeros, List.set_cons_succ, List.filter_cons] at this ⊢
      split_ifs <;> simp_all

theorem clclSum_set {l : List Nat} {i v : Nat} (hi : i < l.length) (h0 : l.getD i 0 = 0) :
    clclSum (l.set i v) = clclSum l + if v = 0 then 0 else 32 >>> v := by
  induction l generalizing i with
  | nil => simp at hi
  | cons a l ih =>
    cases i with
    | zero => simp at h0; simp [clclSum, h0, Nat.add_comm]
    | succ i =>
      have := ih (i := i) (by simpa using hi) (by simpa using h0)
      simp only [clclSum, List.set_cons_succ, List.map_cons, List.sum_cons] at this ⊢
      omega

theorem clclOrder_inj {i j : Nat} (hi : i < 18) (hj : j < 18) (h : clclOrder.getD i 0 = clclOrder.getD j 0) : i = j := by
  have : ∀ i j : Fin 18, clclOrder.getD i.val 0 = clclOrder.getD j.val 0 → i = j := by decide +kernel
  have := this ⟨i, hi⟩ ⟨j, hj⟩ h
  simpa using this

theorem clclOrder_lt (i : Nat) : clclOrder.getD i 0 < 18 := by
  by_cases hi : i < 18
  · revert i; decide
  · rw [List.getD_eq_default _ _ (by simpa [clclOrder] using hi)]; decide

/-- The registers of `CLCL` between its turns (R157). -/
structure Desc.ClOk (d : Desc) : Prop where
  len : d.cl.length = 18
  le : ∀ l ∈ d.cl, l ≤ 5
  sum : (clclSum d.cl : Int) = 32 - d.space
  space : 0 ≤ d.space
  nz : d.nz = nonzeros d.cl
  zero : ∀ i, d.pos ≤ i → i < 18 → d.cl.getD (clclOrder.getD i 0) 0 = 0

theorem clclStep_triple (hX : FreeDesc X) {q v : Nat} (hv : v < 6) (hq : q < 18) :
    Triple (fun s => OnS p s ∧ X s ∧ s.desc.ClOk ∧ s.desc.pos = q) (clclStep v)
      (fun _ s => OnS p s ∧ X s ∧ s.desc.ClOk ∧ s.desc.pos = q + 1) Stops := by
  rintro s ⟨ho, hx, hc, rfl⟩
  have hk := clclOrder_lt s.desc.pos
  have h0 := hc.zero s.desc.pos le_rfl hq
  have hlen : clclOrder.getD s.desc.pos 0 < s.desc.cl.length := by rw [hc.len]; exact hk
  have hle : ∀ l ∈ s.desc.cl.set (clclOrder.getD s.desc.pos 0) v, l ≤ 5 := by
    intro l hl
    rcases List.mem_or_eq_of_mem_set hl with h | h
    · exact hc.le l h
    · omega
  have hzero : ∀ i, s.desc.pos + 1 ≤ i → i < 18 →
      (s.desc.cl.set (clclOrder.getD s.desc.pos 0) v).getD (clclOrder.getD i 0) 0 = 0 := by
    intro i hi hi'
    have hne : clclOrder.getD s.desc.pos 0 ≠ clclOrder.getD i 0 := by
      intro h; have := clclOrder_inj hq hi' h; omega
    rw [List.getD_eq_getElem?_getD, List.getElem?_set_ne hne, ← List.getD_eq_getElem?_getD]
    exact hc.zero i (by omega) hi'
  have hs := clclSum_set (v := v) hlen h0
  have hn := nonzeros_set (v := v) hlen h0
  have hsum := hc.sum
  have hsp := hc.space
  have hnz := hc.nz
  rw [clclStep, run_modify_bind]
  by_cases hv0 : v = 0
  · subst hv0
    rw [if_neg (by simp), run_pure]
    refine ⟨ho, hX s s.rd _ hx, ⟨by simp [hc.len], hle, ?_, hsp, ?_, hzero⟩, rfl⟩
    · show ((clclSum _ : Nat) : Int) = 32 - s.desc.space
      rw [hs]; simpa using hsum
    · show s.desc.nz = _
      rw [hn]; simpa using hnz
  · rw [if_pos hv0, run_modify_bind]
    rw [if_neg hv0] at hs hn
    by_cases hlt : s.desc.space - ((32 >>> v : Nat) : Int) < 0
    · have := (run_get_bind (β := Unit) (fun s => require (0 ≤ s.desc.space) (.invalid .clcOverSubscribed))
        { s with desc := { s.desc with cl := s.desc.cl.set (clclOrder.getD s.desc.pos 0) v, pos := s.desc.pos + 1, nz := s.desc.nz + 1, space := s.desc.space - ((32 >>> v : Nat) : Int) } }).trans
        (run_require_false (by simp only; omega) _ _)
      erw [this]
      exact stops_raise _ (by decide)
    · have := (run_get_bind (β := Unit) (fun s => require (0 ≤ s.desc.space) (.invalid .clcOverSubscribed))
        { s with desc := { s.desc with cl := s.desc.cl.set (clclOrder.getD s.desc.pos 0) v, pos := s.desc.pos + 1, nz := s.desc.nz + 1, space := s.desc.space - ((32 >>> v : Nat) : Int) } }).trans
        (run_require_true (by simp only; omega) _ _)
      erw [this]
      refine ⟨ho, hX s s.rd _ hx, ⟨by simp [hc.len], hle, ?_, by simp only; omega, ?_, hzero⟩, rfl⟩
      · show ((clclSum _ : Nat) : Int) = 32 - (s.desc.space - ((32 >>> v : Nat) : Int))
        rw [hs]; push_cast; omega
      · show s.desc.nz + 1 = _
        rw [hn]; omega

theorem getD_zeros (k : Nat) : (List.replicate 18 0).getD k 0 = 0 := by
  rw [List.getD_eq_getElem?_getD, List.getElem?_replicate]; split_ifs <;> rfl

theorem fixedCode_over : fixedCode.over 6 = true := by decide

theorem clclLoop_triple (hX : FreeDesc X) : ∀ k q, q + k ≤ 18 →
    Triple (fun s => OnS p s ∧ X s ∧ s.desc.ClOk ∧ s.desc.pos = q) (clclLoop k)
      (fun _ s => OnS p s ∧ X s ∧ s.desc.ClOk) Stops
  | 0, q, _ => Triple.pure fun _ h => ⟨h.1, h.2.1, h.2.2.1⟩
  | k + 1, q, hq => by
    refine Triple.bind ((sym_over (X := fun s => X s ∧ s.desc.ClOk ∧ s.desc.pos = q) (p := p)
      (fun s r h => ⟨hX.rd s r h.1, h.2⟩) fixedCode_over)) fun v => ?_
    refine Triple.given fun hv => ?_
    refine (clclStep_triple hX hv (by omega)).bind fun _ => Triple.get_bind fun t => ?_
    refine Triple.ite (fun _ => Triple.pure fun _ h => ⟨h.1.1, h.1.2.1, h.1.2.2.1⟩) fun _ => ?_
    exact (clclLoop_triple hX k (q + 1) (by omega)).conseq (fun _ h => h.1) (fun _ _ h => h) (fun _ h => h)

theorem clcl_triple (hX : FreeDesc X) (hskip : Nat) :
    Triple (fun s => OnS p s ∧ X s) (clcl hskip) (fun _ s => OnS p s ∧ X s ∧ s.desc.ClOk) Stops := by
  intro s hs
  rw [clcl, run_modify_bind]
  by_cases hh : hskip ≤ 18
  · refine clclLoop_triple hX (18 - hskip) hskip (by omega) _ ⟨hs.1, hX s s.rd _ hs.2, ⟨by simp, ?_, ?_, by simp, ?_, ?_⟩, rfl⟩
    · intro l hl; simp at hl; omega
    · show ((clclSum (List.replicate 18 0) : Nat) : Int) = 32 - 32; decide
    · show 0 = nonzeros (List.replicate 18 0); decide
    · intro i _ _
      exact getD_zeros _
  · rw [show 18 - hskip = 0 by omega]
    refine ⟨hs.1, hX s s.rd _ hs.2, ⟨by simp, ?_, ?_, by simp, ?_, ?_⟩⟩
    · intro l hl; simp at hl; omega
    · show ((clclSum (List.replicate 18 0) : Nat) : Int) = 32 - 32; decide
    · show 0 = nonzeros (List.replicate 18 0); decide
    · intro i _ _
      exact getD_zeros _

theorem kraftOf_append (a b : List Nat) : kraftOf (a ++ b) = kraftOf a + kraftOf b := by simp [kraftOf]

theorem kraftOf_clcl : ∀ {l : List Nat}, (∀ v ∈ l, v ≤ 5) → kraftOf l = 1024 * clclSum l
  | [], _ => rfl
  | v :: l, h => by
    rw [kraftOf_cons, kraftOf_clcl fun x hx => h x (by simp [hx])]
    have hv := h v (by simp)
    have : (if v = 0 then 0 else 2 ^ (15 - v)) = 1024 * (if v = 0 then 0 else 32 >>> v) := by
      interval_cases v <;> decide
    rw [this]
    simp only [clclSum, List.map_cons, List.sum_cons]
    ring

theorem buildClc_triple (hX : FreeDesc X) :
    Triple (fun s => OnS p s ∧ X s ∧ s.desc.ClOk) buildClc
      (fun _ s => OnS p s ∧ X s ∧ s.desc.clc.over 18 = true) Stops := by
  rintro s ⟨ho, hx, hc⟩
  rw [buildClc, run_get_bind]
  split_ifs with h1
  · rw [run_modify]
    refine ⟨ho, hX s s.rd _ hx, over_single ?_⟩
    rw [← hc.len]
    apply List.findIdx_lt_length.2
    by_contra hh
    push Not at hh
    have : nonzeros s.desc.cl = 0 := by
      unfold nonzeros
      rw [List.length_eq_zero_iff, List.filter_eq_nil_iff]
      intro a ha
      simpa using hh a ha
    rw [hc.nz, this] at h1
    omega
  · by_cases h0 : s.desc.space = 0
    · rw [run_bind_ok (run_require_true h0 _ _), run_modify]
      refine ⟨ho, hX s s.rd _ hx, ?_⟩
      have hk := over_buildTable (lengths := s.desc.cl) (fun l hl => by have := hc.le l hl; omega)
        (by rw [kraftOf_clcl hc.le]; have := hc.sum; omega)
      rw [hc.len] at hk
      exact hk
    · rw [run_bind_error (run_require_false h0 _ _)]
      exact stops_raise _ (by decide)

/-! The lengths of the alphabet. -/

/-- The registers of stage 2 between its turns (R159). -/
structure Desc.LensOk (a : Nat) (d : Desc) : Prop where
  alphabet : d.alphabet = a
  len : d.lens.length ≤ a
  le : ∀ l ∈ d.lens, l ≤ 15
  room : d.room = 32768 - (kraftOf d.lens : Int)
  last : 1 ≤ d.lastLen ∧ d.lastLen ≤ 15
  clc : d.clc.over 18 = true

theorem shift15 {v : Nat} (h : v ≤ 15) : 32768 >>> v = 2 ^ (15 - v) := by
  rw [Nat.shiftRight_eq_div_pow, show 32768 = 2 ^ 15 from rfl, Nat.pow_div h (by omega)]

theorem kraftOf_replicate (n l : Nat) : kraftOf (List.replicate n l) = n * if l = 0 then 0 else 2 ^ (15 - l) := by
  simp [kraftOf]

theorem clLen_triple (hX : FreeDesc X) {a v : Nat} (hv : v < 16) :
    Triple (fun s => OnS p s ∧ X s ∧ s.desc.LensOk a ∧ s.desc.lens.length < a) (clLen v)
      (fun _ s => OnS p s ∧ X s ∧ s.desc.LensOk a) Stops := by
  rintro s ⟨ho, hx, hc, hl⟩
  rw [clLen, run_modify_bind]
  by_cases h0 : v = 0
  · subst h0
    rw [if_neg (by simp), run_pure]
    refine ⟨ho, hX s s.rd _ hx, ⟨hc.alphabet, by simp; omega, ?_, ?_, hc.last, hc.clc⟩⟩
    · intro l hm; simp at hm; rcases hm with hm | hm
      · exact hc.le l hm
      · omega
    · show s.desc.room = _
      rw [hc.room, kraftOf_append]; simp [kraftOf]
  · rw [if_pos h0, run_modify]
    refine ⟨ho, hX s s.rd _ hx, ⟨hc.alphabet, by simp; omega, ?_, ?_, by simp only; omega, hc.clc⟩⟩
    · intro l hm; simp at hm; rcases hm with hm | hm
      · exact hc.le l hm
      · omega
    · show s.desc.room - ((32768 >>> v : Nat) : Int) = _
      rw [hc.room, kraftOf_append, shift15 (by omega)]; simp [kraftOf, h0]; ring

theorem clRep_triple (hX : FreeDesc X) {a : Nat} :
    Triple (fun s => OnS p s ∧ X s ∧ s.desc.LensOk a ∧ s.desc.lens.length < a) clRep
      (fun _ s => OnS p s ∧ X s ∧ s.desc.LensOk a) Stops := by
  refine (Triple.update (Q := fun _ s => OnS p s ∧ X s ∧ s.desc.LensOk a) fun s h =>
    ⟨h.1, hX s s.rd _ h.2.1, ⟨h.2.2.1.alphabet, h.2.2.1.len, h.2.2.1.le, h.2.2.1.room, h.2.2.1.last, h.2.2.1.clc⟩⟩).bind fun _ => ?_
  refine Triple.bind (bits_triple (X := fun s => X s ∧ s.desc.LensOk a) (fun s r h => ⟨hX.rd s r h.1, h.2⟩) (by omega)) fun e => ?_
  refine Triple.get_bind fun t => ?_
  rintro s ⟨⟨ho, ⟨hx, hc⟩, he⟩, rfl⟩
  simp only [run_modify_bind]
  by_cases hf : s.desc.lens.length + (repTotal s.desc.rep e - s.desc.rep) ≤ s.desc.alphabet
  · rw [run_bind_ok (run_require_true (by exact hf) _ _), run_modify]
    refine ⟨ho, hX s s.rd _ hx, ⟨hc.alphabet, by rw [← hc.alphabet]; simpa using hf, ?_, ?_, hc.last, hc.clc⟩⟩
    · intro l hm; simp at hm; rcases hm with hm | hm
      · exact hc.le l hm
      · have := hc.last; omega
    · show s.desc.room - ((repTotal s.desc.rep e - s.desc.rep : Nat) : Int) * ((32768 >>> s.desc.lastLen : Nat) : Int) = _
      have := hc.last
      rw [hc.room, kraftOf_append, shift15 this.2, kraftOf_replicate, if_neg (show s.desc.lastLen ≠ 0 by omega)]; push_cast; ring
  · rw [run_bind_error (run_require_false (by exact hf) _ _)]
    exact stops_raise _ (by decide)

theorem clZero_triple (hX : FreeDesc X) {a : Nat} :
    Triple (fun s => OnS p s ∧ X s ∧ s.desc.LensOk a ∧ s.desc.lens.length < a) clZero
      (fun _ s => OnS p s ∧ X s ∧ s.desc.LensOk a) Stops := by
  refine (Triple.update (Q := fun _ s => OnS p s ∧ X s ∧ s.desc.LensOk a) fun s h =>
    ⟨h.1, hX s s.rd _ h.2.1, ⟨h.2.2.1.alphabet, h.2.2.1.len, h.2.2.1.le, h.2.2.1.room, h.2.2.1.last, h.2.2.1.clc⟩⟩).bind fun _ => ?_
  refine Triple.bind (bits_triple (X := fun s => X s ∧ s.desc.LensOk a) (fun s r h => ⟨hX.rd s r h.1, h.2⟩) (by omega)) fun e => ?_
  refine Triple.get_bind fun t => ?_
  rintro s ⟨⟨ho, ⟨hx, hc⟩, he⟩, rfl⟩
  simp only [run_modify_bind]
  by_cases hf : s.desc.lens.length + (zeroTotal s.desc.zer e - s.desc.zer) ≤ s.desc.alphabet
  · rw [run_bind_ok (run_require_true (by exact hf) _ _), run_modify]
    refine ⟨ho, hX s s.rd _ hx, ⟨hc.alphabet, by rw [← hc.alphabet]; simpa using hf, ?_, ?_, hc.last, hc.clc⟩⟩
    · intro l hm; simp at hm; rcases hm with hm | hm
      · exact hc.le l hm
      · omega
    · show s.desc.room = _
      rw [hc.room, kraftOf_append, kraftOf_replicate]; simp
  · rw [run_bind_error (run_require_false (by exact hf) _ _)]
    exact stops_raise _ (by decide)

theorem stage2_triple (hX : FreeDesc X) {a : Nat} : ∀ fuel,
    Triple (fun s => OnS p s ∧ X s ∧ s.desc.LensOk a) (stage2 fuel) (fun _ s => OnS p s ∧ X s ∧ s.desc.LensOk a) Stops
  | 0 => Triple.pure fun _ h => h
  | fuel + 1 => by
    refine Triple.get_bind fun t => ?_
    refine Triple.ite (fun hgo => ?_) fun _ => Triple.pure fun _ h => h.1
    by_cases ht : t.desc.LensOk a
    · refine Triple.bind ((sym_over (X := fun s => X s ∧ s.desc.LensOk a ∧ s.desc.lens.length < a) (p := p)
        (fun s r h => ⟨hX.rd s r h.1, h.2⟩) ht.clc).conseq (fun s h => ?_) (fun _ _ h => h) (fun _ h => h)) fun v => ?_
      · obtain ⟨⟨h1, h2, h3⟩, rfl⟩ := h
        exact ⟨h1, h2, h3, by rw [← h3.alphabet]; exact hgo.1⟩
      · refine Triple.bind (Q := fun _ s => OnS p s ∧ X s ∧ s.desc.LensOk a) ?_ fun _ => stage2_triple hX fuel
        refine Triple.ite (fun hv => ?_) fun _ => Triple.ite (fun _ => ?_) fun _ => ?_
        · exact (clLen_triple hX hv).conseq (fun _ h => ⟨h.1, h.2.1⟩) (fun _ _ h => h) (fun _ h => h)
        · exact (clRep_triple hX).conseq (fun _ h => ⟨h.1, h.2.1⟩) (fun _ _ h => h) (fun _ h => h)
        · exact (clZero_triple hX).conseq (fun _ h => ⟨h.1, h.2.1⟩) (fun _ _ h => h) (fun _ h => h)
    · rintro s ⟨⟨h1, h2, h3⟩, rfl⟩
      exact absurd h3 ht

/-- A triple together with what the operation leaves unchanged. -/
theorem Triple.kept {P : State → Prop} {op : M α} {Q : α → State → Prop} {E : Stop → Prop} {L : List Fld}
    (h : Triple P op Q E) (hk : Keeps L op) (u : State) :
    Triple (fun s => P s ∧ s = u) op (fun a t => Q a t ∧ Kept L u t) E := by
  rintro s ⟨hs, rfl⟩
  have h1 := h s hs
  have h2 := hk s
  cases hop : op s with
  | error e => simpa only [hop] using h1
  | ok r => obtain ⟨a, t⟩ := r; simp only [hop] at h1 h2 ⊢; exact ⟨h1, h2⟩

theorem stage3_triple {a : Nat} :
    Triple (fun s => OnS p s ∧ X s ∧ s.desc.LensOk a) stage3 (fun t s => OnS p s ∧ X s ∧ t.over a = true) Stops := by
  rintro s ⟨ho, hx, hc⟩
  rw [stage3, run_get_bind]
  by_cases h0 : s.desc.room = 0
  · rw [run_bind_ok (run_require_true h0 _ _), run_pure]
    refine ⟨ho, hx, ?_⟩
    have hl := hc.len
    have hk := over_buildTable (lengths := s.desc.lens ++ List.replicate (s.desc.alphabet - s.desc.lens.length) 0)
      (fun l hm => by
        rcases List.mem_append.1 hm with h | h
        · exact hc.le l h
        · have := (List.mem_replicate.1 h).2; omega)
      (by rw [kraftOf_append, kraftOf_replicate]; have := hc.room; simp; omega)
    have he : (s.desc.lens ++ List.replicate (s.desc.alphabet - s.desc.lens.length) 0).length = a := by
      rw [← hc.alphabet] at hl ⊢; simp; omega
    rw [he] at hk
    exact hk
  · rw [run_bind_error (run_require_false h0 _ _)]
    exact stops_raise _ (by decide)

theorem complex_triple (hX : FreeDesc X) (a hskip : Nat) :
    Triple (fun s => OnS p s ∧ X s) (complex a hskip) (fun t s => OnS p s ∧ X s ∧ t.over a = true) Stops := by
  refine (Triple.update (Q := fun _ s => (OnS p s ∧ X s) ∧ s.desc = .start a hskip) fun s h =>
    ⟨⟨h.1, hX s s.rd _ h.2⟩, rfl⟩).bind fun _ => ?_
  refine Triple.bind (Q := fun _ s => (OnS p s ∧ X s ∧ s.desc.ClOk) ∧ ∃ u : State, u.desc = .start a hskip ∧
    Kept [.rd, .descCl, .descPos, .descSpace, .descNz] u s) ?_ fun _ => ?_
  · intro s hs
    have := ((clcl_triple hX hskip).kept (Keeps.clcl hskip) s) s ⟨hs.1, rfl⟩
    revert this
    cases clcl hskip s with
    | error e => exact id
    | ok r => obtain ⟨b, t⟩ := r; exact fun h => ⟨h.1, s, hs.2, h.2⟩
  refine Triple.bind (Q := fun _ s => OnS p s ∧ X s ∧ s.desc.LensOk a) ?_ fun _ =>
    (stage2_triple hX a).bind fun _ => stage3_triple
  rintro s ⟨hs, u, hu, hk⟩
  have hb := (buildClc_triple hX) s hs
  have hkb := Keeps.buildClc s
  revert hb hkb
  cases buildClc s with
  | error e => exact fun h _ => h
  | ok r =>
    obtain ⟨b, t⟩ := r
    rintro ⟨h1, h2, h3⟩ h4
    have hk' := (hk.mono (L' := [.rd, .descCl, .descPos, .descSpace, .descNz, .descClc]) (by simp)).trans
      (h4.mono (by simp))
    have e1 : u.desc.alphabet = t.desc.alphabet := hk'.1 .descAlphabet (by simp)
    have e2 : u.desc.lens = t.desc.lens := hk'.1 .descLens (by simp)
    have e3 : u.desc.lastLen = t.desc.lastLen := hk'.1 .descLast (by simp)
    have e4 : u.desc.room = t.desc.room := hk'.1 .descRoom (by simp)
    rw [hu] at e1 e2 e3 e4
    simp only [Desc.start] at e1 e2 e3 e4
    exact ⟨h1, h2, e1.symm, by rw [← e2]; simp, by rw [← e2]; simp, by rw [← e4, ← e2]; simp [kraftOf],
      by rw [← e3]; decide, h3⟩

theorem readCode_triple (hX : FreeDesc X) {a : Nat} (ha : a ≤ 704) :
    Triple (fun s => OnS p s ∧ X s) (readCode a) (fun t s => OnS p s ∧ X s ∧ t.over a = true) Stops :=
  (bits_triple hX.rd (by omega)).bind fun v => Triple.ite
    (fun _ => (simple_triple hX.rd ha).conseq (fun _ h => ⟨h.1, h.2.1⟩) (fun _ _ h => h) (fun _ h => h))
    (fun _ => (complex_triple hX a v).conseq (fun _ h => ⟨h.1, h.2.1⟩) (fun _ _ h => h) (fun _ h => h))

end Sys2Proof.Machine
end

