-- ==== Sys2Proof/Laws/HeaderValid.lean ====
section
/-! SUPPORT. What the parts of a meta-block header leave, whatever the stream holds: block states, map entries and banks
that fit each other (R36, R277). -/

namespace Sys2Proof.Machine

variable {α β : Type} {p : Nat} {X : State → Prop}

/-- The property does not depend on the pieces of `L`. -/
def FreeOf (L : List Fld) (X : State → Prop) : Prop := ∀ u t, sameBut L u t → X u → X t

theorem freeDesc_true : FreeDesc fun _ => True := fun _ _ _ _ => trivial

/-- What an operation does not write it does not change. -/
theorem Triple.carry {P : State → Prop} {op : M α} {Q : α → State → Prop} {E : Stop → Prop} {L : List Fld}
    (h : Triple P op Q E) (hk : Keeps L op) (hX : FreeOf L X) :
    Triple (fun s => P s ∧ X s) op (fun a t => Q a t ∧ X t) E := by
  rintro s ⟨hs, hx⟩
  have h1 := h s hs
  have h2 := hk s
  cases hop : op s with
  | error e => simpa only [hop] using h1
  | ok r => obtain ⟨a, t⟩ := r; simp only [hop] at h1 h2 ⊢; exact ⟨h1, hX s t h2.1 hx⟩

/-- The same, with the properties of the stream position apart. -/
theorem Triple.carryOn {A : State → Prop} {op : M α} {Q : α → State → Prop} {E : Stop → Prop} {L : List Fld}
    (h : Triple (fun s => OnS p s ∧ A s) op (fun a s => OnS p s ∧ Q a s) E) (hk : Keeps L op) (hX : FreeOf L X) :
    Triple (fun s => OnS p s ∧ A s ∧ X s) op (fun a s => OnS p s ∧ Q a s ∧ X s) E :=
  (h.carry hk hX).conseq (fun _ h => ⟨⟨h.1, h.2.1⟩, h.2.2⟩) (fun _ _ h => ⟨h.1.1, h.1.2, h.2⟩) (fun _ h => h)

theorem blk_same {L : List Fld} {u t : State} (c : Cat) (h : sameBut L u t) (hd : ∀ f ∈ blkFlds c, f ∉ L) :
    u.blk c = t.blk c := by
  have h1 := h _ (hd (.num c) (by simp [blkFlds]))
  have h2 := h _ (hd (.cur c) (by simp [blkFlds]))
  have h3 := h _ (hd (.prev c) (by simp [blkFlds]))
  have h4 := h _ (hd (.cnt c) (by simp [blkFlds]))
  have h5 := h _ (hd (.tcode c) (by simp [blkFlds]))
  have h6 := h _ (hd (.lcode c) (by simp [blkFlds]))
  simp only [Fld.same] at h1 h2 h3 h4 h5 h6
  cases hu : u.blk c; cases ht : t.blk c
  simp_all

/-! Block switching. -/

theorem nbltypes_triple (hX : FreeRd X) :
    Triple (fun s => OnS p s ∧ X s) nbltypes (fun n s => OnS p s ∧ X s ∧ 1 ≤ n ∧ n ≤ 256) Stops := by
  refine (bits_triple hX (by omega)).bind fun b => Triple.ite (fun _ => Triple.pure fun _ h => ⟨h.1, h.2.1, by omega⟩)
    fun _ => ?_
  refine (((bits_triple hX (n := 3) (by omega)).conseq (fun _ h => ⟨h.1, h.2.1⟩) (fun _ _ h => h)
    (fun _ h => h))).bind fun k => Triple.given fun hk => ?_
  refine (bits_triple hX (by omega)).bind fun e => Triple.pure fun s h => ⟨h.1, h.2.1, ?_⟩
  have := h.2.2
  have : 2 ^ k ≤ 2 ^ 7 := Nat.pow_le_pow_right (by omega) (by omega)
  rw [Nat.one_shiftLeft]; omega

theorem blen_triple (hX : FreeRd X) {code : Table} (hc : code.over 26 = true) :
    Triple (fun s => OnS p s ∧ X s) (blen code) (fun _ s => OnS p s ∧ X s) Stops :=
  (sym_over hX hc).bind fun v => ((baseExtra_triple hX (blenExtra_le v)).conseq (fun _ h => ⟨h.1, h.2.1⟩)
    (fun _ _ h => ⟨h.1, h.2.1⟩) (fun _ h => h))

theorem setBlk_blk (s : State) (c : Cat) (b : Block) : (s.setBlk c b).blk c = b := by cases c <;> rfl

theorem onS_setBlk {s : State} (c : Cat) (b : Block) (h : OnS p s) : OnS p (s.setBlk c b) := by cases c <;> exact h

theorem onS_desc {s : State} (d : Desc) (h : OnS p s) : OnS p { s with desc := d } := h

theorem setBlk_rd_blk (s : State) (r : Reader) (c : Cat) : ({ s with rd := r } : State).blk c = s.blk c := by
  cases c <;> rfl

theorem setBlk_desc_blk (s : State) (r : Reader) (d : Desc) (c : Cat) :
    ({ s with rd := r, desc := d } : State).blk c = s.blk c := by cases c <;> rfl

/-- A property of one category does not depend on the cursor or the descriptor registers. -/
theorem freeDesc_blk {c : Cat} (B : Block → Prop) : FreeDesc fun s => B (s.blk c) := fun s r d h => by
  show B _
  rw [setBlk_desc_blk]; exact h

theorem blkdesc_triple (c : Cat) :
    Triple (fun s => OnS p s) (blkdesc c) (fun _ s => OnS p s ∧ (s.blk c).Ok) Stops := by
  have h0 : Triple (fun s => OnS p s) nbltypes (fun n s => OnS p s ∧ True ∧ 1 ≤ n ∧ n ≤ 256) Stops :=
    (nbltypes_triple (X := fun _ => True) fun _ _ _ => trivial).conseq (fun _ h => ⟨h, trivial⟩) (fun _ _ h => h)
      (fun _ h => h)
  refine h0.bind fun n => Triple.given fun hn => ?_
  refine Triple.bind (Q := fun _ s => OnS p s ∧ (s.blk c).num = n ∧ (s.blk c).cur = 0 ∧ (s.blk c).prev = 1)
    (Triple.update fun s h => ⟨onS_setBlk c _ h.1, by simp only [setBlk_blk]; exact ⟨trivial, trivial, trivial⟩⟩) fun _ => ?_
  refine Triple.ite (fun h1 => ?_) fun h1 => ?_
  · refine (readCode_triple (freeDesc_blk fun b => b.num = n ∧ b.cur = 0 ∧ b.prev = 1) (a := n + 2) (by omega)).bind
      fun tcode => Triple.given fun ht => ?_
    refine Triple.bind (Q := fun _ s => OnS p s ∧ (s.blk c).num = n ∧ (s.blk c).cur = 0 ∧ (s.blk c).prev = 1 ∧
      (s.blk c).tcode = some tcode) (Triple.update fun s h => ⟨onS_setBlk c _ h.1, by
        simp only [setBlk_blk]; exact ⟨h.2.1, h.2.2.1, h.2.2.2, trivial⟩⟩) fun _ => ?_
    refine (readCode_triple (freeDesc_blk fun b => b.num = n ∧ b.cur = 0 ∧ b.prev = 1 ∧ b.tcode = some tcode)
      (a := 26) (by omega)).bind fun lcode => Triple.given fun hl => ?_
    refine Triple.bind (Q := fun _ s => OnS p s ∧ (s.blk c).num = n ∧ (s.blk c).cur = 0 ∧ (s.blk c).prev = 1 ∧
      (s.blk c).tcode = some tcode ∧ (s.blk c).lcode = some lcode) (Triple.update fun s h => ⟨onS_setBlk c _ h.1, by
        simp only [setBlk_blk]; exact ⟨h.2.1, h.2.2.1, h.2.2.2.1, h.2.2.2.2, trivial⟩⟩) fun _ => ?_
    refine (blen_triple (freeDesc_blk fun b => b.num = n ∧ b.cur = 0 ∧ b.prev = 1 ∧ b.tcode = some tcode ∧
      b.lcode = some lcode).rd hl).bind fun cnt => Triple.update fun s h => ⟨onS_setBlk c _ h.1, ?_⟩
    obtain ⟨_, e1, e2, e3, e4, e5⟩ := h
    rw [setBlk_blk]
    exact ⟨by simp only [e1]; exact hn, by simp only [e1, e2]; omega, by simp only [e1, e3]; omega,
      by simp only [e1]; omega, fun _ => ⟨by simp, ⟨tcode, e4, by simp only [e1]; exact ht⟩, ⟨lcode, e5, hl⟩⟩⟩
  · refine Triple.update fun s h => ⟨onS_setBlk c _ h.1, ?_⟩
    obtain ⟨_, e1, e2, e3⟩ := h
    rw [setBlk_blk]
    exact ⟨by simp only [e1]; exact hn, by simp only [e1, e2]; omega, by simp only [e1, e3]; omega,
      fun _ => rfl, by simp only [e1]; omega⟩

/-! Context maps. -/

/-- The property depends neither on the cursor, the descriptor registers nor the map registers. -/
def FreeMap (X : State → Prop) : Prop := ∀ s r d c, X s → X { s with rd := r, desc := d, cmr := c }

theorem FreeMap.desc (h : FreeMap X) : FreeDesc X := fun s r d hx => h s r d s.cmr hx

theorem rlemax_triple (hX : FreeRd X) (len : Nat) :
    Triple (fun s => OnS p s ∧ X s) (rlemax len) (fun r s => OnS p s ∧ X s ∧ r ≤ 16) Stops := by
  refine (bits_triple hX (by omega)).bind fun b => Triple.ite (fun _ => ?_) fun _ => ?_
  · exact (Triple.require (Q := fun _ s => OnS p s ∧ X s) (fun _ h _ => ⟨h.1, h.2.1⟩)
      (fun s _ _ => stops_raise s (by decide))).bind fun _ => Triple.pure fun _ h => ⟨h.1, h.2, by omega⟩
  · refine (((bits_triple hX (n := 4) (by omega)).conseq (fun _ h => ⟨h.1, h.2.1⟩) (fun _ _ h => h)
      (fun _ h => h))).bind fun e => Triple.given fun he => ?_
    exact (Triple.require (Q := fun _ s => OnS p s ∧ X s) (fun _ h _ => h)
      (fun s _ _ => stops_raise s (by decide))).bind fun _ => Triple.pure fun _ h => ⟨h.1, h.2, by omega⟩

/-- The registers of a map between its symbols (R271 to R274). -/
structure MapRegs.Ok (len r trees : Nat) (c : MapRegs) : Prop where
  size : c.len = len
  top : c.rlemax = r
  code : c.code.over (r + trees) = true
  fits : c.map.length ≤ len
  entries : ∀ k ∈ c.map, k < trees

theorem cmSymbol_triple (hX : FreeMap X) {len r trees v q : Nat} (hr : r ≤ 16) (ht : 1 ≤ trees)
    (hv : v < r + trees) :
    Triple (fun s => OnS p s ∧ X s ∧ s.cmr.Ok len r trees ∧ s.cmr.map.length < len ∧ q ≤ s.cmr.map.length) (cmSymbol v)
      (fun _ s => OnS p s ∧ X s ∧ s.cmr.Ok len r trees ∧ q + 1 ≤ s.cmr.map.length) Stops := by
  refine Triple.get_bind fun t => ?_
  refine Triple.ite (fun h0 => ?_) fun h0 => Triple.ite (fun h1 => ?_) fun h1 => ?_
  · refine Triple.update fun s h => ?_
    obtain ⟨⟨ho, hx, hc, hl, hq⟩, rfl⟩ := h
    refine ⟨ho, hX s s.rd s.desc _ hx, ⟨hc.size, hc.top, hc.code, by simp; omega, ?_⟩, by simp; omega⟩
    intro k hk
    rcases List.mem_append.1 hk with h | h
    · exact hc.entries k h
    · simp at h; omega
  · intro s hs
    obtain ⟨⟨ho, hx, hc, hl, hq⟩, rfl⟩ := hs
    have hv25 : v ≤ 25 := by have := hc.top; omega
    refine ((bits_triple (p := p) (X := fun s => X s ∧ s.cmr.Ok len r trees ∧ s.cmr.map.length < len ∧ q ≤ s.cmr.map.length)
      (fun s r h => ⟨hX s r s.desc s.cmr h.1, h.2⟩) hv25).bind (f := fun e => get >>= fun s => require
        (s.cmr.map.length + ((1 <<< v) + e) ≤ s.cmr.len) (.invalid .cmapRunPastEnd) >>= fun _ => modify fun s =>
        { s with cmr := { s.cmr with map := s.cmr.map ++ List.replicate ((1 <<< v) + e) 0 } })
        (R := fun _ s => OnS p s ∧ X s ∧ s.cmr.Ok len r trees ∧ q + 1 ≤ s.cmr.map.length)
        fun e => Triple.get_bind fun t => ?_) s ⟨ho, hx, hc, hl, hq⟩
    refine (Triple.require (Q := fun _ s => (OnS p s ∧ X s ∧ s.cmr.Ok len r trees ∧ q ≤ s.cmr.map.length) ∧
      s.cmr.map.length + ((1 <<< v) + e) ≤ s.cmr.len)
      (fun s h hc => ⟨⟨h.1.1, h.1.2.1.1, h.1.2.1.2.1, h.1.2.1.2.2.2⟩, by rw [h.2]; exact hc⟩)
      (fun s _ _ => stops_raise s (by decide))).bind fun _ => Triple.update fun s h => ?_
    obtain ⟨⟨ho, hx, hc, hq⟩, hf⟩ := h
    rw [hc.size] at hf
    have h1 := Nat.one_le_two_pow (n := v)
    rw [Nat.one_shiftLeft] at hf ⊢
    refine ⟨ho, hX s s.rd s.desc _ hx, ⟨hc.size, hc.top, hc.code, by simpa using hf, ?_⟩, by simp; omega⟩
    intro k hk
    rcases List.mem_append.1 hk with h | h
    · exact hc.entries k h
    · have := (List.mem_replicate.1 h).2; omega
  · refine Triple.get_bind fun t' => ?_
    refine (Triple.precondition (Q := fun _ s => (OnS p s ∧ X s ∧ s.cmr.Ok len r trees ∧ s.cmr.map.length < len ∧
      q ≤ s.cmr.map.length) ∧ r < v) (fun s h _ => ⟨h.1.1, ?_⟩) (fun s h hc => ?_)).bind fun _ => Triple.update fun s h => ?_
    · obtain ⟨⟨h, rfl⟩, rfl⟩ := h
      have := h.2.2.1.top; omega
    · obtain ⟨⟨h, rfl⟩, rfl⟩ := h
      exact absurd (by omega) hc
    · obtain ⟨⟨ho, hx, hc, hl, hq⟩, hrv⟩ := h
      refine ⟨ho, hX s s.rd s.desc _ hx, ⟨hc.size, hc.top, hc.code, by simp; omega, ?_⟩, by simp; omega⟩
      intro k hk
      rcases List.mem_append.1 hk with h | h
      · exact hc.entries k h
      · simp at h; rw [hc.top] at h; omega

theorem cmapLoop_triple (hX : FreeMap X) {len r trees : Nat} (hr : r ≤ 16) (ht : 1 ≤ trees) : ∀ fuel q, len ≤ q + fuel →
    Triple (fun s => OnS p s ∧ X s ∧ s.cmr.Ok len r trees ∧ q ≤ s.cmr.map.length) (cmapLoop fuel)
      (fun _ s => OnS p s ∧ X s ∧ s.cmr.Ok len r trees ∧ s.cmr.map.length = len) Stops
  | 0, q, hq => Triple.pure fun s h => ⟨h.1, h.2.1, h.2.2.1, by have := h.2.2.1.fits; omega⟩
  | fuel + 1, q, hq => by
    refine Triple.get_bind fun t => Triple.ite (fun hlt => ?_) fun hge => ?_
    · by_cases ht' : t.cmr.Ok len r trees
      · refine Triple.bind ((sym_over (p := p) (X := fun s => X s ∧ s.cmr.Ok len r trees ∧ s.cmr.map.length < len ∧
          q ≤ s.cmr.map.length) (fun s r h => ⟨hX s r s.desc s.cmr h.1, h.2⟩) ht'.code).conseq (fun s h => ?_)
          (fun _ _ h => h) (fun _ h => h)) fun v => Triple.given fun hv => ?_
        · obtain ⟨⟨h1, h2, h3, h4⟩, rfl⟩ := h
          exact ⟨h1, h2, h3, by rw [← h3.size]; exact hlt, h4⟩
        · exact (cmSymbol_triple hX hr ht hv).bind fun _ => cmapLoop_triple hX hr ht fuel (q + 1) (by omega)
      · rintro s ⟨h, rfl⟩
        exact absurd h.2.2.1 ht'
    · refine Triple.pure fun s h => ?_
      obtain ⟨⟨h1, h2, h3, h4⟩, rfl⟩ := h
      exact ⟨h1, h2, h3, by have := h3.fits; have := h3.size; omega⟩

theorem cmap_triple (hX : FreeMap X) (len : Nat) {trees : Nat} (h1 : 1 ≤ trees) (h2 : trees ≤ 256) :
    Triple (fun s => OnS p s ∧ X s) (cmap len trees)
      (fun m s => OnS p s ∧ X s ∧ m.length = len ∧ ∀ k ∈ m, k < trees) Stops := by
  refine Triple.ite (fun h => Triple.pure fun s hs => ⟨hs.1, hs.2, by simp, ?_⟩) fun _ => ?_
  · intro k hk
    have := (List.mem_replicate.1 hk).2; omega
  refine (rlemax_triple hX.desc.rd len).bind fun r => Triple.given fun hr => ?_
  refine (readCode_triple hX.desc (a := r + trees) (by omega)).bind fun code => Triple.given fun hc => ?_
  refine Triple.bind (Q := fun _ s => OnS p s ∧ X s ∧ s.cmr.Ok len r trees ∧ 0 ≤ s.cmr.map.length)
    (Triple.update fun s h => ⟨h.1, hX s s.rd s.desc _ h.2, ⟨rfl, rfl, hc, by simp [MapRegs.start],
      by simp [MapRegs.start]⟩, Nat.zero_le _⟩) fun _ => ?_
  refine (cmapLoop_triple hX hr h1 len 0 (by omega)).bind fun _ => ?_
  refine Triple.bind (Q := fun _ s => OnS p s ∧ X s ∧ s.cmr.map.length = len ∧ ∀ k ∈ s.cmr.map, k < trees) ?_ fun _ =>
    Triple.get_bind fun t => Triple.pure fun s h => by
      obtain ⟨h, rfl⟩ := h
      exact h
  refine (bits_triple (X := fun s => X s ∧ s.cmr.Ok len r trees ∧ s.cmr.map.length = len)
    (fun s r h => ⟨hX s r s.desc s.cmr h.1, h.2⟩) (by omega)).bind fun flag => ?_
  refine Triple.bind (Q := fun _ s => OnS p s ∧ X s ∧ s.cmr.map.length = len ∧ ∀ k ∈ s.cmr.map, k < trees)
    (Triple.ite (fun _ => ?_) fun _ => Triple.pure fun s h => ⟨h.1, h.2.1.1, h.2.1.2.2, h.2.1.2.1.entries⟩) fun _ =>
    Triple.pure fun _ h => h
  rintro s ⟨ho, ⟨hx, hc, hl⟩, _⟩
  obtain ⟨m, hm⟩ := imtf_run s fun i hi => by have := hc.entries i hi; omega
  rw [hm]
  exact ⟨ho, hX s s.rd s.desc _ hx, by rw [length_inverseMtf, hl], inverseMtf_lt (below_range h2) hc.entries⟩

/-! The rest of the header. -/

theorem cmode_triple (hX : FreeRd X) {t : Nat} (hX' : ∀ s m, X s → X { s with modes := m }) :
    Triple (fun s => OnS p s ∧ X s ∧ s.modes.length = t) (cmode t)
      (fun _ s => OnS p s ∧ X s ∧ s.modes.length = t + 1) Stops :=
  (bits_triple (X := fun s => X s ∧ s.modes.length = t) (fun s r h => ⟨hX s r h.1, h.2⟩) (by omega)).bind fun v =>
    Triple.update fun s h => ⟨h.1, hX' _ _ h.2.1.1, by
      simp only [putEntry, h.2.1.2, lt_irrefl, if_false, Nat.sub_self, List.replicate_zero, List.append_nil,
        List.length_append, List.length_singleton]⟩

theorem cmodes_triple (hX : FreeRd X) (hX' : ∀ s m, X s → X { s with modes := m }) : ∀ k t,
    Triple (fun s => OnS p s ∧ X s ∧ s.modes.length = t) (cmodes k t)
      (fun _ s => OnS p s ∧ X s ∧ s.modes.length = t + k) Stops
  | 0, t => Triple.pure fun _ h => h
  | k + 1, t => ((cmode_triple hX hX').bind fun _ => cmodes_triple hX hX' k (t + 1)).conseq (fun _ h => h)
      (fun _ _ h => ⟨h.1, h.2.1, by have := h.2.2; omega⟩) (fun _ h => h)

theorem readCodes_triple (hX : FreeDesc X) {a : Nat} (ha : a ≤ 704) : ∀ k,
    Triple (fun s => OnS p s ∧ X s) (readCodes a k)
      (fun l s => OnS p s ∧ X s ∧ l.length = k ∧ ∀ t ∈ l, t.over a = true) Stops
  | 0 => Triple.pure fun _ h => ⟨h.1, h.2, rfl, by simp⟩
  | k + 1 => (readCode_triple hX ha).bind fun t => Triple.given fun ht =>
      (readCodes_triple hX ha k).bind fun r => Triple.pure fun _ h => ⟨h.1, h.2.1, by simp [h.2.2.1], by
        intro x hx
        rcases List.mem_cons.1 hx with rfl | hx
        · exact ht
        · exact h.2.2.2 x hx⟩

/-- What a compressed meta-block's header leaves (R36 item 1, R277). -/
structure State.HeaderOk (s : State) : Prop where
  distance : s.npostfix ≤ 3 ∧ s.direct ≤ 15 <<< s.npostfix
  blocks : ∀ c, (s.blk c).Ok
  modes : s.modes.length = s.blkL.num
  litMap : s.litMap.length = 64 * s.blkL.num ∧ ∀ k ∈ s.litMap, k < s.litCodes
  distMap : s.distMap.length = 4 * s.blkD.num ∧ ∀ k ∈ s.distMap, k < s.distCodes
  litBank : s.litBank.length = s.litCodes ∧ ∀ t ∈ s.litBank, t.over 256 = true
  iacBank : s.iacBank.length = s.blkI.num ∧ ∀ t ∈ s.iacBank, t.over 704 = true
  distBank : s.distBank.length = s.distCodes ∧ ∀ t ∈ s.distBank, t.over s.dalpha = true

theorem dalpha_le {s : State} (h : s.npostfix ≤ 3 ∧ s.direct ≤ 15 <<< s.npostfix) : s.dalpha ≤ 704 := by
  obtain ⟨h1, h2⟩ := h
  unfold State.dalpha
  generalize s.npostfix = n at *
  interval_cases n <;> simp at h2 ⊢ <;> omega

/-- After the block descriptors and the two distance parameters. -/
def Half1 (s : State) : Prop := (∀ c, (s.blk c).Ok) ∧ s.npostfix ≤ 3 ∧ s.direct ≤ 15 <<< s.npostfix

/-- After the context modes as well. -/
def Half2 (s : State) : Prop := Half1 s ∧ s.modes.length = s.blkL.num

/-- After the literal map as well. -/
def Half3 (s : State) : Prop := Half2 s ∧ (s.litMap.length = 64 * s.blkL.num ∧ ∀ k ∈ s.litMap, k < s.litCodes)

/-- After both maps. -/
def Half4 (s : State) : Prop := Half3 s ∧ (s.distMap.length = 4 * s.blkD.num ∧ ∀ k ∈ s.distMap, k < s.distCodes)

theorem half1_of {s t : State} (hb : ∀ c, s.blk c = t.blk c) (hn : s.npostfix = t.npostfix) (hd : s.direct = t.direct)
    (h : Half1 s) : Half1 t := by
  refine ⟨fun c => by rw [← hb]; exact h.1 c, by rw [← hn, ← hd]; exact h.2⟩

theorem half1_fields {s : State} (r : Reader) (d : Desc) (c : MapRegs) (m : List CtxMode) (n1 n2 : Nat) (l1 l2 : List Nat)
    (b1 b2 b3 : List Table) (h : Half1 s) :
    Half1 { s with
      rd := r, desc := d, cmr := c, modes := m, litCodes := n1, distCodes := n2, litMap := l1, distMap := l2
      litBank := b1, iacBank := b2, distBank := b3 } :=
  half1_of (fun c => by cases c <;> rfl) rfl rfl h

theorem half1_triple : Triple (fun s => OnS p s)
    (blkdesc .L >>= fun _ => blkdesc .I >>= fun _ => blkdesc .D >>= fun _ => npostfix >>= fun _ => ndirect)
    (fun _ s => OnS p s ∧ Half1 s) Stops := by
  refine (blkdesc_triple .L).bind fun _ => ?_
  refine (((blkdesc_triple .I).carry (Keeps.blkdesc .I) (X := fun s => (s.blk .L).Ok) fun u t h hx => by
    beta_reduce
    rw [← blk_same .L h (by simp [blkFlds, descFlds])]; exact hx)).bind fun _ => ?_
  refine ((((blkdesc_triple .D).carry (Keeps.blkdesc .D) (X := fun s => (s.blk .L).Ok ∧ (s.blk .I).Ok) fun u t h hx => by
    beta_reduce
    rw [← blk_same .L h (by simp [blkFlds, descFlds]), ← blk_same .I h (by simp [blkFlds, descFlds])]; exact hx)).conseq
      (fun s h => ⟨h.1.1, h.2, h.1.2⟩) (fun _ _ h => h) (fun _ h => h)).bind fun _ => ?_
  have hb : ∀ s : State, ((OnS p s ∧ (s.blk .D).Ok) ∧ (s.blk .L).Ok ∧ (s.blk .I).Ok) → OnS p s ∧ ∀ c, (s.blk c).Ok := by
    rintro s ⟨⟨h1, h2⟩, h3, h4⟩
    exact ⟨h1, fun c => by cases c <;> assumption⟩
  refine Triple.bind (Q := fun _ s => OnS p s ∧ ((∀ c, (s.blk c).Ok) ∧ s.npostfix ≤ 3)) ?_ fun _ => ?_
  · refine (bits_triple (X := fun s => ∀ c, (s.blk c).Ok) (p := p) (fun s r h c => by rw [setBlk_rd_blk]; exact h c)
      (n := 2) (by omega)).conseq hb (fun _ _ h => h) (fun _ h => h) |>.bind fun v => Triple.update fun s h => ⟨h.1, ?_, ?_⟩
    · intro c; have := h.2.1 c; cases c <;> exact this
    · show v ≤ 3; have := h.2.2; omega
  · refine (bits_triple (X := fun s => (∀ c, (s.blk c).Ok) ∧ s.npostfix ≤ 3)
      (fun s r h => ⟨fun c => by rw [setBlk_rd_blk]; exact h.1 c, h.2⟩) (n := 4) (by omega)).bind fun v =>
      Triple.update fun s h => ⟨h.1, ?_, h.2.1.2, ?_⟩
    · intro c; have := h.2.1.1 c; cases c <;> exact this
    · show v <<< s.npostfix ≤ 15 <<< s.npostfix
      have := h.2.2
      rw [Nat.shiftLeft_eq, Nat.shiftLeft_eq]; exact Nat.mul_le_mul_right _ (by omega)

theorem ntreesl_triple : Triple (fun s => OnS p s ∧ Half2 s) ntreesl (fun _ s => OnS p s ∧ Half3 s) Stops := by
  have hX : FreeMap Half2 := fun s r d c h => ⟨half1_fields r d c _ _ _ _ _ _ _ _ h.1, h.2⟩
  refine (nbltypes_triple hX.desc.rd).bind fun n => Triple.given fun hn => ?_
  refine Triple.bind (Q := fun _ s => OnS p s ∧ Half2 s ∧ s.litCodes = n) (Triple.update fun s h =>
    ⟨h.1, ⟨half1_fields s.rd s.desc s.cmr s.modes n _ _ _ _ _ _ h.2.1, h.2.2⟩, rfl⟩) fun _ => Triple.get_bind fun t => ?_
  intro s hs
  obtain ⟨⟨ho, hx, hl⟩, rfl⟩ := hs
  rw [hl]
  refine ((cmap_triple (p := p) (X := fun s' => (Half2 s' ∧ s'.litCodes = n) ∧ s'.blkL.num = s.blkL.num)
    (fun s r d c h => ⟨⟨hX s r d c h.1.1, h.1.2⟩, h.2⟩) (64 * s.blkL.num) hn.1 hn.2).bind (f := fun m => modify fun s =>
    { s with litMap := m }) (R := fun _ s => OnS p s ∧ Half3 s) fun m => Triple.update fun u h => ?_) s ⟨ho, ⟨hx, hl⟩, rfl⟩
  obtain ⟨h1, ⟨⟨h2, h3⟩, h4⟩, h5, h6⟩ := h
  refine ⟨h1, ⟨⟨half1_fields u.rd u.desc u.cmr u.modes _ _ m _ _ _ _ h2.1, h2.2⟩, ?_, ?_⟩⟩
  · show m.length = 64 * u.blkL.num; rw [h4]; exact h5
  · show ∀ k ∈ m, k < u.litCodes; rw [h3]; exact h6

theorem ntreesd_triple : Triple (fun s => OnS p s ∧ Half3 s) ntreesd (fun _ s => OnS p s ∧ Half4 s) Stops := by
  have hX : FreeMap Half3 := fun s r d c h => ⟨⟨half1_fields r d c _ _ _ _ _ _ _ _ h.1.1, h.1.2⟩, h.2⟩
  refine (nbltypes_triple hX.desc.rd).bind fun n => Triple.given fun hn => ?_
  refine Triple.bind (Q := fun _ s => OnS p s ∧ Half3 s ∧ s.distCodes = n) (Triple.update fun s h =>
    ⟨h.1, ⟨⟨half1_fields s.rd s.desc s.cmr s.modes _ n _ _ _ _ _ h.2.1.1, h.2.1.2⟩, h.2.2⟩, rfl⟩) fun _ =>
    Triple.get_bind fun t => ?_
  intro s hs
  obtain ⟨⟨ho, hx, hl⟩, rfl⟩ := hs
  rw [hl]
  refine ((cmap_triple (p := p) (X := fun s' => (Half3 s' ∧ s'.distCodes = n) ∧ s'.blkD.num = s.blkD.num)
    (fun s r d c h => ⟨⟨hX s r d c h.1.1, h.1.2⟩, h.2⟩) (4 * s.blkD.num) hn.1 hn.2).bind (f := fun m => modify fun s =>
    { s with distMap := m }) (R := fun _ s => OnS p s ∧ Half4 s) fun m => Triple.update fun u h => ?_) s ⟨ho, ⟨hx, hl⟩, rfl⟩
  obtain ⟨h1, ⟨⟨h2, h3⟩, h4⟩, h5, h6⟩ := h
  refine ⟨h1, ⟨⟨⟨half1_fields u.rd u.desc u.cmr u.modes _ _ _ m _ _ _ h2.1.1, h2.1.2⟩, h2.2⟩, ?_, ?_⟩⟩
  · show m.length = 4 * u.blkD.num; rw [h4]; exact h5
  · show ∀ k ∈ m, k < u.distCodes; rw [h3]; exact h6

theorem half4_bank {s : State} (r : Reader) (d : Desc) (b1 b2 b3 : List Table) (h : Half4 s) :
    Half4 { s with rd := r, desc := d, litBank := b1, iacBank := b2, distBank := b3 } :=
  ⟨⟨⟨half1_fields r d s.cmr s.modes _ _ _ _ b1 b2 b3 h.1.1.1, h.1.1.2⟩, h.1.2⟩, h.2⟩

theorem banks_triple : Triple (fun s => OnS p s ∧ Half4 s) banks (fun _ s => OnS p s ∧ s.HeaderOk) Stops := by
  refine Triple.get_bind fun t => ?_
  rintro s ⟨⟨ho, hx⟩, rfl⟩
  refine ((readCodes_triple (p := p) (X := fun u => Half4 u ∧ u.litCodes = s.litCodes ∧ u.blkI.num = s.blkI.num ∧
    u.distCodes = s.distCodes ∧ u.dalpha = s.dalpha) (fun u r d h => ⟨half4_bank r d _ _ _ h.1, h.2⟩) (a := 256)
    (by omega) s.litCodes).bind (R := fun _ s => OnS p s ∧ s.HeaderOk) fun l1 => ?_) s ⟨ho, hx, rfl, rfl, rfl, rfl⟩
  refine Triple.given fun h1 => ?_
  refine Triple.bind (Q := fun _ u => OnS p u ∧ (Half4 u ∧ u.litCodes = s.litCodes ∧ u.blkI.num = s.blkI.num ∧
    u.distCodes = s.distCodes ∧ u.dalpha = s.dalpha) ∧ u.litBank = l1) (Triple.update fun u h =>
    ⟨h.1, ⟨half4_bank u.rd u.desc l1 _ _ h.2.1, h.2.2⟩, rfl⟩) fun _ => ?_
  refine (readCodes_triple (X := fun u => (Half4 u ∧ u.litCodes = s.litCodes ∧ u.blkI.num = s.blkI.num ∧
    u.distCodes = s.distCodes ∧ u.dalpha = s.dalpha) ∧ u.litBank = l1)
    (fun u r d h => ⟨⟨half4_bank r d _ _ _ h.1.1, h.1.2⟩, h.2⟩) (a := 704) (by omega) s.blkI.num).bind fun l2 => ?_
  refine Triple.given fun h2 => ?_
  refine Triple.bind (Q := fun _ u => OnS p u ∧ (Half4 u ∧ u.litCodes = s.litCodes ∧ u.blkI.num = s.blkI.num ∧
    u.distCodes = s.distCodes ∧ u.dalpha = s.dalpha) ∧ u.litBank = l1 ∧ u.iacBank = l2) (Triple.update fun u h =>
    ⟨h.1, ⟨half4_bank u.rd u.desc _ l2 _ h.2.1.1, h.2.1.2⟩, h.2.2, rfl⟩) fun _ => ?_
  refine (readCodes_triple (X := fun u => (Half4 u ∧ u.litCodes = s.litCodes ∧ u.blkI.num = s.blkI.num ∧
    u.distCodes = s.distCodes ∧ u.dalpha = s.dalpha) ∧ u.litBank = l1 ∧ u.iacBank = l2)
    (fun u r d h => ⟨⟨half4_bank r d _ _ _ h.1.1, h.1.2⟩, h.2⟩) (a := s.dalpha)
    (dalpha_le hx.1.1.1.2) s.distCodes).bind fun l3 => ?_
  refine Triple.given fun h3 => Triple.update fun u h => ?_
  obtain ⟨ho, ⟨hh, e1, e2, e3, e4⟩, e5, e6⟩ := h
  have hh' := half4_bank u.rd u.desc u.litBank u.iacBank l3 hh
  refine ⟨ho, hh'.1.1.1.2, hh'.1.1.1.1, hh'.1.1.2, hh'.1.2, hh'.2, ?_, ?_, ?_⟩
  · show u.litBank.length = u.litCodes ∧ ∀ t ∈ u.litBank, _
    rw [e5, e1]; exact h1
  · show u.iacBank.length = u.blkI.num ∧ ∀ t ∈ u.iacBank, _
    rw [e6, e2]; exact h2
  · show l3.length = u.distCodes ∧ ∀ t ∈ l3, t.over u.dalpha = true
    rw [e3, e4]; exact h3

theorem header_triple : Triple (fun s => OnS p s) header (fun _ s => OnS p s ∧ s.HeaderOk) Stops := by
  have e : header = (blkdesc .L >>= fun _ => blkdesc .I >>= fun _ => blkdesc .D >>= fun _ => npostfix >>= fun _ => ndirect)
      >>= fun _ => (modify fun s => { s with modes := [] }) >>= fun _ => get >>= fun s => cmodes s.blkL.num 0 >>= fun _ =>
      ntreesl >>= fun _ => ntreesd >>= fun _ => banks := by
    simp only [header, bind_assoc]
  rw [e]
  refine half1_triple.bind fun _ => ?_
  refine Triple.bind (Q := fun _ s => OnS p s ∧ Half1 s ∧ s.modes.length = 0) (Triple.update fun s h =>
    ⟨h.1, half1_fields s.rd s.desc s.cmr [] _ _ _ _ _ _ _ h.2, rfl⟩) fun _ => Triple.get_bind fun t => ?_
  rintro s ⟨⟨ho, hx, hl⟩, rfl⟩
  refine ((cmodes_triple (p := p) (X := fun u => Half1 u ∧ u.blkL.num = s.blkL.num)
    (fun u r h => ⟨half1_fields r u.desc u.cmr _ _ _ _ _ _ _ _ h.1, h.2⟩)
    (fun u m h => ⟨half1_fields u.rd u.desc u.cmr m _ _ _ _ _ _ _ h.1, h.2⟩) s.blkL.num 0).bind
    (R := fun _ s => OnS p s ∧ s.HeaderOk) fun _ => ?_) s ⟨ho, ⟨hx, rfl⟩, hl⟩
  refine Triple.bind ((ntreesl_triple (p := p)).conseq (fun u h => ⟨h.1, h.2.1.1, ?_⟩) (fun _ _ h => h) (fun _ h => h))
    fun _ => ntreesd_triple.bind fun _ => banks_triple
  rw [h.2.1.2, h.2.2, Nat.zero_add]

end Sys2Proof.Machine
end

