-- ==== Sys2Proof/Laws/Split.lean ====
section
/-! SUPPORT. The insert-and-copy split on the stream (R250 to R254). -/

namespace Sys2Proof.Machine

theorem insExtra_le (i : Nat) : insExtra.getD i 0 ≤ 25 := by
  by_cases h : i < 24
  · revert i; decide
  · rw [List.getD_eq_default]; omega; exact Nat.not_lt.1 h

theorem cpyExtra_le (i : Nat) : cpyExtra.getD i 0 ≤ 25 := by
  by_cases h : i < 24
  · revert i; decide
  · rw [List.getD_eq_default]; omega; exact Nat.not_lt.1 h

theorem cpyBase_ge {i : Nat} (h : i < 24) : 2 ≤ cpyBase.getD i 0 := by revert i; decide

theorem splitCodes_ok {s : State} {i j : Nat} (h : s.onStream)
    (hb : s.hasBits (insExtra.getD i 0 + cpyExtra.getD j 0)) :
    splitCodes i j s = .ok ((insBase.getD i 0 + s.nextField (insExtra.getD i 0),
      cpyBase.getD j 0 + s.ports.field (s.pos + insExtra.getD i 0) (cpyExtra.getD j 0)),
      s.seek (s.pos + insExtra.getD i 0 + cpyExtra.getD j 0)) := by
  unfold State.hasBits at hb
  have h1 := baseExtra_ok (base := insBase.getD i 0) h (insExtra_le i) (by unfold State.hasBits; omega)
  have h2 := baseExtra_ok (base := cpyBase.getD j 0) (s := s.seek (s.pos + insExtra.getD i 0))
    (onStream_seek (by omega)) (cpyExtra_le j) (by unfold State.hasBits; simp only [seek_pos, seek_ports]; omega)
  rw [splitCodes, run_bind_ok h1, run_bind_ok h2]
  simp [State.nextField]

theorem splitCodes_eof {s : State} {i j : Nat} (h : s.onStream)
    (hb : ¬ s.hasBits (insExtra.getD i 0 + cpyExtra.getD j 0)) :
    ∃ t : State, splitCodes i j s = .error (.raised (t.takeFault .prematureEof)) := by
  by_cases h1 : s.hasBits (insExtra.getD i 0)
  · have e1 := baseExtra_ok (base := insBase.getD i 0) h (insExtra_le i) h1
    unfold State.hasBits at h1 hb
    obtain ⟨k, hk⟩ := baseExtra_eof (base := cpyBase.getD j 0) (s := s.seek (s.pos + insExtra.getD i 0))
      (onStream_seek (by omega)) (cpyExtra_le j) (by unfold State.hasBits; simp only [seek_pos, seek_ports]; omega)
    exact ⟨_, by rw [splitCodes, run_bind_ok e1, run_bind_error hk]⟩
  · obtain ⟨k, hk⟩ := baseExtra_eof (base := insBase.getD i 0) h (insExtra_le i) h1
    exact ⟨_, by rw [splitCodes, run_bind_error hk]⟩

theorem splitCodes_spelled {s : State} {i j e1 e2 : Nat} (h : s.onStream) (h1 : e1 < 2 ^ insExtra.getD i 0)
    (h2 : e2 < 2 ^ cpyExtra.getD j 0) (hs : s.spells (bitsLE (insExtra.getD i 0) e1 ++ bitsLE (cpyExtra.getD j 0) e2)) :
    splitCodes i j s = .ok ((insBase.getD i 0 + e1, cpyBase.getD j 0 + e2),
      s.seek (s.pos + insExtra.getD i 0 + cpyExtra.getD j 0)) := by
  have a1 := spells_left hs
  have a2 := spells_right hs
  rw [length_bitsLE] at a2
  have b1 := baseExtra_spelled (base := insBase.getD i 0) h (insExtra_le i) h1 a1
  have ha := onStream_after a1
  rw [length_bitsLE] at ha
  have b2 := baseExtra_spelled (base := cpyBase.getD j 0) ha (cpyExtra_le j) h2 a2
  rw [splitCodes, run_bind_ok b1, run_bind_ok b2]
  simp

end Sys2Proof.Machine
end

