-- ==== Sys2Proof/Laws/CommandValid.lean ====
section
/-! SUPPORT. What the operations of the command loop and of an uncompressed meta-block leave, whatever the stream holds,
after a header (R204 to R213). -/

namespace Sys2Proof.Machine

variable {α β : Type} {p : Nat} {X : State → Prop}

/-- The pieces a header leaves. -/
def hdrFlds : List Fld :=
  [.npostfix, .direct, .modes, .litCodes, .distCodes, .litMap, .distMap, .litBank, .iacBank, .distBank] ++
  blkFlds .L ++ blkFlds .I ++ blkFlds .D

theorem headerOk_of {s t : State} (hb : ∀ c, (t.blk c).Ok ∧ (s.blk c).num = (t.blk c).num)
    (h : ∀ f ∈ [Fld.npostfix, .direct, .modes, .litCodes, .distCodes, .litMap, .distMap, .litBank, .iacBank, .distBank],
      f.same s t) (ho : s.HeaderOk) : t.HeaderOk := by
  have e1 : s.npostfix = t.npostfix := h .npostfix (by simp)
  have e2 : s.direct = t.direct := h .direct (by simp)
  have e3 : s.modes = t.modes := h .modes (by simp)
  have e4 : s.litCodes = t.litCodes := h .litCodes (by simp)
  have e5 : s.distCodes = t.distCodes := h .distCodes (by simp)
  have e6 : s.litMap = t.litMap := h .litMap (by simp)
  have e7 : s.distMap = t.distMap := h .distMap (by simp)
  have e8 : s.litBank = t.litBank := h .litBank (by simp)
  have e9 : s.iacBank = t.iacBank := h .iacBank (by simp)
  have e10 : s.distBank = t.distBank := h .distBank (by simp)
  have n1 : s.blkL.num = t.blkL.num := (hb .L).2
  have n2 : s.blkI.num = t.blkI.num := (hb .I).2
  have n3 : s.blkD.num = t.blkD.num := (hb .D).2
  have d : s.dalpha = t.dalpha := by unfold State.dalpha; rw [e1, e2]
  obtain ⟨h1, _, h3, h4, h5, h6, h7, h8⟩ := ho
  rw [e1, e2] at h1
  rw [e3, n1] at h3
  rw [e6, e4, n1] at h4
  rw [e7, e5, n3] at h5
  rw [e8, e4] at h6
  rw [e9, n2] at h7
  rw [e10, e5, d] at h8
  exact ⟨h1, fun c => (hb c).1, h3, h4, h5, h6, h7, h8⟩

/-- What writes no header piece keeps them as they fit. -/
theorem headerOk_free {L : List Fld} (hL : ∀ f ∈ hdrFlds, f ∉ L) : FreeOf L State.HeaderOk := fun u t h ho =>
  headerOk_of (fun c => by
    have := blk_same c h fun f hf => hL f (by cases c <;> simp only [hdrFlds, List.mem_append] <;> tauto)
    rw [← this]; exact ⟨ho.blocks c, rfl⟩)
    (fun f hf => h f (hL f (by simp only [hdrFlds, List.mem_append]; tauto))) ho

/-! Counting down. -/

theorem newType_lt {b : Block} (h : b.Ok) (h1 : 1 < b.num) {n : Nat} (hn : n < b.num + 2) : b.newType n < b.num := by
  have := h.prev
  unfold Block.newType
  split_ifs
  · omega
  · exact Nat.mod_lt _ (by omega)
  · omega

theorem bswitch_triple (c : Cat) :
    Triple (fun s => OnS p s ∧ (s.blk c).Ok ∧ 1 < (s.blk c).num ∧ (s.blk c).cnt = some 0) (bswitch c)
      (fun _ s => OnS p s ∧ (s.blk c).Ok) Stops := by
  rintro s ⟨ho, hb, h1, h0⟩
  obtain ⟨_, ⟨tcode, ht, htc⟩, ⟨lcode, hl, hlc⟩⟩ := hb.more h1
  have ex : ∀ (t : Option Table) (tb : Table), t = some tb → ∀ u : State, existing t u = .ok (tb, u) := by
    rintro t tb rfl u; rfl
  rw [bswitch, run_get_bind, run_bind_ok (run_precondition_true ⟨h1, h0⟩ _), run_bind_ok (ex _ _ ht s)]
  refine ((sym_over (p := p) (X := fun u => u.blk c = s.blk c)
    (fun u r h => by rw [setBlk_rd_blk]; exact h) htc).bind (R := fun _ s => OnS p s ∧ (s.blk c).Ok) fun n => ?_) s ⟨ho, rfl⟩
  refine Triple.given fun hn => ?_
  refine Triple.bind (Q := fun _ u => OnS p u ∧ u.blk c =
    { s.blk c with prev := (s.blk c).cur, cur := (s.blk c).newType n }) ?_ fun _ => ?_
  · rintro u ⟨hu, hub⟩
    unfold typeChange Block.newType
    split_ifs
    · exact ⟨onS_setBlk c _ hu, by rw [setBlk_blk, hub]⟩
    · exact ⟨onS_setBlk c _ hu, by rw [setBlk_blk, hub]⟩
    · exact ⟨onS_setBlk c _ hu, by rw [setBlk_blk, hub]⟩
  · rintro u ⟨hu, hub⟩
    rw [run_bind_ok (ex _ _ hl u)]
    refine ((blen_triple (p := p) (X := fun u => u.blk c = { s.blk c with prev := (s.blk c).cur, cur := (s.blk c).newType n })
      (fun u r h => by rw [setBlk_rd_blk]; exact h) hlc).bind (R := fun _ s => OnS p s ∧ (s.blk c).Ok)
      fun cnt => Triple.update fun t h => ⟨onS_setBlk c _ h.1, ?_⟩) u ⟨hu, hub⟩
    rw [setBlk_blk, h.2]
    have hc := hb.cur
    exact ⟨hb.num, newType_lt hb h1 hn, by simp only; omega, by simp only; omega,
      fun _ => ⟨by simp, ⟨tcode, ht, htc⟩, ⟨lcode, hl, hlc⟩⟩⟩

theorem countDown_triple (c : Cat) :
    Triple (fun s => OnS p s ∧ (s.blk c).Ok) (countDown c) (fun _ s => OnS p s ∧ (s.blk c).Ok) Stops :=
  Triple.update fun s h => ⟨onS_setBlk c _ h.1, by
    rw [setBlk_blk]
    obtain ⟨h1, h2, h3, h4, h5⟩ := h.2
    refine ⟨h1, h2, h3, fun h => by simp only [h4 h, Option.map_none], fun h => ⟨?_, (h5 h).2⟩⟩
    have := (h5 h).1
    cases hc : (s.blk c).cnt with
    | none => exact absurd hc this
    | some k => simp⟩

theorem tick_ok (c : Cat) :
    Triple (fun s => OnS p s ∧ (s.blk c).Ok) (tick c) (fun _ s => OnS p s ∧ (s.blk c).Ok) Stops := by
  refine Triple.get_bind fun t => Triple.ite (fun h1 => Triple.ite (fun h0 => ?_) fun _ => ?_) fun _ => ?_
  · refine Triple.bind ((bswitch_triple c).conseq (fun s h => ?_) (fun _ _ h => h) (fun _ h => h)) fun _ => countDown_triple c
    obtain ⟨h, rfl⟩ := h
    exact ⟨h.1, h.2, h1, h0⟩
  · exact (countDown_triple c).conseq (fun s h => h.1) (fun _ _ h => h) (fun _ h => h)
  · exact Triple.pure fun s h => h.1

theorem tick_triple (c : Cat) :
    Triple (fun s => OnS p s ∧ s.HeaderOk) (tick c) (fun _ s => OnS p s ∧ s.HeaderOk) Stops := by
  rintro s ⟨ho, hh⟩
  have h1 := tick_ok (p := p) c s ⟨ho, hh.blocks c⟩
  have h2 := Keeps.tick c s
  revert h1 h2
  cases tick c s with
  | error e => exact fun h _ => h
  | ok r =>
    obtain ⟨_, t⟩ := r
    rintro ⟨h1, h2⟩ h3
    refine ⟨h1, headerOk_of (fun c' => ?_) (fun f hf => h3.1 f (by fin_cases hf <;> simp [tickFlds])) hh⟩
    by_cases hc : c' = c
    · subst hc
      exact ⟨h2, h3.1 (.num c') (by simp [tickFlds])⟩
    · rw [← blk_same c' h3.1 (by
        intro f hf
        fin_cases hf <;> simp [tickFlds, hc])]
      exact ⟨hh.blocks c', rfl⟩

/-! The output so far. -/

/-- The output space is in canonical form, below `got`, and empty in compare mode (R61, R62). -/
def State.OutOk (s : State) : Prop := s.out.wf = true ∧ s.out.below s.got = true ∧ (s.compare = true → s.out = [])

theorem outOk_free {L : List Fld} (h1 : .out ∉ L) (h2 : .got ∉ L) (h3 : .compare ∉ L) : FreeOf L State.OutOk := by
  intro u t h ho
  have e1 : u.out = t.out := h _ h1
  have e2 : u.got = t.got := h _ h2
  have e3 : u.compare = t.compare := h _ h3
  unfold State.OutOk at *
  rwa [e1, e2, e3] at ho

/-- A stopped operation leaves the output in order. -/
def EndsOut : Stop → Prop
  | .raised t => t.OutOk
  | _ => True

theorem outOk_takeFault {s : State} {k : Result} (h : s.OutOk) : (s.takeFault k).OutOk := h

theorem keeps_out {op : M α} {L : List Fld} (hk : Keeps L op) (h1 : .out ∉ L) (h2 : .got ∉ L) (h3 : .compare ∉ L) :
    Triple State.OutOk op (fun _ s => s.OutOk) EndsOut := by
  intro s hs
  have := hk s
  revert this
  cases op s with
  | ok r => obtain ⟨a, t⟩ := r; exact fun h => outOk_free h1 h2 h3 s t h.1 hs
  | error e =>
    cases e with
    | raised t => rintro ⟨u, k, _, h, rfl⟩; exact outOk_takeFault (outOk_free h1 h2 h3 s u h.1 hs)
    | fault f => exact fun _ => trivial
    | refused r => exact fun _ => trivial

theorem outOk_emit {s : State} (h : s.OutOk) (b : Byte) :
    (s.compare = false → ({ s with out := s.out.put s.got b, got := s.got + 1 } : State).OutOk) ∧
    (s.compare = true → ({ s with got := s.got + 1 } : State).OutOk) := by
  obtain ⟨h1, h2, h3⟩ := h
  refine ⟨fun hc => ⟨wf_put _ _ h1, below_put b (below_mono h2 (Nat.le_succ _)) (Nat.lt_succ_self _), fun h => ?_⟩,
    fun hc => ⟨h1, below_mono h2 (Nat.le_succ _), h3⟩⟩
  exact absurd (show s.compare = true from h) (by simp [hc])

theorem emit_out (b : Byte) : Triple State.OutOk (emit b) (fun _ s => s.OutOk) EndsOut := by
  intro s hs
  cases hc : s.compare with
  | false => rw [emit_normal hc]; exact (outOk_emit hs b).1 hc
  | true =>
    by_cases hb : s.got < s.haveLen ∧ s.ports.expected.get s.got = b
    · rw [emit_compare hc hb]; exact (outOk_emit hs b).2 hc
    · rw [emit_mismatch hc hb]; exact hs

theorem emitAll_out : ∀ l, Triple State.OutOk (emitAll l) (fun _ s => s.OutOk) EndsOut
  | [] => Triple.pure fun _ h => h
  | b :: l => (emit_out b).bind fun _ => emitAll_out l

theorem copyLoop_out : ∀ k, Triple State.OutOk (copyLoop k) (fun _ s => s.OutOk) EndsOut
  | 0 => Triple.pure fun _ h => h
  | k + 1 => Triple.get_bind fun _ => ((emit_out _).conseq (fun _ h => h.1) (fun _ _ h => h) (fun _ h => h)).bind
      fun _ => copyLoop_out k

theorem rawLoop_out : ∀ k, Triple State.OutOk (rawLoop k) (fun _ s => s.OutOk) EndsOut
  | 0 => Triple.pure fun _ h => h
  | k + 1 => by
    refine (keeps_out Keeps.rawbyte (by simp) (by simp) (by simp)).bind fun b => (emit_out b).bind fun _ => ?_
    exact Triple.bind (Q := fun _ s => s.OutOk) (Triple.update fun s h => h) fun _ => rawLoop_out k

theorem rawcopy_out : Triple State.OutOk rawcopy (fun _ s => s.OutOk) EndsOut :=
  (keeps_out Keeps.align (by simp) (by simp) (by simp)).bind fun _ => Triple.get_bind fun t =>
    (Triple.require (Q := fun _ s => s.OutOk) (fun _ h _ => h.1) (fun _ h _ => h.1)).bind fun _ => rawLoop_out _

theorem copyDict_out (id n : Nat) : Triple State.OutOk (copyDict id n) (fun _ s => s.OutOk) EndsOut := by
  refine (Triple.require (Q := fun _ s => s.OutOk) (fun _ h _ => h) (fun _ h _ => h)).bind fun _ =>
    (Triple.require (Q := fun _ s => s.OutOk) (fun _ h _ => h) (fun _ h _ => h)).bind fun _ => Triple.get_bind fun t =>
    (Triple.require (Q := fun _ s => s.OutOk) (fun _ h _ => h.1) (fun _ h _ => h.1)).bind fun _ => ?_
  exact Triple.bind (Q := fun _ s => s.OutOk) (Triple.update fun s h => h) fun _ => emitAll_out _

theorem copyPast_out : Triple State.OutOk copyPast (fun _ s => s.OutOk) EndsOut := by
  refine Triple.get_bind fun t => (Triple.precondition (Q := fun _ s => s.OutOk) (fun _ h _ => h.1) (fun _ _ _ => trivial)).bind
    fun _ => (Triple.require (Q := fun _ s => s.OutOk) (fun _ h _ => h) (fun _ h _ => h)).bind fun _ => ?_
  exact Triple.bind (Q := fun _ s => s.OutOk) (Triple.update fun s h => h) fun _ => copyLoop_out _

theorem copy_out : Triple State.OutOk copy (fun _ s => s.OutOk) EndsOut :=
  Triple.get_bind fun _ => Triple.ite
    (fun _ => (copyDict_out _ _).conseq (fun _ h => h.1) (fun _ _ h => h) (fun _ h => h))
    (fun _ => copyPast_out.conseq (fun _ h => h.1) (fun _ _ h => h) (fun _ h => h))

theorem entry_out (l : List α) (i : Nat) : Triple State.OutOk (entry l i) (fun _ s => s.OutOk) EndsOut :=
  Triple.entry (fun _ _ h _ => h) (fun _ _ _ => trivial)

theorem lit_out : Triple State.OutOk lit (fun _ s => s.OutOk) EndsOut := by
  refine Triple.get_bind fun t => (Triple.precondition (Q := fun _ s => s.OutOk) (fun _ h _ => h.1)
    (fun _ _ _ => trivial)).bind fun _ => ?_
  refine (keeps_out (Keeps.tick .L) (by simp [tickFlds]) (by simp [tickFlds]) (by simp [tickFlds])).bind fun _ => ?_
  refine Triple.bind (Q := fun _ s => s.OutOk) (Triple.get_bind fun t => ?_) fun code => ?_
  · refine Triple.bind (Q := fun _ s => s.OutOk) ((entry_out _ _).conseq (fun _ h => h.1) (fun _ _ h => h) (fun _ h => h))
      fun _ => (entry_out _ _).bind fun _ => entry_out _ _
  · refine (keeps_out (Keeps.sym code) (by simp) (by simp) (by simp)).bind fun b => ?_
    exact (Triple.precondition (Q := fun _ s => s.OutOk) (fun _ h _ => h) (fun _ _ _ => trivial)).bind fun _ =>
      (emit_out _).bind fun _ => Triple.update fun _ h => h

theorem emit_triple (hX : ∀ s n o, X s → X { s with got := n, out := o }) (b : Byte) {g : Nat} :
    Triple (fun s => OnS p s ∧ X s ∧ s.got = g) (emit b) (fun _ s => OnS p s ∧ X s ∧ s.got = g + 1) Stops := by
  rintro s ⟨ho, hx, hg⟩
  cases hc : s.compare with
  | false => rw [emit_normal hc]; exact ⟨ho, hX _ _ _ hx, by simp only [hg]⟩
  | true =>
    by_cases hb : s.got < s.haveLen ∧ s.ports.expected.get s.got = b
    · rw [emit_compare hc hb]; exact ⟨ho, hX s (s.got + 1) s.out hx, by simp only [hg]⟩
    · rw [emit_mismatch hc hb]; exact stops_raise _ (by decide)

theorem emitAll_triple (hX : ∀ s n o, X s → X { s with got := n, out := o }) : ∀ l g,
    Triple (fun s => OnS p s ∧ X s ∧ s.got = g) (emitAll l) (fun _ s => OnS p s ∧ X s ∧ s.got = g + l.length) Stops
  | [], g => Triple.pure fun _ h => h
  | b :: l, g => ((emit_triple hX b).bind fun _ => emitAll_triple hX l (g + 1)).conseq (fun _ h => h)
      (fun _ _ h => ⟨h.1, h.2.1, by rw [h.2.2, List.length_cons]; omega⟩) (fun _ h => h)

theorem copyLoop_triple (hX : ∀ s n o, X s → X { s with got := n, out := o }) : ∀ k g,
    Triple (fun s => OnS p s ∧ X s ∧ s.got = g) (copyLoop k) (fun _ s => OnS p s ∧ X s ∧ s.got = g + k) Stops
  | 0, g => Triple.pure fun _ h => h
  | k + 1, g => Triple.get_bind fun t =>
      (((emit_triple hX _).conseq (fun _ h => h.1) (fun _ _ h => h) (fun _ h => h)).bind fun _ =>
        copyLoop_triple hX k (g + 1)).conseq (fun _ h => h) (fun _ _ h => ⟨h.1, h.2.1, by rw [h.2.2]; omega⟩) (fun _ h => h)

/-! Commands. -/

theorem insertCode_lt {v : Nat} (h : v < 704) : insertCode v < 24 := by
  unfold insertCode
  have h1 : v >>> 6 < 11 := by rw [Nat.shiftRight_eq_div_pow]; omega
  have h2 : (v >>> 3) &&& 7 ≤ 7 := Nat.and_le_right
  generalize v >>> 6 = i at *
  interval_cases i <;> simp [insertMap] <;> omega

theorem copyCode_lt {v : Nat} (h : v < 704) : copyCode v < 24 := by
  unfold copyCode
  have h1 : v >>> 6 < 11 := by rw [Nat.shiftRight_eq_div_pow]; omega
  have h2 : v &&& 7 ≤ 7 := Nat.and_le_right
  generalize v >>> 6 = i at *
  interval_cases i <;> simp [copyMap] <;> omega

theorem splitCodes_triple (hX : FreeRd X) {i j : Nat} (hj : j < 24) :
    Triple (fun s => OnS p s ∧ X s) (splitCodes i j) (fun r s => OnS p s ∧ X s ∧ 2 ≤ r.2) Stops :=
  (baseExtra_triple hX (insExtra_le i)).bind fun _ =>
    (((baseExtra_triple hX (cpyExtra_le j)).conseq (fun _ h => ⟨h.1, h.2.1⟩) (fun _ _ h => h) (fun _ h => h))).bind fun _ =>
      Triple.pure fun _ h => ⟨h.1, h.2.1, le_trans (cpyBase_ge hj) h.2.2⟩

theorem entry_triple {l : List α} {i : Nat} {P : State → Prop} {B : α → Prop} (hi : ∀ s, P s → i < l.length)
    (hB : ∀ a ∈ l, B a) {E : Stop → Prop} : Triple P (entry l i) (fun a s => P s ∧ B a) E := by
  intro s hs
  have := hi s hs
  rw [run_entry (List.getElem?_eq_getElem this)]
  exact ⟨hs, hB _ (List.getElem_mem this)⟩

theorem cmd_triple {m : Nat} :
    Triple (fun s => OnS p s ∧ s.HeaderOk ∧ s.mlen = m ∧ 0 < m) cmd
      (fun _ s => OnS p s ∧ s.HeaderOk ∧ 2 ≤ s.copyLen ∧ s.insLeft + s.mlen = m) Stops := by
  refine Triple.get_bind fun t => ?_
  refine (Triple.precondition (Q := fun _ s => (OnS p s ∧ s.HeaderOk) ∧ s.mlen = m) (fun s h _ => ⟨⟨h.1.1, h.1.2.1⟩, h.1.2.2.1⟩)
    (fun s h hc => ?_)).bind fun _ => ?_
  · obtain ⟨⟨_, _, h1, h2⟩, rfl⟩ := h
    omega
  refine ((tick_triple .I).carry (Keeps.tick .I) (X := fun s => s.mlen = m) fun u t h hx => by
    rw [← hx]; exact (h .mlen (by simp [tickFlds])).symm).bind fun _ => Triple.get_bind fun t => ?_
  rintro s ⟨⟨⟨ho, hh⟩, hm⟩, rfl⟩
  have hcur : s.blkI.cur < s.iacBank.length := by rw [hh.iacBank.1]; exact (hh.blocks .I).cur
  refine ((entry_triple (P := fun s => OnS p s ∧ s.HeaderOk ∧ s.mlen = m) (B := fun t : Table => t.over 704 = true)
    (fun _ _ => hcur) hh.iacBank.2).bind (R := fun _ s => OnS p s ∧ s.HeaderOk ∧ 2 ≤ s.copyLen ∧ s.insLeft + s.mlen = m)
    fun code => ?_) s ⟨ho, hh, hm⟩
  rintro s ⟨⟨ho, hh, hm⟩, hc⟩
  have hfree : FreeRd fun s => s.HeaderOk ∧ s.mlen = m := fun s r h => ⟨headerOk_free (L := [.rd]) (by decide) s _
    (Kept.rd_same r) h.1, h.2⟩
  refine ((sym_over (p := p) hfree hc).bind (R := fun _ s => OnS p s ∧ s.HeaderOk ∧ 2 ≤ s.copyLen ∧ s.insLeft + s.mlen = m)
    fun v => ?_) s ⟨ho, hh, hm⟩
  refine Triple.given fun hv => ?_
  refine Triple.bind (Q := fun _ s => OnS p s ∧ s.HeaderOk ∧ s.mlen = m) (Triple.update fun s h =>
    ⟨h.1, headerOk_free (L := [.iacSym]) (by decide) s _ (Kept.iacSym v).1 h.2.1, h.2.2⟩) fun _ => ?_
  refine (splitCodes_triple hfree (copyCode_lt hv)).bind fun r => Triple.given fun hr => ?_
  refine Triple.bind (Q := fun _ s => OnS p s ∧ s.HeaderOk ∧ s.mlen = m ∧ s.copyLen = r.2) (Triple.update fun s h =>
    ⟨h.1, headerOk_free (L := [.copyLen]) (by decide) s _ (Kept.copyLen r.2).1 h.2.1, h.2.2, rfl⟩) fun _ =>
    Triple.get_bind fun t => ?_
  refine (Triple.require (Q := fun _ s => (OnS p s ∧ s.HeaderOk ∧ s.mlen = m ∧ s.copyLen = r.2) ∧ r.1 ≤ m)
    (fun s h hc => ⟨h.1, ?_⟩) (fun s _ _ => stops_raise s (by decide))).bind fun _ => Triple.update fun s h => ?_
  · obtain ⟨⟨_, _, h, _⟩, rfl⟩ := h
    rw [← h]; exact hc
  · obtain ⟨⟨h1, h2, h3, h4⟩, h5⟩ := h
    refine ⟨h1, headerOk_free (L := [.mlen, .insLeft]) (by decide) s _ (Kept.paid _ _).1 h2, ?_, ?_⟩
    · show 2 ≤ s.copyLen; omega
    · show r.1 + (s.mlen - r.1) = m; omega

theorem ctx_lt (s : State) (m : CtxMode) : s.ctx m < 64 := by
  cases m
  · show s.p1.toNat &&& 0x3f < 64
    exact Nat.lt_of_le_of_lt Nat.and_le_right (by omega)
  · show s.p1.toNat >>> 2 < 64
    have := s.p1.isLt
    rw [Nat.shiftRight_eq_div_pow]
    omega
  · show s.lut0 s.p1 ||| s.lut1 s.p2 < 2 ^ 6
    exact Nat.or_lt_two_pow (BitVec.isLt _) (BitVec.isLt _)
  · show (s.lut2 s.p1 <<< 3) ||| s.lut2 s.p2 < 2 ^ 6
    have h1 : s.lut2 s.p1 < 2 ^ 3 := BitVec.isLt _
    have h2 : s.lut2 s.p2 < 2 ^ 3 := BitVec.isLt _
    exact Nat.or_lt_two_pow (by rw [Nat.shiftLeft_eq]; omega) (by omega)

theorem literalCode_triple : Triple (fun s => OnS p s ∧ s.HeaderOk ∧ X s) literalCode
    (fun t s => OnS p s ∧ (s.HeaderOk ∧ X s) ∧ t.over 256 = true) Stops := by
  refine Triple.get_bind fun t => ?_
  rintro s ⟨⟨ho, hh, hx⟩, rfl⟩
  have hcur : s.blkL.cur < s.blkL.num := (hh.blocks .L).cur
  refine ((entry_triple (P := fun u => OnS p u ∧ u.HeaderOk ∧ X u) (B := fun _ => True)
    (fun _ _ => by rw [hh.modes]; exact hcur) (fun _ _ => trivial)).bind
    (R := fun (t : Table) s => OnS p s ∧ (s.HeaderOk ∧ X s) ∧ t.over 256 = true) fun mode => ?_) s ⟨ho, hh, hx⟩
  have hctx := ctx_lt s mode
  refine (entry_triple (B := fun k => k < s.litCodes) (fun _ _ => by rw [hh.litMap.1, Nat.shiftLeft_eq]; omega)
    hh.litMap.2).bind fun k => ?_
  refine (entry_triple (B := fun t : Table => t.over 256 = true) (fun _ h => by rw [hh.litBank.1]; exact h.2) hh.litBank.2).conseq
    (fun _ h => h) (fun _ _ h => ⟨h.1.1.1.1, h.1.1.1.2, h.2⟩) (fun _ h => h)

theorem lit_triple {n g : Nat} :
    Triple (fun s => OnS p s ∧ s.HeaderOk ∧ s.insLeft = n ∧ 0 < n ∧ s.got = g) lit
      (fun _ s => OnS p s ∧ s.HeaderOk ∧ s.insLeft = n - 1 ∧ s.got = g + 1) Stops := by
  refine Triple.get_bind fun t => ?_
  refine (Triple.precondition (Q := fun _ s => (OnS p s ∧ s.HeaderOk) ∧ s.insLeft = n ∧ s.got = g)
    (fun s h _ => ⟨⟨h.1.1, h.1.2.1⟩, h.1.2.2.1, h.1.2.2.2.2⟩) (fun s h hc => ?_)).bind fun _ => ?_
  · obtain ⟨⟨_, _, h1, h2, _⟩, rfl⟩ := h
    omega
  refine ((tick_triple .L).carry (Keeps.tick .L) (X := fun s => s.insLeft = n ∧ s.got = g) fun u t h hx => ?_).bind fun _ => ?_
  · have e1 : u.insLeft = t.insLeft := h .insLeft (by simp [tickFlds])
    have e2 : u.got = t.got := h .got (by simp [tickFlds])
    exact ⟨e1 ▸ hx.1, e2 ▸ hx.2⟩
  refine Triple.bind ((literalCode_triple (X := fun s => s.insLeft = n ∧ s.got = g)).conseq (fun s h => ⟨h.1.1, h.1.2, h.2⟩)
    (fun _ _ h => h) (fun _ h => h)) fun code => Triple.given fun hc => ?_
  refine (sym_over (fun s r h => ⟨headerOk_free (L := [.rd]) (by decide) s _ (Kept.rd_same r) h.1, h.2⟩) hc).bind fun b => ?_
  refine Triple.given fun hb => ?_
  refine (Triple.precondition (Q := fun _ s => OnS p s ∧ (s.HeaderOk ∧ s.insLeft = n) ∧ s.got = g)
    (fun s h _ => ⟨h.1, ⟨h.2.1, h.2.2.1⟩, h.2.2.2⟩) (fun s h hc => absurd hb hc)).bind fun _ => ?_
  refine (emit_triple (X := fun s => s.HeaderOk ∧ s.insLeft = n) (fun s k o h => ⟨headerOk_free (L := [.got, .out])
    (by decide) s _ ?_ h.1, h.2⟩) (BitVec.ofNat 8 b)).bind fun _ => Triple.update fun s h => ?_
  · intro f hf; cases f <;> first | rfl | exact absurd (by simp) hf
  · exact ⟨h.1, headerOk_free (L := [.insLeft]) (by decide) s _ (Kept.insLeft _).1 h.2.1.1, by
      show s.insLeft - 1 = n - 1; rw [h.2.1.2], h.2.2⟩

/-! Distances. -/

theorem longExtra_le {s : State} {v : Nat} (h1 : 16 + s.direct ≤ v) (h2 : v < s.dalpha) :
    longExtra s.npostfix s.direct v ≤ 24 := by
  unfold longExtra
  unfold State.dalpha at h2
  rw [Nat.shiftLeft_eq] at h2
  rw [Nat.shiftRight_eq_div_pow, pow_succ]
  have : (v - s.direct - 16) / (2 ^ s.npostfix * 2) < 24 := by
    rw [Nat.div_lt_iff_lt_mul (by positivity)]
    omega
  omega

/-- Every entry of the ring is positive (R299). -/
def State.RingOk (s : State) : Prop := ∀ k : Fin 4, 1 ≤ s.ring[k]

theorem ringOk_pushed {s : State} (h : s.RingOk) {d : Nat} (hd : 1 ≤ d) : (s.pushed d).RingOk := by
  intro k
  show 1 ≤ (s.ring.set (s.ringPtr + 1 : Fin 4).val d (s.ringPtr + 1 : Fin 4).isLt)[k.val]
  rw [Vector.getElem_set]
  split_ifs
  · exact hd
  · exact h k

theorem distanceCode_triple : Triple (fun s => OnS p s ∧ s.HeaderOk ∧ X s) distanceCode
    (fun t s => OnS p s ∧ (s.HeaderOk ∧ X s) ∧ t.over s.dalpha = true) Stops := by
  refine Triple.get_bind fun t => ?_
  rintro s ⟨⟨ho, hh, hx⟩, rfl⟩
  have hcur : s.blkD.cur < s.blkD.num := (hh.blocks .D).cur
  have hctx : dctx s.copyLen ≤ 3 := Nat.min_le_right _ _
  refine ((entry_triple (P := fun u => (OnS p u ∧ u.HeaderOk ∧ X u) ∧ u = s) (B := fun k => k < s.distCodes)
    (fun _ _ => by rw [hh.distMap.1, Nat.shiftLeft_eq]; omega) hh.distMap.2).bind
    (R := fun (t : Table) s => OnS p s ∧ (s.HeaderOk ∧ X s) ∧ t.over s.dalpha = true) fun k => ?_) s ⟨⟨ho, hh, hx⟩, rfl⟩
  refine (entry_triple (B := fun t : Table => t.over s.dalpha = true) (fun _ h => by rw [hh.distBank.1]; exact h.2) hh.distBank.2).conseq
    (fun _ h => h) (fun _ u h => ⟨h.1.1.1.1, h.1.1.1.2, by rw [h.1.1.2]; exact h.2⟩) (fun _ h => h)

theorem distval_triple (hX : FreeRd X) {v : Nat} :
    Triple (fun s => OnS p s ∧ X s ∧ v < s.dalpha) (distval v) (fun d s => OnS p s ∧ X s ∧ 1 ≤ d) Stops := by
  refine Triple.bind (Q := fun _ s => OnS p s ∧ X s) (Triple.get_bind fun t => ?_) fun d =>
    (Triple.require (Q := fun _ s => (OnS p s ∧ X s) ∧ 1 ≤ d) (fun s h hc => ⟨h, by omega⟩)
      (fun s _ _ => stops_raise s (by decide))).bind fun _ => Triple.pure fun _ h => ⟨h.1.1, h.1.2, h.2⟩
  refine Triple.ite (fun _ => Triple.get_bind fun _ => Triple.pure fun _ h => ⟨h.1.1.1, h.1.1.2.1⟩) fun h16 => ?_
  refine Triple.ite (fun hd => Triple.get_bind fun t' => ?_) fun hd => Triple.get_bind fun t' => ?_
  · refine (Triple.precondition (Q := fun _ s => OnS p s ∧ X s) (fun _ h _ => ⟨h.1.1.1, h.1.1.2.1⟩) (fun s h hc => ?_)).bind
      fun _ => Triple.pure fun _ h => h
    obtain ⟨⟨_, rfl⟩, rfl⟩ := h
    exact absurd ⟨by omega, hd⟩ hc
  · intro s hs
    obtain ⟨⟨⟨ho, hx, hv⟩, rfl⟩, rfl⟩ := hs
    refine ((Triple.precondition (P := fun u => OnS p u ∧ X u) (Q := fun _ u => OnS p u ∧ X u) (fun _ h _ => h)
      (fun u _ hc => absurd ⟨by omega, hv⟩ hc)).bind (R := fun _ s => OnS p s ∧ X s) fun _ => ?_) s ⟨ho, hx⟩
    exact (bits_triple hX (by have := longExtra_le (s := s) (v := v) (by omega) hv; omega)).bind fun e =>
      Triple.pure fun _ h => ⟨h.1, h.2.1⟩

theorem dist_triple {m : Nat} :
    Triple (fun s => OnS p s ∧ s.HeaderOk ∧ s.RingOk ∧ s.mlen = m ∧ 0 < m) dist
      (fun _ s => OnS p s ∧ s.HeaderOk ∧ s.RingOk ∧ 1 ≤ s.dist) Stops := by
  refine Triple.get_bind fun t => ?_
  refine (Triple.precondition (Q := fun _ s => ((OnS p s ∧ s.HeaderOk) ∧ s.RingOk))
    (fun s h _ => ⟨⟨h.1.1, h.1.2.1⟩, h.1.2.2.1⟩) (fun s h hc => ?_)).bind fun _ => ?_
  · obtain ⟨⟨_, _, _, h1, h2⟩, rfl⟩ := h
    omega
  refine Triple.ite (fun _ => Triple.update fun s h => ?_) fun _ => ?_
  · refine ⟨h.1.1, headerOk_free (L := [.dsym, .dist]) (by decide) s _ (Kept.distance _ _).1 h.1.2, h.2, ?_⟩
    show (1 : Int) ≤ (s.ring[s.ringPtr - 0] : Int) + 0
    have := h.2 (s.ringPtr - 0)
    omega
  have hring : ∀ L : List Fld, .ring ∉ L → FreeOf L State.RingOk := fun L hL u t h hr => by
    have e : u.ring = t.ring := h _ hL
    unfold State.RingOk at *
    rwa [e] at hr
  refine ((tick_triple .D).carry (Keeps.tick .D) (hring _ (by simp [tickFlds]))).bind fun _ => ?_
  refine Triple.bind ((distanceCode_triple (X := State.RingOk)).conseq (fun s h => ⟨h.1.1, h.1.2, h.2⟩) (fun _ _ h => h)
    (fun _ h => h)) fun code => ?_
  intro s hs
  obtain ⟨ho, ⟨hh, hr⟩, hc⟩ := hs
  have hX : FreeRd fun u => u.HeaderOk ∧ u.RingOk := fun u r h =>
    ⟨headerOk_free (L := [.rd]) (by decide) u _ (Kept.rd_same r) h.1, h.2⟩
  refine ((sym_over (p := p) (X := fun u => (u.HeaderOk ∧ u.RingOk) ∧ u.dalpha = s.dalpha)
    (fun u r h => ⟨hX u r h.1, h.2⟩) hc).bind (R := fun _ s => OnS p s ∧ s.HeaderOk ∧ s.RingOk ∧ 1 ≤ s.dist) fun v => ?_)
    s ⟨ho, ⟨hh, hr⟩, rfl⟩
  refine Triple.bind (Q := fun _ u => OnS p u ∧ (u.HeaderOk ∧ u.RingOk) ∧ v < u.dalpha) (Triple.update fun u h =>
    ⟨h.1, ⟨headerOk_free (L := [.dsym, .dist]) (by decide) u _ (Kept.distance (s := u) v u.dist).1 h.2.1.1.1, h.2.1.1.2⟩, by
      show v < u.dalpha; rw [h.2.1.2]; exact h.2.2⟩) fun _ => ?_
  refine (distval_triple hX).bind fun d => Triple.given fun hd => ?_
  refine Triple.bind (Q := fun _ u => OnS p u ∧ u.HeaderOk ∧ u.RingOk ∧ 1 ≤ u.dist) (Triple.update fun u h =>
    ⟨h.1, headerOk_free (L := [.dsym, .dist]) (by decide) u _ (Kept.distance (s := u) u.dsym d).1 h.2.1, h.2.2, hd⟩) fun _ =>
    Triple.get_bind fun t => Triple.ite (fun _ => ?_) fun _ => Triple.pure fun _ h => h.1
  refine (Triple.precondition (Q := fun _ u => OnS p u ∧ u.HeaderOk ∧ u.RingOk ∧ 1 ≤ u.dist) (fun _ h _ => h.1)
    (fun s _ hc => absurd (by omega) hc)).bind fun _ => Triple.update fun u h => ?_
  exact ⟨h.1, headerOk_free (L := [.ring, .ringPtr]) (by decide) u _ (Kept.ring _ _).1 h.2.1,
    ringOk_pushed (s := u) h.2.2.1 (by omega), h.2.2.2⟩

/-! Copies. -/

theorem copyDict_triple {id n m g : Nat} :
    Triple (fun s => OnS p s ∧ s.mlen = m ∧ s.got = g) (copyDict id n)
      (fun _ s => OnS p s ∧ s.got + s.mlen = g + m) Stops := by
  refine (Triple.require (Q := fun _ s => OnS p s ∧ s.mlen = m ∧ s.got = g) (fun _ h _ => h)
    (fun s _ _ => stops_raise s (by decide))).bind fun _ =>
    (Triple.require (Q := fun _ s => OnS p s ∧ s.mlen = m ∧ s.got = g) (fun _ h _ => h)
      (fun s _ _ => stops_raise s (by decide))).bind fun _ => Triple.get_bind fun t => ?_
  refine (Triple.require (Q := fun _ s => (OnS p s ∧ s.mlen = m ∧ s.got = g) ∧ (t.dictResult id n).length ≤ m ∧ s = t)
    (fun s h hc => ⟨h.1, by rw [← h.1.2.1, h.2]; exact hc, h.2⟩) (fun s _ _ => stops_raise s (by decide))).bind fun _ => ?_
  refine Triple.bind (Q := fun _ s => OnS p s ∧ (s.mlen = m - (t.dictResult id n).length ∧
    (t.dictResult id n).length ≤ m) ∧ s.got = g) (Triple.update fun s h => ?_) fun _ => ?_
  · obtain ⟨⟨h1, h2, h3⟩, h4, rfl⟩ := h
    exact ⟨h1, ⟨by rw [← h2], h4⟩, h3⟩
  · refine (emitAll_triple (X := fun s => s.mlen = m - (t.dictResult id n).length ∧ (t.dictResult id n).length ≤ m)
      (fun _ _ _ h => h) _ g).conseq (fun _ h => h) (fun _ s h => ⟨h.1, ?_⟩) (fun _ h => h)
    rw [h.2.2, h.2.1.1]
    have := h.2.1.2
    omega

theorem copyPast_triple {m g : Nat} :
    Triple (fun s => OnS p s ∧ s.mlen = m ∧ s.got = g ∧ 1 ≤ s.dist ∧ s.dist ≤ s.window) copyPast
      (fun _ s => OnS p s ∧ s.got + s.mlen = g + m) Stops := by
  refine Triple.get_bind fun t => ?_
  refine (Triple.precondition (Q := fun _ s => (OnS p s ∧ s.mlen = m ∧ s.got = g) ∧ s = t)
    (fun s h _ => ⟨⟨h.1.1, h.1.2.1, h.1.2.2.1⟩, h.2⟩) (fun s h hc => ?_)).bind fun _ => ?_
  · obtain ⟨⟨_, _, _, h1, h2⟩, rfl⟩ := h
    exact absurd ⟨h1, h2⟩ hc
  refine (Triple.require (Q := fun _ s => (OnS p s ∧ s.mlen = m ∧ s.got = g) ∧ t.copyLen ≤ m ∧ s = t)
    (fun s h hc => ⟨h.1, by rw [← h.1.2.1, h.2]; exact hc, h.2⟩) (fun s _ _ => stops_raise s (by decide))).bind fun _ => ?_
  refine Triple.bind (Q := fun _ s => OnS p s ∧ (s.mlen = m - t.copyLen ∧ t.copyLen ≤ m) ∧ s.got = g)
    (Triple.update fun s h => ?_) fun _ => ?_
  · obtain ⟨⟨h1, h2, h3⟩, h4, rfl⟩ := h
    exact ⟨h1, ⟨by rw [← h2], h4⟩, h3⟩
  · refine (copyLoop_triple (X := fun s => s.mlen = m - t.copyLen ∧ t.copyLen ≤ m)
      (fun _ _ _ h => h) _ g).conseq (fun _ h => h) (fun _ s h => ⟨h.1, ?_⟩) (fun _ h => h)
    rw [h.2.2, h.2.1.1]
    have := h.2.1.2
    omega

theorem copy_triple {m g : Nat} :
    Triple (fun s => OnS p s ∧ s.mlen = m ∧ s.got = g ∧ 1 ≤ s.dist) copy
      (fun _ s => OnS p s ∧ s.got + s.mlen = g + m) Stops := by
  refine Triple.get_bind fun t => Triple.ite (fun _ => ?_) fun hw => ?_
  · exact copyDict_triple.conseq (fun _ h => ⟨h.1.1, h.1.2.1, h.1.2.2.1⟩) (fun _ _ h => h) (fun _ h => h)
  · refine copyPast_triple.conseq (fun s h => ?_) (fun _ _ h => h) (fun _ h => h)
    obtain ⟨⟨h1, h2, h3, h4⟩, rfl⟩ := h
    exact ⟨h1, h2, h3, h4, by omega⟩

/-! Whole bytes. -/

theorem onS_boundary {s : State} (h : OnS p s) (hl : s.rd.left = 0) : s.rd = { inNext := s.rd.inNext, resid := 0, left := 0 } ∧
    s.pos = 8 * s.rd.inNext := by
  have hp : s.pos = 8 * s.rd.inNext := by unfold State.pos; rw [hl]; rfl
  have h1 := h.1.1
  rw [hp, readerAt_boundary] at h1
  exact ⟨h1, hp⟩

theorem onS_at {s : State} {k : Nat} (hk : k ≤ s.ports.inLen) (hp : p ≤ 8 * k) :
    OnS p { s with rd := { inNext := k, resid := 0, left := 0 } } := by
  have e : ({ s with rd := { inNext := k, resid := 0, left := 0 } } : State) = s.seek (8 * k) := by
    rw [State.seek, readerAt_boundary]
  rw [e]
  exact ⟨onStream_seek (by omega), by rw [seek_pos]; exact hp⟩

theorem rawbyte_triple (hX : FreeRd X) :
    Triple (fun s => OnS p s ∧ X s ∧ s.rd.left = 0) rawbyte (fun _ s => OnS p s ∧ X s ∧ s.rd.left = 0) Stops := by
  rintro s ⟨ho, hx, hl⟩
  rw [rawbyte, run_get_bind, run_bind_ok (run_precondition_true hl _)]
  obtain ⟨hr, hp⟩ := onS_boundary ho hl
  by_cases h : s.rd.inNext < s.ports.inLen
  · rw [fetchByte_ok h]
    refine ⟨?_, hX _ _ hx, hl⟩
    have e : ({ s.rd with inNext := s.rd.inNext + 1 } : Reader) = { inNext := s.rd.inNext + 1, resid := 0, left := 0 } := by
      rw [hr]
    rw [e]
    exact onS_at h (by have := ho.2; omega)
  · rw [fetchByte_eof h]; exact stops_raise _ (by decide)

theorem rawLoop_triple : ∀ k g,
    Triple (fun s => OnS p s ∧ (s.mlen = k ∧ s.got = g) ∧ s.rd.left = 0) (rawLoop k)
      (fun _ s => OnS p s ∧ s.mlen = 0 ∧ s.got = g + k) Stops
  | 0, g => Triple.pure fun _ h => ⟨h.1, h.2.1.1, h.2.1.2⟩
  | k + 1, g => by
    refine (rawbyte_triple (X := fun s => s.mlen = k + 1 ∧ s.got = g) fun _ _ h => h).bind fun b => ?_
    refine Triple.bind ((emit_triple (X := fun s => s.mlen = k + 1 ∧ s.rd.left = 0) (fun _ _ _ h => h) b).conseq
      (fun s h => ⟨h.1, ⟨h.2.1.1, h.2.2⟩, h.2.1.2⟩) (fun _ _ h => h) (fun _ h => h)) fun _ => ?_
    refine Triple.bind (Q := fun _ s => OnS p s ∧ (s.mlen = k ∧ s.got = g + 1) ∧ s.rd.left = 0) (Triple.update fun s h =>
      ⟨h.1, ⟨by show s.mlen - 1 = k; rw [h.2.1.1]; rfl, h.2.2⟩, h.2.1.2⟩) fun _ => ?_
    exact (rawLoop_triple k (g + 1)).conseq (fun _ h => h) (fun _ _ h => ⟨h.1, h.2.1, by rw [h.2.2]; omega⟩) (fun _ h => h)

theorem align_triple (hX : FreeRd X) :
    Triple (fun s => OnS p s ∧ X s) align (fun _ s => OnS p s ∧ X s ∧ s.rd.left = 0) Stops := by
  rintro s ⟨ho, hx⟩
  by_cases hz : s.rd.resid = 0
  · rw [align_boundary ho.1 hz]
    have hi := onStream_inNext ho.1
    have hp := ho.1.2
    have hp' := ho.2
    refine ⟨⟨onStream_seek (by omega), by rw [seek_pos]; omega⟩, hX _ _ hx, ?_⟩
    rw [State.seek, readerAt_boundary]
  · rw [align_nonzero hz]; exact stops_raise _ (by decide)

theorem rawcopy_triple {m g : Nat} :
    Triple (fun s => OnS p s ∧ s.mlen = m ∧ s.got = g) rawcopy (fun _ s => OnS p s ∧ s.mlen = 0 ∧ s.got = g + m) Stops := by
  refine (align_triple (X := fun s => s.mlen = m ∧ s.got = g) fun _ _ h => h).bind fun _ => Triple.get_bind fun t => ?_
  refine (Triple.require (Q := fun _ s => (OnS p s ∧ (s.mlen = m ∧ s.got = g) ∧ s.rd.left = 0) ∧ s = t) (fun _ h _ => h)
    (fun s _ _ => stops_raise s (by decide))).bind fun _ => ?_
  rintro s ⟨h, rfl⟩
  rw [h.2.1.1]
  exact rawLoop_triple m g s h

theorem metaSkip_triple (k : Nat) : Triple (fun s => OnS p s) (metaSkip k) (fun _ s => OnS p s) Stops := by
  refine Triple.bind ((align_triple (X := fun _ => True) fun _ _ _ => trivial).conseq (fun _ h => ⟨h, trivial⟩)
    (fun _ _ h => h) (fun _ h => h)) fun _ => ?_
  rintro s ⟨ho, _, hl⟩
  obtain ⟨hr, hp⟩ := onS_boundary ho hl
  rw [skip_run hl]
  split_ifs with hk
  · exact stops_raise _ (by decide)
  · have e : ({ s.rd with inNext := s.rd.inNext + k } : Reader) = { inNext := s.rd.inNext + k, resid := 0, left := 0 } := by
      rw [hr]
    rw [e]
    have h1 := ho.1.2
    exact onS_at (by omega) (by have := ho.2; omega)

theorem mskiplen_triple {sb : Nat} (h : sb ≤ 3) :
    Triple (fun s => OnS p s) (mskiplen sb) (fun v s => OnS p s ∧ v ≤ 16777216) Stops := by
  refine Triple.ite (fun _ => Triple.pure fun _ h => ⟨h, by omega⟩) fun _ => ?_
  refine Triple.bind ((bits_triple (X := fun _ => True) (fun _ _ _ => trivial) (n := 8 * sb) (by omega)).conseq
    (fun _ h => ⟨h, trivial⟩) (fun _ _ h => h) (fun _ h => h)) fun v => Triple.get_bind fun t => ?_
  refine (Triple.require (Q := fun _ s => OnS p s ∧ v < 2 ^ (8 * sb)) (fun _ h _ => ⟨h.1.1, h.1.2.2⟩)
    (fun s _ _ => stops_raise s (by decide))).bind fun _ => Triple.pure fun s h => ⟨h.1, ?_⟩
  have : 2 ^ (8 * sb) ≤ 2 ^ 24 := Nat.pow_le_pow_right (by omega) (by omega)
  have := h.2
  omega

theorem mlen_triple {nn g : Nat} (h : nn ≤ 6) :
    Triple (fun s => OnS p s ∧ s.got = g) (mlen nn) (fun _ s => OnS p s ∧ s.got = g ∧ 1 ≤ s.mlen ∧ s.fits s.mlen = true) Stops := by
  refine (bits_triple (X := fun s => s.got = g) (fun _ _ h => h) (n := 4 * nn) (by omega)).bind fun v => ?_
  refine (Triple.require (Q := fun _ s => OnS p s ∧ s.got = g) (fun _ h _ => ⟨h.1, h.2.1⟩)
    (fun s _ _ => stops_raise s (by decide))).bind fun _ => ?_
  refine Triple.bind (Q := fun _ s => OnS p s ∧ s.got = g ∧ 1 ≤ s.mlen) (Triple.update fun s h =>
    ⟨h.1, h.2, by simp⟩) fun _ => Triple.get_bind fun t => ?_
  refine Triple.require (fun s h hc => ⟨h.1.1, h.1.2.1, h.1.2.2, by rw [h.2]; exact hc⟩) (fun s _ _ => stops_raise s ?_)
  cases t.compare <;> decide

end Sys2Proof.Machine
end

