-- ==== Sys2Proof/Laws/Runs.lean ====
section
/-! SUPPORT. What the step of each operation of a run that has not ended gives: the invariant again, and a run only goes
forward; or the repeated symbol of a simple descriptor (R36, R38, R149, R181, R385). -/

namespace Sys2Proof.Machine

variable {α : Type}

/-- What a step of a run from `s` may answer. -/
def Goes (s : State) : Host.Outcome State Fault Refusal → Prop
  | .next t => t.Inv ∧ t.ports = s.ports ∧ s.rd.inNext ≤ t.rd.inNext ∧ s.pos ≤ t.pos ∧ s.got ≤ t.got ∧
      ∀ a, a < s.got → t.produced a = s.produced a
  | .fault _ => False
  | .refused r => r = .dupSimple

theorem running_outOk {s : State} (h : s.Running) : s.OutOk := ⟨h.out.1, h.out.2, h.noStorage⟩

theorem running_headerOk {s : State} (h : s.Running) : s.HeaderOk :=
  ⟨h.distance, h.blocks, h.modes, h.litMap, h.distMap, h.litBank, h.iacBank, h.distBank⟩

/-- The transition writes only the control state and the list of operations. -/
theorem kept_advance (i : Instr) (s : State) : Kept [.ctl, .todo] s (s.advance i) := by
  have h : ∃ c l, s.advance i = { s with ctl := c, todo := l } := by
    unfold State.advance State.afterInsert State.goOn
    by_cases hd : s.ctl = .done
    · exact ⟨s.ctl, s.todo, by rw [if_pos hd]⟩
    · rw [if_neg hd]
      cases i <;> first
        | exact ⟨s.ctl, s.todo, rfl⟩
        | exact ⟨_, s.todo, rfl⟩
        | exact ⟨s.ctl, _, rfl⟩
        | (simp only; split_ifs <;> first | exact ⟨s.ctl, _, rfl⟩ | exact ⟨_, s.todo, rfl⟩)
  obtain ⟨c, l, e⟩ := h
  rw [e]
  refine ⟨?_, le_refl _, fun _ _ => rfl, le_refl _, le_refl _⟩
  intro f hf; cases f <;> first | rfl | exact absurd (by simp) hf

theorem kept_todo (s : State) (l : List Elem) : Kept [.todo] s { s with todo := l } := by
  refine ⟨?_, le_refl _, fun _ _ => rfl, le_refl _, le_refl _⟩
  intro f hf; cases f <;> first | rfl | exact absurd (by simp) hf

/-- What only goes forward. -/
theorem goes_forward {L : List Fld} {s t : State} (h : Kept L s t) (h1 : .ports ∉ L) (h2 : .compare ∉ L) :
    t.ports = s.ports ∧ s.rd.inNext ≤ t.rd.inNext ∧ s.pos ≤ t.pos ∧ s.got ≤ t.got ∧
      ∀ a, a < s.got → t.produced a = s.produced a := by
  have e1 : s.ports = t.ports := h.1 _ h1
  have e2 : s.compare = t.compare := h.1 _ h2
  refine ⟨e1.symm, h.2.2.2.1, h.2.2.2.2, h.2.1, fun a ha => ?_⟩
  unfold State.produced
  rw [← e1, ← e2, h.2.2.1 a (.inl ha)]

/-- A raised result ends a run as the invariant says. -/
theorem goes_takeFault {L : List Fld} {s u : State} {k : Result} (h : Kept L s u) (h1 : .ports ∉ L) (h2 : .compare ∉ L)
    (ho : u.OutOk) : Goes s (.next (u.takeFault k)) := by
  obtain ⟨e1, e2, e3, e4, e5⟩ := goes_forward h h1 h2
  exact ⟨.inr ⟨rfl, by simp [State.takeFault], rfl, ho.1, ho.2.1⟩, e1, e2, e3, e4, e5⟩

/-- The pieces no operation of a run writes. -/
def fixedFlds : List Fld := [.ports, .compare, .haveLen, .result]

/-- A state after an operation is again a state of a run. -/
theorem running_of {L : List Fld} {s t : State} (hR : s.Running) (hk : Kept L s t) (hL : ∀ f ∈ fixedFlds, f ∉ L)
    (live : t.ctl ≠ .done) (cursor : t.onStream) (out : t.OutOk) (wbits : 10 ≤ t.wbits ∧ t.wbits ≤ 24) (ring : t.RingOk)
    (header : t.HeaderOk) (copyLen : 2 ≤ t.copyLen)
    (capacity : ∀ n, s.bound = some n → t.got + t.insLeft + t.mlen ≤ n) (flow : t.flow) : t.Running := by
  have e1 : s.ports = t.ports := hk.1 .ports (hL .ports (by simp [fixedFlds]))
  have e2 : s.compare = t.compare := hk.1 .compare (hL .compare (by simp [fixedFlds]))
  have e3 : s.haveLen = t.haveLen := hk.1 .haveLen (hL .haveLen (by simp [fixedFlds]))
  have e4 : s.result = t.result := hk.1 .result (hL .result (by simp [fixedFlds]))
  have eb : s.bound = t.bound := by unfold State.bound; rw [e1, e2, e3]
  have hm := hR.mode
  rw [e1, e2, e3] at hm
  rw [eb] at capacity
  exact ⟨live, e4 ▸ hR.noResult, cursor, hm, ⟨out.1, out.2.1⟩, out.2.2, wbits, ring, header.distance, header.blocks,
    header.modes, header.litMap, header.distMap, header.litBank, header.iacBank, header.distBank, copyLen, capacity, flow⟩

/-- Running an operation from a state of a run. -/
theorem goes_op {L K : List Fld} {P : State → Prop} {op : M α} {keep : α → State → State} {Q : α → State → Prop} {s s1 : State}
    {i : Instr} (hR : s.Running) (h1 : s1 = { s with todo := s.todo.tail })
    (he : exec i s1 = complete op keep s1) (hP : P s1) (hT : Triple P op Q Stops) (hK : Keeps L op)
    (hO : Triple State.OutOk op (fun _ s => s.OutOk) EndsOut) (hk : ∀ a u, Kept K u (keep a u))
    (hL : ∀ f ∈ fixedFlds, f ∉ L ++ K)
    (hok : ∀ a u, Q a u → u.OutOk → Kept L s1 u → Kept ([.todo, .ctl] ++ (L ++ K)) s ((keep a u).advance i) →
      ((keep a u).advance i).Inv) :
    Goes s (match exec i s1 with
      | .next t => .next (t.advance i)
      | .fault f => .fault f
      | .refused r => .refused r) := by
  have a1 := hT s1 hP
  have a2 := hK s1
  have hs1 : Kept [.todo] s s1 := by rw [h1]; exact kept_todo _ _
  have a3 := hO s1 (outOk_free (L := [.todo]) (by simp) (by simp) (by simp) s s1 hs1.1 (running_outOk hR))
  rw [he, complete]
  have hL' : ∀ f ∈ fixedFlds, f ∉ [.todo, .ctl] ++ (L ++ K) := by
    intro f hf hm
    have := hL f hf
    simp only [List.mem_append] at hm this
    rcases hm with hm | hm
    · revert hf; fin_cases hm <;> simp [fixedFlds]
    · exact this hm
  revert a1 a2 a3
  cases op s1 with
  | ok r =>
    obtain ⟨a, u⟩ := r
    intro b1 b2 b3
    have hk' : Kept ([.todo, .ctl] ++ (L ++ K)) s ((keep a u).advance i) :=
      (hs1.mono (by simp)).trans ((b2.mono (by intro f; simp; tauto)).trans (((hk a u).mono (by intro f; simp; tauto)).trans
        ((kept_advance i _).mono (by simp))))
    exact ⟨hok a u b1 b3 b2 hk', goes_forward hk' (hL' _ (by simp [fixedFlds])) (hL' _ (by simp [fixedFlds]))⟩
  | error e =>
    cases e with
    | raised t =>
      rintro b1 ⟨u, k, hk1, hk2, rfl⟩ b3
      have hk' : Kept ([.todo, .ctl] ++ (L ++ K)) s u :=
        (hs1.mono (by simp)).trans (hk2.mono (by intro f; simp; tauto))
      have : (u.takeFault k).advance i = u.takeFault k := by unfold State.advance; exact if_pos rfl
      show Goes s (.next ((u.takeFault k).advance i))
      rw [this]
      exact goes_takeFault hk' (hL' _ (by simp [fixedFlds])) (hL' _ (by simp [fixedFlds])) b3
    | fault f => exact fun h => absurd h id
    | refused r => exact fun h _ _ => h

/-- A step that fetches a plain operation. -/
theorem step_oper {s : State} {i : Instr} (h : s.onStream) (hw : i.wf = true) (he : s.nextElem = some (.oper i)) :
    step s = match exec i { s with todo := s.todo.tail } with
      | .next t => .next (t.advance i)
      | .fault f => .fault f
      | .refused r => .refused r := by
  have hs : s.hasBits 0 := by unfold State.hasBits; have := h.2; omega
  have hf := fetch_ok h he hs (show decode (.oper i) _ = .ok (i, 0) by simp [decode, hw])
  rw [Nat.add_zero] at hf
  rw [step, hf]
  have : ({ s with todo := s.todo.tail } : State).seek s.pos = { s with todo := s.todo.tail } :=
    seek_self (s := { s with todo := s.todo.tail }) h
  simp only [this]
  all_goals cases exec i { s with todo := s.todo.tail } <;> rfl

/-! One operation after another. -/

theorem onS_self {s : State} (h : s.onStream) : OnS s.pos s := ⟨h, le_rfl⟩

theorem kept_none (a : Unit) (u : State) : Kept [] u (keepNone a u) := Kept.refl

/-- The pieces that must be in order for a command, and are not written by the simpler operations. -/
def keptFlds : List Fld := fixedFlds ++ (hdrFlds ++ [.wbits, .ring, .copyLen])

/-- An operation that leaves the header, the window, the ring and the copy length alone. -/
theorem plain_next {L : List Fld} {s t : State} (hR : s.Running) (hk : Kept L s t) (hL : ∀ f ∈ keptFlds, f ∉ L)
    (ho : OnS s.pos t) (hout : t.OutOk) (live : t.ctl ≠ .done)
    (hcap : t.got + t.insLeft + t.mlen ≤ s.got + s.insLeft + s.mlen) (flow : t.flow) :
    t.Inv := by
  have e1 : s.wbits = t.wbits := hk.1 .wbits (hL .wbits (by simp [keptFlds]))
  have e2 : s.ring = t.ring := hk.1 .ring (hL .ring (by simp [keptFlds]))
  have e3 : s.copyLen = t.copyLen := hk.1 .copyLen (hL .copyLen (by simp [keptFlds]))
  refine .inl (running_of hR hk (fun f hf => hL f (by simp only [keptFlds, List.mem_append]; tauto)) live ho.1 hout
    (e1 ▸ hR.wbits) ?_ (headerOk_free (fun f hf => hL f (by simp only [keptFlds, List.mem_append]; tauto)) s t hk.1
      (running_headerOk hR)) (e3 ▸ hR.copyLen) (fun n hn => le_trans hcap (hR.capacity n hn)) flow)
  unfold State.RingOk
  rw [← e2]
  exact hR.ring

theorem bits_onS {p n : Nat} (hn : n ≤ 25) : Triple (fun s => OnS p s) (bits n) (fun v s => OnS p s ∧ v < 2 ^ n) Stops :=
  (bits_triple (X := fun _ => True) (fun _ _ _ => trivial) hn).conseq (fun _ h => ⟨h, trivial⟩) (fun _ _ h => ⟨h.1, h.2.2⟩)
    (fun _ h => h)

theorem islast_triple {p : Nat} : Triple (fun s => OnS p s) islast (fun _ s => OnS p s) Stops :=
  (bits_onS (by omega)).bind fun _ => Triple.update fun _ h => h.1

theorem metaRsvd_triple {p : Nat} : Triple (fun s => OnS p s) metaRsvd (fun _ s => OnS p s) Stops :=
  (bits_onS (by omega)).bind fun _ => Triple.require (fun _ h _ => h.1) (fun s _ _ => stops_raise s (by decide))

section ops

variable {s : State}

theorem goes_islast (hR : s.Running) (hc : s.ctl = .mbStart) (ht : s.todo = []) : Goes s (step s) := by
  have hf := hR.flow
  simp only [State.flow, hc] at hf
  rw [step_oper (i := .islast) hR.cursor rfl (by simp [State.nextElem, hc, ht, Ctl.entry])]
  refine goes_op (L := [.rd, .last]) (K := []) (keep := keepNone) hR rfl rfl (onS_self hR.cursor) islast_triple Keeps.islast
    (keeps_out Keeps.islast (by simp) (by simp) (by simp)) kept_none (by decide) ?_
  intro a u ho hout hk hk'
  have c1 : s.ctl = u.ctl := hk.1 .ctl (by simp)
  have c2 : s.todo.tail = u.todo := hk.1 .todo (by simp)
  have c3 : s.mlen = u.mlen := hk.1 .mlen (by simp)
  have c4 : s.insLeft = u.insLeft := hk.1 .insLeft (by simp)
  have c5 : s.got = u.got := hk.1 .got (by simp)
  have e : (keepNone a u).advance .islast =
      if u.last then { u with todo := .oper .islastempty :: u.todo } else { u with ctl := .mbHdr } := by
    simp only [keepNone, State.advance, State.goOn, ← c1, hc]; rfl
  rw [e] at hk' ⊢
  by_cases hl : u.last = true
  · rw [if_pos hl] at hk' ⊢
    refine plain_next hR hk' (by decide) ho hout ?_ ?_ ?_
    · show u.ctl ≠ .done; rw [← c1, hc]; decide
    · show u.got + u.insLeft + u.mlen ≤ _; omega
    · unfold State.flow
      rw [show ({ u with todo := .oper .islastempty :: u.todo } : State).ctl = .mbStart from c1.symm.trans hc]
      exact ⟨.inr ⟨by show Elem.oper .islastempty :: u.todo = _; rw [← c2, ht]; rfl, hl⟩, by
        show u.mlen = 0; omega, by show u.insLeft = 0; omega⟩
  · rw [if_neg hl] at hk' ⊢
    refine plain_next hR hk' (by decide) ho hout (show Ctl.mbHdr ≠ .done by decide) ?_ ?_
    · show u.got + u.insLeft + u.mlen ≤ _; omega
    · exact ⟨by show u.insLeft = 0; omega, .inl ⟨by show u.mlen = 0; omega, .inl (by show u.todo = []; rw [← c2, ht]; rfl)⟩⟩

/-- One-field operations that leave a value in the latch. -/
theorem goes_field {n : Nat} {i : Instr} (hn : n ≤ 25) (hw : i.wf = true) (hR : s.Running)
    (hi : s.nextElem = some (.oper i)) (he : ∀ u, exec i u = complete (bits n) keepVal u)
    (hok : ∀ v u, v < 2 ^ n → s.ctl = u.ctl → s.todo.tail = u.todo → s.mlen = u.mlen → s.insLeft = u.insLeft →
      s.last = u.last → ∃ c l, (keepVal v u).advance i = { keepVal v u with ctl := c, todo := l } ∧ c ≠ .done ∧
        ({ keepVal v u with ctl := c, todo := l } : State).flow) : Goes s (step s) := by
  rw [step_oper hR.cursor hw hi]
  refine goes_op (L := [.rd]) (K := [.latVal]) (keep := keepVal) hR rfl (he _) (onS_self hR.cursor) (bits_onS hn)
    (Keeps.bits n) (keeps_out (Keeps.bits n) (by simp) (by simp) (by simp)) (fun a u => Kept.val a) (by decide) ?_
  intro a u ho hout hk hk'
  have c1 : s.ctl = u.ctl := hk.1 .ctl (by simp)
  have c2 : s.todo.tail = u.todo := hk.1 .todo (by simp)
  have c3 : s.mlen = u.mlen := hk.1 .mlen (by simp)
  have c4 : s.insLeft = u.insLeft := hk.1 .insLeft (by simp)
  have c5 : s.got = u.got := hk.1 .got (by simp)
  have c6 : s.last = u.last := hk.1 .last (by simp)
  obtain ⟨c, l, e, h1, h2⟩ := hok a u ho.2 c1 c2 c3 c4 c6
  rw [e] at hk' ⊢
  refine plain_next hR hk' (by decide) ho.1 hout h1 ?_ h2
  show u.got + u.insLeft + u.mlen ≤ _; omega

theorem goes_islastempty (hR : s.Running) (hc : s.ctl = .mbStart) (ht : s.todo = [.oper .islastempty]) :
    Goes s (step s) := by
  have hf := hR.flow
  simp only [State.flow, hc] at hf
  refine goes_field (n := 1) (i := .islastempty) (by omega) rfl hR (by simp [State.nextElem, hc, ht]) (fun _ => rfl) ?_
  intro v u hv c1 c2 c3 c4 c6
  refine ⟨if v = 1 then .fin else .mbHdr, u.todo, ?_, ?_, ?_⟩
  · simp only [State.advance, keepVal, ← c1, hc]; rfl
  · split_ifs <;> decide
  · rw [ht] at c2
    by_cases h : v = 1
    · simp only [if_pos h]
      exact ⟨c2.symm, by show u.mlen = 0; omega, by show u.insLeft = 0; omega⟩
    · simp only [if_neg h]
      exact ⟨by show u.insLeft = 0; omega, .inl ⟨by show u.mlen = 0; omega, .inl c2.symm⟩⟩

theorem goes_mnibbles (hR : s.Running) (hc : s.ctl = .mbHdr) (ht : s.todo = []) (hm : s.mlen = 0) : Goes s (step s) := by
  have hf := hR.flow
  simp only [State.flow, hc] at hf
  refine goes_field (n := 2) (i := .mnibbles) (by omega) rfl hR (by simp [State.nextElem, hc, ht, Ctl.entry]) (fun _ => rfl) ?_
  intro v u hv c1 c2 c3 c4 c6
  rw [ht] at c2
  refine ⟨u.ctl, (if v = 3 then .oper .metaRsvd else .oper (.mlen (4 + v))) :: u.todo, ?_, by rw [← c1, hc]; decide, ?_⟩
  · unfold State.advance
    refine (if_neg (show u.ctl ≠ .done by rw [← c1, hc]; decide)).trans ?_
    show (if v = 3 then _ else _) = _
    by_cases h : v = 3
    · simp only [if_pos h]; rfl
    · simp only [if_neg h]; rfl
  · unfold State.flow
    rw [show ({ keepVal v u with ctl := u.ctl, todo := (if v = 3 then .oper .metaRsvd else .oper (.mlen (4 + v))) ::
      u.todo } : State).ctl = .mbHdr from c1.symm.trans hc]
    refine ⟨by show u.insLeft = 0; omega, .inl ⟨by show u.mlen = 0; omega, ?_⟩⟩
    show ((if v = 3 then Elem.oper .metaRsvd else .oper (.mlen (4 + v))) :: u.todo) = [] ∨ _
    rw [← c2]
    split_ifs with h
    · exact .inr (.inl (by simp))
    · exact .inr (.inr (.inr (.inr (.inr ⟨4 + v, by omega, by omega, by simp⟩))))

theorem goes_mskipbytes (hR : s.Running) (hc : s.ctl = .mbHdr) (ht : s.todo = [.oper .mskipbytes]) (hm : s.mlen = 0) :
    Goes s (step s) := by
  have hf := hR.flow
  simp only [State.flow, hc] at hf
  refine goes_field (n := 2) (i := .mskipbytes) (by omega) rfl hR (by simp [State.nextElem, hc, ht]) (fun _ => rfl) ?_
  intro v u hv c1 c2 c3 c4 c6
  rw [ht] at c2
  refine ⟨u.ctl, .oper (.mskiplen v) :: u.todo, ?_, by rw [← c1, hc]; decide, ?_⟩
  · unfold State.advance
    refine (if_neg (show u.ctl ≠ .done by rw [← c1, hc]; decide)).trans ?_
    rfl
  · unfold State.flow
    rw [show ({ keepVal v u with ctl := u.ctl, todo := .oper (.mskiplen v) :: u.todo } : State).ctl = .mbHdr
      from c1.symm.trans hc]
    refine ⟨by show u.insLeft = 0; omega, .inl ⟨by show u.mlen = 0; omega, .inr (.inr (.inr (.inl ⟨v, by omega, ?_⟩)))⟩⟩
    show Elem.oper (.mskiplen v) :: u.todo = _
    rw [← c2]; rfl

theorem goes_isuncompressed (hR : s.Running) (hc : s.ctl = .mbHdr) (ht : s.todo = [.oper .isuncompressed])
    (hm : 0 < s.mlen) : Goes s (step s) := by
  have hf := hR.flow
  simp only [State.flow, hc] at hf
  refine goes_field (n := 1) (i := .isuncompressed) (by omega) rfl hR (by simp [State.nextElem, hc, ht]) (fun _ => rfl) ?_
  intro v u hv c1 c2 c3 c4 c6
  rw [ht] at c2
  refine ⟨u.ctl, (if v = 1 then .oper .rawcopy else .oper .header) :: u.todo, ?_, by rw [← c1, hc]; decide, ?_⟩
  · unfold State.advance
    refine (if_neg (show u.ctl ≠ .done by rw [← c1, hc]; decide)).trans ?_
    show (if v = 1 then _ else _) = _
    by_cases h : v = 1
    · simp only [if_pos h]; rfl
    · simp only [if_neg h]; rfl
  · unfold State.flow
    rw [show ({ keepVal v u with ctl := u.ctl, todo := (if v = 1 then .oper .rawcopy else .oper .header) ::
      u.todo } : State).ctl = .mbHdr from c1.symm.trans hc]
    refine ⟨by show u.insLeft = 0; omega, .inr ⟨by show 0 < u.mlen; omega, ?_⟩⟩
    show _ ∨ ((if v = 1 then Elem.oper .rawcopy else .oper .header) :: u.todo) = _ ∨ _
    rw [← c2]
    split_ifs with h
    · exact .inr (.inl (by simp))
    · exact .inr (.inr (by simp))

theorem goes_metaRsvd (hR : s.Running) (hc : s.ctl = .mbHdr) (ht : s.todo = [.oper .metaRsvd]) (hm : s.mlen = 0) :
    Goes s (step s) := by
  have hf := hR.flow
  simp only [State.flow, hc] at hf
  rw [step_oper (i := .metaRsvd) hR.cursor rfl (by simp [State.nextElem, hc, ht])]
  refine goes_op (L := [.rd]) (K := []) (keep := keepNone) hR rfl rfl (onS_self hR.cursor) metaRsvd_triple Keeps.metaRsvd
    (keeps_out Keeps.metaRsvd (by simp) (by simp) (by simp)) kept_none (by decide) ?_
  intro a u ho hout hk hk'
  have c1 : s.ctl = u.ctl := hk.1 .ctl (by simp)
  have c2 : s.todo.tail = u.todo := hk.1 .todo (by simp)
  have c3 : s.mlen = u.mlen := hk.1 .mlen (by simp)
  have c4 : s.insLeft = u.insLeft := hk.1 .insLeft (by simp)
  have c5 : s.got = u.got := hk.1 .got (by simp)
  have hne : u.ctl ≠ .done := by rw [← c1, hc]; decide
  have e : (keepNone a u).advance .metaRsvd = { u with todo := .oper .mskipbytes :: u.todo } := by
    unfold State.advance; exact if_neg hne
  rw [e] at hk' ⊢
  refine plain_next hR hk' (by decide) ho hout hne ?_ ?_
  · show u.got + u.insLeft + u.mlen ≤ _; omega
  · unfold State.flow
    rw [show ({ u with todo := .oper .mskipbytes :: u.todo } : State).ctl = .mbHdr from c1.symm.trans hc]
    refine ⟨by show u.insLeft = 0; omega, .inl ⟨by show u.mlen = 0; omega, .inr (.inr (.inl ?_))⟩⟩
    show Elem.oper .mskipbytes :: u.todo = _
    rw [← c2, ht]; rfl

theorem goes_mskiplen {sb : Nat} (hsb : sb ≤ 3) (hR : s.Running) (hc : s.ctl = .mbHdr)
    (ht : s.todo = [.oper (.mskiplen sb)]) (hm : s.mlen = 0) : Goes s (step s) := by
  have hf := hR.flow
  simp only [State.flow, hc] at hf
  rw [step_oper (i := .mskiplen sb) hR.cursor (by simpa [Instr.wf] using hsb) (by simp [State.nextElem, hc, ht])]
  refine goes_op (L := [.rd]) (K := [.latVal]) (keep := keepVal) hR rfl rfl (onS_self hR.cursor) (mskiplen_triple hsb)
    (Keeps.mskiplen sb) (keeps_out (Keeps.mskiplen sb) (by simp) (by simp) (by simp)) (fun a u => Kept.val a) (by decide) ?_
  intro a u ho hout hk hk'
  have c1 : s.ctl = u.ctl := hk.1 .ctl (by simp)
  have c2 : s.todo.tail = u.todo := hk.1 .todo (by simp)
  have c3 : s.mlen = u.mlen := hk.1 .mlen (by simp)
  have c4 : s.insLeft = u.insLeft := hk.1 .insLeft (by simp)
  have c5 : s.got = u.got := hk.1 .got (by simp)
  have hne : u.ctl ≠ .done := by rw [← c1, hc]; decide
  have e : (keepVal a u).advance (.mskiplen sb) = { keepVal a u with todo := .oper (.metaSkip a) :: u.todo } := by
    unfold State.advance; exact if_neg hne
  rw [e] at hk' ⊢
  refine plain_next hR hk' (by decide) ho.1 hout hne ?_ ?_
  · show u.got + u.insLeft + u.mlen ≤ _; omega
  · unfold State.flow
    rw [show ({ keepVal a u with todo := .oper (.metaSkip a) :: u.todo } : State).ctl = .mbHdr from c1.symm.trans hc]
    refine ⟨by show u.insLeft = 0; omega, .inl ⟨by show u.mlen = 0; omega, .inr (.inr (.inr (.inr (.inl ⟨a, ho.2, ?_⟩))))⟩⟩
    show Elem.oper (.metaSkip a) :: u.todo = _
    rw [← c2, ht]; rfl

theorem goes_metaSkip {k : Nat} (hk16 : k ≤ 16777216) (hR : s.Running) (hc : s.ctl = .mbHdr)
    (ht : s.todo = [.oper (.metaSkip k)]) (hm : s.mlen = 0) : Goes s (step s) := by
  have hf := hR.flow
  simp only [State.flow, hc] at hf
  rw [step_oper (i := .metaSkip k) hR.cursor (by simpa [Instr.wf] using hk16) (by simp [State.nextElem, hc, ht])]
  refine goes_op (L := [.rd]) (K := []) (keep := keepNone) hR rfl rfl (onS_self hR.cursor) (metaSkip_triple k)
    (Keeps.metaSkip k) (keeps_out (Keeps.metaSkip k) (by simp) (by simp) (by simp)) kept_none (by decide) ?_
  intro a u ho hout hk hk'
  have c1 : s.ctl = u.ctl := hk.1 .ctl (by simp)
  have c2 : s.todo.tail = u.todo := hk.1 .todo (by simp)
  have c3 : s.mlen = u.mlen := hk.1 .mlen (by simp)
  have c4 : s.insLeft = u.insLeft := hk.1 .insLeft (by simp)
  have c5 : s.got = u.got := hk.1 .got (by simp)
  have e : (keepNone a u).advance (.metaSkip k) = { u with ctl := .mbEnd } := by
    unfold State.advance; exact if_neg (by show u.ctl ≠ .done; rw [← c1, hc]; decide)
  rw [e] at hk' ⊢
  refine plain_next hR hk' (by decide) ho hout (show Ctl.mbEnd ≠ .done by decide) ?_ ?_
  · show u.got + u.insLeft + u.mlen ≤ _; omega
  · exact ⟨by show u.todo = []; rw [← c2, ht]; rfl, by show u.mlen = 0; omega, by show u.insLeft = 0; omega⟩

theorem goes_rawcopy (hR : s.Running) (hc : s.ctl = .mbHdr) (ht : s.todo = [.oper .rawcopy]) : Goes s (step s) := by
  have hf := hR.flow
  simp only [State.flow, hc] at hf
  rw [step_oper (i := .rawcopy) hR.cursor rfl (by simp [State.nextElem, hc, ht])]
  refine goes_op (L := [.rd, .mlen, .got, .out]) (K := []) (keep := keepNone) hR rfl rfl ⟨onS_self hR.cursor, rfl, rfl⟩
    (rawcopy_triple (m := s.mlen) (g := s.got)) Keeps.rawcopy rawcopy_out kept_none (by decide) ?_
  intro a u ho hout hk hk'
  have c1 : s.ctl = u.ctl := hk.1 .ctl (by simp)
  have c2 : s.todo.tail = u.todo := hk.1 .todo (by simp)
  have c4 : s.insLeft = u.insLeft := hk.1 .insLeft (by simp)
  have e : (keepNone a u).advance .rawcopy = { u with ctl := .mbEnd } := by
    unfold State.advance; exact if_neg (by show u.ctl ≠ .done; rw [← c1, hc]; decide)
  rw [e] at hk' ⊢
  obtain ⟨ho, h1, h2⟩ := ho
  refine plain_next hR hk' (by decide) ho hout (show Ctl.mbEnd ≠ .done by decide) ?_ ?_
  · show u.got + u.insLeft + u.mlen ≤ _; omega
  · exact ⟨by show u.todo = []; rw [← c2, ht]; rfl, h1, by show u.insLeft = 0; omega⟩

theorem goes_lit (hR : s.Running) (hc : s.ctl = .lit) : Goes s (step s) := by
  have hf := hR.flow
  simp only [State.flow, hc] at hf
  rw [step_oper (i := .lit) hR.cursor rfl (by simp [State.nextElem, hc, hf.1, Ctl.entry])]
  refine goes_op (L := tickFlds .L ++ [.insLeft, .got, .out]) (K := []) (keep := keepNone) hR rfl rfl
    ⟨onS_self hR.cursor, headerOk_free (L := [.todo]) (by decide) s _ (kept_todo s _).1 (running_headerOk hR), rfl, hf.2, rfl⟩
    (lit_triple (n := s.insLeft) (g := s.got)) Keeps.lit lit_out kept_none (by decide) ?_
  intro a u ho hout hk hk'
  obtain ⟨ho, hh, h1, h2⟩ := ho
  have c1 : s.ctl = u.ctl := hk.1 .ctl (by decide)
  have c2 : s.todo.tail = u.todo := hk.1 .todo (by decide)
  have c3 : s.mlen = u.mlen := hk.1 .mlen (by decide)
  have c4 : s.wbits = u.wbits := hk.1 .wbits (by decide)
  have c5 : s.ring = u.ring := hk.1 .ring (by decide)
  have c6 : s.copyLen = u.copyLen := hk.1 .copyLen (by decide)
  have e : (keepNone a u).advance .lit = u.afterInsert := by
    unfold State.advance; exact if_neg (by show u.ctl ≠ .done; rw [← c1, hc]; decide)
  rw [e, State.afterInsert] at hk' ⊢
  have hlive : (if 0 < u.insLeft then Ctl.lit else if u.mlen = 0 then .mbEnd else .copy) ≠ .done := by
    split_ifs <;> decide
  refine .inl (running_of hR hk' (by decide) hlive ho.1 hout (by show 10 ≤ u.wbits ∧ u.wbits ≤ 24; rw [← c4]; exact hR.wbits)
    (by show u.RingOk; unfold State.RingOk; rw [← c5]; exact hR.ring)
    (headerOk_free (L := [.ctl]) (by decide) u _ (Kept.ctl _).1 hh) (by show 2 ≤ u.copyLen; rw [← c6]; exact hR.copyLen)
    (fun n hn => ?_) ?_)
  · show u.got + u.insLeft + u.mlen ≤ n
    have := hR.capacity n hn; omega
  · have ht : u.todo = [] := by rw [← c2, hf.1]; rfl
    by_cases hi : 0 < u.insLeft
    · simp only [if_pos hi]; exact ⟨ht, hi⟩
    · simp only [if_neg hi]
      by_cases hz : u.mlen = 0
      · simp only [if_pos hz]; exact ⟨ht, hz, by show u.insLeft = 0; omega⟩
      · simp only [if_neg hz]; exact ⟨.inl ht, by show 0 < u.mlen; omega, by show u.insLeft = 0; omega⟩

theorem goes_cmd (hR : s.Running) (hc : s.ctl = .cmd) : Goes s (step s) := by
  have hf := hR.flow
  simp only [State.flow, hc] at hf
  rw [step_oper (i := .cmd) hR.cursor rfl (by simp [State.nextElem, hc, hf.1, Ctl.entry])]
  refine goes_op (L := tickFlds .I ++ [.iacSym, .copyLen, .mlen, .insLeft]) (K := []) (keep := keepNone) hR rfl rfl
    ⟨onS_self hR.cursor, headerOk_free (L := [.todo]) (by decide) s _ (kept_todo s _).1 (running_headerOk hR), rfl, hf.2.1⟩
    (cmd_triple (m := s.mlen)) Keeps.cmd (keeps_out Keeps.cmd (by decide) (by decide) (by decide)) kept_none (by decide) ?_
  intro a u ho hout hk hk'
  obtain ⟨ho, hh, h1, h2⟩ := ho
  have c1 : s.ctl = u.ctl := hk.1 .ctl (by decide)
  have c2 : s.todo.tail = u.todo := hk.1 .todo (by decide)
  have c3 : s.got = u.got := hk.1 .got (by decide)
  have c4 : s.wbits = u.wbits := hk.1 .wbits (by decide)
  have c5 : s.ring = u.ring := hk.1 .ring (by decide)
  have e : (keepNone a u).advance .cmd = u.afterInsert := by
    unfold State.advance; exact if_neg (by show u.ctl ≠ .done; rw [← c1, hc]; decide)
  rw [e, State.afterInsert] at hk' ⊢
  have hlive : (if 0 < u.insLeft then Ctl.lit else if u.mlen = 0 then .mbEnd else .copy) ≠ .done := by
    split_ifs <;> decide
  refine .inl (running_of hR hk' (by decide) hlive ho.1 hout (by show 10 ≤ u.wbits ∧ u.wbits ≤ 24; rw [← c4]; exact hR.wbits)
    (by show u.RingOk; unfold State.RingOk; rw [← c5]; exact hR.ring)
    (headerOk_free (L := [.ctl]) (by decide) u _ (Kept.ctl _).1 hh) h1 (fun n hn => ?_) ?_)
  · show u.got + u.insLeft + u.mlen ≤ n
    have := hR.capacity n hn; omega
  · have ht : u.todo = [] := by rw [← c2, hf.1]; rfl
    by_cases hi : 0 < u.insLeft
    · simp only [if_pos hi]; exact ⟨ht, hi⟩
    · simp only [if_neg hi]
      by_cases hz : u.mlen = 0
      · simp only [if_pos hz]; exact ⟨ht, hz, by show u.insLeft = 0; omega⟩
      · simp only [if_neg hz]; exact ⟨.inl ht, by show 0 < u.mlen; omega, by show u.insLeft = 0; omega⟩

theorem goes_dist (hR : s.Running) (hc : s.ctl = .copy) (ht : s.todo = []) : Goes s (step s) := by
  have hf := hR.flow
  simp only [State.flow, hc] at hf
  rw [step_oper (i := .dist) hR.cursor rfl (by simp [State.nextElem, hc, ht, Ctl.entry])]
  refine goes_op (L := tickFlds .D ++ [.dsym, .dist, .ring, .ringPtr]) (K := []) (keep := keepNone) hR rfl rfl
    ⟨onS_self hR.cursor, headerOk_free (L := [.todo]) (by decide) s _ (kept_todo s _).1 (running_headerOk hR), hR.ring, rfl,
      hf.2.1⟩
    (dist_triple (m := s.mlen)) Keeps.dist (keeps_out Keeps.dist (by decide) (by decide) (by decide)) kept_none (by decide) ?_
  intro a u ho hout hk hk'
  obtain ⟨ho, hh, h1, h2⟩ := ho
  have c1 : s.ctl = u.ctl := hk.1 .ctl (by decide)
  have c2 : s.todo.tail = u.todo := hk.1 .todo (by decide)
  have c3 : s.got = u.got := hk.1 .got (by decide)
  have c4 : s.wbits = u.wbits := hk.1 .wbits (by decide)
  have c5 : s.mlen = u.mlen := hk.1 .mlen (by decide)
  have c6 : s.insLeft = u.insLeft := hk.1 .insLeft (by decide)
  have c7 : s.copyLen = u.copyLen := hk.1 .copyLen (by decide)
  have hne : u.ctl ≠ .done := by rw [← c1, hc]; decide
  have e : (keepNone a u).advance .dist = { u with todo := .oper .copy :: u.todo } := by
    unfold State.advance; exact if_neg hne
  rw [e] at hk' ⊢
  refine .inl (running_of hR hk' (by decide) hne ho.1 hout (by show 10 ≤ u.wbits ∧ u.wbits ≤ 24; rw [← c4]; exact hR.wbits)
    h1 (headerOk_free (L := [.todo]) (by decide) u _ (kept_todo u _).1 hh) (by show 2 ≤ u.copyLen; rw [← c7]; exact hR.copyLen)
    (fun n hn => ?_) ?_)
  · show u.got + u.insLeft + u.mlen ≤ n
    have := hR.capacity n hn; omega
  · unfold State.flow
    rw [show ({ u with todo := .oper .copy :: u.todo } : State).ctl = .copy from c1.symm.trans hc]
    exact ⟨.inr ⟨by show Elem.oper .copy :: u.todo = _; rw [← c2, ht]; rfl, h2⟩, by show 0 < u.mlen; omega,
      by show u.insLeft = 0; omega⟩

theorem goes_copy (hR : s.Running) (hc : s.ctl = .copy) (ht : s.todo = [.oper .copy]) : Goes s (step s) := by
  have hf := hR.flow
  simp only [State.flow, hc] at hf
  have hd : 1 ≤ s.dist := by
    rcases hf.1 with h | h
    · rw [ht] at h; cases h
    · exact h.2
  rw [step_oper (i := .copy) hR.cursor rfl (by simp [State.nextElem, hc, ht])]
  refine goes_op (L := [.mlen, .got, .out]) (K := []) (keep := keepNone) hR rfl rfl ⟨onS_self hR.cursor, rfl, rfl, hd⟩
    (copy_triple (m := s.mlen) (g := s.got)) Keeps.copy copy_out kept_none (by decide) ?_
  intro a u ho hout hk hk'
  obtain ⟨ho, h1⟩ := ho
  have c1 : s.ctl = u.ctl := hk.1 .ctl (by decide)
  have c2 : s.todo.tail = u.todo := hk.1 .todo (by decide)
  have c6 : s.insLeft = u.insLeft := hk.1 .insLeft (by decide)
  have e : (keepNone a u).advance .copy = { u with ctl := if 0 < u.mlen then .cmd else .mbEnd } := by
    unfold State.advance; exact if_neg (by show u.ctl ≠ .done; rw [← c1, hc]; decide)
  rw [e] at hk' ⊢
  have hlive : (if 0 < u.mlen then Ctl.cmd else .mbEnd) ≠ .done := by split_ifs <;> decide
  refine plain_next hR hk' (by decide) ho hout hlive ?_ ?_
  · show u.got + u.insLeft + u.mlen ≤ _; omega
  · have ht' : u.todo = [] := by rw [← c2, ht]; rfl
    by_cases hi : 0 < u.mlen
    · simp only [if_pos hi]; exact ⟨ht', hi, by show u.insLeft = 0; omega⟩
    · simp only [if_neg hi]; exact ⟨ht', by show u.mlen = 0; omega, by show u.insLeft = 0; omega⟩

theorem goes_mbEnd (hR : s.Running) (hc : s.ctl = .mbEnd) : Goes s (step s) := by
  have hf := hR.flow
  simp only [State.flow, hc] at hf
  rw [step_oper (i := .mbEnd) hR.cursor rfl (by simp [State.nextElem, hc, hf.1, Ctl.entry])]
  have hT : Triple (fun u => OnS s.pos u ∧ u.ctl = .mbEnd) mbEnd
      (fun _ u => OnS s.pos u ∧ (u.ctl = .fin ∨ u.ctl = .mbStart)) Stops :=
    Triple.update fun u h => ⟨h.1, by show (if u.last then Ctl.fin else .mbStart) = _ ∨ _; split_ifs <;> simp⟩
  refine goes_op (i := .mbEnd) (L := [.ctl]) (K := []) (keep := keepNone) hR rfl rfl ⟨onS_self hR.cursor, hc⟩ hT Keeps.mbEnd
    (keeps_out Keeps.mbEnd (by decide) (by decide) (by decide)) kept_none (by decide) ?_
  intro a u ho hout hk hk'
  obtain ⟨ho, h1⟩ := ho
  have c2 : s.todo.tail = u.todo := hk.1 .todo (by decide)
  have c3 : s.got = u.got := hk.1 .got (by decide)
  have c5 : s.mlen = u.mlen := hk.1 .mlen (by decide)
  have c6 : s.insLeft = u.insLeft := hk.1 .insLeft (by decide)
  have hne : u.ctl ≠ .done := by rcases h1 with h | h <;> rw [h] <;> decide
  have e : (keepNone a u).advance .mbEnd = u := by unfold State.advance; exact if_neg hne
  rw [e] at hk' ⊢
  refine plain_next hR hk' (by decide) ho hout hne (by omega) ?_
  have ht' : u.todo = [] := by rw [← c2, hf.1]; rfl
  unfold State.flow
  rcases h1 with h | h
  · rw [h]; exact ⟨ht', by omega, by omega⟩
  · rw [h]; exact ⟨.inl ht', by omega, by omega⟩

theorem goes_mlen {nn : Nat} (h4 : 4 ≤ nn) (h6 : nn ≤ 6) (hR : s.Running) (hc : s.ctl = .mbHdr)
    (ht : s.todo = [.oper (.mlen nn)]) : Goes s (step s) := by
  have hf := hR.flow
  simp only [State.flow, hc] at hf
  rw [step_oper (i := .mlen nn) hR.cursor (by simp [Instr.wf, h4, h6]) (by simp [State.nextElem, hc, ht])]
  refine goes_op (L := [.rd, .mlen]) (K := []) (keep := keepNone) hR rfl rfl ⟨onS_self hR.cursor, rfl⟩
    (mlen_triple (g := s.got) h6) (Keeps.mlen nn) (keeps_out (Keeps.mlen nn) (by decide) (by decide) (by decide)) kept_none
    (by decide) ?_
  intro a u ho hout hk hk'
  obtain ⟨ho, h1, h2, h3⟩ := ho
  have c1 : s.ctl = u.ctl := hk.1 .ctl (by decide)
  have c2 : s.todo.tail = u.todo := hk.1 .todo (by decide)
  have c4 : s.wbits = u.wbits := hk.1 .wbits (by decide)
  have c5 : s.ring = u.ring := hk.1 .ring (by decide)
  have c6 : s.insLeft = u.insLeft := hk.1 .insLeft (by decide)
  have c7 : s.copyLen = u.copyLen := hk.1 .copyLen (by decide)
  have c8 : s.compare = u.compare := hk.1 .compare (by decide)
  have c9 : s.haveLen = u.haveLen := hk.1 .haveLen (by decide)
  have c10 : s.ports = u.ports := hk.1 .ports (by decide)
  have hne : u.ctl ≠ .done := by rw [← c1, hc]; decide
  have e : (keepNone a u).advance (.mlen nn) =
      { u with todo := (if u.last then .oper .header else .oper .isuncompressed) :: u.todo } := by
    unfold State.advance
    refine (if_neg hne).trans ?_
    show (if u.last then _ else _) = _
    by_cases hl : u.last = true
    · simp only [if_pos hl]; rfl
    · simp only [if_neg hl]; rfl
  rw [e] at hk' ⊢
  have hh : u.HeaderOk := headerOk_free (L := [.todo] ++ [.rd, .mlen]) (by decide) s u
    (((kept_todo s _).mono (by simp)).trans (hk.mono (by simp))).1 (running_headerOk hR)
  refine .inl (running_of hR hk' (by decide) hne ho.1 hout (by show 10 ≤ u.wbits ∧ u.wbits ≤ 24; rw [← c4]; exact hR.wbits)
    (by show u.RingOk; unfold State.RingOk; rw [← c5]; exact hR.ring)
    (headerOk_free (L := [.todo]) (by decide) u _ (kept_todo u _).1 hh) (by show 2 ≤ u.copyLen; rw [← c7]; exact hR.copyLen)
    (fun n hn => ?_) ?_)
  · show u.got + u.insLeft + u.mlen ≤ n
    have : u.insLeft = 0 := by omega
    unfold State.bound at hn
    unfold State.fits at h3
    rw [c8, c9, c10] at hn
    by_cases hcm : u.compare = true
    · rw [if_pos hcm] at hn h3
      simp only [Option.some.injEq, decide_eq_true_eq] at hn h3
      omega
    · rw [if_neg hcm] at hn h3
      rw [hn] at h3
      simp only [decide_eq_true_eq] at h3
      omega
  · unfold State.flow
    rw [show ({ u with todo := (if u.last then .oper .header else .oper .isuncompressed) :: u.todo } : State).ctl = .mbHdr
      from c1.symm.trans hc]
    refine ⟨by show u.insLeft = 0; omega, .inr ⟨h2, ?_⟩⟩
    show ((if u.last then Elem.oper .header else .oper .isuncompressed) :: u.todo) = _ ∨ _
    rw [← c2, ht]
    split_ifs with hl
    · exact .inr (.inr rfl)
    · exact .inl rfl

theorem goes_header (hR : s.Running) (hc : s.ctl = .mbHdr) (ht : s.todo = [.oper .header]) (hm : 0 < s.mlen) :
    Goes s (step s) := by
  have hf := hR.flow
  simp only [State.flow, hc] at hf
  rw [step_oper (i := .header) hR.cursor rfl (by simp [State.nextElem, hc, ht])]
  refine goes_op (L := instrWrites .header) (K := []) (keep := keepNone) hR rfl rfl (onS_self hR.cursor)
    header_triple Keeps.header (keeps_out Keeps.header (by decide) (by decide) (by decide)) kept_none (by decide) ?_
  intro a u ho hout hk hk'
  obtain ⟨ho, hh⟩ := ho
  have c1 : s.ctl = u.ctl := hk.1 .ctl (by decide)
  have c2 : s.todo.tail = u.todo := hk.1 .todo (by decide)
  have c3 : s.got = u.got := hk.1 .got (by decide)
  have c4 : s.wbits = u.wbits := hk.1 .wbits (by decide)
  have c5 : s.ring = u.ring := hk.1 .ring (by decide)
  have c6 : s.insLeft = u.insLeft := hk.1 .insLeft (by decide)
  have c7 : s.copyLen = u.copyLen := hk.1 .copyLen (by decide)
  have c8 : s.mlen = u.mlen := hk.1 .mlen (by decide)
  have e : (keepNone a u).advance .header = { u with ctl := .cmd } := by
    unfold State.advance; exact if_neg (by show u.ctl ≠ .done; rw [← c1, hc]; decide)
  rw [e] at hk' ⊢
  refine .inl (running_of hR hk' (by decide) (show Ctl.cmd ≠ .done by decide) ho.1 hout
    (by show 10 ≤ u.wbits ∧ u.wbits ≤ 24; rw [← c4]; exact hR.wbits)
    (by show u.RingOk; unfold State.RingOk; rw [← c5]; exact hR.ring)
    (headerOk_free (L := [.ctl]) (by decide) u _ (Kept.ctl _).1 hh) (by show 2 ≤ u.copyLen; rw [← c7]; exact hR.copyLen)
    (fun n hn => ?_) ?_)
  · show u.got + u.insLeft + u.mlen ≤ n
    have := hR.capacity n hn; omega
  · exact ⟨by show u.todo = []; rw [← c2, ht]; rfl, by show 0 < u.mlen; omega, by show u.insLeft = 0; omega⟩

theorem goes_streamEnd (hR : s.Running) (hc : s.ctl = .fin) : Goes s (step s) := by
  have hf := hR.flow
  simp only [State.flow, hc] at hf
  rw [step_oper (i := .streamEnd) hR.cursor rfl (by simp [State.nextElem, hc, hf.1, Ctl.entry])]
  show Goes s (match complete streamEnd keepNone { s with todo := s.todo.tail } with
      | .next t => .next (t.advance .streamEnd)
      | .fault f => .fault f
      | .refused r => .refused r)
  have hdone : ∀ t : State, t.ctl = .done → t.advance .streamEnd = t := fun t h => by unfold State.advance; exact if_pos h
  have key : ∀ u : State, ∃ t : State, complete streamEnd keepNone u = .next t ∧ t.ctl = .done ∧ t.todo = [] ∧
      t.result ≠ none := by
    intro u
    unfold streamEnd
    by_cases hz : u.rd.resid = 0
    · have ha := align_ok hz
      by_cases hm : u.compare = true ∧ u.got ≠ u.haveLen
      · have h1 := run_require_false (c := ¬ (u.compare = true ∧ u.got ≠ u.haveLen)) (not_not_intro hm) .compareMismatch
          { u with rd := { u.rd with left := 0, resid := 0 } }
        exact ⟨_, complete_raised ((run_bind_ok ha).trans ((run_get_bind _ _).trans (run_bind_error h1))), rfl, rfl,
          Option.some_ne_none _⟩
      · have h1 := run_require_true (c := ¬ (u.compare = true ∧ u.got ≠ u.haveLen)) hm .compareMismatch
          { u with rd := { u.rd with left := 0, resid := 0 } }
        exact ⟨_, complete_ok ((run_bind_ok ha).trans ((run_get_bind _ _).trans ((run_bind_ok h1).trans (run_modify _ _)))),
          rfl, rfl, Option.some_ne_none _⟩
    · exact ⟨_, complete_raised (run_bind_error (align_nonzero hz)), rfl, rfl, Option.some_ne_none _⟩
  obtain ⟨t, e, h1, h2, h3⟩ := key { s with todo := s.todo.tail }
  rw [e]
  show Goes s (.next (t.advance .streamEnd))
  rw [hdone t h1]
  obtain ⟨u, hk, hu⟩ := Keeps.streamEnd.complete (keep := keepNone) (fun _ _ => Kept.refl) e
  have hk := ((kept_todo s s.todo.tail).mono (by simp)).trans hk
  have hi : t.Inv := by
    have c1 : s.got = u.got := hk.1 .got (by decide)
    have c2 : s.out = u.out := hk.1 .out (by decide)
    have ho : t.got = u.got ∧ t.out = u.out := by rcases hu with rfl | ⟨k, _, rfl⟩ <;> exact ⟨rfl, rfl⟩
    exact .inr ⟨h1, h3, h2, by rw [ho.1, ho.2, ← c1, ← c2]; exact hR.out⟩
  obtain ⟨d1, d2, d3, d4, d5⟩ := goes_forward hk (by decide) (by decide)
  rcases hu with rfl | ⟨k, _, rfl⟩
  · exact ⟨hi, d1, d2, d3, d4, d5⟩
  · exact ⟨hi, d1, d2, d3, d4, d5⟩

/-- How the stream header may decode: an operation that sets the window, or the unused code point. -/
def WbitsCase (bs : List Bool) : Prop :=
  decodeWbits bs = .error .needMoreBits ∨ ∃ i k, decodeWbits bs = .ok (i, k) ∧ k ≤ bs.length ∧
    (∀ s : State, s.advance i = s) ∧
    ((∃ w, 10 ≤ w ∧ w ≤ 24 ∧ ∀ s, exec i s = .next { s with wbits := w, ctl := .mbStart }) ∨
      ∀ s, exec i s = .next (s.takeFault (.invalid .wbits9)))

theorem decodeWbits_cases (bs : List Bool) : WbitsCase bs := by
  have adv : ∀ s : State, (if s.ctl = .done then s else s) = s := fun s => by split_ifs <;> rfl
  have go : ∀ (i : Instr) k bs, k ≤ bs.length → decodeWbits bs = .ok (i, k) → (∀ s : State, s.advance i = s) →
      ((∃ w, 10 ≤ w ∧ w ≤ 24 ∧ ∀ s, exec i s = .next { s with wbits := w, ctl := .mbStart }) ∨
      ∀ s, exec i s = .next (s.takeFault (.invalid .wbits9))) → WbitsCase bs :=
    fun i k bs h1 h2 h3 h4 => .inr ⟨i, k, h2, h1, h3, h4⟩
  rcases bs with _ | ⟨a, _ | ⟨b0, _ | ⟨b1, _ | ⟨b2, bs⟩⟩⟩⟩
  · exact .inl rfl
  · cases a
    · exact go .wbits16 1 _ (by simp) rfl adv (.inl ⟨16, by omega, by omega, fun _ => rfl⟩)
    · exact .inl rfl
  · cases a
    · exact go .wbits16 1 _ (by simp) rfl adv (.inl ⟨16, by omega, by omega, fun _ => rfl⟩)
    · exact .inl rfl
  · cases a
    · exact go .wbits16 1 _ (by simp) rfl adv (.inl ⟨16, by omega, by omega, fun _ => rfl⟩)
    · exact .inl rfl
  · cases a
    · exact go .wbits16 1 _ (by simp) rfl adv (.inl ⟨16, by omega, by omega, fun _ => rfl⟩)
    · have long : ∀ b, 1 ≤ b → b ≤ 7 → decodeWbits (true :: b0 :: b1 :: b2 :: bs) = .ok (.wbits18to24 b, 4) →
          WbitsCase (true :: b0 :: b1 :: b2 :: bs) :=
        fun b h1 h2 h => go (.wbits18to24 b) 4 _ (by simp) h adv
          (.inl ⟨17 + b, by omega, by omega, fun _ => rfl⟩)
      by_cases hb : natOfBits [b0, b1, b2] = 0
      · have : b0 = false ∧ b1 = false ∧ b2 = false := by revert hb; cases b0 <;> cases b1 <;> cases b2 <;> decide
        obtain ⟨rfl, rfl, rfl⟩ := this
        rcases bs with _ | ⟨c0, _ | ⟨c1, _ | ⟨c2, bs⟩⟩⟩
        · exact .inl rfl
        · exact .inl rfl
        · exact .inl rfl
        · have short : ∀ c, 2 ≤ c → c ≤ 7 → decodeWbits (true :: false :: false :: false :: c0 :: c1 :: c2 :: bs) =
              .ok (.wbits10to15 c, 7) → WbitsCase (true :: false :: false :: false :: c0 :: c1 :: c2 :: bs) :=
              fun c h1 h2 h => go (.wbits10to15 c) 7 _ (by simp) h adv
            (.inl ⟨8 + c, by omega, by omega, fun _ => rfl⟩)
          cases c0 <;> cases c1 <;> cases c2
          · exact go .wbits17 7 _ (by simp) rfl adv (.inl ⟨17, by omega, by omega, fun _ => rfl⟩)
          · exact short 4 (by omega) (by omega) rfl
          · exact short 2 (by omega) (by omega) rfl
          · exact short 6 (by omega) (by omega) rfl
          · exact go .wbits9 7 _ (by simp) rfl adv (.inr fun _ => rfl)
          · exact short 5 (by omega) (by omega) rfl
          · exact short 3 (by omega) (by omega) rfl
          · exact short 7 (by omega) (by omega) rfl
      · cases b0 <;> cases b1 <;> cases b2
        · exact absurd rfl hb
        · exact long 4 (by omega) (by omega) rfl
        · exact long 2 (by omega) (by omega) rfl
        · exact long 6 (by omega) (by omega) rfl
        · exact long 1 (by omega) (by omega) rfl
        · exact long 5 (by omega) (by omega) rfl
        · exact long 3 (by omega) (by omega) rfl
        · exact long 7 (by omega) (by omega) rfl

theorem goes_wbits (hR : s.Running) (hc : s.ctl = .stream) : Goes s (step s) := by
  have hf := hR.flow
  simp only [State.flow, hc] at hf
  have hn : s.nextElem = some .wbits := by simp [State.nextElem, hc, hf.1, Ctl.entry]
  rcases decodeWbits_cases (s.lookahead Elem.wbits.maxBits) with h | ⟨i, k, h, hk, hadv, hex⟩
  · rw [step, fetch_needMoreBits hn h]
    exact goes_takeFault (Kept.refl (L := [])) (by simp) (by simp) (running_outOk hR)
  · have hb : s.hasBits k := by
      rw [lookahead_eq hR.cursor, State.nextBits, length_streamBits] at hk
      unfold State.hasBits
      have := hR.cursor.2
      omega
    rw [step, fetch_ok hR.cursor hn hb h]
    have hks : Kept [.rd, .todo] s (({ s with todo := s.todo.tail } : State).seek (s.pos + k)) :=
      ((kept_todo s _).mono (by simp)).trans
        ((Kept.seek (s := { s with todo := s.todo.tail }) hR.cursor (Nat.le_add_right _ _)).mono (by simp))
    have hos : OnS s.pos (({ s with todo := s.todo.tail } : State).seek (s.pos + k)) :=
      ⟨onStream_seek (s := { s with todo := s.todo.tail }) hb, by rw [seek_pos]; omega⟩
    have hout : (({ s with todo := s.todo.tail } : State).seek (s.pos + k)).OutOk :=
      outOk_free (L := [.rd, .todo]) (by decide) (by decide) (by decide) s _ hks.1 (running_outOk hR)
    rcases hex with ⟨w, h1, h2, he⟩ | he
    · simp only [he, hadv]
      have hk' : Kept [.rd, .todo, .wbits, .ctl] s { ({ s with todo := s.todo.tail } : State).seek (s.pos + k) with
          wbits := w, ctl := .mbStart } := (hks.mono (by simp)).trans ((Kept.wbits w .mbStart).mono (by simp))
      refine ⟨.inl (running_of hR hk' (by decide) (show Ctl.mbStart ≠ .done by decide) hos.1 hout ⟨h1, h2⟩ hR.ring
        (headerOk_free (by decide) s _ hk'.1 (running_headerOk hR)) hR.copyLen (fun n hn => hR.capacity n hn) ?_),
        goes_forward hk' (by decide) (by decide)⟩
      exact ⟨.inl (by show s.todo.tail = []; rw [hf.1]; rfl), hf.2⟩
    · simp only [he, hadv]
      exact goes_takeFault hks (by decide) (by decide) hout

end ops

end Sys2Proof.Machine
end

