-- ==== Sys2Proof/Laws/ShortStream.lean ====
section
/-! SUPPORT. Streams that end inside a codeword, a block length or a block switch: the operation is `PrematureEof`
(R145, R232, R235, R342). -/

namespace Sys2Proof.Machine

/-- A codeword of a valid table that the stream does not spell is cut short by its end. -/
theorem sym_short {t : Table} {s : State} (hv : t.valid = true) (h : s.onStream)
    (hn : ∀ v word, t.isCodeword v word → ¬ s.spells word) :
    ∃ u : State, sym t s = .error (.raised (u.takeFault .prematureEof)) := by
  rcases sym_valid hv h with ⟨v, word, _, _, hw, hs⟩ | ⟨_, r, hr⟩
  · exact absurd hs (hn v word hw)
  · exact ⟨_, hr⟩

/-- The next field spells its value. -/
theorem field_spelled {s : State} {n : Nat} (hb : s.hasBits n) :
    s.spells (bitsLE n (s.nextField n)) ∧ s.nextField n < 2 ^ n := by
  have hl : (s.nextBits n).length = n := by simp [State.nextBits]
  have e := bitsLE_natOfBits (s.nextBits n)
  rw [hl] at e
  refine ⟨by rw [State.nextField, Ports.field, ← State.nextBits, e]; exact spells_nextBits hb, ?_⟩
  have := natOfBits_lt (s.nextBits n)
  rwa [hl] at this

/-- A block length that the stream does not spell is cut short by its end. -/
theorem blen_short {code : Table} {s : State} (hc : code.over 26 = true) (h : s.onStream)
    (hn : ∀ n l, isBlen code n l → ¬ s.spells l) :
    ∃ u : State, blen code s = .error (.raised (u.takeFault .prematureEof)) := by
  rcases sym_valid (over_valid hc) h with ⟨v, word, _, hv, hw, hs⟩ | ⟨_, r, hr⟩
  · by_cases hb : (s.seek (s.pos + word.length)).hasBits (blenExtra.getD v 0)
    · obtain ⟨hf, he⟩ := field_spelled hb
      exact absurd (spells_append.2 ⟨hs, hf⟩) (hn _ _ ⟨v, _, word, over_lt hc hv, hw, he, rfl, rfl⟩)
    · obtain ⟨k, hk⟩ := baseExtra_eof (base := blenBase.getD v 0) (onStream_after hs) (blenExtra_le v) hb
      exact ⟨_, by rw [blen, run_bind_ok (sym_codeword h hw hs), hk]⟩
  · exact ⟨_, run_bind_error hr⟩

/-- A block switch that is due and that the stream does not spell is cut short by its end. -/
theorem bswitch_short {s : State} {c : Cat} {tcode lcode : Table} (h : s.onStream) (h1 : 1 < (s.blk c).num)
    (h0 : (s.blk c).cnt = some 0) (ht : (s.blk c).tcode = some tcode) (hl : (s.blk c).lcode = some lcode)
    (vt : tcode.valid = true) (vl : lcode.over 26 = true) (hn : ∀ t, ¬ s.switches c t) :
    ∃ u : State, bswitch c s = .error (.raised (u.takeFault .prematureEof)) := by
  have head : ∀ q, (do
      let n ← sym tcode
      typeChange c n
      let lcode ← existing (s.blk c).lcode
      let cnt ← blen lcode
      modify fun s => s.setBlk c { s.blk c with cnt := some cnt } : M Unit) s = q → bswitch c s = q := by
    rintro _ rfl
    rw [bswitch, run_get_bind, run_bind_ok (run_precondition_true ⟨h1, h0⟩ _),
      run_bind_ok (show existing (s.blk c).tcode s = .ok (tcode, s) by rw [ht]; rfl)]
  rcases sym_valid vt h with ⟨n, word, _, _, hw, hs⟩ | ⟨_, r, hr⟩
  · have o := onStream_after hs
    obtain ⟨u, hu⟩ := blen_short (s := s.placed (s.pos + word.length) s.desc c
      { s.blk c with prev := (s.blk c).cur, cur := (s.blk c).newType n }) vl (placed_onStream.2 o) (by
        intro cnt rest hb hr
        exact hn _ ⟨h1, h0, tcode, lcode, n, word, cnt, rest, ht, hl, hw, hb,
          spells_append.2 ⟨hs, placed_spells.1 hr⟩, rfl⟩)
    have ex : ∀ v : State, existing (s.blk c).lcode v = .ok (lcode, v) := by intro v; rw [hl]; rfl
    refine ⟨u, head _ ?_⟩
    rw [run_bind_ok (sym_codeword h hw hs), seek_placed (s := s) _ c, run_bind_ok (typeChange_placed n),
      run_bind_ok (ex _)]
    exact run_bind_error hu
  · exact ⟨_, head _ (run_bind_error hr)⟩

theorem tick_short {s : State} {c : Cat} (h1 : 1 < (s.blk c).num) (h0 : (s.blk c).cnt = some 0)
    (hb : ∃ u : State, bswitch c s = .error (.raised (u.takeFault .prematureEof))) :
    ∃ u : State, tick c s = .error (.raised (u.takeFault .prematureEof)) := by
  obtain ⟨u, hu⟩ := hb
  exact ⟨u, by rw [tick, run_get_bind, if_pos h1, if_pos h0, run_bind_error hu]⟩

end Sys2Proof.Machine
end

