-- ==== Sys2Proof/Tests/Slice0.lean ====
section
/-! SUPPORT. Tests of the model: ill-formed terms refused, words of the spec decoded, single steps with the results of
spec/95_test_vectors.md and of the rules' examples, and a witness for the hypotheses of every statement. -/

namespace Sys2Proof.Tests

set_option Elab.async false

open Sys2Proof Sys2Proof.Machine

/-! ## Helpers -/

/-- The state a start leaves with these input bytes, in normal mode. -/
def fed (bytes : List Byte) : State := State.started (Ports.decode bytes)

/-- The state a start leaves with these input bytes in compare mode. -/
def fedCompare (bytes expected : List Byte) : State := State.started (Ports.compareWith bytes expected)

/-- A state with these bytes already produced. -/
def wrote (bytes : List Byte) (s : State) : State := { s with got := bytes.length, out := Mem.ofBytes 0 bytes }

/-- The outcome is a next state of which `f` holds. -/
def lands (o : Host.Outcome State Fault Refusal) (f : State → Bool) : Bool :=
  match o with
  | .next t => f t
  | .fault _ => false
  | .refused _ => false

/-- The outcome is a next state in which the run ended with this result. -/
def ends (o : Host.Outcome State Fault Refusal) (k : Result) : Bool :=
  lands o fun t => decide (t.result = some k) && decide (t.ctl = .done)

/-- The outcome is this refusal. -/
def refuses (o : Host.Outcome State Fault Refusal) (r : Refusal) : Bool :=
  match o with
  | .next _ => false
  | .fault _ => false
  | .refused q => decide (q = r)

/-- The two-type code of P4: symbols 121 and 122 with the codewords 0 and 1. -/
def codeYZ : Table := simple2Table 121 122

/-- The table of spec/95 section 2.2: lengths 2, 1, 3, 3. -/
def code2133 : Table := buildTable [2, 1, 3, 3]

/-- A category with four types (spec/95 section 2.7). -/
def fourTypes (cur prev : Nat) : Block :=
  { num := 4, cur, prev, cnt := some 0, tcode := some (singleTable 1), lcode := some (singleTable 0) }

/-- Symbol `k` of an alphabet decodes to the `k`-th of the rows listed. -/
def rowsAre (alph : Alphabet) (l : List Instr) : Bool :=
  l.zipIdx.all fun p => decide (decode (.symbol alph p.2) [] = .ok (p.1, 0))

/-! ## Ill-formed terms -/

theorem test_wf_reader : ∀ i ∈ [Instr.bits 26, .skip 16777217, .metaSkip 16777217], i.wf = false := by decide +kernel

theorem test_wf_build : ∀ i ∈ [Instr.build [16, 1], .build [1, 0], .build []], i.wf = false := by decide +kernel

theorem test_wf_table_single : Table.valid { count := 1 :: List.replicate 15 0, symbol := [] } = false := by decide +kernel

theorem test_wf_table_count : Table.valid { count := [0, 2], symbol := [0, 1] } = false := by decide +kernel

theorem test_wf_table_zero : Table.valid { count := [2, 2] ++ List.replicate 14 0, symbol := [0, 1, 2, 3] } = false := by
  decide +kernel

theorem test_wf_table_kraft : Table.valid { count := [0, 1] ++ List.replicate 14 0, symbol := [0] } = false := by decide +kernel

theorem test_wf_table_symbols : Table.valid { count := [0, 2] ++ List.replicate 14 0, symbol := [0] } = false := by decide +kernel

theorem test_wf_coded : ∀ i ∈ [Instr.sym { count := [], symbol := [] }, .blen { count := [], symbol := [] }],
    i.wf = false := by decide +kernel

theorem test_wf_alphabet : ∀ i ∈ [Instr.readCode 1, .readCode 705, .simple 1, .simple 705, .complex 1 0, .complex 705 0],
    i.wf = false := by decide +kernel

theorem test_wf_simple_range : ∀ i ∈ [Instr.simple1 4 4, .simple2 4 1 4, .simple3 8 1 2 8, .simple4a 8 1 2 3 8,
    .simple4b 8 8 1 2 3], i.wf = false := by decide +kernel

theorem test_wf_simple_repeated : ∀ i ∈ [Instr.simple2 4 1 1, .simple3 8 1 2 1, .simple4a 8 1 2 3 2,
    .simple4b 8 3 1 2 3], i.wf = false := by decide +kernel

theorem test_wf_simple_alphabet : ∀ i ∈ [Instr.simple1 1 0, .simple2 705 0 1, .simple3 705 0 1 2, .simple4a 705 0 1 2 3,
    .simple4b 705 0 1 2 3], i.wf = false := by decide +kernel

theorem test_wf_hskip : ∀ i ∈ [Instr.complex 256 1, .complex 256 4, .clcl 1, .clcl 4], i.wf = false := by decide +kernel

theorem test_wf_header : ∀ i ∈ [Instr.clLen 16, .wbits18to24 0, .wbits18to24 8, .wbits10to15 1, .wbits10to15 8, .mlen 3,
    .mlen 7, .mskiplen 4, .cmode 256, .copyDict 0 1], i.wf = false := by decide +kernel

theorem test_wf_bswitch : ∀ i ∈ [Instr.bswitchAbs .L 1, .bswitchAbs .D 258], i.wf = false := by decide +kernel

theorem test_wf_rows_low : ∀ i ∈ [Instr.iacRow1 63, .iacRow2 127, .iacRow3 191, .iacRow4 255, .iacRow5 319, .iacRow6 383,
    .iacRow7 447, .iacRow8 511, .iacRow9 575, .iacRow10 639], i.wf = false := by decide +kernel

theorem test_wf_rows_high : ∀ i ∈ [Instr.iacsplit 704, .iacRow0 64, .iacRow1 128, .iacRow2 192, .iacRow3 256, .iacRow4 320,
    .iacRow5 384, .iacRow6 448, .iacRow7 512, .iacRow8 576, .iacRow9 640, .iacRow10 704], i.wf = false := by decide +kernel

theorem test_wf_maps : ∀ i ∈ [Instr.rlemax0 3, .rlemax0 16385, .rlemaxN 3, .rlemaxN 16385, .cmap 3 2, .cmap 16385 2,
    .cmap 4 0, .cmap 4 257, .cmRun 0, .cmRun 17, .cmVal 0, .cmVal 271], i.wf = false := by decide +kernel

theorem test_wf_distances : ∀ i ∈ [Instr.dctx 1, .distval 520, .dDirect 15, .dDirect 136, .dLong 15, .dLong 520,
    .ringpush 0], i.wf = false := by decide +kernel

theorem test_wf_elements : ∀ e ∈ [Elem.rlemax 3, .rlemax 16385, .desc 1, .desc 705, .symbol (.typeChange .I 1) 0,
    .symbol (.typeChange .I 257) 0, .symbol (.cmap 17 2) 0, .symbol (.cmap 0 1) 0, .symbol (.cmap 16 256) 0,
    .symbol (.distance 121 64) 0, .symbol (.distance 0 521) 0], e.wf = false := by decide +kernel

/-! ## Decoding, by family: words written out from the spec's encodings -/

/-- R92, R180: the five forms of `WBITS`, at every value of the fields. -/
theorem test_decode_wbits :
    decode .wbits [false] = .ok (.wbits16, 1) ∧
    decode .wbits [true, true, false, false] = .ok (.wbits18to24 1, 4) ∧
    decode .wbits [true, false, true, false] = .ok (.wbits18to24 2, 4) ∧
    decode .wbits [true, true, true, true] = .ok (.wbits18to24 7, 4) ∧
    decode .wbits [true, false, false, false, false, false, false] = .ok (.wbits17, 7) ∧
    decode .wbits [true, false, false, false, true, false, false] = .ok (.wbits9, 7) ∧
    decode .wbits [true, false, false, false, false, true, false] = .ok (.wbits10to15 2, 7) ∧
    decode .wbits [true, false, false, false, true, true, true] = .ok (.wbits10to15 7, 7) := by decide +kernel

/-- Spec/95 section 2.5: the first byte of the shortest streams. -/
theorem test_decode_bytes_wbits :
    decodeBytes .wbits [0xa1, 0x01] = .ok (.wbits10to15 2, 7) ∧ decodeBytes .wbits [0xf1, 0x01] = .ok (.wbits10to15 7, 7) ∧
    decodeBytes .wbits [0x06] = .ok (.wbits16, 1) ∧ decodeBytes .wbits [0x81, 0x01] = .ok (.wbits17, 7) ∧
    decodeBytes .wbits [0x33] = .ok (.wbits18to24 1, 4) ∧ decodeBytes .wbits [0x3f] = .ok (.wbits18to24 7, 4) ∧
    decodeBytes .wbits [0x11] = .ok (.wbits9, 7) := by decide +kernel

/-- R230, R270: the arms of the number-of-types code and of `RLEMAX`. -/
theorem test_decode_counts :
    decode .nbltypes [false] = .ok (.nbltypes1, 1) ∧ decode .nbltypes [true] = .ok (.nbltypesN, 1) ∧
    decode (.rlemax 64) [false] = .ok (.rlemax0 64, 1) ∧ decode (.rlemax 64) [true] = .ok (.rlemaxN 64, 1) := by decide +kernel

/-- R156: the fixed code of the code-length-code lengths. -/
theorem test_decode_clcl :
    decode .clclLen [false, false] = .ok (.clclV0, 2) ∧ decode .clclLen [true, true, true, false] = .ok (.clclV1, 4) ∧
    decode .clclLen [true, true, false] = .ok (.clclV2, 3) ∧ decode .clclLen [false, true] = .ok (.clclV3, 2) ∧
    decode .clclLen [true, false] = .ok (.clclV4, 2) ∧ decode .clclLen [true, true, true, true] = .ok (.clclV5, 4) := by
  decide +kernel

/-- Spec/95 section 2.3: simple descriptors in the notation of R103. -/
theorem test_decode_simple :
    decode (.desc 256) (asmBits 0 (asmSimple 256 [65])) = .ok (.simple1 256 65, 12) ∧
    decode (.desc 704) (asmBits 0 (asmSimple 704 [139, 128])) = .ok (.simple2 704 139 128, 24) ∧
    decode (.desc 8) [true, false, false, true, true, true, true, true, false, true, false, true, true] =
      .ok (.simple3 8 7 5 6, 13) ∧
    decode (.desc 256) (asmBits 0 (asmSimple 256 [97, 98, 99, 100] ++ [.u 1 0])) =
      .ok (.simple4a 256 97 98 99 100, 37) ∧
    decodeBytes (.desc 256) [0x4d, 0x16, 0x36, 0x26, 0x56, 0x3b] = .ok (.simple4b 256 100 97 99 98, 37) := by decide +kernel

/-- R148, R149: a symbol that the field can hold and the alphabet does not have, and a repeated one; R155: the complex
form. -/
theorem test_decode_descriptor_limits :
    decode (.desc 704) (asmBits 0 (asmSimple 704 [704])) = .error .symbolOutOfRange ∧
    decode (.desc 26) (asmBits 0 (asmSimple 26 [5, 5])) = .error .repeatedSymbol ∧
    decode (.desc 26) (asmBits 0 [.u 2 1, .u 2 0, .u 4 0]) = .error .needMoreBits ∧
    decode (.desc 256) [false, false] = .ok (.complex 256 0, 2) ∧
    decode (.desc 256) [false, true] = .ok (.complex 256 2, 2) ∧
    decode (.desc 256) [true, true] = .ok (.complex 256 3, 2) := by decide +kernel

/-- R160 to R162, R101: the 18 code-length symbols. -/
theorem test_decode_code_lengths :
    (∀ v, v < 16 → decode (.symbol .codeLength v) [] = .ok (.clLen v, 0)) ∧
    decode (.symbol .codeLength 16) [] = .ok (.clRep, 0) ∧ decode (.symbol .codeLength 17) [] = .ok (.clZero, 0) ∧
    decode (.symbol .codeLength 18) [] = .error (.noRow .codeLength 18) := by decide +kernel

/-- R231: the 26 block-length symbols. -/
theorem test_decode_block_lengths :
    rowsAre .blockLength
      [.blenS0, .blenS1, .blenS2, .blenS3, .blenS4, .blenS5, .blenS6, .blenS7, .blenS8, .blenS9, .blenS10, .blenS11,
      .blenS12, .blenS13, .blenS14, .blenS15, .blenS16, .blenS17, .blenS18, .blenS19, .blenS20, .blenS21, .blenS22,
      .blenS23, .blenS24, .blenS25] = true := by decide +kernel

/-- R235: type-change symbols 0, 1 and `n >= 2`. -/
theorem test_decode_type_changes :
    decode (.symbol (.typeChange .L 4) 0) [] = .ok (.bswitchPrev .L, 0) ∧
    decode (.symbol (.typeChange .I 4) 1) [] = .ok (.bswitchNext .I, 0) ∧
    decode (.symbol (.typeChange .D 4) 2) [] = .ok (.bswitchAbs .D 2, 0) ∧
    decode (.symbol (.typeChange .D 4) 5) [] = .ok (.bswitchAbs .D 5, 0) ∧
    decode (.symbol (.typeChange .D 4) 6) [] = .error (.noRow (.typeChange .D 4) 6) := by decide +kernel

/-- Spec/95 section 2.8: the row of an insert-and-copy symbol. -/
theorem test_decode_iac :
    [0, 63, 64, 127, 128, 191, 192, 255, 256, 319, 320, 383, 384, 447, 448, 511, 512, 575, 576, 639, 640, 703].map
      (fun v => decode (.symbol .insertAndCopy v) []) = [.ok (.iacRow0 0, 0), .ok (.iacRow0 63, 0), .ok (.iacRow1 64, 0),
      .ok (.iacRow1 127, 0), .ok (.iacRow2 128, 0), .ok (.iacRow2 191, 0), .ok (.iacRow3 192, 0), .ok (.iacRow3 255, 0),
      .ok (.iacRow4 256, 0), .ok (.iacRow4 319, 0), .ok (.iacRow5 320, 0), .ok (.iacRow5 383, 0), .ok (.iacRow6 384, 0),
      .ok (.iacRow6 447, 0), .ok (.iacRow7 448, 0), .ok (.iacRow7 511, 0), .ok (.iacRow8 512, 0), .ok (.iacRow8 575, 0),
      .ok (.iacRow9 576, 0), .ok (.iacRow9 639, 0), .ok (.iacRow10 640, 0), .ok (.iacRow10 703, 0)] := by decide +kernel

/-- R251, R252: the 24 insert codes and the 24 copy codes. -/
theorem test_decode_insert_codes :
    rowsAre .insertCode
      [.insC0, .insC1, .insC2, .insC3, .insC4, .insC5, .insC6, .insC7, .insC8, .insC9, .insC10, .insC11, .insC12,
      .insC13, .insC14, .insC15, .insC16, .insC17, .insC18, .insC19, .insC20, .insC21, .insC22, .insC23] = true := by decide +kernel

theorem test_decode_copy_codes :
    rowsAre .copyCode
      [.copyC0, .copyC1, .copyC2, .copyC3, .copyC4, .copyC5, .copyC6, .copyC7, .copyC8, .copyC9, .copyC10, .copyC11,
      .copyC12, .copyC13, .copyC14, .copyC15, .copyC16, .copyC17, .copyC18, .copyC19, .copyC20, .copyC21, .copyC22,
      .copyC23] = true := by decide +kernel

/-- R272 to R274: map symbols with `rlemax` 6 and two trees. -/
theorem test_decode_map_symbols :
    decode (.symbol (.cmap 6 2) 0) [] = .ok (.cmZero, 0) ∧ decode (.symbol (.cmap 6 2) 1) [] = .ok (.cmRun 1, 0) ∧
    decode (.symbol (.cmap 6 2) 6) [] = .ok (.cmRun 6, 0) ∧ decode (.symbol (.cmap 6 2) 7) [] = .ok (.cmVal 7, 0) ∧
    decode (.symbol (.cmap 6 2) 8) [] = .error (.noRow (.cmap 6 2) 8) := by decide +kernel

/-- Spec/95 section 2.11: the ring symbols, the direct and the long ones with `postfix` 2 and `direct` 12. -/
theorem test_decode_distances :
    rowsAre (.distance 12 220)
      [.dRing0, .dRing1, .dRing2, .dRing3, .dRing4, .dRing5, .dRing6, .dRing7, .dRing8, .dRing9, .dRing10, .dRing11,
      .dRing12, .dRing13, .dRing14, .dRing15] = true ∧
    decode (.symbol (.distance 12 220) 16) [] = .ok (.dDirect 16, 0) ∧
    decode (.symbol (.distance 12 220) 27) [] = .ok (.dDirect 27, 0) ∧
    decode (.symbol (.distance 12 220) 28) [] = .ok (.dLong 28, 0) ∧
    decode (.symbol (.distance 12 220) 219) [] = .ok (.dLong 219, 0) ∧
    decode (.symbol (.distance 0 64) 16) [] = .ok (.dLong 16, 0) := by decide +kernel

/-- R279 to R282: the four modes, as table words too. -/
theorem test_decode_context_modes :
    [0, 1, 2, 3].map (fun v => decode (.symbol .contextMode v) []) =
      [.ok (.ctxLsb6, 0), .ok (.ctxMsb6, 0), .ok (.ctxUtf8, 0), .ok (.ctxSigned, 0)] ∧
    [0, 1, 2, 3].map (decodeTableWord 8) =
      [some .ctxLsb6, some .ctxMsb6, some .ctxUtf8, some .ctxSigned] ∧ decodeTableWord 16 2 = none := by decide +kernel

/-- R90 to R96: the operations that their place in the grammar fixes select no bits; an ill-formed one is refused. -/
theorem test_decode_fixed_places :
    (∀ i ∈ [Instr.bits 25, .align, .rawbyte, .skip 3, .emit 65, .build [2, 1, 3, 3], .sym code2133, .readCode 256,
        .simple 256, .clcl 2, .islast, .islastempty, .mnibbles, .mlen 4, .isuncompressed, .rawcopy, .metaRsvd,
        .mskipbytes, .mskiplen 1, .metaSkip 3, .header, .npostfix, .ndirect, .cmode 0, .ntreesl, .ntreesd, .banks],
      decode (.oper i) [true] = .ok (i, 0)) ∧
    (∀ i ∈ [Instr.cmd, .lit, .dist, .copy, .copyPast, .copyDict 0 4, .mbEnd, .streamEnd, .blen (singleTable 0),
        .blkdesc .L, .tick .I, .bswitch .D, .iacsplit 139, .cmap 64 2, .imtfFlag, .imtf, .ctx .utf8, .dctx 2,
        .distval 16, .ringpush 1, .xId, .xUpfirst, .xUpall, .xOmitfirst 1, .xOmitlast 1],
      decode (.oper i) [true] = .ok (i, 0)) ∧
    decode (.oper (.bits 26)) [] = .error .illFormed := by decide +kernel

/-! ## Single steps. The numbers are those of spec/95_test_vectors.md, in the section each docstring names. -/

/-- Section 2.1: requests one after the other on one stream, and at its end. -/
theorem test_bits :
    lands (exec (.bits 3) (fed [0xb5, 0x3c, 0xf0, 0x0f, 0xaa])) (fun t => decide (t.lat.val = 5 ∧
      t.rd = { inNext := 1, resid := 0x16, left := 5 })) = true ∧
    lands (exec (.bits 25) ((fed [0xb5, 0x3c, 0xf0, 0x0f, 0xaa]).seek 11)) (fun t => decide (t.lat.val = 21102087 ∧
      t.rd = { inNext := 5, resid := 0x0a, left := 4 })) = true ∧
    lands (exec (.bits 0) (fed [])) (fun t => decide (t.lat.val = 0 ∧ t.result = none)) = true := by decide +kernel

theorem test_bits_ends : ends (exec (.bits 25) ((fed [0xff, 0xff, 0xff]).seek 4)) .prematureEof = true ∧
    refuses (exec (.bits 26) (fed [0xff, 0xff, 0xff, 0xff])) .bitsTooWide = true := by decide +kernel

theorem test_align :
    ends (exec .align ((fed [0xb5, 0x3c, 0xf0, 0x0f, 0xaa]).seek 36)) (.invalid .nonZeroPadding) = true ∧
    lands (exec .align ((fed [0x06]).seek 3)) (fun t => decide (t.rd = { inNext := 1, resid := 0, left := 0 })) = true := by
  decide +kernel

theorem test_rawbyte : lands (exec .rawbyte ((fed [0x30, 0x48]).seek 8)) (fun t => decide (t.lat.val = 0x48 ∧
    t.rd.inNext = 2)) = true ∧ ends (exec .rawbyte (fed [])) .prematureEof = true := by decide +kernel

theorem test_skip : lands (exec (.skip 2) (fed [0, 0])) (fun t => decide (t.rd.inNext = 2)) = true ∧
    ends (exec (.skip 3) (fed [0, 0])) .prematureEof = true := by decide +kernel

/-- R66; a zero byte is stored too. Section 6: a differing byte ends the run with `got` as it was. -/
theorem test_emit :
    lands (exec (.emit 0x42) (wrote [0x41] (fed []))) (fun t => decide (t.got = 2 ∧ t.out = [(0, 0x41), (1, 0x42)])) = true ∧
    lands (exec (.emit 0) (wrote [0x41] (fed []))) (fun t => decide (t.got = 2 ∧ t.out.get 1 = 0)) = true := by
  decide +kernel

theorem test_emit_compares :
    ends (exec (.emit 0x6f) { fedCompare [] [0x48, 0x65, 0x6c, 0x70] with got := 3 }) .compareMismatch = true ∧
    lands (exec (.emit 0x70) { fedCompare [] [0x48, 0x65, 0x6c, 0x70] with got := 3 }) (fun t => decide (t.got = 4)) =
      true := by decide +kernel

/-! Prefix codes: sections 2.2 to 2.4, 5.2. -/

theorem test_build : lands (exec (.build [2, 1, 3, 3]) (fed [])) (fun t => decide (t.lat.tbl =
    { count := [0, 1, 1, 2, 0, 0, 0, 0, 0, 0, 0, 0, 0, 0, 0, 0], symbol := [1, 0, 2, 3] })) = true := by decide +kernel

theorem test_sym : [(0, 1, 1), (1, 0, 3), (3, 2, 6), (6, 3, 9)].all (fun p =>
    lands (exec (.sym code2133) ((fed [0xda, 0x01]).seek p.1)) fun t => decide (t.lat.val = p.2.1 ∧ t.pos = p.2.2)) =
    true := by decide +kernel

theorem test_sym_single : lands (exec (.sym (singleTable 65)) (fed [])) (fun t => decide (t.lat.val = 65 ∧ t.pos = 0)) =
    true ∧ ends (exec (.sym code2133) ((fed [0xff]).seek 7)) .prematureEof = true := by decide +kernel

theorem test_simple_rows :
    lands (exec (.simple1 256 65) (fed [])) (fun t => decide (t.lat.tbl = singleTable 65)) = true ∧
    lands (exec (.simple2 704 139 128) (fed [])) (fun t => decide (t.lat.tbl =
      { count := counts4 0 2 0 0, symbol := [128, 139] })) = true ∧
    lands (exec (.simple3 8 7 5 6) (fed [])) (fun t => decide (t.lat.tbl =
      { count := counts4 0 1 2 0, symbol := [7, 5, 6] })) = true ∧
    lands (exec (.simple4a 256 100 97 99 98) (fed [])) (fun t => decide (t.lat.tbl =
      { count := counts4 0 0 4 0, symbol := [97, 98, 99, 100] })) = true ∧
    lands (exec (.simple4b 256 100 97 99 98) (fed [])) (fun t => decide (t.lat.tbl =
      { count := counts4 0 1 1 2, symbol := [100, 97, 98, 99] })) = true := by decide +kernel

theorem test_simple : lands (exec (.simple 256) ((fed [0x4d, 0x16, 0x36, 0x26, 0x56, 0x3b]).seek 2)) (fun t =>
    decide (t.lat.tbl = { count := counts4 0 1 1 2, symbol := [100, 97, 98, 99] } ∧ t.pos = 37)) = true ∧
    ends (exec (.simple 704) ((fed [0x02, 0, 0, 0, 0x44, 0x50, 0x00, 0x0b]).seek 48)) (.invalid .symbolOutOfRange) =
      true := by decide +kernel

/-- P5: the literal code of R165 stands at stream bit 34. -/
theorem test_read_code : lands (exec (.readCode 256)
    ((fed [0x82, 0, 0, 0, 0xb0, 0x01, 0x1c, 0x10, 0xf7, 0x81, 0x4a, 0x00, 0x5a]).seek 34)) (fun t =>
    decide (t.lat.tbl = { count := counts4 0 1 2 0, symbol := [97, 98, 99] } ∧ t.pos = 72)) = true ∧
    lands (exec (.readCode 256) (fed [0x4d, 0x16, 0x36, 0x26, 0x56, 0x3b])) (fun t =>
      decide (t.lat.tbl.symbol = [100, 97, 98, 99] ∧ t.pos = 37)) = true := by decide +kernel

/-- E8b and E8d, after `HSKIP`. -/
theorem test_complex :
    ends (exec (.complex 256 0) ((fed [0x02, 0, 0, 0, 0x70, 0x03, 0, 0, 0, 0]).seek 36)) (.invalid .clcIncomplete) =
      true ∧
    ends (exec (.complex 256 0) ((fed [0x02, 0, 0, 0, 0x70, 0, 0xc0, 0x09]).seek 36)) (.invalid .codeNotComplete) =
      true := by decide +kernel

/-- E8: 1, 2, 1. E8d: the values 1, seven zeros, 1 fill the sum in nine positions. -/
theorem test_clcl :
    ends (exec (.clcl 0) ((fed [0x02, 0, 0, 0, 0x70, 0x3b]).seek 36)) (.invalid .clcOverSubscribed) = true ∧
    lands (exec (.clcl 0) ((fed [0x02, 0, 0, 0, 0x70, 0, 0xc0, 0x09]).seek 36)) (fun t => decide (t.desc.space = 0 ∧
      t.desc.nz = 2 ∧ t.desc.pos = 9 ∧ t.desc.cl[1]? = some 1 ∧ t.desc.cl[16]? = some 1)) = true := by decide +kernel

/-- R157: the first order position is that of symbol 1, the sixth that of symbol 5. -/
theorem test_clcl_values : [(Instr.clclV0, 0, 32, 0), (.clclV1, 1, 16, 1), (.clclV2, 2, 24, 1), (.clclV3, 3, 28, 1),
    (.clclV4, 4, 30, 1), (.clclV5, 5, 31, 1)].all (fun p =>
    lands (exec p.1 (fed [])) fun t => decide (t.desc.cl[1]? = some p.2.1 ∧ t.desc.space = (p.2.2.1 : Nat) ∧
      t.desc.nz = p.2.2.2 ∧ t.desc.pos = 1)) = true := by decide +kernel

theorem test_clcl_value_too_large : [Instr.clclV1, .clclV2, .clclV3, .clclV4, .clclV5].all (fun i =>
    ends (exec i { fed [] with desc := { Desc.start 2 0 with space := 0, pos := 5 } }) (.invalid .clcOverSubscribed)) =
    true := by decide +kernel

theorem test_cl_len :
    lands (exec (.clLen 1) { fed [] with desc := Desc.start 256 0 }) (fun t => decide (t.desc.lens = [1] ∧
      t.desc.room = 16384 ∧ t.desc.lastLen = 1)) = true ∧
    lands (exec (.clLen 0) { fed [] with desc := Desc.start 256 0 }) (fun t => decide (t.desc.lens = [0] ∧
      t.desc.room = 32768 ∧ t.desc.lastLen = 8)) = true := by decide +kernel

/-- A first 16 with extra 2 appends 5 of the initial 8; a second after total 3 with extra 0 makes the total 7. -/
theorem test_cl_rep :
    lands (exec .clRep { fed [0x02] with desc := Desc.start 256 0 }) (fun t => decide (t.desc.lens = [8, 8, 8, 8, 8] ∧
      t.desc.rep = 5 ∧ t.desc.room = 32768 - 5 * 128)) = true ∧
    lands (exec .clRep { fed [0x00] with desc := { Desc.start 256 0 with rep := 3, lens := [8, 8, 8] } }) (fun t =>
      decide (t.desc.lens = [8, 8, 8, 8, 8, 8, 8] ∧ t.desc.rep = 7)) = true := by decide +kernel

/-- Totals 3, then 13; a run past the alphabet. -/
theorem test_cl_zero :
    lands (exec .clZero { fed [0x02] with desc := { Desc.start 256 0 with zer := 3, lens := [0, 0, 0] } }) (fun t =>
      decide (t.desc.lens = List.replicate 13 0 ∧ t.desc.zer = 13 ∧ t.desc.room = 32768)) = true ∧
    ends (exec .clZero { fed [0x00] with desc := Desc.start 2 0 }) (.invalid .tooManySymbols) = true := by decide +kernel

/-! The stream header and the meta-block header: sections 2.5, 2.6, 3, 5.1, 6. -/

/-- The first step of the fifteen shortest streams. -/
theorem test_wbits : [(0xa1, 10), (0xb1, 11), (0xc1, 12), (0xd1, 13), (0xe1, 14), (0xf1, 15), (0x06, 16), (0x81, 17),
    (0x33, 18), (0x35, 19), (0x37, 20), (0x39, 21), (0x3b, 22), (0x3d, 23), (0x3f, 24)].all (fun p =>
    lands (step (fed [p.1, 0x01])) fun t => decide (t.wbits = p.2 ∧ t.ctl = .mbStart)) = true := by decide +kernel

theorem test_wbits_9 : ends (step (fed [0x11])) (.invalid .wbits9) = true ∧ ends (step (fed [])) .prematureEof = true ∧
    (State.wsize { fed [] with wbits := 10 }) = 1008 ∧ (State.wsize { fed [] with wbits := 24 }) = 16777200 := by
  decide +kernel

theorem test_flags :
    lands (exec .islast ((fed [0x06]).seek 1)) (fun t => decide (t.last = true ∧ t.pos = 2)) = true ∧
    lands (exec .islastempty ((fed [0x02]).seek 2)) (fun t => decide (t.lat.val = 0 ∧ t.pos = 3)) = true ∧
    lands (exec .isuncompressed ((fed [0x30, 0x00, 0x10]).seek 20)) (fun t => decide (t.lat.val = 1 ∧ t.pos = 21)) =
      true ∧
    lands (exec .imtfFlag (fed [0x01])) (fun t => decide (t.lat.val = 1 ∧ t.pos = 1)) = true := by decide +kernel

theorem test_two_bit_fields :
    lands (exec .mnibbles ((fed [0x2c]).seek 2)) (fun t => decide (t.lat.val = 3)) = true ∧
    lands (exec .mskipbytes ((fed [0x2c]).seek 5)) (fun t => decide (t.lat.val = 1)) = true ∧
    lands (exec .metaRsvd ((fed [0x2c]).seek 4)) (fun t => decide (t.pos = 5 ∧ t.result = none)) = true ∧
    ends (exec .metaRsvd ((fed [0x1c]).seek 4)) (.invalid .reservedBit) = true := by decide +kernel

theorem test_mlen :
    lands (exec (.mlen 4) (fed [0x00, 0x00])) (fun t => decide (t.mlen = 1)) = true ∧
    lands (exec (.mlen 4) (fed [0xff, 0xff])) (fun t => decide (t.mlen = 65536)) = true ∧
    lands (exec (.mlen 5) (fed [0x00, 0x00, 0x01])) (fun t => decide (t.mlen = 65537)) = true ∧
    lands (exec (.mlen 6) (fed [0x00, 0x00, 0x10])) (fun t => decide (t.mlen = 1048577)) = true ∧
    lands (exec (.mlen 6) (fed [0xff, 0xff, 0xff])) (fun t => decide (t.mlen = 16777216)) = true := by decide +kernel

theorem test_mlen_ends :
    ends (exec (.mlen 5) (fed [0x05, 0x00, 0x00])) (.invalid .moreNibbles) = true ∧
    ends (exec (.mlen 6) (fed [0xff, 0xff, 0x0f])) (.invalid .moreNibbles) = true ∧
    ends (exec (.mlen 4) (State.started { Ports.decode [0x03, 0x00] with outCap := some 3 })) .outOfMemory = true ∧
    ends (exec (.mlen 4) (fedCompare [0x03, 0x00] [0x48, 0x65, 0x6c])) .compareMismatch = true := by decide +kernel

/-- P2 from its 21st bit on, and E9. -/
theorem test_rawcopy :
    lands (exec .rawcopy { (fed [0x30, 0x00, 0x10, 0x48, 0x65, 0x6c, 0x6f, 0x03]).seek 21 with mlen := 4 }) (fun t =>
      decide (t.out.bytes 0 4 = [0x48, 0x65, 0x6c, 0x6f] ∧ t.got = 4 ∧ t.rd.inNext = 7 ∧ t.mlen = 0)) = true ∧
    ends (exec .rawcopy { (fed [0x30, 0x00, 0x10, 0x48, 0x65, 0x65]).seek 21 with mlen := 4 }) .prematureEof = true := by
  decide +kernel

theorem test_mskiplen :
    lands (exec (.mskiplen 0) (fed [])) (fun t => decide (t.lat.val = 0)) = true ∧
    lands (exec (.mskiplen 1) (fed [0x02])) (fun t => decide (t.lat.val = 3)) = true ∧
    lands (exec (.mskiplen 2) (fed [0xff, 0x00])) (fun t => decide (t.lat.val = 256)) = true ∧
    lands (exec (.mskiplen 3) (fed [0xff, 0xff, 0xff])) (fun t => decide (t.lat.val = 16777216)) = true ∧
    ends (exec (.mskiplen 2) (State.started { Ports.decode [0xff, 0x00] with checkMskipTop := true }))
      (.invalid .moreBytes) = true := by decide +kernel

/-- P8 from its 15th bit on, and E10. -/
theorem test_meta_skip :
    lands (exec (.metaSkip 3) ((fed [0x2c, 0x01, 0xaa, 0xbb, 0xcc, 0x03]).seek 15)) (fun t =>
      decide (t.rd.inNext = 5 ∧ t.got = 0)) = true ∧
    ends (exec (.metaSkip 3) ((fed [0x2c, 0x01, 0xaa, 0xbb]).seek 15)) .prematureEof = true := by decide +kernel

/-- Section 2.11: the field 15 with `postfix` 3 gives 120. -/
theorem test_distance_parameters :
    lands (exec .npostfix (fed [0x03])) (fun t => decide (t.npostfix = 3)) = true ∧
    lands (exec .ndirect { fed [0x0f] with npostfix := 3 }) (fun t => decide (t.direct = 120 ∧ t.dalpha = 520)) = true ∧
    lands (exec .ndirect { fed [0x03] with npostfix := 2 }) (fun t => decide (t.direct = 12)) = true ∧
    lands (exec (.cmode 0) (fed [0x02])) (fun t => decide (t.modes = [.utf8])) = true ∧
    lands (exec (.cmode 1) (fed [0x01])) (fun t => decide (t.modes = [.lsb6, .msb6])) = true := by decide +kernel

/-- The bytes of P4. -/
def p4 : List Byte :=
  [0x62, 0x00, 0x20, 0xa2, 0x00, 0x00, 0x50, 0xac, 0x7c, 0x3d, 0xa0, 0x5f, 0xe0, 0x55, 0x9e, 0x5e, 0x80, 0x12, 0x00, 0x01]

/-- P4: the map of R286 stands behind the count at bit 54. -/
theorem test_ntreesl : lands (exec .ntreesl { (fed p4).seek 54 with blkL := { fourTypes 0 1 with num := 2 } }) (fun t =>
      decide (t.litCodes = 2 ∧ t.litMap = List.replicate 64 0 ++ List.replicate 64 1 ∧ t.pos = 93)) = true := by
  decide +kernel

/-- P4: one distance code behind it. -/
theorem test_ntreesd : lands (exec .ntreesd ((fed p4).seek 93)) (fun t => decide (t.distCodes = 1 ∧
    t.distMap = [0, 0, 0, 0] ∧ t.pos = 94)) = true := by decide +kernel

/-- P4: the banks stand at bit 94. -/
theorem test_banks : lands (exec .banks { (fed p4).seek 94 with litCodes := 2 }) (fun t =>
    decide (t.litBank = [singleTable 120, codeYZ] ∧ t.iacBank = [singleTable 160] ∧ t.distBank = [singleTable 0])) =
    true := by decide +kernel

/-- P4: the whole header stands at bit 21; four literals follow. -/
theorem test_header : lands (exec .header ((fed p4).seek 21)) (fun t => decide (t.blkL.num = 2 ∧ t.blkL.cnt = some 1 ∧
    t.blkL.tcode = some (singleTable 1) ∧ t.blkI.num = 1 ∧ t.blkD.num = 1 ∧ t.modes = [.lsb6, .msb6] ∧
    t.dalpha = 64 ∧ t.litBank = [singleTable 120, codeYZ])) = true := by decide +kernel

/-! Block switching: section 2.7. -/

theorem test_nbltypes :
    lands (exec .nbltypes1 (fed [])) (fun t => decide (t.lat.val = 1)) = true ∧
    [([0x00], 2), ([0x01], 3), ([0x09], 4), ([0x1a], 8), ([0x07, 0x00], 129), ([0xff, 0x03], 256)].all (fun p =>
      lands (exec .nbltypesN (fed p.1)) fun t => decide (t.lat.val = p.2)) = true := by decide +kernel

theorem test_blen :
    lands (exec (.blen (singleTable 17)) (fed [0x3f])) (fun t => decide (t.lat.val = 368 ∧ t.pos = 6)) = true ∧
    lands (exec (.blen (singleTable 0)) (fed [0x00])) (fun t => decide (t.lat.val = 1 ∧ t.pos = 2)) = true ∧
    lands (exec (.blen (singleTable 25)) (fed [0, 0, 0])) (fun t => decide (t.lat.val = 16625)) = true := by
  decide +kernel

/-- All extra bits 1: each range ends one below the base of the next (R231), the last at 16793840. -/
theorem test_blen_rows : [(Instr.blenS0, 4), (.blenS1, 8), (.blenS2, 12), (.blenS3, 16), (.blenS4, 24), (.blenS5, 32),
    (.blenS6, 40), (.blenS7, 48), (.blenS8, 64), (.blenS9, 80), (.blenS10, 96), (.blenS11, 112), (.blenS12, 144),
    (.blenS13, 176), (.blenS14, 208), (.blenS15, 240), (.blenS16, 304), (.blenS17, 368), (.blenS18, 496),
    (.blenS19, 752), (.blenS20, 1264), (.blenS21, 2288), (.blenS22, 4336), (.blenS23, 8432), (.blenS24, 16624),
    (.blenS25, 16793840)].all (fun p =>
    lands (exec p.1 (fed [0xff, 0xff, 0xff])) fun t => decide (t.lat.val = p.2)) = true := by decide +kernel

/-- P4: the descriptor at bit 21; one type. -/
theorem test_blkdesc :
    lands (exec (.blkdesc .L) ((fed p4).seek 21)) (fun t => decide (t.pos = 42 ∧ t.blkL =
      { num := 2, cur := 0, prev := 1, cnt := some 1, tcode := some (singleTable 1), lcode := some (singleTable 0) })) =
        true ∧
    lands (exec (.blkdesc .I) ((fed p4).seek 42)) (fun t => decide (t.blkI.num = 1 ∧ t.blkI.cnt = none ∧ t.pos = 43)) =
      true := by decide +kernel

theorem test_tick :
    lands (exec (.tick .I) { fed [] with blkI := { fourTypes 0 1 with cnt := some 3 } }) (fun t =>
      decide (t.blkI.cnt = some 2 ∧ t.blkI.cur = 0)) = true ∧
    lands (exec (.tick .L) { fed [0x03] with blkL := fourTypes 0 1 }) (fun t =>
      decide (t.blkL.cnt = some 3 ∧ t.blkL.cur = 1 ∧ t.blkL.prev = 0 ∧ t.pos = 2)) = true := by decide +kernel

theorem test_bswitch : lands (exec (.bswitch .D) { fed [0x00] with blkD := fourTypes 3 2 }) (fun t =>
    decide (t.blkD.cur = 0 ∧ t.blkD.prev = 3 ∧ t.blkD.cnt = some 1)) = true ∧
    lands (exec (.tick .D) { fed [] with blkD := .initial }) (fun t => decide (t.blkD = .initial)) = true := by
  decide +kernel

/-- From `cur` 0, `prev` 1: symbols 0, 1, 1, 1, 5, 0, 2 in turn. -/
theorem test_type_changes : [(Instr.bswitchPrev .L, 0, 1, 1, 0), (.bswitchNext .L, 1, 0, 2, 1), (.bswitchNext .L, 2, 1, 3, 2),
    (.bswitchNext .L, 3, 2, 0, 3), (.bswitchAbs .L 5, 0, 3, 3, 0), (.bswitchPrev .L, 3, 0, 0, 3),
    (.bswitchAbs .L 2, 0, 3, 0, 0)].all (fun p =>
    lands (exec p.1 { fed [] with blkL := fourTypes p.2.1 p.2.2.1 }) fun t =>
      decide (t.blkL.cur = p.2.2.2.1 ∧ t.blkL.prev = p.2.2.2.2)) = true := by decide +kernel

/-! Insert-and-copy symbols: section 2.8. -/

theorem test_iacsplit :
    lands (exec (.iacsplit 397) (fed [0xa9, 0x01])) (fun t => decide (t.lat.insLen = 1 ∧ t.copyLen = 1007)) = true ∧
    lands (exec (.iacsplit 320) (fed [0x01])) (fun t => decide (t.lat.insLen = 11 ∧ t.copyLen = 10 ∧ t.pos = 3)) = true ∧
    lands (exec (.iacsplit 703) (fed [0xff, 0xff, 0xff, 0xff, 0xff, 0xff])) (fun t =>
      decide (t.lat.insLen = 16799809 ∧ t.copyLen = 16779333)) = true := by decide +kernel

/-- The first and the last symbol of each row, with extra bits 0. -/
theorem test_iac_rows : [(Instr.iacRow0 0, 0, 2), (.iacRow0 63, 8, 9), (.iacRow1 64, 0, 10), (.iacRow1 127, 8, 54),
    (.iacRow2 128, 0, 2), (.iacRow2 191, 8, 9), (.iacRow3 192, 0, 10), (.iacRow3 255, 8, 54), (.iacRow4 256, 10, 2),
    (.iacRow4 319, 98, 9), (.iacRow5 320, 10, 10), (.iacRow5 383, 98, 54), (.iacRow6 384, 0, 70), (.iacRow6 447, 8, 2118),
    (.iacRow7 448, 130, 2), (.iacRow7 511, 22594, 9), (.iacRow8 512, 10, 70), (.iacRow8 575, 98, 2118),
    (.iacRow9 576, 130, 10), (.iacRow9 639, 22594, 54), (.iacRow10 640, 130, 70), (.iacRow10 703, 22594, 2118)].all (fun p =>
    lands (exec p.1 (fed [0, 0, 0, 0, 0, 0])) fun t => decide (t.lat.insLen = p.2.1 ∧ t.copyLen = p.2.2)) = true := by
  decide +kernel

/-- All extra bits 1: each range ends one below the base of the next (R251, R252). -/
theorem test_insert_codes : [(Instr.insC0, 0), (.insC1, 1), (.insC2, 2), (.insC3, 3), (.insC4, 4), (.insC5, 5), (.insC6, 7),
    (.insC7, 9), (.insC8, 13), (.insC9, 17), (.insC10, 25), (.insC11, 33), (.insC12, 49), (.insC13, 65), (.insC14, 97),
    (.insC15, 129), (.insC16, 193), (.insC17, 321), (.insC18, 577), (.insC19, 1089), (.insC20, 2113), (.insC21, 6209),
    (.insC22, 22593), (.insC23, 16799809)].all (fun p =>
    lands (exec p.1 (fed [0xff, 0xff, 0xff])) fun t => decide (t.lat.insLen = p.2)) = true := by decide +kernel

theorem test_copy_codes : [(Instr.copyC0, 2), (.copyC1, 3), (.copyC2, 4), (.copyC3, 5), (.copyC4, 6), (.copyC5, 7),
    (.copyC6, 8), (.copyC7, 9), (.copyC8, 11), (.copyC9, 13), (.copyC10, 17), (.copyC11, 21), (.copyC12, 29),
    (.copyC13, 37), (.copyC14, 53), (.copyC15, 69), (.copyC16, 101), (.copyC17, 133), (.copyC18, 197), (.copyC19, 325),
    (.copyC20, 581), (.copyC21, 1093), (.copyC22, 2117), (.copyC23, 16779333)].all (fun p =>
    lands (exec p.1 (fed [0xff, 0xff, 0xff])) fun t => decide (t.copyLen = p.2)) = true := by decide +kernel

/-! Contexts and context maps: sections 2.9, 2.10, 5.3. -/

theorem test_rlemax :
    lands (exec (.rlemax0 64) (fed [])) (fun t => decide (t.lat.val = 0)) = true ∧
    lands (exec (.rlemaxN 64) (fed [0x05])) (fun t => decide (t.lat.val = 6)) = true ∧
    lands (exec (.rlemaxN 4) (fed [0x01])) (fun t => decide (t.lat.val = 2)) = true ∧
    ends (exec (.rlemaxN 4) (fed [0x04])) (.invalid .rlemaxTooWide) = true := by decide +kernel

/-- P4, R286: 35 bits at bit 58. -/
theorem test_cmap : lands (exec (.cmap 128 2) ((fed p4).seek 58)) (fun t => decide (t.pos = 93 ∧
    t.lat.map = List.replicate 64 0 ++ List.replicate 64 1)) = true ∧
    lands (exec (.cmap 4 1) (fed [])) (fun t => decide (t.lat.map = [0, 0, 0, 0] ∧ t.pos = 0)) = true := by
  decide +kernel

theorem test_map_zero_and_value :
    lands (exec .cmZero { fed [] with cmr := { MapRegs.start 4 2 .initial with map := [1] } }) (fun t =>
      decide (t.cmr.map = [1, 0])) = true ∧
    lands (exec (.cmVal 7) { fed [] with cmr := MapRegs.start 128 6 .initial }) (fun t => decide (t.cmr.map = [1])) =
      true := by decide +kernel

/-- Symbol 2 with extra 3 is 7 zeros; E16: a run of 5 into a map of 4. -/
theorem test_map_run :
    lands (exec (.cmRun 2) { fed [0x03] with cmr := MapRegs.start 64 2 .initial }) (fun t =>
      decide (t.cmr.map = List.replicate 7 0)) = true ∧
    ends (exec (.cmRun 2) { fed [0x01] with cmr := MapRegs.start 4 2 .initial }) (.invalid .cmapRunPastEnd) = true := by
  decide +kernel

theorem test_imtf : lands (exec .imtf { fed [] with cmr := { MapRegs.start 6 0 .initial with map := [0, 1, 0, 0, 2, 1] } })
    (fun t => decide (t.cmr.map = [0, 1, 1, 1, 2, 1])) = true := by decide +kernel

/-- R275, R276: the example's map under a flag that is set and one that is not. -/
theorem test_imtf_flag : [(0x01, [0, 1, 0, 0, 2]), (0x00, [0, 1, 1, 0, 2])].all (fun p : Byte × List Nat =>
    lands (exec .imtfFlag { fed [p.1] with cmr := { MapRegs.start 5 0 .initial with map := [0, 1, 1, 0, 2] } })
      fun t => decide (t.cmr.map = p.2 ∧ t.lat.val = p.1.toNat ∧ t.pos = 1)) = true := by decide +kernel

/-- A state that knows two entries of each table of spec/93 G5 and has produced `p2`, then `p1`. -/
def withLuts (p2 p1 : Byte) (l0 l1 : BitVec 6) (h1 h2 : BitVec 3) : State :=
  wrote [p2, p1] (State.started { Ports.decode [] with
    rom := { dict := [], xforms := [], lut0 := [(p1.toNat, l0)], lut1 := [(p2.toNat, l1)],
             lut2 := [(p1.toNat, h1), (p2.toNat, h2)] } })

/-- The row `p1 = 62`, `p2 = 61`, whose entries of spec/93 G5 are 60, 3 and 3, 3. -/
theorem test_contexts :
    [(Instr.ctxLsb6, 34), (.ctxMsb6, 24), (.ctxUtf8, 63), (.ctxSigned, 27), (.ctx .lsb6, 34), (.ctx .msb6, 24),
      (.ctx .utf8, 63), (.ctx .signed, 27)].all (fun p =>
      lands (exec p.1 (withLuts 0x61 0x62 60 3 3 3)) fun t => decide (t.lat.val = p.2)) = true := by decide +kernel

/-- Rows `p1 = c3`, `p2 = 61` and `p1 = 65`, nothing before it. -/
theorem test_contexts_simple :
    lands (exec .ctxLsb6 (wrote [0x61, 0xc3] (fed []))) (fun t => decide (t.lat.val = 3)) = true ∧
    lands (exec .ctxMsb6 (wrote [0x61, 0xc3] (fed []))) (fun t => decide (t.lat.val = 48)) = true ∧
    lands (exec (.ctx .msb6) (wrote [0x65] (fed []))) (fun t => decide (t.lat.val = 25)) = true ∧
    lands (exec (.ctx .lsb6) (fed [])) (fun t => decide (t.lat.val = 0)) = true := by decide +kernel

theorem test_dctx : [(2, 0), (3, 1), (4, 2), (5, 3), (24, 3)].all (fun p =>
    lands (exec (.dctx p.1) (fed [])) fun t => decide (t.lat.val = p.2)) = true := by decide +kernel

/-! Distances: section 2.11. -/

theorem test_ring_at_reset : [(Instr.dRing0, 4), (.dRing1, 11), (.dRing2, 15), (.dRing3, 16), (.dRing4, 3), (.dRing5, 5),
    (.dRing6, 2), (.dRing7, 6), (.dRing8, 1), (.dRing9, 7), (.dRing10, 10), (.dRing11, 12), (.dRing12, 9), (.dRing13, 13),
    (.dRing14, 8), (.dRing15, 14)].all (fun p =>
    lands (exec p.1 (fed [])) fun t => decide (t.lat.sval = (p.2 : Nat))) = true := by decide +kernel

theorem test_ring_elsewhere : [(Instr.dRing0, 100), (.dRing1, 7), (.dRing2, 2), (.dRing3, 30), (.dRing4, 99),
    (.dRing5, 101), (.dRing6, 98), (.dRing7, 102), (.dRing8, 97), (.dRing9, 103), (.dRing10, 6), (.dRing11, 8),
    (.dRing12, 5), (.dRing13, 9), (.dRing14, 4), (.dRing15, 10)].all (fun p =>
    lands (exec p.1 { fed [] with ring := #v[7, 100, 30, 2], ringPtr := 1 }) fun t => decide (t.lat.sval = (p.2 : Nat))) =
    true := by decide +kernel

theorem test_direct :
    lands (exec (.dDirect 16) { fed [] with npostfix := 1, direct := 2 }) (fun t => decide (t.lat.sval = 1)) = true ∧
    lands (exec (.dDirect 27) { fed [] with npostfix := 2, direct := 12 }) (fun t => decide (t.lat.sval = 12)) = true ∧
    lands (exec (.dDirect 135) { fed [] with npostfix := 3, direct := 120 }) (fun t => decide (t.lat.sval = 120)) = true :=
  by decide +kernel

theorem test_long : [(0, 0, 16, [0x00], 1), (0, 0, 16, [0x01], 2), (0, 0, 18, [0x03], 8), (0, 0, 31, [0xf3], 1008),
    (0, 0, 35, [0x24, 0x03], 3873), (0, 0, 63, [0xff, 0xff, 0xff], 67108860), (1, 2, 19, [0x01], 6), (1, 2, 20, [0x00], 7),
    (1, 2, 21, [0x00], 8), (2, 12, 28, [0x00], 13), (2, 12, 31, [0x01], 20), (3, 120, 136, [0x01], 129),
    (3, 120, 519, [0xff, 0xff, 0xff], 536871000)].all (fun p =>
    lands (exec (.dLong p.2.2.1) { fed p.2.2.2.1 with npostfix := p.1, direct := p.2.1 }) fun t =>
      decide (t.lat.sval = (p.2.2.2.2 : Nat))) = true := by decide +kernel

/-- E17: the last distance 1 less 1. -/
theorem test_distval :
    lands (exec (.distval 9) (fed [])) (fun t => decide (t.lat.sval = 7)) = true ∧
    lands (exec (.distval 36) (fed [0x05, 0x00])) (fun t => decide (t.lat.sval = 4098)) = true ∧
    ends (exec (.distval 4) { fed [] with ring := #v[1, 15, 11, 4], ringPtr := 0 }) (.invalid .distanceNotPositive) = true :=
  by decide +kernel

/-- P3: the ring after its one explicit distance. -/
theorem test_ringpush : lands (exec (.ringpush 1) (fed [])) (fun t => decide (t.ring = #v[1, 15, 11, 4] ∧ t.ringPtr = 0)) =
    true ∧ refuses (exec (.ringpush 0) (fed [])) .outsidePrecondition = true := by decide +kernel

/-! Commands: sections 3, 5.4. -/

/-- P3's command: symbol 139 inserts 1 and copies 5. E1: an insert of 2 with 1 byte left. -/
theorem test_cmd :
    lands (exec .cmd { fed [] with iacBank := [singleTable 139], mlen := 6 }) (fun t => decide (t.iacSym = 139 ∧
      t.insLeft = 1 ∧ t.copyLen = 5 ∧ t.mlen = 5)) = true ∧
    ends (exec .cmd { fed [] with iacBank := [singleTable 144], mlen := 1 }) (.invalid .mlenExceededByInsert) = true := by
  decide +kernel

/-- P4's second literal, after `x`: the context 30 of type 1 under MSB6 selects the code of `y` and `z`. -/
theorem test_lit : lands (exec .lit (wrote [0x78] { fed [0x01] with
      insLeft := 3, modes := [.msb6], litMap := (List.replicate 64 0).set 30 1, litBank := [singleTable 120, codeYZ] }))
    (fun t => decide (t.out.bytes 0 2 = [0x78, 0x7a] ∧ t.insLeft = 2 ∧ t.pos = 1)) = true := by decide +kernel

/-- P6: an implicit distance, then distance symbol 4. -/
theorem test_dist :
    lands (exec .dist (wrote [0x61, 0x62, 0x63, 0x64] { fed [] with iacSym := 34, mlen := 7 })) (fun t =>
      decide (t.dist = 4 ∧ t.dsym = 0 ∧ t.ring = #v[16, 15, 11, 4])) = true ∧
    lands (exec .dist { fed [] with iacSym := 129, mlen := 3, got := 8, distBank := [singleTable 4] }) (fun t =>
      decide (t.dist = 3 ∧ t.dsym = 4 ∧ t.ring = #v[3, 15, 11, 4] ∧ t.ringPtr = 0)) = true := by decide +kernel

/-- P6's first copy; P3's and E12's. -/
theorem test_copy : lands (exec .copy (wrote [0x61, 0x62, 0x63, 0x64] { fed [] with dist := 4, copyLen := 4, mlen := 7 }))
    (fun t => decide (t.out.bytes 0 8 = [0x61, 0x62, 0x63, 0x64, 0x61, 0x62, 0x63, 0x64] ∧ t.mlen = 3)) = true := by
  decide +kernel

theorem test_copy_past :
    lands (exec .copyPast (wrote [0x41] { fed [] with dist := 1, copyLen := 5, mlen := 5 })) (fun t =>
      decide (t.out.bytes 0 6 = [0x41, 0x41, 0x41, 0x41, 0x41, 0x41] ∧ t.got = 6 ∧ t.mlen = 0)) = true ∧
    ends (exec .copyPast (wrote [0x41] { fed [] with dist := 1, copyLen := 5, mlen := 4 })) (.invalid .mlenExceededByCopy) =
      true := by decide +kernel

/-- The first eight bytes of `DICT_T` (R325), and the entry 4 of spec/93 G7. -/
def withDict (mlen : Nat) : State :=
  { State.started { Ports.decode [] with
      rom := { dict := [(0, 0x61), (1, 0x62), (2, 0x63), (3, 0x64), (4, 0x65), (5, 0x66), (6, 0x67), (7, 0x68)],
               xforms := [(4, { pre := [], op := .upFirst, k := 0, suf := [0x20] })], lut0 := [], lut1 := [], lut2 := [] } }
    with mlen := mlen }

/-- P7, P9. -/
theorem test_copy_dict :
    lands (exec (.copyDict 0 4) (withDict 4)) (fun t => decide (t.out.bytes 0 4 = [0x61, 0x62, 0x63, 0x64] ∧ t.mlen = 0)) =
      true ∧
    lands (exec (.copyDict 4097 4) (withDict 5)) (fun t => decide (t.out.bytes 0 5 = [0x45, 0x66, 0x67, 0x68, 0x20] ∧
      t.mlen = 0)) = true := by decide +kernel

/-- Section 2.12, and a result of five bytes with four left. -/
theorem test_copy_dict_ends :
    ends (exec (.copyDict 0 3) (withDict 4)) (.invalid .dictLength) = true ∧
    ends (exec (.copyDict 0 25) (withDict 4)) (.invalid .dictLength) = true ∧
    ends (exec (.copyDict 3872 24) (withDict 4)) (.invalid .dictTransform) = true ∧
    ends (exec (.copyDict 4097 4) (withDict 4)) (.invalid .mlenExceededByWord) = true := by decide +kernel

/-- R212: the last meta-block leads to `STREAM.END`, any other to the next one. -/
theorem test_mb_end : lands (exec .mbEnd { fed [] with last := true }) (fun t => decide (t.ctl = .fin)) = true ∧
    lands (exec .mbEnd (fed [])) (fun t => decide (t.ctl = .mbStart)) = true := by decide +kernel

/-- P1 and E2a; section 6: `HAVE` 1 with nothing produced. -/
theorem test_stream_end :
    lands (exec .streamEnd ((fed [0x06, 0x00, 0x00]).seek 3)) (fun t =>
      decide (t.observe = some { result := .ok, output := some [], got := some 0, consumed := some 1 })) = true ∧
    ends (exec .streamEnd ((fed [0x0e]).seek 3)) (.invalid .nonZeroPadding) = true ∧
    ends (exec .streamEnd ((fedCompare [0x06] [0x61]).seek 3)) .compareMismatch = true := by decide +kernel

/-! Transforms: section 2.13. -/

/-- A state with this word in the word latch. -/
def spelled (w : List Byte) : State := keepWord w (fed [])

theorem test_transforms : [(Instr.xId, [0x61, 0x62, 0x63, 0x64]), (.xUpfirst, [0x41, 0x62, 0x63, 0x64]),
    (.xUpall, [0x41, 0x42, 0x43, 0x44]), (.xOmitfirst 1, [0x62, 0x63, 0x64]), (.xOmitfirst 4, []), (.xOmitfirst 9, []),
    (.xOmitlast 7, []), (.xOmitlast 3, [0x61])].all (fun p =>
    lands (exec p.1 (spelled [0x61, 0x62, 0x63, 0x64])) fun t => decide (t.lat.word = p.2)) = true := by decide +kernel

theorem test_upper_case :
    lands (exec .xUpall (spelled [0x61, 0xc3, 0xa9, 0xe2, 0x82, 0xac])) (fun t =>
      decide (t.lat.word = [0x41, 0xc3, 0x89, 0xe2, 0x82, 0xa9])) = true ∧
    lands (exec .xUpfirst (spelled [0xf0, 0x9f, 0x98, 0x80])) (fun t =>
      decide (t.lat.word = [0xf0, 0x9f, 0x98, 0x85])) = true ∧
    lands (exec .xUpall (spelled [0x61, 0x62, 0x63, 0xc3])) (fun t =>
      decide (t.lat.word = [0x41, 0x42, 0x43, 0xc3])) = true ∧
    lands (exec .xUpfirst (spelled [0x7b, 0x61])) (fun t => decide (t.lat.word = [0x7b, 0x61])) = true ∧
    wordUpfirst .third [0xf0, 0x9f, 0x98, 0x80] = [0xf0, 0x9f, 0x9d, 0x80] := by decide +kernel

/-! A step fetches, executes and moves on. -/

/-- P1: `ISLAST`, then `ISLASTEMPTY`, then `STREAM.END`. -/
theorem test_step_islast : lands (step { (fed [0x06]).seek 1 with ctl := .mbStart }) (fun t =>
    decide (t.last = true ∧ t.ctl = .mbStart ∧ t.todo = [.oper .islastempty])) = true ∧
    lands (step { (fed [0x06]).seek 2 with ctl := .mbStart, todo := [.oper .islastempty], last := true }) (fun t =>
      decide (t.ctl = .fin ∧ t.todo = [])) = true := by decide +kernel

theorem test_step_done : (match step ((fed []).takeFault .prematureEof) with
    | .fault f => decide (f = .runEnded)
    | .next _ => false
    | .refused _ => false) = true := by decide +kernel

/-- A table word is what the next step runs (notes/assumptions/16.md). -/
theorem test_with_fetch_word : lands (step (State.reset.withFetchWord 8 1)) (fun t => decide (t.lat.val = 0 ∧
    t.ctl = .stream)) = true ∧ (State.reset.withFetchWord 8 3).nextElem = some (.symbol .contextMode 3) := by
  decide +kernel

/-! ## Witnesses: states and operands that meet the hypotheses of each statement together, clause by clause. -/

/-! How a concrete case is shown. -/

theorem onStream_of {s : State} (h : decide (s.rd = readerAt s.ports s.pos ∧ s.pos ≤ 8 * s.ports.inLen) = true) :
    s.onStream := by
  unfold State.onStream
  exact of_decide_eq_true h

theorem hasBits_of {s : State} {n : Nat} (h : decide (s.pos + n ≤ 8 * s.ports.inLen) = true) : s.hasBits n := by
  unfold State.hasBits
  exact of_decide_eq_true h

theorem notBits_of {s : State} {n : Nat} (h : decide (¬ s.pos + n ≤ 8 * s.ports.inLen) = true) : ¬ s.hasBits n := by
  unfold State.hasBits
  exact of_decide_eq_true h

theorem spells_of {s : State} {bits : List Bool} (h : decide (s.pos + bits.length ≤ 8 * s.ports.inLen ∧
    s.ports.streamBits s.pos bits.length = bits) = true) : s.spells bits := by
  unfold State.spells State.hasBits State.nextBits
  exact of_decide_eq_true h

theorem accepts_of {s : State} {l : List Byte} (h : decide (∀ k : Fin l.length, s.got + k < s.haveLen ∧
    s.ports.expected.get (s.got + k) = l[k]) = true) : s.accepts l :=
  fun k hk _ => of_decide_eq_true h ⟨k, hk⟩

theorem accepts_in_normal {s : State} {l : List Byte} (h : s.compare = false) : s.accepts l :=
  fun _ _ hc => Bool.noConfusion (h.symm.trans hc)

theorem differs_of {s : State} {l : List Byte} {k : Nat} (b : Byte) (h : decide (l[k]? = some b ∧ s.compare = true ∧
    (∀ j : Fin (l.take k).length, s.got + j < s.haveLen ∧ s.ports.expected.get (s.got + j) = (l.take k)[j]) ∧
    ¬ (s.got + k < s.haveLen ∧ s.ports.expected.get (s.got + k) = b)) = true) : s.differsAt l k := by
  obtain ⟨hb, hc, ha, hn⟩ := of_decide_eq_true h
  obtain ⟨hk, hb⟩ := List.getElem?_eq_some_iff.1 hb
  refine ⟨fun j hj _ => ha ⟨j, hj⟩, hk, fun h => hn ?_⟩
  rw [← hb]
  exact h hc

theorem single_codeword (v : Nat) : (singleTable v).isCodeword v [] := Or.inl ⟨rfl, rfl, rfl⟩

theorem codeword_of {t : Table} {v : Nat} {bits : List Bool} (n j : Nat) (h : decide (t.count.getD 0 0 ≠ 1 ∧ n < 15 ∧
    j < t.count.getD (n + 1) 0 ∧ t.firstCode n + j < 2 ^ (n + 1) ∧ t.symbol[t.firstIndex n + j]? = some v ∧
    bits = codewordBits (n + 1) (t.firstCode n + j)) = true) : t.isCodeword v bits :=
  have h := of_decide_eq_true h
  Or.inr ⟨h.1, n, j, h.2⟩

theorem simple_descriptor {a : Nat} {t : Table} (i : Instr) (hw : i.wf = true) (h : simpleResult i = some (a, t)) :
    isDescriptor a t (encode i).2 := Or.inl ⟨i, hw, h, rfl⟩

theorem next_of {o : Host.Outcome State Fault Refusal} {f : State → Bool} (h : lands o f = true) : ∃ t, o = .next t := by
  cases o with
  | next t => exact ⟨t, rfl⟩
  | fault _ => cases h
  | refused _ => cases h

theorem next_with {o : Host.Outcome State Fault Refusal} {f : State → Bool} (h : lands o f = true) :
    ∃ t, o = .next t ∧ f t = true := by
  cases o with
  | next t => exact ⟨t, rfl, h⟩
  | fault _ => cases h
  | refused _ => cases h

/-- The state whose stream is these bits. -/
def onBits (bits : List Bool) : State := fed (packBits bits.length bits)

/-! Decoding and fetching. -/

theorem witness_DecodeOfEncode : ∀ i ∈ [Instr.simple4b 704 0 703 1 2, .simple1 2 1, .complex 704 3, .wbits10to15 7, .mlen 6,
    .bswitchAbs .D 257, .iacRow10 703, .cmVal 270, .cmRun 16, .dLong 519, .dLong 16, .dDirect 135, .rlemaxN 16384],
    i.wf = true := by decide +kernel

theorem witness_DecodedRowsAreWellFormed : (Elem.desc 704).wf = true ∧
    decode (.desc 704) (asmBits 0 (asmSimple 704 [703, 0])) = .ok (.simple2 704 703 0, 24) ∧
    (Elem.symbol (.distance 120 520) 519).wf = true ∧
    decode (.symbol (.distance 120 520) 519) [] = .ok (.dLong 519, 0) := by decide +kernel

theorem witness_StepRunsDecodedInstruction : (fed [0xa1, 0x01]).onStream ∧ (fed [0xa1, 0x01]).nextElem = some .wbits ∧
    (fed [0xa1, 0x01]).hasBits 7 ∧ decode .wbits ((fed [0xa1, 0x01]).nextBits 7) = .ok (.wbits10to15 2, 7) :=
  ⟨onStream_of (by decide +kernel), by decide +kernel, hasBits_of (by decide +kernel), by decide +kernel⟩

/-- A state about to fetch a descriptor over `a` symbols. -/
def atDesc (a : Nat) (s : State) : State := { s with todo := [.desc a] }

theorem witness_StepStopsWhereNothingDecodes :
    ((fed []).takeFault .prematureEof).ctl = .done ∧
    ((fed [0x05]).seek 7).onStream ∧ ((fed [0x05]).seek 7).nextElem = some .wbits ∧
    decode .wbits ((fed []).nextBits 0) = .error .needMoreBits ∧
    (atDesc 704 (onBits (asmBits 0 (asmSimple 704 [704])))).onStream ∧
    decode (.desc 704) ((atDesc 704 (onBits (asmBits 0 (asmSimple 704 [704])))).nextBits 16) = .error .symbolOutOfRange ∧
    (atDesc 26 (onBits (asmBits 0 (asmSimple 26 [5, 5])))).nextElem = some (.desc 26) ∧
    decode (.desc 26) ((atDesc 26 (onBits (asmBits 0 (asmSimple 26 [5, 5])))).nextBits 16) = .error .repeatedSymbol :=
  ⟨rfl, onStream_of (by decide +kernel), by decide +kernel, by decide +kernel, onStream_of (by decide +kernel),
    by decide +kernel, by decide +kernel, by decide +kernel⟩

/-! The bit reader, the output and the headers. -/

/-- For every statement made with `readsField` (BitsReadsAField, HeaderFields, SkipForms, CountAndRlemaxForms,
BlockLengths, InsertAndCopyLengths, MapSymbols): each width of at most 25 bits, in the middle of a byte, and the end of
the stream. -/
theorem witness_readsField : ((fed [0xff, 0xff, 0xff, 0xff]).seek 7).onStream ∧
    (∀ n, n ≤ 25 → ((fed [0xff, 0xff, 0xff, 0xff]).seek 7).hasBits n) ∧ (fed []).onStream ∧
    ∀ n, 1 ≤ n → ¬ (fed []).hasBits n := by
  have h : ((fed [0xff, 0xff, 0xff, 0xff]).seek 7).pos = 7 := by decide +kernel
  have h' : (fed []).pos = 0 := by decide +kernel
  refine ⟨onStream_of (by decide +kernel), fun n hn => ?_, onStream_of (by decide +kernel), fun n hn => ?_⟩
  · show _ + n ≤ 8 * 4
    omega
  · show ¬ _ + n ≤ 8 * 0
    omega

theorem witness_AlignAndRawbyte : ((fed [0x06]).seek 3).onStream ∧ ((fed [0x06]).seek 3).rd.resid = 0 ∧
    ((fed [0x0e]).seek 3).rd.resid ≠ 0 ∧ ((fed [0x06]).seek 8).onStream ∧ ((fed [0x06]).seek 8).rd.left = 0 ∧
    (fed [0x06]).rd.left = 0 ∧ ((fed [0x06]).seek 8).rd.inNext = ((fed [0x06]).seek 8).ports.inLen :=
  ⟨onStream_of (by decide +kernel), by decide +kernel, by decide +kernel, onStream_of (by decide +kernel),
    by decide +kernel, by decide +kernel, by decide +kernel⟩

theorem witness_EmitWritesAtGot : (wrote [0x41] (fed [])).compare = false ∧ (wrote [0x41] (fed [])).out.wf = true ∧
    (fedCompare [] [0x48]).compare = true ∧ (fedCompare [] [0x48]).got < (fedCompare [] [0x48]).haveLen ∧
    (fedCompare [] []).haveLen ≤ (fedCompare [] []).got := by decide +kernel

theorem witness_WindowForms : ∃ w, 10 ≤ w ∧ w ≤ 24 := ⟨24, by decide⟩

/-- The last entry that exists, and one beyond it. -/
theorem witness_HeaderFields : 0 ≤ (fed []).modes.length ∧ 1 ≤ (fed []).modes.length ∧ 0 < (fed []).modes.length ∧
    0 ≠ 1 := by decide +kernel

theorem witness_MlenReadsNibbles_ends : (fed [0x03]).onStream ∧ ¬ (fed [0x03]).hasBits (4 * 4) :=
  ⟨onStream_of (by decide +kernel), notBits_of (by decide +kernel)⟩

theorem witness_MlenReadsNibbles_top : (fed [0x05, 0, 0]).onStream ∧ (fed [0x05, 0, 0]).hasBits (4 * 6) ∧ 4 < 6 ∧
    (fed [0x05, 0, 0]).nextField (4 * 6) >>> (4 * (6 - 1)) = 0 :=
  ⟨onStream_of (by decide +kernel), hasBits_of (by decide +kernel), by decide +kernel, by decide +kernel⟩

theorem witness_MlenReadsNibbles_modes :
    (fed [0x03, 0x00]).hasBits (4 * 4) ∧ ¬ (4 < 4 ∧ (fed [0x03, 0x00]).nextField (4 * 4) >>> (4 * (4 - 1)) = 0) ∧
    (fed [0x03, 0x00]).compare = false ∧ (fed [0x03, 0x00]).ports.outCap = none ∧
    (State.started { Ports.decode [0x03, 0x00] with outCap := some 3 }).ports.outCap = some 3 ∧
    (State.started { Ports.decode [0x03, 0x00] with outCap := some 3 }).hasBits (4 * 4) ∧
    (fedCompare [0x03, 0x00] [0x48]).compare = true ∧ (fedCompare [0x03, 0x00] [0x48]).hasBits (4 * 4) ∧
    (fedCompare [0x03, 0x00] [0x48]).onStream :=
  ⟨hasBits_of (by decide +kernel), by decide +kernel, by decide +kernel, by decide +kernel, by decide +kernel,
    hasBits_of (by decide +kernel), by decide +kernel, hasBits_of (by decide +kernel), onStream_of (by decide +kernel)⟩

theorem witness_SkipForms : (fed [0, 0]).rd.left = 0 ∧ ((fed [0x2c, 0x81]).seek 15).rd.resid ≠ 0 ∧
    ((fed [0x2c, 0x01]).seek 15).onStream ∧ ((fed [0x2c, 0x01]).seek 15).rd.resid = 0 ∧ (1 ≤ 3 ∧ 3 ≤ 3) :=
  ⟨by decide +kernel, by decide +kernel, onStream_of (by decide +kernel), by decide +kernel, by decide +kernel⟩

/-- P2, P2 with a padding bit, and E9. -/
theorem witness_RawcopyCopiesTheInput :
    (let s := { (fed [0x30, 0x00, 0x10, 0x48, 0x65, 0x6c, 0x6f, 0x03]).seek 21 with mlen := 4 }
     s.onStream ∧ s.rd.resid = 0 ∧ s.mlen ≤ s.ports.inLen - s.rd.inNext ∧
      s.accepts (s.ports.input.bytes s.rd.inNext s.mlen)) ∧
    (let s := { (fed [0x30, 0x00, 0x30, 0x48, 0x65, 0x6c, 0x6f, 0x03]).seek 21 with mlen := 4 }
     s.onStream ∧ s.rd.resid ≠ 0) ∧
    (let s := { (fed [0x30, 0x00, 0x10, 0x48, 0x65, 0x65]).seek 21 with mlen := 4 }
     s.onStream ∧ s.rd.resid = 0 ∧ s.ports.inLen - s.rd.inNext < s.mlen) :=
  ⟨⟨onStream_of (by decide +kernel), by decide +kernel, by decide +kernel, accepts_in_normal (by decide +kernel)⟩,
    ⟨onStream_of (by decide +kernel), by decide +kernel⟩,
    ⟨onStream_of (by decide +kernel), by decide +kernel, by decide +kernel⟩⟩

/-- The same in compare mode. -/
theorem witness_RawcopyCopiesTheInput_compare :
    let s := { (fedCompare [0x30, 0x00, 0x10, 0x48, 0x65] [0x48, 0x65]).seek 21 with mlen := 2 }
    s.compare = true ∧ s.accepts (s.ports.input.bytes s.rd.inNext s.mlen) :=
  ⟨by decide +kernel, accepts_of (by decide +kernel)⟩

/-- Section 6: another first byte, another last byte, and one byte too many. -/
theorem witness_RawcopyCopiesTheInput_differs : [([0x49, 0x65], 0, 0x48), ([0x48, 0x66], 1, 0x65), ([0x48], 1, 0x65)].Forall
    fun p : List Byte × Nat × Byte =>
      let s := { (fedCompare [0x30, 0x00, 0x10, 0x48, 0x65] p.1).seek 21 with mlen := 2 }
      s.onStream ∧ s.rd.resid = 0 ∧ s.mlen ≤ s.ports.inLen - s.rd.inNext ∧
        s.differsAt (s.ports.input.bytes s.rd.inNext s.mlen) p.2.1 :=
  ⟨⟨onStream_of (by decide +kernel), by decide +kernel, by decide +kernel, differs_of 0x48 (by decide +kernel)⟩,
    ⟨onStream_of (by decide +kernel), by decide +kernel, by decide +kernel, differs_of 0x65 (by decide +kernel)⟩,
    onStream_of (by decide +kernel), by decide +kernel, by decide +kernel, differs_of 0x65 (by decide +kernel)⟩

/-! Maps: one tree, runs of zeros with and without the move-to-front flag. -/

/-- A map of 64 zeros for two trees, written as one run. -/
def runMapBits (flag : Bool) : List Bool :=
  (true :: bitsLE 4 5) ++ (encode (.simple1 8 6)).2 ++ (([] ++ bitsLE (mapExtra 6 6) 0) ++ []) ++ [flag]

theorem run_entries (r len : Nat) (h0 : r ≠ 0) (h : 2 ^ r = len) : entriesRead (singleTable r) r len []
    (([] ++ bitsLE (mapExtra r r) 0) ++ []) (List.replicate len 0) := by
  have e : [] ++ mapEntries r r 0 = List.replicate len 0 := by simp [mapEntries, h0, h]
  have p : 0 < 2 ^ r := by positivity
  refine .take [] _ r 0 [] [] (by simp; omega) (single_codeword r) (by positivity) (by rw [e]; simp) ?_
  rw [e]
  exact .stop _ (by simp)

theorem map_one (len : Nat) : isMap len 1 (List.replicate len 0) [] := Or.inl ⟨rfl, rfl, rfl⟩

theorem map_run : isMap 64 2 (List.replicate 64 0) (runMapBits false) :=
  Or.inr ⟨by decide, 6, singleTable 6, List.replicate 64 0, _, _, _, false, ⟨by decide, Or.inr ⟨5, by decide, rfl, rfl⟩⟩,
    simple_descriptor (.simple1 8 6) (by decide) rfl, run_entries 6 64 (by decide) (by decide), rfl, Or.inl ⟨rfl, rfl⟩⟩

theorem map_run_moved : isMap 64 2 (List.replicate 64 0) (runMapBits true) :=
  Or.inr ⟨by decide, 6, singleTable 6, List.replicate 64 0, _, _, _, true, ⟨by decide, Or.inr ⟨5, by decide, rfl, rfl⟩⟩,
    simple_descriptor (.simple1 8 6) (by decide) rfl, run_entries 6 64 (by decide) (by decide), rfl,
    Or.inr ⟨rfl, by decide, by decide +kernel⟩⟩

theorem count_one : isCount 1 [false] := Or.inl ⟨rfl, rfl⟩

theorem count_two : isCount 2 [true, false, false, false] := Or.inr ⟨0, 0, by decide, by decide, rfl, rfl⟩

theorem count_256 : isCount 256 (true :: (bitsLE 3 7 ++ bitsLE 7 127)) :=
  Or.inr ⟨7, 127, by decide, by decide, rfl, rfl⟩

theorem witness_TreeCountsAndMaps_literal : let s := onBits ([true, false, false, false] ++ runMapBits true)
    s.onStream ∧ isCount 2 [true, false, false, false] ∧ isMap (64 * s.blkL.num) 2 (List.replicate 64 0) (runMapBits true) ∧
    s.spells ([true, false, false, false] ++ runMapBits true) :=
  ⟨onStream_of (by decide +kernel), count_two, map_run_moved, spells_of (by decide +kernel)⟩

theorem witness_TreeCountsAndMaps_distance : let s := onBits ([false] ++ [])
    s.onStream ∧ isCount 1 [false] ∧ isMap (4 * s.blkD.num) 1 (List.replicate 4 0) [] ∧ s.spells ([false] ++ []) :=
  ⟨onStream_of (by decide +kernel), count_one, map_one 4, spells_of (by decide +kernel)⟩

theorem witness_MapsAreRead : (onBits (runMapBits false)).onStream ∧
    isMap 64 2 (List.replicate 64 0) (runMapBits false) ∧ (onBits (runMapBits false)).spells (runMapBits false) ∧
    (onBits []).onStream ∧ isMap 4 1 (List.replicate 4 0) [] ∧ (onBits []).spells [] :=
  ⟨onStream_of (by decide +kernel), map_run, spells_of (by decide +kernel), onStream_of (by decide +kernel), map_one 4,
    spells_of (by decide +kernel)⟩

theorem witness_MapEntriesAreInRange : (onBits (runMapBits false)).onStream ∧ 1 ≤ 2 ∧ 2 ≤ 256 ∧
    ∃ t, exec (.cmap 64 2) (onBits (runMapBits false)) = .next t ∧ t.result = none := by
  refine ⟨onStream_of (by decide +kernel), by decide, by decide, ?_⟩
  obtain ⟨t, h, ht⟩ := next_with (f := fun t => decide (t.result = none))
    (show lands (exec (.cmap 64 2) (onBits (runMapBits false))) _ = true by decide +kernel)
  exact ⟨t, h, of_decide_eq_true ht⟩

/-! Banks and the whole header. -/

theorem bank_single {a v : Nat} (h : (Instr.simple1 a v).wf = true) :
    isBank a [singleTable v] ((encode (.simple1 a v)).2 ++ []) :=
  ⟨_, [], simple_descriptor (.simple1 a v) h rfl, rfl, rfl⟩

/-- The descriptors of P3: literals, commands, distances. -/
def banksBits : List Bool := ((encode (.simple1 256 65)).2 ++ []) ++ ((encode (.simple1 704 139)).2 ++ []) ++
  ((encode (.simple1 64 16)).2 ++ [])

theorem witness_HeaderAndBanks_banks : let s := onBits banksBits
    s.onStream ∧ [singleTable 65].length = s.litCodes ∧ [singleTable 139].length = s.blkI.num ∧
    [singleTable 16].length = s.distCodes ∧ isBank 256 [singleTable 65] ((encode (.simple1 256 65)).2 ++ []) ∧
    isBank 704 [singleTable 139] ((encode (.simple1 704 139)).2 ++ []) ∧
    isBank s.dalpha [singleTable 16] ((encode (.simple1 64 16)).2 ++ []) ∧ s.spells banksBits :=
  ⟨onStream_of (by decide +kernel), by decide +kernel, by decide +kernel, by decide +kernel, bank_single (by decide),
    bank_single (by decide), bank_single (by decide), spells_of (by decide +kernel)⟩

/-- One type, no codes. -/
def oneType : Block := { num := 1, cur := 0, prev := 1, cnt := none, tcode := none, lcode := none }

theorem blkdesc_one : isBlkdesc oneType [false] := Or.inl ⟨rfl, count_one⟩

/-- The last distance symbol of the largest alphabet, `postfix` 3 and `NDIRECT` 15. -/
def headerBits : List Bool :=
  [false] ++ [false] ++ [false] ++ bitsLE 2 3 ++ bitsLE 4 15 ++ [CtxMode.signed].flatMap (fun m => bitsLE 2 (ctxModeCode m)) ++
    [false] ++ [] ++ [false] ++ [] ++ ((encode (.simple1 256 255)).2 ++ []) ++ ((encode (.simple1 704 703)).2 ++ []) ++
    ((encode (.simple1 520 519)).2 ++ [])

theorem witness_HeaderAndBanks_header : (onBits headerBits).onStream ∧ isBlkdesc oneType [false] ∧ 3 < 4 ∧ 15 < 16 ∧
    [CtxMode.signed].length = oneType.num ∧ isCount 1 [false] ∧ isMap (64 * oneType.num) 1 (List.replicate 64 0) [] ∧
    isMap (4 * oneType.num) 1 (List.replicate 4 0) [] ∧ [singleTable 255].length = 1 ∧
    [singleTable 703].length = oneType.num ∧ isBank 256 [singleTable 255] ((encode (.simple1 256 255)).2 ++ []) ∧
    isBank 704 [singleTable 703] ((encode (.simple1 704 703)).2 ++ []) ∧
    isBank (16 + 15 <<< 3 + 48 <<< 3) [singleTable 519] ((encode (.simple1 520 519)).2 ++ []) ∧
    (onBits headerBits).spells headerBits :=
  ⟨onStream_of (by decide +kernel), blkdesc_one, by decide, by decide, rfl, count_one, map_one 64, map_one 4, rfl, rfl,
    bank_single (by decide), bank_single (by decide), bank_single (by decide), spells_of (by decide +kernel)⟩

/-! Prefix codes. -/

theorem witness_BuildMakesTheCanonicalTable : (∀ l ∈ [2, 1, 3, 3], l ≤ 15) ∧ kraftOf [2, 1, 3, 3] = 2 ^ 15 ∧
    (∀ l ∈ [15, 0, 1], l ≤ 15) := by decide +kernel

/-- Section 2.2: the codewords of symbols 1, 0 and 3, and the symbol of a single-symbol table. -/
theorem witness_SymReadsACodeword : ((fed [0xda, 0x01]).seek 6).onStream ∧ code2133.isCodeword 3 [true, true, true] ∧
    ((fed [0xda, 0x01]).seek 6).spells [true, true, true] ∧ code2133.isCodeword 1 [false] ∧
    code2133.isCodeword 0 [true, false] ∧ (singleTable 65).isCodeword 65 [] ∧ (fed []).spells [] ∧
    ([true, false] ++ [true] : List Bool) = [true, false] ++ [true] :=
  ⟨onStream_of (by decide +kernel), codeword_of 2 1 (by decide +kernel), spells_of (by decide +kernel),
    codeword_of 0 0 (by decide +kernel), codeword_of 1 0 (by decide +kernel), single_codeword 65,
    spells_of (by decide +kernel), rfl⟩

theorem witness_SymOnValidTables : code2133.valid = true ∧ ((fed [0xda, 0x01]).seek 15).onStream ∧
    (singleTable 703).valid = true := ⟨by decide +kernel, onStream_of (by decide +kernel), by decide +kernel⟩

theorem witness_SimplePatterns : (Instr.simple4b 704 703 0 2 1).wf = true ∧
    simpleResult (.simple4b 704 703 0 2 1) = some (704, simple4bTable 703 0 2 1) ∧ (Instr.simple1 2 1).wf = true ∧
    simpleResult (.simple1 2 1) = some (2, singleTable 1) ∧ (Instr.simple2 2 1 0).wf = true ∧
    (Instr.simple3 704 703 0 702).wf = true ∧ (Instr.simple4a 4 3 2 1 0).wf = true := by decide +kernel

/-! Complex descriptors with each `HSKIP`: one code length, so that its codeword has no bits. -/

/-- The registers after `n` times the length `v`. -/
def takes (v : Nat) : Nat → Desc → Desc
  | 0, d => d
  | n + 1, d => takes v n (d.take v 0)

/-- Each of the `n` times stage 2 goes on and the length fits, and it stops then. -/
def takesOk (v : Nat) : Nat → Desc → Bool
  | 0, d => decide (¬ (d.lens.length < d.alphabet ∧ 0 < d.room))
  | n + 1, d => decide ((d.lens.length < d.alphabet ∧ 0 < d.room) ∧ (d.take v 0).lens.length ≤ d.alphabet) &&
      takesOk v n (d.take v 0)

theorem takes_read {v : Nat} (hv : v < 16) : ∀ (n : Nat) (d : Desc), takesOk v n d = true →
    lengthsRead (singleTable v) d [] (takes v n d)
  | 0, d, h => .stop d (by unfold Desc.goesOn; exact of_decide_eq_true h)
  | n + 1, d, h => by
    simp only [takesOk, Bool.and_eq_true, decide_eq_true_eq] at h
    have e : clExtra v = 0 := if_pos hv
    have r := lengthsRead.take d _ v 0 [] [] h.1.1 (single_codeword v) (by simp [e]) h.1.2 (takes_read hv n _ h.2)
    rwa [e] at r

theorem clclReads_of {hskip : Nat} {vs : List Nat} (h : decide ((∀ v ∈ vs, v ≤ 5) ∧
    (∀ k, k < vs.length → (vs.take k).length < 18 - hskip ∧ clclSum (vs.take k) < 32) ∧
    ¬ (vs.length < 18 - hskip ∧ clclSum vs < 32) ∧ clclSum vs ≤ 32) = true) : clclReads hskip vs := by
  unfold clclReads clclGoesOn
  exact of_decide_eq_true h

/-- `CLCL` values in which only the first, `v`, is not 0. -/
def oneValue (v n : Nat) : List Nat := v :: List.replicate n 0

/-- A complete code of `n` symbols of length `v`, sent with no bits in stage 2. -/
theorem complex_uniform (a hskip v c z : Nat) (hv : v < 16) (h : decide (
    ((∀ v ∈ oneValue c z, v ≤ 5) ∧ (∀ k, k < (oneValue c z).length → ((oneValue c z).take k).length < 18 - hskip ∧
      clclSum ((oneValue c z).take k) < 32) ∧ ¬ ((oneValue c z).length < 18 - hskip ∧ clclSum (oneValue c z) < 32) ∧
      clclSum (oneValue c z) ≤ 32) ∧ clcOf hskip (oneValue c z) = some (singleTable v)) = true) (d : Desc)
    (hd : d = .atStage2 a hskip (oneValue c z) (singleTable v))
    (ht : takesOk v a d = true) (hr : decide ((takes v a d).room = 0 ∧ (takes v a d).lens = List.replicate a v) = true) :
    isComplex a hskip (buildTable (List.replicate a v)) ((oneValue c z).flatMap fixedCodeword ++ []) := by
  have h := of_decide_eq_true h
  have hr := of_decide_eq_true hr
  subst hd
  refine ⟨oneValue c z, singleTable v, [], _, clclReads_of (decide_eq_true h.1), h.2, takes_read hv a _ ht, hr.1, ?_, rfl⟩
  rw [hr.2]
  simp

theorem complex_hskip0 : isComplex 2 0 (buildTable (List.replicate 2 1)) ((oneValue 1 17).flatMap fixedCodeword ++ []) :=
  complex_uniform 2 0 1 1 17 (by decide) (by decide +kernel) _ rfl (by decide +kernel) (by decide +kernel)

theorem complex_hskip2 : isComplex 8 2 (buildTable (List.replicate 8 3)) ((oneValue 5 15).flatMap fixedCodeword ++ []) :=
  complex_uniform 8 2 3 5 15 (by decide) (by decide +kernel) _ rfl (by decide +kernel) (by decide +kernel)

theorem complex_hskip3 : isComplex 16 3 (buildTable (List.replicate 16 4)) ((oneValue 2 14).flatMap fixedCodeword ++ []) :=
  complex_uniform 16 3 4 2 14 (by decide) (by decide +kernel) _ rfl (by decide +kernel) (by decide +kernel)

theorem witness_DescriptorsAreRead_complex : let s := onBits ((oneValue 2 14).flatMap fixedCodeword ++ [])
    s.onStream ∧ isComplex 16 3 (buildTable (List.replicate 16 4)) ((oneValue 2 14).flatMap fixedCodeword ++ []) ∧
    s.spells ((oneValue 2 14).flatMap fixedCodeword ++ []) :=
  ⟨onStream_of (by decide +kernel), complex_hskip3, spells_of (by decide +kernel)⟩

theorem witness_DescriptorsAreRead : let bits := bitsLE 2 2 ++ ((oneValue 5 15).flatMap fixedCodeword ++ [])
    (onBits bits).onStream ∧ isDescriptor 8 (buildTable (List.replicate 8 3)) bits ∧ (onBits bits).spells bits ∧
    isDescriptor 2 (buildTable (List.replicate 2 1)) (bitsLE 2 0 ++ ((oneValue 1 17).flatMap fixedCodeword ++ [])) :=
  ⟨onStream_of (by decide +kernel), Or.inr ⟨2, _, by decide, complex_hskip2, rfl⟩, spells_of (by decide +kernel),
    Or.inr ⟨0, _, by decide, complex_hskip0, rfl⟩⟩

theorem witness_DescriptorsAreRead_simple : let bits := (encode (.simple4b 256 100 97 99 98)).2.drop 2
    (onBits bits).onStream ∧ (Instr.simple4b 256 100 97 99 98).wf = true ∧
    simpleResult (.simple4b 256 100 97 99 98) = some (256, simple4bTable 100 97 99 98) ∧
    (encode (.simple4b 256 100 97 99 98)).2 = bitsLE 2 1 ++ bits ∧ (onBits bits).spells bits :=
  ⟨onStream_of (by decide +kernel), by decide +kernel, rfl, by decide +kernel, spells_of (by decide +kernel)⟩

/-- The least symbol out of range, as the first of one and the last of four; a repeated symbol, next to the first and as the
last of four. -/
theorem witness_DescriptorsAreRead_stops : [(Instr.simple 26, []), (.readCode 26, bitsLE 2 1)].Forall
    fun p : Instr × List Bool => alphabetOk 26 = true ∧
    ([(0, []), (3, [25, 0, 1])].Forall fun q : Nat × List Nat =>
      let bits := p.2 ++ bitsLE 2 q.1 ++ (q.2 ++ [26]).flatMap (bitsLE (ceilLog2 26))
      q.1 < 4 ∧ q.2.length ≤ q.1 ∧ (∀ v ∈ q.2, v < 26) ∧ 26 ≤ 26 ∧ 26 < 2 ^ ceilLog2 26 ∧ (onBits bits).onStream ∧
        (onBits bits).spells bits) ∧
    ([[5, 5], [25, 1, 2, 25]].Forall fun vs : List Nat =>
      let bits := p.2 ++ bitsLE 2 (vs.length - 1) ++ vs.flatMap (bitsLE (ceilLog2 26))
      1 ≤ vs.length ∧ vs.length ≤ 4 ∧ (∀ v ∈ vs, v < 26) ∧ ¬ vs.Nodup ∧ (onBits bits).onStream ∧
        (onBits bits).spells bits) := by
  refine ⟨⟨by decide, ⟨?_, ?_⟩, ⟨?_, ?_⟩⟩, by decide, ⟨?_, ?_⟩, ⟨?_, ?_⟩⟩
  all_goals
    refine ⟨by decide, by decide, by decide, by decide, ?_⟩
    first
      | exact ⟨onStream_of (by decide +kernel), spells_of (by decide +kernel)⟩
      | exact ⟨by decide +kernel, onStream_of (by decide +kernel), spells_of (by decide +kernel)⟩

theorem witness_EveryCompleteCodeCanBeSent_machine :
    (onBits (plainComplex [2, 1, 3, 3])).onStream ∧ (onBits (plainComplex [2, 1, 3, 3])).spells (plainComplex [2, 1, 3, 3]) ∧
    (onBits (bitsLE 2 0 ++ plainComplex [0, 1, 1, 0])).onStream ∧ kraftOf [0, 1, 1, 0] = 2 ^ 15 ∧
    (onBits (bitsLE 2 0 ++ plainComplex [0, 1, 1, 0])).spells (bitsLE 2 0 ++ plainComplex [0, 1, 1, 0]) :=
  ⟨onStream_of (by decide +kernel), spells_of (by decide +kernel), onStream_of (by decide +kernel), by decide +kernel,
    spells_of (by decide +kernel)⟩

theorem witness_EveryCompleteCodeCanBeSent : (∀ l ∈ [1, 15, 0, 15, 14] ++ List.range' 2 12, l ≤ 15) ∧
    kraftOf ([1, 15, 0, 15, 14] ++ List.range' 2 12) = 2 ^ 15 ∧ (∀ l ∈ [2, 1, 3, 3], l ≤ 15) ∧
    kraftOf [2, 1, 3, 3] = 2 ^ 15 := by decide +kernel

theorem witness_ClclReadsLengths : let vs := oneValue 2 14
    (onBits (vs.flatMap fixedCodeword)).onStream ∧ 3 ≤ 18 ∧ clclReads 3 vs ∧
    (onBits (vs.flatMap fixedCodeword)).spells (vs.flatMap fixedCodeword) ∧ clclReads 0 [1, 1] :=
  ⟨onStream_of (by decide +kernel), by decide, clclReads_of (by decide +kernel), spells_of (by decide +kernel),
    clclReads_of (by decide +kernel)⟩

/-- E8. -/
theorem witness_ClclReadsLengths_over : let vs := [1, 2, 1]
    (onBits (vs.flatMap fixedCodeword)).onStream ∧ 0 ≤ 18 ∧ (∀ v ∈ vs, v ≤ 5) ∧
    (∀ k, k < vs.length → clclGoesOn 0 (vs.take k)) ∧ 32 < clclSum vs ∧
    (onBits (vs.flatMap fixedCodeword)).spells (vs.flatMap fixedCodeword) := by
  refine ⟨onStream_of (by decide +kernel), by decide, by decide, ?_, by decide +kernel, spells_of (by decide +kernel)⟩
  unfold clclGoesOn
  decide +kernel

/-- R160's example, `s = 1` with `room = 32768`; the lengths 0 and 15, at the ends of the range. -/
theorem witness_CodeLengthSymbols_length :
    (let s := { fed [] with desc := { Desc.start 4 0 with lastLen := 3 } }
     s.desc.room = 32768 ∧ 1 ≤ 15 ∧ 0 ≤ 15 ∧ 15 ≤ 15 ∧
      lands (exec (.clLen 1) s) (fun t => decide (t.desc.room = 16384 ∧ t.desc.lastLen = 1 ∧ t.desc.lens = [1])) = true ∧
      lands (exec (.clLen 0) s) (fun t => decide (t.desc.room = 32768 ∧ t.desc.lastLen = 3 ∧ t.desc.lens = [0])) = true ∧
      lands (exec (.clLen 15) s) (fun t => decide (t.desc.room = 32767 ∧ t.desc.lastLen = 15)) = true) := by decide +kernel

/-- R161's example, `last_len = 1` and three more of it; the stream that ends before the extra bits. -/
theorem witness_CodeLengthSymbols_first :
    (let s := { fed [0x00] with desc := { Desc.start 4 0 with lens := [1], lastLen := 1, room := 16384 } }
     s.onStream ∧ s.hasBits 2 ∧ 3 = (if s.desc.rep ≠ 0 then (s.desc.rep - 2) * 4 else 0) + 3 + s.nextField 2 ∧
      s.desc.lens.length + (3 - s.desc.rep) ≤ s.desc.alphabet ∧
      lands (exec .clRep s) (fun t => decide (t.desc.room = -32768 ∧ t.desc.lens = [1, 1, 1, 1])) = true) ∧
    (fed []).onStream ∧ ¬ (fed []).hasBits 2 ∧ ¬ (fed []).hasBits 3 :=
  ⟨⟨onStream_of (by decide +kernel), hasBits_of (by decide +kernel), by decide +kernel, by decide +kernel, by decide +kernel⟩,
    onStream_of (by decide +kernel), notBits_of (by decide +kernel), notBits_of (by decide +kernel)⟩

/-- A second repeat after total 3, and one that passes the end of the alphabet. -/
theorem witness_CodeLengthSymbols_repeat :
    (let s := { fed [0x00] with desc := { Desc.start 7 0 with rep := 3, lens := [8, 8, 8] } }
     s.onStream ∧ s.hasBits 2 ∧ 7 = (if s.desc.rep ≠ 0 then (s.desc.rep - 2) * 4 else 0) + 3 + s.nextField 2 ∧
      s.desc.lens.length + (7 - s.desc.rep) ≤ s.desc.alphabet) ∧
    (let s := { fed [0x01] with desc := { Desc.start 7 0 with rep := 3, lens := [8, 8, 8] } }
     s.onStream ∧ s.hasBits 2 ∧ 8 = (if s.desc.rep ≠ 0 then (s.desc.rep - 2) * 4 else 0) + 3 + s.nextField 2 ∧
      s.desc.alphabet < s.desc.lens.length + (8 - s.desc.rep)) :=
  ⟨⟨onStream_of (by decide +kernel), hasBits_of (by decide +kernel), by decide +kernel, by decide +kernel⟩,
    ⟨onStream_of (by decide +kernel), hasBits_of (by decide +kernel), by decide +kernel, by decide +kernel⟩⟩

theorem witness_CodeLengthSymbols_zeros :
    (let s := { fed [0x02] with desc := { Desc.start 13 0 with zer := 3, lens := [0, 0, 0] } }
     s.onStream ∧ s.hasBits 3 ∧ 13 = (if s.desc.zer ≠ 0 then (s.desc.zer - 2) * 8 else 0) + 3 + s.nextField 3 ∧
      s.desc.lens.length + (13 - s.desc.zer) ≤ s.desc.alphabet) ∧
    (let s := { fed [0x00] with desc := Desc.start 2 0 }
     s.onStream ∧ s.hasBits 3 ∧ 3 = (if s.desc.zer ≠ 0 then (s.desc.zer - 2) * 8 else 0) + 3 + s.nextField 3 ∧
      s.desc.alphabet < s.desc.lens.length + (3 - s.desc.zer)) ∧ 15 ≤ 15 :=
  ⟨⟨onStream_of (by decide +kernel), hasBits_of (by decide +kernel), by decide +kernel, by decide +kernel⟩,
    ⟨onStream_of (by decide +kernel), hasBits_of (by decide +kernel), by decide +kernel, by decide +kernel⟩, by decide⟩

/-- A descriptor that gives a table, and E8, that does not. -/
theorem witness_DescriptorsGiveValidTables : (fed [0x4d, 0x16, 0x36, 0x26, 0x56, 0x3b]).onStream ∧ alphabetOk 256 = true ∧
    (∃ t, exec (.readCode 256) (fed [0x4d, 0x16, 0x36, 0x26, 0x56, 0x3b]) = .next t ∧ decide (t.result = none) = true) ∧
    ∃ t, exec (.complex 256 0) ((fed [0x02, 0, 0, 0, 0x70, 0x3b]).seek 36) = .next t ∧
      (decide (t.result = some (.invalid .clcOverSubscribed)) && decide (t.ctl = .done)) = true :=
  ⟨onStream_of (by decide +kernel), by decide, next_with (by decide +kernel), next_with (by decide +kernel)⟩

/-- No value, and two values that do not fill the sum. -/
theorem witness_DescriptorsGiveValidTables_clc : [(0, List.replicate 18 0), (3, [2, 2] ++ List.replicate 13 0)].Forall
    fun p : Nat × List Nat =>
      clclReads p.1 p.2 ∧ clcOf p.1 p.2 = none ∧ (onBits (p.2.flatMap fixedCodeword)).onStream ∧
        (onBits (p.2.flatMap fixedCodeword)).spells ([] ++ p.2.flatMap fixedCodeword) ∧
        (onBits (bitsLE 2 p.1 ++ p.2.flatMap fixedCodeword)).onStream ∧
        (onBits (bitsLE 2 p.1 ++ p.2.flatMap fixedCodeword)).spells (bitsLE 2 p.1 ++ p.2.flatMap fixedCodeword) :=
  ⟨⟨clclReads_of (by decide +kernel), by decide +kernel, onStream_of (by decide +kernel), spells_of (by decide +kernel),
      onStream_of (by decide +kernel), spells_of (by decide +kernel)⟩,
    clclReads_of (by decide +kernel), by decide +kernel, onStream_of (by decide +kernel), spells_of (by decide +kernel),
    onStream_of (by decide +kernel), spells_of (by decide +kernel)⟩

/-- The two code-length symbols 1 and 16, with the codewords 0 and 1 (E8d). -/
def clc1And16 : Table := simple2Table 1 16

/-- The `CLCL` values that give it. -/
def clcl1And16 : List Nat := [1, 0, 0, 0, 0, 0, 0, 0, 1]

/-- One length 1 for two symbols leaves the sum short; with three more lengths 1 it is above `2^15`. -/
theorem witness_DescriptorsGiveValidTables_room : clclReads 0 clcl1And16 ∧ clcOf 0 clcl1And16 = some clc1And16 ∧
    (∃ d, lengthsRead (singleTable 4) (.atStage2 2 3 (oneValue 2 14) (singleTable 4)) [] d ∧ 0 < d.room) ∧
    (∃ d, lengthsRead clc1And16 (.atStage2 4 0 clcl1And16 clc1And16)
      ([false] ++ bitsLE 0 0 ++ ([true] ++ bitsLE 2 0 ++ [])) d ∧ d.room < 0) ∧
    (let bits := clcl1And16.flatMap fixedCodeword ++ ([false] ++ bitsLE 0 0 ++ ([true] ++ bitsLE 2 0 ++ []))
     (onBits bits).onStream ∧ (onBits bits).spells ([] ++ bits)) := by
  refine ⟨clclReads_of (by decide +kernel), by decide +kernel, ⟨_, takes_read (by decide) 2 _ (by decide +kernel), by decide +kernel⟩,
    ⟨_, .take _ _ 1 0 [false] _ ?_ (codeword_of 0 0 (by decide +kernel)) (by decide) (by decide +kernel)
      (.take _ _ 16 0 [true] _ ?_ (codeword_of 0 1 (by decide +kernel)) (by decide) (by decide +kernel) (.stop _ ?_)), ?_⟩,
    onStream_of (by decide +kernel), spells_of (by decide +kernel)⟩
  all_goals (try unfold Desc.goesOn); decide +kernel

/-! Block switching. -/

theorem witness_CountAndRlemaxForms : (fed [0x1a]).onStream ∧ (fed [0x1a]).hasBits 3 ∧
    (fed [0x1a]).hasBits (3 + (fed [0x1a]).nextField 3) ∧ (fed [0x07]).onStream ∧
    ¬ ((fed [0x07]).hasBits 3 ∧ (fed [0x07]).hasBits (3 + (fed [0x07]).nextField 3)) ∧
    isCount 256 (true :: (bitsLE 3 7 ++ bitsLE 7 127)) ∧ isCount 1 [false] :=
  ⟨onStream_of (by decide +kernel), hasBits_of (by decide +kernel), hasBits_of (by decide +kernel),
    onStream_of (by decide +kernel), fun h => notBits_of (by decide +kernel) h.2, count_256, count_one⟩

/-- The largest block length: symbol 25, all extra bits 1. -/
theorem blen_largest : isBlen (singleTable 25) 16793840 ([] ++ bitsLE 24 16777215) :=
  ⟨25, 16777215, [], by decide, single_codeword 25, by decide, by decide, rfl⟩

theorem blen_one : isBlen (singleTable 0) 1 ([] ++ bitsLE 2 0) :=
  ⟨0, 0, [], by decide, single_codeword 0, by decide, by decide, rfl⟩

theorem witness_BlockLengths : (onBits ([] ++ bitsLE 24 16777215)).onStream ∧
    isBlen (singleTable 25) 16793840 ([] ++ bitsLE 24 16777215) ∧
    (onBits ([] ++ bitsLE 24 16777215)).spells ([] ++ bitsLE 24 16777215) ∧ 24 < 25 :=
  ⟨onStream_of (by decide +kernel), blen_largest, spells_of (by decide +kernel), by decide⟩

/-- P4's descriptor of two literal types. -/
theorem blkdesc_two : isBlkdesc { num := 2, cur := 0, prev := 1, cnt := some 1, tcode := some (singleTable 1)
                                  lcode := some (singleTable 0) }
    ([true, false, false, false] ++ (encode (.simple1 4 1)).2 ++ (encode (.simple1 26 0)).2 ++ ([] ++ bitsLE 2 0)) :=
  Or.inr ⟨2, singleTable 1, singleTable 0, 1, _, _, _, _, by decide, count_two,
    simple_descriptor (.simple1 4 1) (by decide) rfl, simple_descriptor (.simple1 26 0) (by decide) rfl, blen_one, rfl,
    rfl⟩

theorem witness_BlockDescriptors : ((fed p4).seek 21).onStream ∧
    ((fed p4).seek 21).spells ([true, false, false, false] ++ (encode (.simple1 4 1)).2 ++ (encode (.simple1 26 0)).2 ++
      ([] ++ bitsLE 2 0)) ∧ ((fed p4).seek 42).onStream ∧ isBlkdesc oneType [false] ∧ ((fed p4).seek 42).spells [false] :=
  ⟨onStream_of (by decide +kernel), spells_of (by decide +kernel), onStream_of (by decide +kernel), blkdesc_one,
    spells_of (by decide +kernel)⟩

/-- A switch that is due, in category `c`, and the next two bits 0. -/
def due (c : Cat) : State := (fed [0x00]).setBlk c (fourTypes 3 2)

theorem due_switches (c : Cat) : ∃ t, (due c).switches c t ∧ (t.blk c).cnt = some 1 := by
  have h : (due c).blk c = fourTypes 3 2 := by cases c <;> rfl
  refine ⟨_, ⟨by rw [h]; decide, by rw [h]; rfl, singleTable 1, singleTable 0, 1, [], 1, _, by rw [h]; rfl,
    by rw [h]; rfl, single_codeword 1, blen_one, ?_, rfl⟩, ?_⟩
  · cases c <;> exact spells_of (by decide +kernel)
  · cases c <;> rfl

theorem witness_BlockSwitches (c : Cat) : (due c).onStream ∧ ∃ t, (due c).switches c t := by
  obtain ⟨t, h, _⟩ := due_switches c
  exact ⟨by cases c <;> exact onStream_of (by decide +kernel), t, h⟩

/-- One type; a counter that is not 0; a switch. -/
theorem witness_TickCountsDown (c : Cat) : ((fed []).onStream ∧ (fed []).ticks c (fed [])) ∧
    (((fed []).setBlk c { fourTypes 0 1 with cnt := some 3 }).onStream ∧
      ∃ t, ((fed []).setBlk c { fourTypes 0 1 with cnt := some 3 }).ticks c t) ∧
    (due c).onStream ∧ ∃ t, (due c).ticks c t := by
  obtain ⟨t, h, ht⟩ := due_switches c
  refine ⟨⟨onStream_of (by decide +kernel), Or.inl ⟨by cases c <;> decide +kernel, rfl⟩⟩, ⟨?_, _, Or.inr (Or.inl ⟨2, ?_, ?_, rfl⟩)⟩,
    ?_, _, Or.inr (Or.inr ⟨t, 1, h, ht, rfl⟩)⟩
  · cases c <;> exact onStream_of (by decide +kernel)
  · cases c <;> decide
  · cases c <;> rfl
  · cases c <;> exact onStream_of (by decide +kernel)

/-- With no bits left, no codeword of the code of `y` and `z` is spelled. -/
theorem yz_not_spelled {s : State} (hp : decide (s.pos = 8 * s.ports.inLen) = true) {v : Nat} {word rest : List Bool}
    (hw : codeYZ.isCodeword v word) : ¬ s.spells (word ++ rest) := by
  rintro ⟨hb, _⟩
  have hp := of_decide_eq_true hp
  rcases hw with ⟨h, _⟩ | ⟨_, n, j, _, _, _, _, rfl⟩
  · exact absurd h (by decide)
  · simp only [State.hasBits, codewordBits, bitsLE, List.length_append, List.length_reverse, List.length_cons] at hb
    omega

theorem yz_alone_not_spelled {s : State} (hp : decide (s.pos = 8 * s.ports.inLen) = true) (v : Nat) (word : List Bool)
    (hw : codeYZ.isCodeword v word) : ¬ s.spells word := fun hs =>
  yz_not_spelled (rest := []) hp hw (by rwa [List.append_nil])

/-- A switch is due and there are no bits for it; the state also meets what `CMD`, `LIT` and `DIST` ask, with the symbol
128, the first whose distance is explicit. -/
theorem witness_TickCountsDown_ends (c : Cat) :
    let s := ({ fed [] with mlen := 1, insLeft := 1, iacSym := 128 } : State).setBlk c
      { num := 2, cur := 0, prev := 1, cnt := some 0, tcode := some codeYZ, lcode := some (singleTable 25) }
    s.onStream ∧ 1 < (s.blk c).num ∧ (s.blk c).cnt = some 0 ∧ (s.blk c).tcode = some codeYZ ∧
      (s.blk c).lcode = some (singleTable 25) ∧ codeYZ.valid = true ∧ (singleTable 25).over 26 = true ∧
      (∀ t, ¬ s.switches c t) ∧ 0 < s.mlen ∧ 0 < s.insLeft ∧ 128 ≤ s.iacSym := by
  refine ⟨?_, ?_, ?_, ?_, ?_, by decide, by decide, ?_, ?_, ?_, ?_⟩
  case refine_6 =>
    rintro t ⟨_, _, tcode, lcode, n, word, cnt, rest, h, _, hw, _, hs, _⟩
    have e : tcode = codeYZ := by cases c <;> exact (Option.some.inj h).symm
    subst e
    exact yz_not_spelled (by cases c <;> decide +kernel) hw hs
  all_goals cases c <;> first | rfl | exact onStream_of (by decide +kernel) | decide

/-! Lengths, contexts and distances. -/

theorem witness_SymbolsSplit : let s := (fed [0xff, 0xff, 0xff, 0xff, 0xff, 0xff, 0xff]).seek 5
    s.onStream ∧ iacRow 703 = some (.iacRow10 703) ∧
    [(0, 0), (0, 8), (0, 0), (0, 8), (8, 0), (8, 8), (0, 16), (16, 0), (8, 16), (16, 8), (16, 16)][703 / 64]? =
      some (16, 16) ∧
    s.hasBits (insExtra.getD (16 + 703 / 8 % 8) 0 + cpyExtra.getD (16 + 703 % 8) 0) ∧
    iacRow 0 = some (.iacRow0 0) ∧ s.hasBits (insExtra.getD (0 + 0 / 8 % 8) 0 + cpyExtra.getD (0 + 0 % 8) 0) :=
  ⟨onStream_of (by decide +kernel), by decide +kernel, by decide +kernel, hasBits_of (by decide +kernel), by decide +kernel,
    hasBits_of (by decide +kernel)⟩

/-- Enough bits for the insert length, too few for the copy length. -/
theorem witness_SymbolsSplit_ends : (fed [0, 0, 0, 0]).onStream ∧ iacRow 703 = some (.iacRow10 703) ∧
    ¬ (fed [0, 0, 0, 0]).hasBits (insExtra.getD (16 + 703 / 8 % 8) 0 + cpyExtra.getD (16 + 703 % 8) 0) :=
  ⟨onStream_of (by decide +kernel), by decide +kernel, notBits_of (by decide +kernel)⟩

theorem witness_ContextModes : let s := wrote [0x61, 0x62] (fed [])
    2 ≤ s.got ∧ 0x62 = s.produced (s.got - 1) ∧ 0x61 = s.produced (s.got - 2) ∧ 2 ≤ 2 := by decide +kernel

theorem witness_ContextOfEveryMode : (fed []).got = 0 ∧ (wrote [0x61] (fed [])).got = 1 := by decide +kernel

theorem witness_MapSymbols : ({ fed [] with cmr := MapRegs.start 64 6 .initial } : State).cmr.rlemax < 7 ∧ 16 ≤ 16 := by
  decide +kernel

/-- The flag 0, the flag 1 over the map of R276, and no bit left. -/
theorem witness_ImtfUndoesMoveToFront_flag : (fed [0x00]).onStream ∧ (fed [0x00]).hasBits 1 ∧ (fed [0x00]).nextField 1 = 0 ∧
    (let s := { fed [0x01] with cmr := { MapRegs.start 5 0 .initial with map := [0, 1, 1, 0, 2] } }
     s.onStream ∧ s.hasBits 1 ∧ s.nextField 1 = 1 ∧ ∀ k ∈ s.cmr.map, k < 256) ∧ (fed []).onStream ∧ ¬ (fed []).hasBits 1 :=
  ⟨onStream_of (by decide +kernel), hasBits_of (by decide +kernel), by decide +kernel,
    ⟨onStream_of (by decide +kernel), hasBits_of (by decide +kernel), by decide +kernel, by decide +kernel⟩,
    onStream_of (by decide +kernel), notBits_of (by decide +kernel)⟩

theorem witness_ImtfUndoesMoveToFront :
    (∀ k ∈ ({ fed [] with cmr := { MapRegs.start 2 0 .initial with map := [0, 255] } } : State).cmr.map, k < 256) ∧
    ∀ k ∈ [0, 255, 255], k < 256 := by decide +kernel

theorem witness_RingSymbols : (Instr.dRing3, 3, 0) ∈ [(Instr.dRing0, 0, (0 : Int)), (.dRing1, 1, 0), (.dRing2, 2, 0),
      (.dRing3, 3, 0)] ∧
    (fed []).ring[((fed []).ringPtr.val + 4 - 3) % 4]? = some 16 ∧ (fed []).ring[((fed []).ringPtr.val + 4 - 0) % 4]? = some 4 :=
  by decide +kernel

/-- The last direct symbol; the first and the last long one; the same at the end of the stream. -/
theorem witness_DirectAndLongDistances :
    (let s := { fed [0xff, 0xff, 0xff] with npostfix := 3, direct := 120 }
     s.onStream ∧ 16 ≤ 135 ∧ 135 < 16 + s.direct ∧ 16 + s.direct ≤ 136 ∧ 519 < s.dalpha ∧
      1 + (519 - s.direct - 16) >>> (s.npostfix + 1) = 24 ∧ s.hasBits 24) ∧
    (let s := fed []
     s.onStream ∧ 16 + s.direct ≤ 16 ∧ 16 < s.dalpha ∧ 1 = 1 + (16 - s.direct - 16) >>> (s.npostfix + 1) ∧
      ¬ s.hasBits 1) :=
  ⟨⟨onStream_of (by decide +kernel), by decide, by decide, by decide, by decide, by decide, hasBits_of (by decide +kernel)⟩,
    onStream_of (by decide +kernel), by decide, by decide, by decide, notBits_of (by decide +kernel)⟩

/-- The least and the largest distance with `postfix` 3 and `direct` 120, and a symbol that gives it. -/
theorem witness_LongDistancesTile : (120 < 121 ∧ 121 ≤ 120 + (2 ^ 26 - 4) * 2 ^ 3) ∧
    (120 < 536871000 ∧ 536871000 ≤ 120 + (2 ^ 26 - 4) * 2 ^ 3) ∧ 16 + 120 ≤ 519 ∧ 519 < 16 + 120 + 48 <<< 3 ∧
    16777215 < 2 ^ longExtra 3 120 519 ∧ longDistance 3 120 519 16777215 = 536871000 ∧ longDistance 3 120 136 0 = 121 := by
  decide +kernel

/-- A ring symbol whose distance is positive, one whose distance is not (E17), and a long one. -/
theorem witness_DistancesAreTested :
    ((fed []).onStream ∧ 9 < (fed []).dalpha ∧ (fed []).hasBits ((fed []).distanceExtra 9) ∧ 7 = (fed []).distanceOf 9 0) ∧
    (let s := { fed [] with ring := #v[1, 15, 11, 4], ringPtr := 0 }
     s.onStream ∧ 4 < s.dalpha ∧ s.hasBits (s.distanceExtra 4) ∧ s.distanceOf 4 0 ≤ 0) ∧
    (fed [0, 0, 0]).onStream ∧ 63 < (fed [0, 0, 0]).dalpha ∧ (fed [0, 0, 0]).hasBits ((fed [0, 0, 0]).distanceExtra 63) ∧
    16 ≤ 63 ∧ ¬ (fed []).hasBits ((fed []).distanceExtra 63) :=
  ⟨⟨onStream_of (by decide +kernel), by decide +kernel, hasBits_of (by decide +kernel), by decide +kernel⟩,
    ⟨onStream_of (by decide +kernel), by decide +kernel, hasBits_of (by decide +kernel), by decide +kernel⟩,
    onStream_of (by decide +kernel), by decide +kernel, hasBits_of (by decide +kernel), by decide, notBits_of (by decide +kernel)⟩

theorem witness_RingPush : ∃ d, 1 ≤ d := ⟨1, by decide⟩

/-! The command loop. -/

/-- P3's command, with exactly the bytes its literal takes, and E1. -/
theorem witness_CommandStarts :
    (let s := { fed [] with iacBank := [singleTable 139], mlen := 1 }
     s.onStream ∧ 0 < s.mlen ∧ s.ticks .I s ∧ s.iacBank[s.blkI.cur]? = some (singleTable 139) ∧
      (singleTable 139).isCodeword 139 [] ∧ 0 = insExtra.getD (insertCode 139) 0 ∧ 0 = cpyExtra.getD (copyCode 139) 0 ∧
      0 < 2 ^ 0 ∧ s.spells ([] ++ bitsLE 0 0 ++ bitsLE 0 0) ∧ insBase.getD (insertCode 139) 0 + 0 ≤ s.mlen) ∧
    (let s := { fed [] with iacBank := [singleTable 144], mlen := 1 }
     s.onStream ∧ 0 < s.mlen ∧ s.ticks .I s ∧ s.iacBank[s.blkI.cur]? = some (singleTable 144) ∧
      (singleTable 144).isCodeword 144 [] ∧ 0 = insExtra.getD (insertCode 144) 0 ∧ 0 = cpyExtra.getD (copyCode 144) 0 ∧
      s.spells ([] ++ bitsLE 0 0 ++ bitsLE 0 0) ∧ s.mlen < insBase.getD (insertCode 144) 0 + 0) :=
  ⟨⟨onStream_of (by decide +kernel), by decide, Or.inl ⟨by decide +kernel, rfl⟩, rfl, single_codeword 139,
      by decide +kernel, by decide +kernel, by decide, spells_of (by decide +kernel), by decide +kernel⟩,
    onStream_of (by decide +kernel), by decide, Or.inl ⟨by decide +kernel, rfl⟩, rfl, single_codeword 144,
    by decide +kernel, by decide +kernel, spells_of (by decide +kernel), by decide +kernel⟩

/-- No bits for the symbol; a symbol with extra bits and none for them. -/
theorem witness_CommandStarts_ends :
    (let s := { fed [] with iacBank := [codeYZ], mlen := 1 }
     s.onStream ∧ 0 < s.mlen ∧ s.ticks .I s ∧ s.iacBank[s.blkI.cur]? = some codeYZ ∧ codeYZ.valid = true ∧
      ∀ v word, codeYZ.isCodeword v word → ¬ s.spells word) ∧
    (let s := { fed [] with iacBank := [singleTable 703], mlen := 1 }
     s.onStream ∧ 0 < s.mlen ∧ s.ticks .I s ∧ s.iacBank[s.blkI.cur]? = some (singleTable 703) ∧
      (singleTable 703).isCodeword 703 [] ∧ s.spells [] ∧
      ¬ s.hasBits (0 + insExtra.getD (insertCode 703) 0 + cpyExtra.getD (copyCode 703) 0)) :=
  ⟨⟨onStream_of (by decide +kernel), by decide, Or.inl ⟨by decide +kernel, rfl⟩, rfl, by decide, yz_alone_not_spelled (by decide +kernel)⟩,
    onStream_of (by decide +kernel), by decide, Or.inl ⟨by decide +kernel, rfl⟩, rfl, single_codeword 703,
    spells_of (by decide +kernel), notBits_of (by decide +kernel)⟩

/-- A literal 122 under the code of `y` and `z`; with an expected byte that is or is not 122. -/
theorem witness_LiteralsAreInserted (ports : Ports) (h : ports ∈ [Ports.decode [0x01], Ports.compareWith [0x01] [122],
    Ports.compareWith [0x01] [121]]) : let s := { State.started ports with insLeft := 1, litBank := [codeYZ] }
    s.onStream ∧ 0 < s.insLeft ∧ s.ticks .L s ∧ s.modes[s.blkL.cur]? = some .lsb6 ∧
    s.litMap[64 * s.blkL.cur + s.ctx .lsb6]? = some 0 ∧ s.litBank[0]? = some codeYZ ∧ codeYZ.isCodeword 122 [true] ∧
    122 < 256 ∧ s.spells [true] := by
  simp only [List.mem_cons, List.not_mem_nil, or_false] at h
  rcases h with rfl | rfl | rfl <;>
  exact ⟨onStream_of (by decide +kernel), by decide, Or.inl ⟨by decide +kernel, rfl⟩, rfl, by decide +kernel, rfl,
    codeword_of 0 1 (by decide +kernel), by decide, spells_of (by decide +kernel)⟩

theorem witness_LiteralsAreInserted_accepts :
    (State.started (Ports.compareWith [0x01] [122])).accepts [BitVec.ofNat 8 122] ∧
    ¬ (State.started (Ports.compareWith [0x01] [121])).accepts [BitVec.ofNat 8 122] := by
  refine ⟨accepts_of (by decide +kernel), fun h => ?_⟩
  exact absurd (h 0 (by decide) (by decide +kernel)).2 (by decide +kernel)

theorem witness_LiteralsAreInserted_ends : let s := { fed [] with insLeft := 1, litBank := [codeYZ] }
    s.onStream ∧ 0 < s.insLeft ∧ s.ticks .L s ∧ s.modes[s.blkL.cur]? = some .lsb6 ∧
    s.litMap[64 * s.blkL.cur + s.ctx .lsb6]? = some 0 ∧ s.litBank[0]? = some codeYZ ∧ codeYZ.valid = true ∧
    ∀ b word, codeYZ.isCodeword b word → ¬ s.spells word :=
  ⟨onStream_of (by decide +kernel), by decide, Or.inl ⟨by decide +kernel, rfl⟩, rfl, by decide +kernel, rfl, by decide,
    yz_alone_not_spelled (by decide +kernel)⟩

/-- The hypotheses of an explicit distance whose symbol is the only one of its code and has `x` extra bits. -/
def explicitOk (s : State) (v x e : Nat) : Prop :=
  s.onStream ∧ 0 < s.mlen ∧ 128 ≤ s.iacSym ∧ s.ticks .D s ∧ s.distMap[4 * s.blkD.cur + min (s.copyLen - 2) 3]? = some 0 ∧
  s.distBank[0]? = some (singleTable v) ∧ (singleTable v).isCodeword v [] ∧ v < s.dalpha ∧ x = s.distanceExtra v ∧
  e < 2 ^ x ∧ s.spells ([] ++ bitsLE x e)

/-- About to read an explicit distance with the one symbol `v`, after eight bytes. -/
def explicitly (v : Nat) (s : State) : State :=
  { s with iacSym := 128, copyLen := 2, mlen := 3, got := 8, distBank := [singleTable v] }

/-- The last implicit and the first explicit symbol, 127 and 128, and the shortest copy; E17; a distance beyond the window, which is not pushed; the last distance again; P6. -/
theorem witness_DistancesAreDecoded :
    (0 < ({ fed [] with iacSym := 127, mlen := 7 } : State).mlen ∧ ({ fed [] with iacSym := 127, mlen := 7 } : State).iacSym < 128) ∧
    (let s := explicitly 4 { fed [] with ring := #v[1, 15, 11, 4], ringPtr := 0 }
     explicitOk s 4 0 0 ∧ s.distanceOf 4 0 ≤ 0) ∧
    (let s := explicitly 63 (fed [0xff, 0xff, 0xff])
     explicitOk s 63 24 16777215 ∧ 0 < s.distanceOf 63 16777215 ∧ (min s.got s.wsize : Nat) < s.distanceOf 63 16777215) ∧
    (let s := explicitly 0 (fed [])
     explicitOk s 0 0 0 ∧ 0 < s.distanceOf 0 0) ∧
    (let s := explicitly 4 (fed [])
     explicitOk s 4 0 0 ∧ 0 < s.distanceOf 4 0 ∧ 4 ≠ 0 ∧ s.distanceOf 4 0 ≤ (min s.got s.wsize : Nat)) := by
  refine ⟨by decide +kernel, ⟨?_, by decide +kernel⟩, ⟨?_, by decide +kernel, by decide +kernel⟩,
    ⟨?_, by decide +kernel⟩, ⟨?_, by decide +kernel, by decide, by decide +kernel⟩⟩
  all_goals
    exact ⟨onStream_of (by decide +kernel), by decide, by decide, Or.inl ⟨by decide +kernel, rfl⟩, by decide +kernel, rfl,
      single_codeword _, by decide +kernel, by decide +kernel, by decide, spells_of (by decide +kernel)⟩

/-- No bits for the symbol; a symbol with extra bits and none for them. -/
theorem witness_DistancesAreDecoded_ends :
    (let s := { explicitly 0 (fed []) with distBank := [codeYZ] }
     s.onStream ∧ 0 < s.mlen ∧ 128 ≤ s.iacSym ∧ s.ticks .D s ∧
      s.distMap[4 * s.blkD.cur + min (s.copyLen - 2) 3]? = some 0 ∧ s.distBank[0]? = some codeYZ ∧ codeYZ.valid = true ∧
      ∀ v word, codeYZ.isCodeword v word → ¬ s.spells word) ∧
    (let s := explicitly 16 (fed [])
     s.onStream ∧ 0 < s.mlen ∧ 128 ≤ s.iacSym ∧ s.ticks .D s ∧
      s.distMap[4 * s.blkD.cur + min (s.copyLen - 2) 3]? = some 0 ∧ s.distBank[0]? = some (singleTable 16) ∧
      (singleTable 16).isCodeword 16 [] ∧ 16 < s.dalpha ∧ s.spells [] ∧ ¬ s.hasBits (0 + s.distanceExtra 16)) :=
  ⟨⟨onStream_of (by decide +kernel), by decide, by decide, Or.inl ⟨by decide +kernel, rfl⟩, by decide +kernel, rfl, by decide,
      yz_alone_not_spelled (by decide +kernel)⟩,
    onStream_of (by decide +kernel), by decide, by decide, Or.inl ⟨by decide +kernel, rfl⟩, by decide +kernel, rfl,
    single_codeword 16, by decide +kernel, spells_of (by decide +kernel), notBits_of (by decide +kernel)⟩

/-- The largest distance into the past, and the one above it. -/
theorem witness_CopyDispatch : let s := wrote [0x61, 0x62, 0x63, 0x64] (fed [])
    4 = min s.got s.wsize ∧ ({ s with dist := 4 } : State).dist ≤ (4 : Nat) ∧
    ((4 : Nat) : Int) < ({ s with dist := 5 } : State).dist := by decide +kernel

/-- P3 with distance 1, E12, and the same in compare mode. -/
theorem witness_CopiesFromThePast :
    (let s := wrote [0x41] { fed [] with dist := 1, copyLen := 5, mlen := 5 }
     s.out.wf = true ∧ 1 ≤ 1 ∧ s.dist = ((1 : Nat) : Int) ∧ 1 ≤ min s.got s.wsize ∧ s.copyLen ≤ s.mlen ∧
      s.accepts (s.pastBytes 1 s.copyLen)) ∧
    (let s := wrote [0x41] { fed [] with dist := 1, copyLen := 5, mlen := 4 }
     s.out.wf = true ∧ s.dist = ((1 : Nat) : Int) ∧ 1 ≤ min s.got s.wsize ∧ s.mlen < s.copyLen) ∧
    (let s := { fedCompare [] [0x41, 0x41, 0x41] with dist := 1, copyLen := 2, mlen := 2, got := 1 }
     s.out.wf = true ∧ s.dist = ((1 : Nat) : Int) ∧ 1 ≤ min s.got s.wsize ∧ s.copyLen ≤ s.mlen ∧
      s.accepts (s.pastBytes 1 s.copyLen)) :=
  ⟨⟨by decide +kernel, by decide, by decide +kernel, by decide +kernel, by decide +kernel, accepts_in_normal (by decide +kernel)⟩,
    by decide +kernel, by decide +kernel, by decide +kernel, by decide +kernel, by decide +kernel, accepts_of (by decide +kernel)⟩

/-- Another first byte, another last byte, and one byte too many. -/
theorem witness_CopiesFromThePast_differs : [([0x41, 0x40, 0x41], 0), ([0x41, 0x41, 0x42], 1), ([0x41, 0x41], 1)].Forall
    fun p : List Byte × Nat =>
      let s := { fedCompare [] p.1 with dist := 1, copyLen := 2, mlen := 2, got := 1 }
      s.out.wf = true ∧ s.dist = ((1 : Nat) : Int) ∧ 1 ≤ min s.got s.wsize ∧ s.copyLen ≤ s.mlen ∧
        s.differsAt (s.pastBytes 1 s.copyLen) p.2 :=
  ⟨⟨by decide +kernel, by decide +kernel, by decide +kernel, by decide +kernel, differs_of 0x41 (by decide +kernel)⟩,
    ⟨by decide +kernel, by decide +kernel, by decide +kernel, by decide +kernel, differs_of 0x41 (by decide +kernel)⟩,
    by decide +kernel, by decide +kernel, by decide +kernel, by decide +kernel, differs_of 0x41 (by decide +kernel)⟩

/-- Section 2.12: the first references outside each range, and P7 with and without room. -/
theorem witness_DictionaryReferences :
    (3 < 4 ∨ 24 < 3) ∧ (25 < 4 ∨ 24 < 25) ∧ (4 ≤ 24 ∧ 24 ≤ 24 ∧ 121 ≤ 3872 / 2 ^ ndbits 24) ∧
    (4 ≤ 24 ∧ 24 ≤ 24 ∧ 3871 / 2 ^ ndbits 24 < 121) ∧ (4 ≤ 4 ∧ 4 ≤ 24 ∧ 0 / 2 ^ ndbits 4 = 0) ∧
    ((withDict 3).mlen < ((withDict 3).dictWord 4 0).length) ∧
    (((withDict 4).dictWord 4 0).length ≤ (withDict 4).mlen ∧ (withDict 4).accepts ((withDict 4).dictWord 4 0) ∧
      ({ withDict 4 with dist := 1, copyLen := 4 } : State).dist =
        ((min (withDict 4).got (withDict 4).wsize : Nat) : Int) + 1 + (0 : Nat)) :=
  ⟨by decide, by decide, by decide +kernel, by decide +kernel, by decide +kernel, by decide +kernel, by decide +kernel,
    accepts_in_normal (by decide +kernel), by decide +kernel⟩

/-- P7 against an output that has another first byte, another last byte, and none for the last byte of the word. -/
theorem witness_DictionaryReferences_differs :
    [([0x62, 0x62, 0x63, 0x64], 0, 0x61), ([0x61, 0x62, 0x63, 0x65], 3, 0x64), ([0x61, 0x62, 0x63], 3, 0x64)].Forall
    fun p : List Byte × Nat × Byte =>
      let s := { withDict 4 with
        compare := true, haveLen := p.1.length, dist := 1, copyLen := 4
        ports := { (withDict 4).ports with expected := Mem.ofBytes 0 p.1 } }
      4 ≤ 4 ∧ 4 ≤ 24 ∧ 0 / 2 ^ ndbits 4 < 121 ∧ (s.dictWord 4 0).length ≤ s.mlen ∧ s.differsAt (s.dictWord 4 0) p.2.1 ∧
        s.dist = ((min s.got s.wsize : Nat) : Int) + 1 + (0 : Nat) :=
  ⟨⟨by decide, by decide, by decide +kernel, by decide +kernel, differs_of 0x61 (by decide +kernel), by decide +kernel⟩,
    ⟨by decide, by decide, by decide +kernel, by decide +kernel, differs_of 0x64 (by decide +kernel), by decide +kernel⟩,
    by decide, by decide, by decide +kernel, by decide +kernel, differs_of 0x64 (by decide +kernel), by decide +kernel⟩

/-- The last byte of one word and the first of the next, at the edge of two groups. -/
theorem witness_DictionaryLayout : (4 ≤ 4 ∧ 4 ≤ 24 ∧ 1023 < 2 ^ ndbits 4 ∧ 3 < 4) ∧ (4 ≤ 24 ∧ 24 ≤ 24 ∧ 31 < 2 ^ ndbits 24 ∧
    23 < 24) ∧ doffset 4 + 1023 * 4 + 3 + 1 = doffset 5 := by decide +kernel

theorem witness_WordTransforms : (0xBF : Byte) < 0xC0 ∧ ((0xC0 : Byte) ≤ 0xC0 ∧ (0xDF : Byte) < 0xE0) ∧
    ((0xE0 : Byte) ≤ 0xE0 ∧ ((0xEF : Byte) < 0xF0 ∨ Upper4.final = .third)) ∧
    ((0xE0 : Byte) ≤ 0xF0 ∧ ((0xF0 : Byte) < 0xF0 ∨ Upper4.third = .third)) ∧ (0xF0 : Byte) ≤ 0xF0 := by decide +kernel

/-! The machine as a whole. -/

theorem witness_ControlTransitions : (fed []).todo = [] ∧ (fed []).ctl ≠ .done ∧ Instr.lit ∈ [Instr.cmd, .lit] := by
  decide +kernel

/-- P1, E2a, section 6. -/
theorem witness_StreamEnd :
    (((fed [0x06]).seek 3).onStream ∧ ((fed [0x06]).seek 3).rd.resid = 0 ∧
      (((fed [0x06]).seek 3).compare = true → ((fed [0x06]).seek 3).got = ((fed [0x06]).seek 3).haveLen)) ∧
    (((fed [0x0e]).seek 3).onStream ∧ ((fed [0x0e]).seek 3).rd.resid ≠ 0) ∧
    (((fedCompare [0x06] [0x61]).seek 3).onStream ∧ ((fedCompare [0x06] [0x61]).seek 3).rd.resid = 0 ∧
      ((fedCompare [0x06] [0x61]).seek 3).compare = true ∧
      ((fedCompare [0x06] [0x61]).seek 3).got ≠ ((fedCompare [0x06] [0x61]).seek 3).haveLen) ∧
    ((fedCompare [0x06] []).seek 3).compare = true ∧
    (((fedCompare [0x06] []).seek 3).got = ((fedCompare [0x06] []).seek 3).haveLen) :=
  ⟨⟨onStream_of (by decide +kernel), by decide +kernel, fun h => absurd h (by decide +kernel)⟩,
    ⟨onStream_of (by decide +kernel), by decide +kernel⟩,
    ⟨onStream_of (by decide +kernel), by decide +kernel, by decide +kernel, by decide +kernel⟩, by decide +kernel,
    by decide +kernel⟩

/-- A run that ends with `Ok`, one that ends with a fault, and an operation after which it goes on. -/
theorem witness_FaultsEndTheRun : ((fed [0x06]).seek 3).ctl ≠ .done ∧
    (∃ t, exec .streamEnd ((fed [0x06]).seek 3) = .next t ∧ decide (t.ctl = .done ∧ t.result = some .ok) = true) ∧
    (∃ t, exec (.bits 1) (fed []) = .next t ∧ decide (t.ctl = .done) = true) ∧
    ∃ t, exec (.bits 1) (fed [0x01]) = .next t ∧ decide (t.ctl ≠ .done) = true :=
  ⟨by decide +kernel, next_with (by decide +kernel), next_with (by decide +kernel), next_with (by decide +kernel)⟩

/-- An operation that completes, one that raises a result, and an address on each side of what is written. -/
theorem witness_OperationsLeaveTheRest : (∃ t, exec (.emit 0x42) (wrote [0x41] (fed [])) = .next t ∧
      decide (t.got = 2) = true) ∧
    (∃ t, exec .align ((fed [0x0e]).seek 3) = .next t ∧ decide (t.result = some (.invalid .nonZeroPadding)) = true) ∧
    0 < (wrote [0x41] (fed [])).got ∧ 2 ≤ 2 :=
  ⟨next_with (by decide +kernel), next_with (by decide +kernel), by decide +kernel, by decide⟩

theorem witness_HostObserves : (fed []).ctl ≠ .done ∧
    (let s := { wrote [0x41] (fed []) with ctl := .done, result := some .ok }
     s.ctl = .done ∧ s.result = some .ok ∧ s.compare = false) ∧
    (let s := { fedCompare [] [] with ctl := .done, result := some .ok }
     s.ctl = .done ∧ s.result = some .ok ∧ s.compare = true) ∧
    (((fed []).takeFault .compareMismatch).ctl = .done ∧
      ((fed []).takeFault .compareMismatch).result = some .compareMismatch) ∧
    ((fed []).takeFault (.invalid .wbits9)).ctl = .done ∧
    ((fed []).takeFault (.invalid .wbits9)).result = some (.invalid .wbits9) := by decide +kernel

/-- P1 before its first operation is a run that has not ended, and it has a step. -/
theorem witness_Running : (fed [0x06, 0x00, 0x00]).Running ∧
    ∃ t, step (fed [0x06, 0x00, 0x00]) = .next t ∧ decide (t.ctl = .mbStart) = true := by
  have block : Block.initial.Ok := ⟨by decide, by decide, by decide, fun _ => rfl, fun h => absurd h (by decide)⟩
  exact ⟨{
    live := by decide +kernel
    noResult := rfl
    cursor := onStream_of (by decide +kernel)
    mode := ⟨rfl, rfl⟩
    out := by decide +kernel
    noStorage := fun _ => rfl
    wbits := by decide +kernel
    ring := by decide +kernel
    distance := by decide +kernel
    blocks := fun c => by cases c <;> exact block
    modes := rfl
    litMap := by decide +kernel
    distMap := by decide +kernel
    litBank := by decide +kernel
    iacBank := by decide +kernel
    distBank := by decide +kernel
    copyLen := by decide
    capacity := fun n h => nomatch (show (none : Option Nat) = some n from h)
    flow := ⟨rfl, rfl, rfl⟩ }, next_with (by decide +kernel)⟩

theorem witness_InvariantIsKept : (fed [0x06, 0x00, 0x00]).Inv ∧ ∃ t, step (fed [0x06, 0x00, 0x00]) = .next t :=
  ⟨Or.inl witness_Running.1, witness_Running.2.imp fun _ h => h.1⟩

theorem witness_RunsDoNotGetStuck : (fed [0x06, 0x00, 0x00]).Running := witness_Running.1

theorem witness_RunsGoForward : (fed [0x06, 0x00, 0x00]).Running ∧ ∃ t, step (fed [0x06, 0x00, 0x00]) = .next t :=
  ⟨witness_Running.1, witness_Running.2.imp fun _ h => h.1⟩

end Sys2Proof.Tests
end

section
/-! SUPPORT. The statements about the state as a whole: what every operation leaves unchanged, what a start gives, the
invariant of every run, and that a run neither gets stuck nor goes back (O54, O55, O57 to O60). -/

namespace Sys2Proof.Machine

/-! What an operation leaves unchanged, read off how its arm of `exec` is built. -/

section frame

variable {α : Type} {L K K' : List Fld} {s : State} {op : M α} {keep : α → State → State}

/-- Where the outcome is a next state, only the pieces of `L` differ and the output only grew, apart from what raising a
result writes. -/
def LeavesRest (L : List Fld) (s : State) (o : Host.Outcome State Fault Refusal) : Prop :=
  ∀ t, o = .next t → ∃ u, Kept L s u ∧ (t = u ∨ ∃ k, k ≠ .ok ∧ t = u.takeFault k)

namespace LeavesRest

/-- An operation whose value is kept in the pieces `K'`. -/
theorem keeping (hop : Keeps K op) (hk : ∀ a u, Kept K' u (keep a u))
    (hK : K ⊆ L := by simp [instrWrites]) (hK' : K' ⊆ L := by simp [instrWrites]) :
    LeavesRest L s (complete op keep s) :=
  fun _ => (hop.mono hK).complete fun a u => (hk a u).mono hK'

/-- An operation whose rule returns no value. -/
theorem alone (hop : Keeps L op) : LeavesRest L s (complete op keepNone s) :=
  fun _ => hop.complete fun _ _ => Kept.refl

/-- An operation that only latches what it computes from the state. -/
theorem latching {a : α} (hk : ∀ a u, Kept L u (keep a u)) : LeavesRest L s (complete (pure a) keep s) :=
  fun _ => (Keeps.pure a).complete hk

/-- An operation that reads a value into the value latch. -/
theorem reading {op : M Nat} (hop : Keeps [.rd] op) : LeavesRest [.rd, .latVal] s (complete op keepVal s) :=
  keeping hop (fun a _ => Kept.val a)

/-- An operation that reads a distance into the signed latch. -/
theorem readingSigned {op : M Int} (hop : Keeps [.rd] op) : LeavesRest [.rd, .latSval] s (complete op keepSval s) :=
  keeping hop (fun a _ => Kept.sval a)

/-- A row of the insert-and-copy splitter. -/
theorem splitting (i j : Nat) : LeavesRest [.rd, .latInsLen, .copyLen] s (complete (splitCodes i j) keepSplit s) :=
  keeping (Keeps.splitCodes i j) (fun r _ => Kept.split r)

/-- A row of the insert codes. -/
theorem inserting (b e : Nat) : LeavesRest [.rd, .latInsLen] s (complete (baseExtra b e) keepInsLen s) :=
  keeping (Keeps.baseExtra b e) (fun n _ => Kept.insLen n)

/-- A row of the copy codes. -/
theorem copying (b e : Nat) : LeavesRest [.rd, .copyLen] s (complete (baseExtra b e) keepCopyLen s) :=
  keeping (Keeps.baseExtra b e) (fun n _ => Kept.copyLen n)

end LeavesRest

theorem Keeps.setWbits (w : Nat) : Keeps [.wbits, .ctl] (setWbits w) := update fun _ => Kept.wbits w .mbStart

/-- Every operation leaves everything but what its rule writes. The rows without extra bits, and those of `CLCL`, unfold
`exec` by hand: their literal operands would otherwise be computed away before the operation is recognised. -/
theorem exec_leavesRest (i : Instr) (s : State) : LeavesRest (instrWrites i) s (exec i s) :=
  match i with
  | .bits n => .reading (Keeps.bits n)
  | .islastempty | .isuncompressed => .reading (Keeps.bits 1)
  | .mnibbles | .mskipbytes => .reading (Keeps.bits 2)
  | .rawbyte => .keeping Keeps.rawbyte (fun b _ => Kept.val b.toNat)
  | .sym t => .reading (Keeps.sym t)
  | .mskiplen sb => .reading (Keeps.mskiplen sb)
  | .nbltypesN => .reading Keeps.nbltypesN
  | .blen t => .reading (Keeps.blen t)
  | .blenS0 | .blenS1 | .blenS2 | .blenS3 | .blenS4 | .blenS5 | .blenS6 | .blenS7 | .blenS8 | .blenS9 | .blenS10
  | .blenS11 | .blenS12 | .blenS13 | .blenS14 | .blenS15 | .blenS16 | .blenS17 | .blenS18 | .blenS19 | .blenS20
  | .blenS21 | .blenS22 | .blenS23 | .blenS24 | .blenS25 => .reading (Keeps.baseExtra _ _)
  | .rlemaxN n => .reading (Keeps.rlemaxN n)
  | .nbltypes1 | .ctx _ | .ctxLsb6 | .ctxMsb6 | .ctxUtf8 | .ctxSigned | .dctx _ => .latching fun a _ => Kept.val a
  | .rlemax0 _ => .keeping (K := [.latVal]) ((Keeps.require (by decide)).bind fun _ => Keeps.pure _)
      (fun a _ => Kept.val a)
  | .align => .alone Keeps.align
  | .skip k => .alone (Keeps.skip k)
  | .metaRsvd => .alone Keeps.metaRsvd
  | .metaSkip k => .alone (Keeps.metaSkip k)
  | .emit b => .alone (Keeps.emit b)
  | .build _ | .simple1 _ _ | .simple2 _ _ _ | .simple3 _ _ _ _ | .simple4a _ _ _ _ _ | .simple4b _ _ _ _ _ =>
    .latching fun t _ => Kept.tbl t
  | .simple a => .keeping (Keeps.simple a) (fun t _ => Kept.tbl t)
  | .readCode a => .keeping (Keeps.readCode a) (fun t _ => Kept.tbl t)
  | .complex a h => .keeping (Keeps.complex a h) (fun t _ => Kept.tbl t)
  | .clcl h => .alone (Keeps.clcl h)
  | .clclV0 | .clclV1 | .clclV2 | .clclV3 | .clclV4 | .clclV5 => by unfold exec; exact .alone (Keeps.clclStep _)
  | .clLen v => .alone (Keeps.clLen v)
  | .clRep => .alone Keeps.clRep
  | .clZero => .alone Keeps.clZero
  | .wbits16 | .wbits18to24 _ | .wbits17 | .wbits10to15 _ => .alone (Keeps.setWbits _)
  | .wbits9 => .alone (Keeps.raise (α := Unit) (by decide))
  | .islast => .alone Keeps.islast
  | .mlen nn => .alone (Keeps.mlen nn)
  | .rawcopy => .alone Keeps.rawcopy
  | .header => .alone Keeps.header
  | .npostfix => .alone Keeps.npostfix
  | .ndirect => .alone Keeps.ndirect
  | .cmode t => .alone (Keeps.cmode t)
  | .ntreesl => .alone Keeps.ntreesl
  | .ntreesd => .alone Keeps.ntreesd
  | .banks => .alone Keeps.banks
  | .cmd => .alone Keeps.cmd
  | .lit => .alone Keeps.lit
  | .dist => .alone Keeps.dist
  | .copy => .alone Keeps.copy
  | .copyPast => .alone Keeps.copyPast
  | .copyDict id n => .alone (Keeps.copyDict id n)
  | .mbEnd => .alone Keeps.mbEnd
  | .streamEnd => .alone Keeps.streamEnd
  | .blkdesc c => .alone (Keeps.blkdesc c)
  | .tick c => .alone (Keeps.tick c)
  | .bswitch c => .alone (Keeps.bswitch c)
  | .bswitchPrev _ | .bswitchNext _ => .alone (Keeps.get.bind fun _ => Keeps.installType _ _)
  | .bswitchAbs c n => .alone (Keeps.installType c (n - 2))
  | .iacsplit _ | .iacRow0 _ | .iacRow1 _ | .iacRow2 _ | .iacRow3 _ | .iacRow4 _ | .iacRow5 _ | .iacRow6 _
  | .iacRow7 _ | .iacRow8 _ | .iacRow9 _ | .iacRow10 _ => .splitting _ _
  | .insC0 | .insC1 | .insC2 | .insC3 | .insC4 | .insC5 | .insC6 | .insC7 | .insC8 | .insC9 | .insC10 | .insC11
  | .insC12 | .insC13 | .insC14 | .insC15 | .insC16 | .insC17 | .insC18 | .insC19 | .insC20 | .insC21 | .insC22
  | .insC23 => by unfold exec; exact .inserting _ _
  | .copyC0 | .copyC1 | .copyC2 | .copyC3 | .copyC4 | .copyC5 | .copyC6 | .copyC7 | .copyC8 | .copyC9 | .copyC10
  | .copyC11 | .copyC12 | .copyC13 | .copyC14 | .copyC15 | .copyC16 | .copyC17 | .copyC18 | .copyC19 | .copyC20
  | .copyC21 | .copyC22 | .copyC23 => by unfold exec; exact .copying _ _
  | .cmap n k => .keeping (Keeps.cmap n k) (fun m _ => Kept.map m)
  | .cmZero => .alone Keeps.cmZero
  | .cmVal v => .alone (Keeps.cmVal v)
  | .cmRun v => .alone (Keeps.cmRun v)
  | .imtf => .alone Keeps.imtf
  | .imtfFlag => .keeping Keeps.imtfFlag (fun a _ => Kept.val a)
  | .distval v => .readingSigned (Keeps.distval v)
  | .dLong v => .readingSigned (Keeps.dLong v)
  | .dRing0 | .dRing1 | .dRing2 | .dRing3 | .dRing4 | .dRing5 | .dRing6 | .dRing7 | .dRing8 | .dRing9 | .dRing10
  | .dRing11 | .dRing12 | .dRing13 | .dRing14 | .dRing15 => .latching fun d _ => Kept.sval d
  | .dDirect _ => .keeping (K := [.latSval]) (Keeps.get.bind fun _ => Keeps.precondition.bind fun _ => Keeps.pure _)
      (fun d _ => Kept.sval d)
  | .ringpush d => .alone (Keeps.ringpush d)
  | .xId | .xUpfirst | .xUpall | .xOmitfirst _ | .xOmitlast _ => .latching fun w _ => Kept.word w

end frame

/-- Settles O54: each operation keeps the frame of its rule, and raising a result changes neither `got` nor `OUT`. -/
theorem operationsLeaveTheRest : Obligations.OperationsLeaveTheRest := by
  intro s t i h
  obtain ⟨u, ⟨hsame, hgot, hout, _⟩, ht⟩ := exec_leavesRest i s t h
  have hu : t.got = u.got ∧ t.out = u.out := by
    rcases ht with rfl | ⟨k, _, rfl⟩
    · exact ⟨rfl, rfl⟩
    · exact ⟨rfl, rfl⟩
  exact ⟨u, hsame, ht, hu.1 ▸ hgot, by rw [hu.1, hu.2]; exact hout⟩

/-! Starts. -/

/-- Settles O55: `start` writes every register from the ports, so each value is the one `State.started` names. -/
theorem startState : Obligations.StartState :=
  ⟨rfl, fun _ => ⟨rfl, rfl, rfl, rfl, rfl, rfl, rfl, rfl, rfl, rfl, rfl, rfl, rfl, rfl, rfl, rfl, rfl, rfl⟩⟩

theorem block_initial_ok : Block.initial.Ok where
  num := by decide
  cur := by decide
  prev := by decide
  one := fun _ => rfl
  more := fun h => absurd h (by decide)

/-- A start leaves a run that has not ended: but for the mode, its registers do not depend on the ports (R37, R380). -/
theorem started_running (p : Ports) : (State.started p).Running where
  live := nofun
  noResult := rfl
  cursor := ⟨(readerAt_boundary p 0).symm, Nat.zero_le _⟩
  mode := ⟨rfl, rfl⟩
  out := ⟨rfl, rfl⟩
  noStorage := fun _ => rfl
  wbits := show 10 ≤ 10 ∧ 10 ≤ 24 by decide
  ring := show ∀ k : Fin 4, 1 ≤ #v[16, 15, 11, 4][k] by decide
  distance := show 0 ≤ 3 ∧ 0 ≤ 15 <<< 0 by decide
  blocks := fun c => by cases c <;> exact block_initial_ok
  modes := rfl
  litMap := show _ ∧ ∀ k ∈ List.replicate 64 0, k < 1 from ⟨rfl, by simp⟩
  distMap := show _ ∧ ∀ k ∈ List.replicate 4 0, k < 1 from ⟨rfl, by simp⟩
  litBank := ⟨rfl, show ∀ t ∈ [Table.initial], t.over 256 = true by decide⟩
  iacBank := ⟨rfl, show ∀ t ∈ [Table.initial], t.over 704 = true by decide⟩
  distBank := ⟨rfl, show ∀ t ∈ [Table.initial], t.over 64 = true by decide⟩
  copyLen := le_refl 2
  capacity := fun n _ => Nat.zero_le n
  flow := ⟨rfl, rfl, rfl⟩

/-- Settles O57: reset is the start with idle ports. -/
theorem invariantAtStart : Obligations.InvariantAtStart :=
  ⟨.inl (started_running .idle), fun p => .inl (started_running p)⟩

/-! Steps. -/

/-- The step of a run in `C_MB_HDR` is one of the operations that read a meta-block header or a raw meta-block. -/
theorem goes_mbHdr {s : State} (hR : s.Running) (hc : s.ctl = .mbHdr) : Goes s (step s) := by
  have hf := hR.flow
  simp only [State.flow, hc] at hf
  obtain ⟨_, ⟨hm, ht | ht | ht | ⟨sb, hsb, ht⟩ | ⟨k, hk, ht⟩ | ⟨nn, h4, h6, ht⟩⟩ | ⟨hm, ht | ht | ht⟩⟩ := hf
  · exact goes_mnibbles hR hc ht hm
  · exact goes_metaRsvd hR hc ht hm
  · exact goes_mskipbytes hR hc ht hm
  · exact goes_mskiplen hsb hR hc ht hm
  · exact goes_metaSkip hk hR hc ht hm
  · exact goes_mlen h4 h6 hR hc ht
  · exact goes_isuncompressed hR hc ht hm
  · exact goes_rawcopy hR hc ht
  · exact goes_header hR hc ht hm

/-- Every step of a run keeps the invariant and goes forward, or meets a repeated symbol: in each control state the
invariant leaves only the operations of R181 to fetch. -/
theorem goes_step {s : State} (hR : s.Running) : Goes s (step s) := by
  have hf := hR.flow
  cases hc : s.ctl with
  | stream => exact goes_wbits hR hc
  | mbStart =>
    simp only [State.flow, hc] at hf
    obtain ⟨ht | ⟨ht, _⟩, _⟩ := hf
    · exact goes_islast hR hc ht
    · exact goes_islastempty hR hc ht
  | mbHdr => exact goes_mbHdr hR hc
  | cmd => exact goes_cmd hR hc
  | lit => exact goes_lit hR hc
  | copy =>
    simp only [State.flow, hc] at hf
    obtain ⟨ht | ⟨ht, _⟩, _⟩ := hf
    · exact goes_dist hR hc ht
    · exact goes_copy hR hc ht
  | mbEnd => exact goes_mbEnd hR hc
  | fin => exact goes_streamEnd hR hc
  | done => exact absurd hc hR.live

theorem goes_next {s t : State} (hR : s.Running) (h : step s = .next t) : Goes s (.next t) := h ▸ goes_step hR

/-- In `C_DONE` no step exists (R181, R385). -/
theorem step_done {s : State} (h : s.ctl = .done) : step s = .fault .runEnded := by
  rw [step, fetch_done h]

/-- Settles O58: from a run by `goes_step`; a run that has ended has no step. -/
theorem invariantIsKept : Obligations.InvariantIsKept := by
  intro s t hI h
  rcases hI with hR | hE
  · exact (goes_next hR h).1
  · rw [step_done hE.stopped] at h
    cases h

/-- Settles O59: `goes_step` leaves a next state or the refusal of a repeated symbol. -/
theorem runsDoNotGetStuck : Obligations.RunsDoNotGetStuck := by
  intro s hR
  have hg := goes_step hR
  cases h : step s with
  | next t => exact .inl ⟨t, rfl⟩
  | fault f => rw [h] at hg; exact hg.elim
  | refused r => rw [h] at hg; exact .inr (congrArg _ hg)

/-- Settles O60: the part of `goes_step` beside the invariant. -/
theorem runsGoForward : Obligations.RunsGoForward := fun _ _ hR h => (goes_next hR h).2

end Sys2Proof.Machine
end

section
/-! SUPPORT. The statements about the output memory (spec/20_memory.md): `EMIT` in its two modes (O8). -/

namespace Sys2Proof.Machine

/-- What a write leaves to be read: its byte at its own address, everything else as it was. -/
theorem get_put {m : Mem} (h : m.wf = true) (a : Nat) (v : Byte) (b : Nat) :
    (m.put a v).get b = if b = a then v else m.get b := by
  split_ifs with hb
  · rw [hb, get_put_same h]
  · exact get_put_other v hb

/-- `EMIT` as an operation of its own (R66). -/
theorem exec_emit (b : Byte) (s : State) : exec (.emit b) s = complete (emit b) keepNone s := rfl

/-- In normal mode `EMIT` stores at `got` and counts the byte (R66). -/
theorem exec_emit_normal {s : State} (h : s.compare = false) (b : Byte) :
    exec (.emit b) s = .next { s with out := s.out.put s.got b, got := s.got + 1 } := by
  rw [exec_emit, complete_ok (emit_normal h b), keepNone]

/-- In compare mode `EMIT` counts a byte that is the expected one and raises `CompareMismatch` at any other (R66). -/
theorem exec_emit_compare {s : State} (h : s.compare = true) (b : Byte) :
    exec (.emit b) s = if s.got < s.haveLen ∧ s.ports.expected.get s.got = b then .next { s with got := s.got + 1 }
      else .next (s.takeFault .compareMismatch) := by
  rw [exec_emit]
  split_ifs with hb
  · rw [complete_ok (emit_compare h hb), keepNone]
  · rw [complete_raised (emit_mismatch h hb)]

/-- Settles O8: the two branches of `EMIT`; in normal mode its store is read back by `get_put`. -/
theorem emitWritesAtGot : Obligations.EmitWritesAtGot := by
  refine fun b s => ⟨fun hn => ?_, fun hc => ?_⟩
  · exact ⟨_, exec_emit_normal hn b, rfl, fun hw => ⟨wf_put s.got b hw, get_put hw s.got b⟩, (Kept.out b).1⟩
  · have hm : s.haveLen ≤ s.got ∨ s.ports.expected.get s.got ≠ b ↔
        ¬ (s.got < s.haveLen ∧ s.ports.expected.get s.got = b) := by rw [not_and_or, Nat.not_lt]
    rw [exec_emit_compare hc, if_congr hm rfl rfl, ite_not]

end Sys2Proof.Machine
end

section
/-! SUPPORT. The statements about the encoding (spec/30_encoding.md): that decoding undoes encoding, that a decoded row is
well formed and selected by the bits consumed alone, and the words of the spec (O1 to O3). -/

namespace Sys2Proof

/-! What is decoded at an element that no stream bits select. -/

/-- A decoded symbol selects its row without stream bits (R101). -/
theorem decode_symbol {alph : Alphabet} {v : Nat} {i : Instr} (h : symbolRow alph v = some i) (bs : List Bool) :
    decode (.symbol alph v) bs = .ok (i, 0) := by
  rw [decode, h]

/-- An operation that the control flow fixes is the one decoded. -/
theorem decode_oper {i : Instr} (h : i.wf = true) (bs : List Bool) : decode (.oper i) bs = .ok (i, 0) := by
  rw [decode, if_pos h]

/-! The forms that stream bits select, written and decoded. -/

/-- The forms `WBITS` 18 to 24 (R92): the first field is not 0. -/
theorem decodeWbits_first {b : Nat} (h1 : 1 ≤ b) (h7 : b ≤ 7) (rest : List Bool) :
    decodeWbits (true :: bitsLE 3 b ++ rest) = .ok (.wbits18to24 b, 4) := by
  interval_cases b <;> rfl

/-- The forms `WBITS` 10 to 15 (R92): the first field is 0 and the second neither 0 nor 1. -/
theorem decodeWbits_second {c : Nat} (h2 : 2 ≤ c) (h7 : c ≤ 7) (rest : List Bool) :
    decodeWbits ([true] ++ bitsLE 3 0 ++ bitsLE 3 c ++ rest) = .ok (.wbits10to15 c, 7) := by
  interval_cases c <;> rfl

/-- The complex form with the `HSKIP` values that do not mark a simple one (R97). -/
theorem decodeDesc_complex {hskip : Nat} (a : Nat) (h : hskip = 0 ∨ hskip = 2 ∨ hskip = 3) (rest : List Bool) :
    decodeDesc a (bitsLE 2 hskip ++ rest) = .ok (.complex a hskip, 2) := by
  rcases h with rfl | rfl | rfl <;> rfl

/-- A simple form that its number of symbols alone selects (R147). -/
theorem decodeDesc_symbols {a : Nat} {l : List Nat} {i : Instr} {rest : List Bool} (hw : simpleOk a l = true)
    (hr : simpleRow a l rest = .ok (i, rest)) (hl : 1 ≤ l.length ∧ l.length ≤ 4 := by simp) :
    decodeDesc a (simpleBits a l ++ rest) = .ok (i, (simpleBits a l).length) := by
  rw [decodeDesc_simple a l rest hw hl.1 hl.2 i rest hr le_rfl, Nat.sub_self, Nat.add_zero]

/-- A simple form of four symbols: the bit after them says which of the two it is (R147). -/
theorem decodeDesc_four {a : Nat} {l : List Nat} {i : Instr} {rest : List Bool} {sel : Bool} (hw : simpleOk a l = true)
    (hr : simpleRow a l (sel :: rest) = .ok (i, rest)) (hl : l.length = 4 := by rfl) :
    decodeDesc a (simpleBits a l ++ [sel] ++ rest) = .ok (i, (simpleBits a l ++ [sel]).length) := by
  rw [List.append_assoc, List.singleton_append,
    decodeDesc_simple a l (sel :: rest) hw (by omega) hl.le i rest hr (by simp)]
  simp

/-! The rows that a symbol selects among several, and the symbol they are encoded as. -/

/-- The symbols of insert-and-copy row `r` have `r` above their six low bits (R253). -/
theorem shiftRight_of_inRow {r v : Nat} (h : inRow r v = true) : v >>> 6 = r := by
  simp only [inRow, Bool.and_eq_true, decide_eq_true_eq] at h
  rw [Nat.shiftRight_eq_div_pow]
  omega

theorem symbolRow_clLen {v : Nat} (h : v ≤ 15) : symbolRow .codeLength v = some (.clLen v) :=
  if_pos (Nat.lt_succ_of_le h)

theorem symbolRow_bswitchAbs {num v : Nat} (c : Cat) (h2 : 2 ≤ v) (hn : v ≤ num + 1) :
    symbolRow (.typeChange c num) v = some (.bswitchAbs c v) := by
  rw [symbolRow, typeChangeRow, if_neg (by omega), if_neg (by omega), if_pos hn]

theorem symbolRow_cmRun {rlemax v : Nat} (trees : Nat) (h1 : 1 ≤ v) (hr : v ≤ rlemax) :
    symbolRow (.cmap rlemax trees) v = some (.cmRun v) := by
  rw [symbolRow, cmapRow, if_neg (by omega), if_pos hr]

theorem symbolRow_cmVal {rlemax trees v : Nat} (hr : rlemax < v) (ht : v < rlemax + trees) :
    symbolRow (.cmap rlemax trees) v = some (.cmVal v) := by
  rw [symbolRow, cmapRow, if_neg (by omega), if_neg (by omega), if_pos ht]

theorem symbolRow_dDirect {direct v : Nat} (dalpha : Nat) (h16 : 16 ≤ v) (hd : v < 16 + direct) :
    symbolRow (.distance direct dalpha) v = some (.dDirect v) := by
  rw [symbolRow, distanceRow, if_neg (by omega), if_pos hd]

theorem symbolRow_dLong {direct dalpha v : Nat} (hd : 16 + direct ≤ v) (ha : v < dalpha) :
    symbolRow (.distance direct dalpha) v = some (.dLong v) := by
  rw [symbolRow, distanceRow, if_neg (by omega), if_neg (by omega), if_pos ha]

/-- The map alphabet that the encoder takes for a value has it as a value: with no run symbols up to 255, else with 16. -/
theorem symbolRow_cmVal_encoded {v : Nat} (h1 : 1 ≤ v) (h : v ≤ 270) :
    symbolRow (if v < 256 then .cmap 0 256 else .cmap 16 255) v = some (.cmVal v) := by
  split_ifs with hv
  · exact symbolRow_cmVal h1 (by omega)
  · exact symbolRow_cmVal (by omega) (by omega)

/-- The distance alphabet that the encoder takes for a long distance has no direct symbol at or above it. -/
theorem symbolRow_dLong_encoded {v : Nat} (h16 : 16 ≤ v) (h : v ≤ 519) :
    symbolRow (if v < 400 then .distance 0 400 else .distance 120 520) v = some (.dLong v) := by
  split_ifs with hv
  · exact symbolRow_dLong h16 hv
  · exact symbolRow_dLong (by omega) (by omega)

/-! Decoding undoes encoding. -/

/-- Whatever follows it, what the encoder writes for an operation is decoded to it and consumed. -/
def RoundTrips (i : Instr) : Prop :=
  ∀ rest, decode (encode i).1 ((encode i).2 ++ rest) = .ok (i, (encode i).2.length)

namespace RoundTrips

/-- A row that the control flow fixes. -/
theorem oper {i : Instr} (hw : i.wf = true) (he : encode i = (.oper i, []) := by rfl) : RoundTrips i := by
  rw [RoundTrips, he]
  exact decode_oper hw

/-- A row of a symbol alphabet. -/
theorem symbol {i : Instr} {alph : Alphabet} {v : Nat} (hr : symbolRow alph v = some i)
    (he : encode i = (.symbol alph v, []) := by rfl) : RoundTrips i := by
  rw [RoundTrips, he]
  exact decode_symbol hr

end RoundTrips

/-- Decoding undoes encoding, by the element an operation is encoded at: a stream header, a count, a codeword of the fixed
code or a descriptor by its bits, a row of an alphabet by the symbol, and the others by their place alone. -/
theorem roundTrips (i : Instr) (hw : i.wf = true) : RoundTrips i := by
  cases i with
  | wbits16 | wbits17 | wbits9 | nbltypes1 | nbltypesN | rlemax0 _ | rlemaxN _ | clclV0 | clclV1 | clclV2 | clclV3 | clclV4
  | clclV5 => exact fun _ => rfl
  | wbits18to24 b =>
    simp only [Instr.wf, Bool.and_eq_true, decide_eq_true_eq] at hw
    exact decodeWbits_first hw.1 hw.2
  | wbits10to15 c =>
    simp only [Instr.wf, Bool.and_eq_true, decide_eq_true_eq] at hw
    exact decodeWbits_second hw.1 hw.2
  | simple1 _ _ | simple2 _ _ _ | simple3 _ _ _ _ => exact fun _ => decodeDesc_symbols hw rfl
  | simple4a _ _ _ _ _ | simple4b _ _ _ _ _ => exact fun _ => decodeDesc_four hw rfl
  | complex a hskip =>
    simp only [Instr.wf, Bool.and_eq_true, decide_eq_true_eq] at hw
    exact decodeDesc_complex a hw.2
  | clLen v => exact .symbol (symbolRow_clLen (of_decide_eq_true hw))
  | bswitchAbs c n =>
    simp only [Instr.wf, Bool.and_eq_true, decide_eq_true_eq] at hw
    exact .symbol (symbolRow_bswitchAbs c hw.1 hw.2)
  | iacRow0 v | iacRow1 v | iacRow2 v | iacRow3 v | iacRow4 v | iacRow5 v | iacRow6 v | iacRow7 v | iacRow8 v | iacRow9 v
  | iacRow10 v =>
    exact .symbol (alph := .insertAndCopy) (v := v) (by simp only [symbolRow, iacRow, shiftRight_of_inRow hw])
  | cmRun v =>
    simp only [Instr.wf, Bool.and_eq_true, decide_eq_true_eq] at hw
    exact .symbol (symbolRow_cmRun 255 hw.1 hw.2)
  | cmVal v =>
    simp only [Instr.wf, Bool.and_eq_true, decide_eq_true_eq] at hw
    exact .symbol (symbolRow_cmVal_encoded hw.1 hw.2)
  | dDirect v =>
    simp only [Instr.wf, Bool.and_eq_true, decide_eq_true_eq] at hw
    exact .symbol (symbolRow_dDirect (direct := 120) 520 hw.1 (by omega))
  | dLong v =>
    simp only [Instr.wf, Bool.and_eq_true, decide_eq_true_eq] at hw
    exact .symbol (symbolRow_dLong_encoded hw.1 hw.2)
  | clRep | clZero | blenS0 | blenS1 | blenS2 | blenS3 | blenS4 | blenS5 | blenS6 | blenS7 | blenS8 | blenS9 | blenS10
  | blenS11 | blenS12 | blenS13 | blenS14 | blenS15 | blenS16 | blenS17 | blenS18 | blenS19 | blenS20 | blenS21 | blenS22
  | blenS23 | blenS24 | blenS25 | bswitchPrev _ | bswitchNext _ | insC0 | insC1 | insC2 | insC3 | insC4 | insC5 | insC6
  | insC7 | insC8 | insC9 | insC10 | insC11 | insC12 | insC13 | insC14 | insC15 | insC16 | insC17 | insC18 | insC19
  | insC20 | insC21 | insC22 | insC23 | copyC0 | copyC1 | copyC2 | copyC3 | copyC4 | copyC5 | copyC6 | copyC7 | copyC8
  | copyC9 | copyC10 | copyC11 | copyC12 | copyC13 | copyC14 | copyC15 | copyC16 | copyC17 | copyC18 | copyC19 | copyC20
  | copyC21 | copyC22 | copyC23 | cmZero | dRing0 | dRing1 | dRing2 | dRing3 | dRing4 | dRing5 | dRing6 | dRing7 | dRing8
  | dRing9 | dRing10 | dRing11 | dRing12 | dRing13 | dRing14 | dRing15 | ctxLsb6 | ctxMsb6 | ctxUtf8 | ctxSigned =>
    exact fun _ => rfl
  | _ => exact .oper hw

/-- Settles O1: `roundTrips`, by the element the operation is encoded at. -/
theorem decodeOfEncode : Obligations.DecodeOfEncode := roundTrips

/-! A decoded row is well formed and selected by the bits consumed alone. -/

/-- An arm of the number-of-types code is selected by its one bit. -/
theorem decodeNbltypes_ok {bs : List Bool} {i : Instr} {k : Nat} (h : decodeNbltypes bs = .ok (i, k)) :
    i.wf = true ∧ k ≤ bs.length ∧ k ≤ 1 ∧ ∀ more, decodeNbltypes (bs.take k ++ more) = .ok (i, k) := by
  unfold decodeNbltypes at h
  split at h <;> cases h
  · exact ⟨rfl, by simp, le_rfl, fun _ => rfl⟩
  · exact ⟨rfl, by simp, le_rfl, fun _ => rfl⟩

/-- An arm of `RLEMAX` is selected by its one bit. -/
theorem decodeRlemax_ok {len : Nat} {bs : List Bool} {i : Instr} {k : Nat} (hw : (Elem.rlemax len).wf = true)
    (h : decodeRlemax len bs = .ok (i, k)) :
    i.wf = true ∧ k ≤ bs.length ∧ k ≤ 1 ∧ ∀ more, decodeRlemax len (bs.take k ++ more) = .ok (i, k) := by
  unfold decodeRlemax at h
  split at h <;> cases h
  · exact ⟨hw, by simp, le_rfl, fun _ => rfl⟩
  · exact ⟨hw, by simp, le_rfl, fun _ => rfl⟩

/-- The row a symbol selects is selected whatever the stream bits are. -/
theorem decode_symbol_ok {alph : Alphabet} {v : Nat} {bs : List Bool} {i : Instr} {k : Nat}
    (h : decode (.symbol alph v) bs = .ok (i, k)) : symbolRow alph v = some i ∧ k = 0 := by
  rw [decode] at h
  split at h <;> cases h
  exact ⟨‹_›, rfl⟩

/-- The operation that is fixed is decoded only where it is well formed. -/
theorem decode_oper_ok {i j : Instr} {bs : List Bool} {k : Nat} (h : decode (.oper j) bs = .ok (i, k)) :
    i = j ∧ i.wf = true ∧ k = 0 := by
  rw [decode] at h
  split_ifs at h with hw
  cases h
  exact ⟨rfl, hw, rfl⟩

/-- Settles O2: what each element's part of the decoder answers. -/
theorem decodedRowsAreWellFormed : Obligations.DecodedRowsAreWellFormed := by
  intro e bs i k he h
  cases e with
  | wbits => exact decodeWbits_ok h
  | nbltypes => exact decodeNbltypes_ok h
  | rlemax len => exact decodeRlemax_ok he h
  | clclLen => exact decodeClclLen_ok h
  | desc a =>
    obtain ⟨hw, hrest⟩ := decodeDesc_ok h
    exact ⟨hw he, hrest⟩
  | symbol alph v =>
    obtain ⟨hr, rfl⟩ := decode_symbol_ok h
    exact ⟨symbolRow_wf he hr, Nat.zero_le _, le_rfl, decode_symbol hr⟩
  | oper j =>
    obtain ⟨rfl, hw, rfl⟩ := decode_oper_ok h
    exact ⟨hw, Nat.zero_le _, le_rfl, decode_oper hw⟩

/-! The words of the spec. -/

/-- A word that the encoder writes decodes to its operation. -/
theorem decode_of_encode_eq {i : Instr} {e : Elem} {bs : List Bool} (h : encode i = (e, bs)) (hw : i.wf = true) :
    decode e bs = .ok (i, bs.length) := by
  have hi := roundTrips i hw []
  rwa [h, List.append_nil] at hi

/-- Settles O3: the bit words are what the encoder writes for their operations, and each symbol selects its row. -/
theorem specWordsDecode : Obligations.SpecWordsDecode :=
  ⟨decode_of_encode_eq rfl rfl, decode_of_encode_eq rfl rfl, decode_of_encode_eq rfl rfl, decode_of_encode_eq rfl rfl,
    decode_of_encode_eq rfl rfl, decode_of_encode_eq rfl rfl, decode_of_encode_eq rfl rfl, decode_of_encode_eq rfl rfl,
    decode_of_encode_eq rfl rfl, decode_of_encode_eq rfl rfl, decode_symbol rfl [], decode_symbol rfl [],
    decode_symbol (symbolRow_bswitchAbs .L (by decide) (by decide)) [], decode_symbol rfl [],
    decode_symbol (symbolRow_cmVal (by decide) (by decide)) [],
    decode_symbol (symbolRow_dDirect 220 (by decide) (by decide)) [],
    decode_symbol (symbolRow_dLong (by decide) (by decide)) [], rfl⟩

end Sys2Proof
end

section
/-! SUPPORT. The statements about the bit reader (spec/40_bit_reader.md): `BITS` (O6), `ALIGN` and `RAWBYTE` (O7). -/

namespace Sys2Proof.Machine

/-! Fields (R120). -/

/-- The instruction `BITS(n)` reads the field at the position into the value latch (R120). -/
theorem readsField_bits {n : Nat} (hn : n ≤ 25) : readsField (.bits n) n keepVal :=
  fun _ h => complete_bits h hn keepVal

/-- Less than a byte is left over at a position (R122 (d)). -/
theorem readerAt_left_le (p : Ports) (pos : Nat) : (readerAt p pos).left ≤ 7 := by
  rw [readerAt_left]; omega

/-- The residual has no bit above those that are left (R122 (d)): it is the field of the bits left. -/
theorem readerAt_resid_lt (p : Ports) (pos : Nat) :
    (readerAt p pos).resid.toNat < 2 ^ (readerAt p pos).left := by
  rw [readerAt_resid]; exact field_lt ..

/-- Settles O6: `readsField_bits`, and the cursor at every position as `readerAt` gives it. -/
theorem bitsReadsAField : Obligations.BitsReadsAField :=
  ⟨fun _ => readsField_bits,
    fun s n => ⟨field_lt .., readerAt_left_le .., readerAt_resid_lt .., seek_pos s (s.pos + n)⟩⟩

/-! Byte boundaries (R121, R123). -/

/-- `ALIGN` by the test of R121. -/
theorem exec_align (s : State) : exec .align s =
    if s.rd.resid ≠ 0 then .next (s.takeFault (.invalid .nonZeroPadding))
    else .next { s with rd := { s.rd with left := 0, resid := 0 } } := by
  split_ifs with hz
  · exact complete_raised (align_nonzero hz)
  · exact complete_ok (align_ok (not_not.mp hz))

/-- `ALIGN` over zero bits moves the position to the next byte boundary. -/
theorem exec_align_seek {s : State} (h : s.onStream) (hz : s.rd.resid = 0) :
    exec .align s = .next (s.seek (8 * s.rd.inNext)) := complete_ok (align_boundary h hz)

/-- On a byte boundary there is no residual to discard and the position is the next byte's, so `ALIGN` changes nothing. -/
theorem exec_align_boundary {s : State} (h : s.onStream) (hl : s.rd.left = 0) : exec .align s = .next s := by
  obtain ⟨hrd, hpos⟩ := onS_boundary ⟨h, le_rfl⟩ hl
  rw [exec_align_seek h (congrArg Reader.resid hrd), ← hpos, seek_self h]

/-- On a byte boundary `RAWBYTE` is the fetch of R120. -/
theorem rawbyte_eq_fetchByte {s : State} (hl : s.rd.left = 0) : rawbyte s = fetchByte s := by
  simp only [rawbyte, run_get_bind, run_bind_ok (run_precondition_true hl _)]

/-- `RAWBYTE` on a byte boundary, by whether a byte is left (R123). -/
theorem exec_rawbyte {s : State} (hl : s.rd.left = 0) : exec .rawbyte s =
    if s.rd.inNext = s.ports.inLen ∨ s.ports.inLen < s.rd.inNext then .next (s.takeFault .prematureEof)
    else .next (keepVal (s.ports.input.get s.rd.inNext).toNat
      { s with rd := { s.rd with inNext := s.rd.inNext + 1 } }) := by
  have hraw := rawbyte_eq_fetchByte hl
  split_ifs with hend
  · exact complete_raised (hraw.trans (fetchByte_eof (by omega)))
  · exact complete_ok (hraw.trans (fetchByte_ok (by omega)))

/-- Settles O7: the two branches of `ALIGN`, its effect on a position of the stream, and `RAWBYTE`. -/
theorem alignAndRawbyte : Obligations.AlignAndRawbyte :=
  ⟨exec_align, fun _ => exec_align_seek, fun _ => exec_align_boundary, fun _ => exec_rawbyte⟩

end Sys2Proof.Machine
end

section
/-! SUPPORT. The statements about the codes of spec/41_prefix_code.md: tables and codewords (O16 to O18), simple forms
(O19), the code-length code and its symbols (O22, O23), descriptors (O20, O21, O24), and where the fetch stops (O5). -/

namespace Sys2Proof.Machine

/-! The table of a list of lengths, and reading with a table (R142 to R145). -/

/-- Settles O16: what `buildTable` lists, in what order, and when it is valid. -/
theorem buildMakesTheCanonicalTable : Obligations.BuildMakesTheCanonicalTable :=
  ⟨fun _ _ => rfl, fun lengths hle => ⟨by simp [buildTable], fun _ => count_buildTable lengths, fun _ => mem_buildTable hle,
    pairwise_buildTable lengths, over_buildTable hle⟩⟩

/-- Settles O17: `sym_codeword` as one step, and `isCodeword_unique`. -/
theorem symReadsACodeword : Obligations.SymReadsACodeword :=
  ⟨fun _ _ _ _ h hc hs => complete_ok (sym_codeword h hc hs), fun _ _ _ _ _ _ _ => isCodeword_unique⟩

/-- Settles O18: `sym_valid` as one step. -/
theorem symOnValidTables : Obligations.SymOnValidTables := by
  intro code s hv h
  rcases sym_valid hv h with ⟨v, word, hl, hm, hc, hs⟩ | ⟨hb, r, hr⟩
  · exact .inl ⟨v, word, hl, hm, hc, hs, complete_ok (sym_codeword h hc hs)⟩
  · exact .inr ⟨hb, r, complete_raised hr⟩

/-! The simple patterns (R150 to R154). -/

theorem sortAsc_pair (x y : Nat) : sortAsc [x, y] = [min x y, max x y] := by
  show insertAsc x [y] = _
  rw [insertAsc]
  split_ifs with hle
  · rw [min_eq_left hle, max_eq_right hle]
  · rw [min_eq_right (by omega), max_eq_left (by omega)]; rfl

theorem insertAsc_eq_orderedInsert (x : Nat) (l : List Nat) : insertAsc x l = l.orderedInsert (· ≤ ·) x := by
  induction l with
  | nil => rfl
  | cons y l ih => rw [insertAsc, List.orderedInsert, ih]

/-- The model's sort is Mathlib's. -/
theorem sortAsc_eq_insertionSort (l : List Nat) : sortAsc l = l.insertionSort (· ≤ ·) := by
  induction l with
  | nil => rfl
  | cons x l ih => rw [List.insertionSort_cons, ← ih, ← insertAsc_eq_orderedInsert]; rfl

theorem sortAsc_perm (l : List Nat) : (sortAsc l).Perm l := by
  rw [sortAsc_eq_insertionSort]
  exact l.perm_insertionSort (· ≤ ·)

/-- Distinct symbols of equal length are listed in strictly ascending order. -/
theorem pairwise_sortAsc {l : List Nat} (hl : l.Nodup) : (sortAsc l).Pairwise (· < ·) := by
  have hle : (sortAsc l).Pairwise (· ≤ ·) := by
    rw [sortAsc_eq_insertionSort]
    exact l.pairwise_insertionSort (· ≤ ·)
  exact hle.imp₂ (fun _ _ => lt_of_le_of_ne) ((sortAsc_perm l).nodup_iff.2 hl)

/-- The table of a simple descriptor's row is valid over its alphabet (R141). -/
theorem simpleResult_over {i : Instr} {a : Nat} {t : Table} (hw : i.wf = true) (hr : simpleResult i = some (a, t)) :
    t.over a = true := by
  have hlt : ∀ {l : List Nat}, simpleOk a l = true → ∀ v ∈ l, v < a := fun hw => by
    simp only [simpleOk, Bool.and_eq_true, List.all_eq_true, decide_eq_true_eq] at hw
    exact hw.1.2
  cases i <;> simp only [simpleResult, reduceCtorEq, Option.some.injEq, Prod.mk.injEq] at hr <;> obtain ⟨rfl, rfl⟩ := hr
  case simple1 => exact over_single (hlt hw _ (by simp))
  case simple2 => exact over_simple2 (hlt hw)
  case simple3 => exact over_simple3 (hlt hw)
  case simple4a => exact over_simple4a (hlt hw)
  case simple4b => exact over_simple4b (hlt hw)

/-- Settles O19: `sortAsc` on two and on four symbols, and `simpleResult_over`. -/
theorem simplePatterns : Obligations.SimplePatterns := by
  refine ⟨fun _ _ _ => rfl, fun _ s1 s2 s _ => ?_, fun _ s1 s2 s3 s _ => ?_, fun a s1 s2 s3 s4 s hw => ?_,
    fun _ s1 s2 s3 s4 s _ => ?_, fun _ _ _ => simpleResult_over⟩
  · rw [← sortAsc_pair]; rfl
  · rw [← sortAsc_pair]; rfl
  · simp only [Instr.wf, simpleOk, Bool.and_eq_true, decide_eq_true_eq] at hw
    exact ⟨sortAsc [s1, s2, s3, s4], sortAsc_perm _, pairwise_sortAsc hw.2, rfl⟩
  · rw [← sortAsc_pair]; rfl

/-! The code-length code, one step at a time (R156, R157). -/

/-- A row `CLCL.V1` to `CLCL.V5` by whether the sum is exceeded. -/
theorem complete_clclStep {v : Nat} (hv : v ≠ 0) (s : State) : ∀ t : State, t = { s with desc := { s.desc with
      cl := s.desc.cl.set (clclOrder.getD s.desc.pos 0) v, pos := s.desc.pos + 1, nz := s.desc.nz + 1
      space := s.desc.space - ((32 >>> v : Nat) : Int) } } →
    complete (clclStep v) keepNone s =
      if t.desc.space < 0 then .next (t.takeFault (.invalid .clcOverSubscribed)) else .next t := by
  rintro t rfl
  have hrun : clclStep v s = require (0 ≤ s.desc.space - ((32 >>> v : Nat) : Int)) (.invalid .clcOverSubscribed)
      { s with desc := { s.desc with
        cl := s.desc.cl.set (clclOrder.getD s.desc.pos 0) v, pos := s.desc.pos + 1, nz := s.desc.nz + 1
        space := s.desc.space - ((32 >>> v : Nat) : Int) } } := by
    rw [clclStep, run_modify_bind, if_pos hv]; rfl
  split_ifs with hlt
  · exact complete_raised (hrun.trans (run_require_false (not_le.2 hlt) _ _))
  · exact complete_ok (hrun.trans (run_require_true (not_lt.1 hlt) _ _))

/-- Settles O22: `clcl_run` as one step, and the rows by `complete_clclStep`. -/
theorem clclReadsLengths : Obligations.ClclReadsLengths := by
  refine ⟨fun s hskip vs h hh hr hs => ?_, fun s hskip vs h hh hv hg hsum hs => ?_, fun s p hp => ?_, fun _ => rfl⟩
  · obtain ⟨hv, hg, hn, hsum⟩ := hr
    exact complete_ok ((clcl_run hskip hh vs s h hv hg hs).2 hsum hn)
  · obtain ⟨t, ht⟩ := (clcl_run hskip hh vs s h hv hg hs).1 hsum
    exact ⟨t, complete_raised ht⟩
  · simp only [List.mem_cons, List.not_mem_nil, or_false] at hp
    rcases hp with rfl | rfl | rfl | rfl | rfl <;> exact complete_clclStep (by decide) s

/-! The code-length symbols (R160 to R163). -/

theorem repTotal_eq (rep e : Nat) : repTotal rep e = (if rep ≠ 0 then (rep - 2) * 4 else 0) + 3 + e := by
  rw [repTotal, Nat.shiftLeft_eq]

theorem zeroTotal_eq (zer e : Nat) : zeroTotal zer e = (if zer ≠ 0 then (zer - 2) * 8 else 0) + 3 + e := by
  rw [zeroTotal, Nat.shiftLeft_eq]

/-- A length, by whether it is 0 (R160). -/
theorem clLen_run (v : Nat) (s : State) : clLen v s = .ok ((), { s with desc := { s.desc with
    lens := s.desc.lens ++ [v], rep := 0, zer := 0
    lastLen := if v ≠ 0 then v else s.desc.lastLen
    room := if v ≠ 0 then s.desc.room - ((32768 >>> v : Nat) : Int) else s.desc.room } }) := by
  rw [clLen, run_modify_bind]
  split_ifs <;> rfl

/-- An operation that updates the registers and then asks for bits that are not there (R342). -/
theorem complete_update_bits_eof {s : State} {g : State → State} {n : Nat} {f : Nat → M Unit} (h : (g s).onStream)
    (hn : n ≤ 25) (hb : ¬ (g s).hasBits n) :
    ∃ t : State, complete (do modify g; let e ← bits n; f e) keepNone s = .next (t.takeFault .prematureEof) := by
  obtain ⟨r, hr⟩ := complete_bits_eof h hn hb f keepNone
  exact ⟨_, hr⟩

/-- A repeat that fits in the alphabet (R161). -/
theorem clRep_fits {s : State} (h : s.onStream) (hb : s.hasBits 2)
    (hfit : s.desc.lens.length + (repTotal s.desc.rep (s.nextField 2) - s.desc.rep) ≤ s.desc.alphabet) :
    clRep s = .ok ((), { s.seek (s.pos + 2) with desc := s.desc.take 16 (s.nextField 2) }) := by
  obtain ⟨hs, he⟩ := field_spelled hb
  exact clSymbol_run (v := 16) h he hs (by simpa [Desc.take] using hfit)

/-- A repeat beyond the alphabet (R161). -/
theorem clRep_tooMany {s : State} (h : s.onStream) (hb : s.hasBits 2)
    (hfit : s.desc.alphabet < s.desc.lens.length + (repTotal s.desc.rep (s.nextField 2) - s.desc.rep)) :
    ∃ t : State, clRep s = .error (.raised (t.takeFault (.invalid .tooManySymbols))) := by
  have hbits := bits_ok (s := { s with desc := { s.desc with zer := 0 } }) h (by decide) hb
  rw [clRep, run_modify_bind, run_bind_ok hbits]
  simp only [run_get_bind, run_modify_bind]
  exact ⟨_, run_bind_error (run_require_false (not_le.2 hfit) _ _)⟩

/-- A run of zeros that fits in the alphabet (R162). -/
theorem clZero_fits {s : State} (h : s.onStream) (hb : s.hasBits 3)
    (hfit : s.desc.lens.length + (zeroTotal s.desc.zer (s.nextField 3) - s.desc.zer) ≤ s.desc.alphabet) :
    clZero s = .ok ((), { s.seek (s.pos + 3) with desc := s.desc.take 17 (s.nextField 3) }) := by
  obtain ⟨hs, he⟩ := field_spelled hb
  exact clSymbol_run (v := 17) h he hs (by simpa [Desc.take] using hfit)

/-- A run of zeros beyond the alphabet (R162). -/
theorem clZero_tooMany {s : State} (h : s.onStream) (hb : s.hasBits 3)
    (hfit : s.desc.alphabet < s.desc.lens.length + (zeroTotal s.desc.zer (s.nextField 3) - s.desc.zer)) :
    ∃ t : State, clZero s = .error (.raised (t.takeFault (.invalid .tooManySymbols))) := by
  have hbits := bits_ok (s := { s with desc := { s.desc with rep := 0 } }) h (by decide) hb
  rw [clZero, run_modify_bind, run_bind_ok hbits]
  simp only [run_get_bind, run_modify_bind]
  exact ⟨_, run_bind_error (run_require_false (not_le.2 hfit) _ _)⟩

/-- Settles O23: each symbol by whether its extra bits are there and its run fits. -/
theorem codeLengthSymbols : Obligations.CodeLengthSymbols := by
  refine ⟨fun s v _ => complete_ok (clLen_run v s), fun s h hb => complete_update_bits_eof h (by decide) hb,
    fun s total h hb ht => ?_, fun s h hb => complete_update_bits_eof h (by decide) hb, fun s total h hb ht => ?_⟩
  · rw [← repTotal_eq] at ht
    subst ht
    exact ⟨fun hfit => complete_ok (clRep_fits h hb hfit),
      fun hfit => (clRep_tooMany h hb hfit).imp fun _ => complete_raised⟩
  · rw [← zeroTotal_eq] at ht
    subst ht
    exact ⟨fun hfit => complete_ok (clZero_fits h hb hfit),
      fun hfit => (clZero_tooMany h hb hfit).imp fun _ => complete_raised⟩

/-! Descriptors that the stream spells (R146 to R149). -/

/-- `SIMPLE` and `READ_CODE` after the two bits of a simple descriptor do the same (R146). -/
theorem exec_simple_or_readCode {s : State} {a : Nat} {p : Instr × List Bool} {l : List Bool} (h : s.onStream)
    (hp : p ∈ [(Instr.simple a, []), (.readCode a, bitsLE 2 1)]) (hs : s.spells (p.2 ++ l)) :
    ∃ u : State, u.onStream ∧ u.spells l ∧ exec p.1 s = complete (simple a) keepTable u := by
  simp only [List.mem_cons, List.not_mem_nil, or_false] at hp
  rcases hp with rfl | rfl
  · exact ⟨s, h, hs, rfl⟩
  · exact ⟨_, onStream_after (spells_left hs), spells_right hs,
      congrArg (fun r => complete (fun _ => r) keepTable s) (readCode_simple h (spells_left hs))⟩

/-- `COMPLEX` and `READ_CODE` after the two bits of a complex descriptor do the same (R146). -/
theorem exec_complex_or_readCode {s : State} {a hskip : Nat} {p : Instr × List Bool} {l : List Bool} (h : s.onStream)
    (hh : hskip = 0 ∨ hskip = 2 ∨ hskip = 3) (hp : p ∈ [(Instr.complex a hskip, []), (.readCode a, bitsLE 2 hskip)])
    (hs : s.spells (p.2 ++ l)) :
    ∃ u : State, u.onStream ∧ u.spells l ∧ exec p.1 s = complete (complex a hskip) keepTable u := by
  simp only [List.mem_cons, List.not_mem_nil, or_false] at hp
  rcases hp with rfl | rfl
  · exact ⟨s, h, hs, rfl⟩
  · exact ⟨_, onStream_after (spells_left hs), spells_right hs,
      congrArg (fun r => complete (fun _ => r) keepTable s) (readCode_complex h hh (spells_left hs))⟩

/-- Settles O20: what is spelled is read, and the two ways a simple descriptor stops. -/
theorem descriptorsAreRead : Obligations.DescriptorsAreRead := by
  refine ⟨fun s a t bits h hc hs => ?_, fun s i a t bits h hw hr hb hs => complete_ok (simple_of_result h hw hr hb hs),
    fun s a hskip t bits h hc hs => ?_, fun s a p h ha hp => ⟨fun n vs v hn hl hvs hv hlt hs => ?_,
      fun vs h1 h4 hvs hd hs => ?_⟩⟩
  · obtain ⟨d, hd⟩ := readCode_run h hc hs
    exact ⟨d, complete_ok hd⟩
  · obtain ⟨d, hd⟩ := complex_run h hc hs
    exact ⟨d, complete_ok hd⟩
  all_goals
    simp only [alphabetOk, Bool.and_eq_true, decide_eq_true_eq] at ha
    rw [List.append_assoc] at hs
    obtain ⟨u, hu, hsu, he⟩ := exec_simple_or_readCode h hp hs
    rw [he]
  · obtain ⟨t, ht⟩ := simple_out_of_range hu ha.2 hn hl hvs ⟨hv, hlt⟩ hsu
    exact ⟨t, complete_raised ht⟩
  · exact complete_refused (simple_repeated hu ha.2 ⟨h1, h4⟩ hvs hd hsu)

/-! Every complete code has a descriptor (R155 to R164): the plain one, which gives each length 0 to 15 four bits. -/

/-- The code-length code of a plain descriptor, in which the codeword of each length 0 to 15 is its four bits. -/
def plainClc : Table := buildTable (clOf 0 plainClcl)

theorem clclReads_plainClcl : clclReads 0 plainClcl := by
  unfold clclReads clclGoesOn
  decide

theorem clcOf_plainClcl : clcOf 0 plainClcl = some plainClc := by
  unfold clcOf
  rw [if_neg (by decide), if_pos (by decide), plainClc]

theorem plainClc_isCodeword {v : Nat} (hv : v ≤ 15) : plainClc.isCodeword v (codewordBits 4 v) := by
  have hfirst : plainClc.firstCode 3 + v = v := by rw [show plainClc.firstCode 3 = 0 by decide, Nat.zero_add]
  refine .inr ⟨by decide, 3, v, by decide, ?_, by rw [hfirst]; omega, ?_, by rw [hfirst]⟩
  · rw [show plainClc.count.getD (3 + 1) 0 = 16 by decide]; omega
  · revert v; decide

/-- A length that is not 0 counts in the Kraft sum. -/
theorem kraftOf_pos {ls : List Nat} {l : Nat} (hl : l ∈ ls) (h0 : l ≠ 0) : 0 < kraftOf ls := by
  have hle := List.single_le_sum (by simp) _ (List.mem_map_of_mem (f := fun l => if l = 0 then 0 else 2 ^ (15 - l)) hl)
  rw [if_neg h0] at hle
  exact lt_of_lt_of_le (by positivity) hle

/-- What `CL.LEN` leaves of the registers that stage 2 tests (R159, R160). -/
theorem Desc.take_length {d : Desc} {v : Nat} (hv : v ≤ 15) :
    (d.take v 0).lens = d.lens ++ [v] ∧ (d.take v 0).room = d.room - (kraftOf [v] : Int) := by
  by_cases h0 : v = 0
  · subst h0
    simp [Desc.take, kraftOf]
  · simp [Desc.take, kraftOf, show v < 16 by omega, h0, shift15 hv]

/-- Stage 2 with the plain code takes lengths that end with one that is not 0 and fill the room, each as its four bits. -/
theorem lengthsRead_plain : ∀ (ls : List Nat) (d : Desc), (∀ l ∈ ls, l ≤ 15) → (∀ h : ls ≠ [], ls.getLast h ≠ 0) →
    d.lens.length + ls.length ≤ d.alphabet → d.room = kraftOf ls →
    ∃ d', lengthsRead plainClc d (ls.flatMap (codewordBits 4)) d' ∧ d'.lens = d.lens ++ ls ∧ d'.room = 0
  | [], d, _, _, _, hroom => by
    have h0 : d.room = 0 := hroom
    exact ⟨d, .stop d fun hgo => by simp [Desc.goesOn, h0] at hgo, by simp, h0⟩
  | v :: ls, d, hle, hlast, hfit, hroom => by
    have hv : v ≤ 15 := hle v (by simp)
    obtain ⟨hlens, hroom'⟩ := Desc.take_length (d := d) hv
    rw [List.length_cons] at hfit
    have hgo : d.goesOn := by
      have hpos := kraftOf_pos (List.getLast_mem (List.cons_ne_nil v ls)) (hlast _)
      exact ⟨by omega, by omega⟩
    obtain ⟨d', hr, hl', h0⟩ := lengthsRead_plain ls (d.take v 0) (fun l hl => hle l (by simp [hl]))
      (fun h => by rw [← List.getLast_cons h]; exact hlast _) (by rw [hlens, Desc.take_alphabet]; simp; omega)
      (by rw [hroom', hroom, kraftOf_cons v ls, kraftOf_cons v []]; simp [kraftOf])
    refine ⟨d', ?_, by rw [hl', hlens]; simp, h0⟩
    have := lengthsRead.take d d' v 0 _ _ hgo (plainClc_isCodeword hv) (by positivity) (by rw [hlens]; simp; omega) hr
    rwa [show clExtra v = 0 from if_pos (by omega), bitsLE, List.append_nil] at this

/-- A list of lengths is its part up to the last that is not 0, and zeros. -/
theorem eq_rdropWhile_append_zeros (lengths : List Nat) :
    ∃ n, lengths = lengths.rdropWhile (fun l => l = 0) ++ List.replicate n 0 :=
  ⟨(lengths.rtakeWhile fun l => l = 0).length, by
    rw [← List.eq_replicate_of_mem fun l hl => by simpa using List.mem_rtakeWhile_imp hl,
      List.rdropWhile_append_rtakeWhile]⟩

/-- The plain descriptor of a complete code is a complex descriptor with its table. -/
theorem isComplex_plainComplex {lengths : List Nat} (hle : ∀ l ∈ lengths, l ≤ 15) (hk : kraftOf lengths = 2 ^ 15) :
    isComplex lengths.length 0 (buildTable lengths) (plainComplex lengths) := by
  obtain ⟨n, hn⟩ := eq_rdropWhile_append_zeros lengths
  have hlast := fun h => List.rdropWhile_last_not (fun l => decide (l = 0)) lengths h
  have hbits : plainComplex lengths = plainClcl.flatMap fixedCodeword ++
      (lengths.rdropWhile fun l => l = 0).flatMap (codewordBits 4) := rfl
  generalize lengths.rdropWhile (fun l => l = 0) = ls at hn hlast hbits
  subst hn
  rw [kraftOf_append, kraftOf_replicate, if_pos rfl, Nat.mul_zero, Nat.add_zero] at hk
  obtain ⟨d, hr, hlens, h0⟩ := lengthsRead_plain ls (.atStage2 (ls ++ List.replicate n 0).length 0 plainClcl plainClc)
    (fun l hl => hle l (by simp [hl])) (by simpa using hlast)
    (by simp [Desc.atStage2, Desc.afterClcl, Desc.start]) (by rw [hk]; rfl)
  refine ⟨plainClcl, plainClc, _, d, clclReads_plainClcl, clcOf_plainClcl, hr, h0, ?_, hbits⟩
  rw [hlens]
  simp [Desc.atStage2, Desc.afterClcl, Desc.start]

/-- Settles O21: the plain descriptor spells the table of its lengths, and what is spelled is read. -/
theorem everyCompleteCodeCanBeSent : Obligations.EveryCompleteCodeCanBeSent := by
  intro lengths hle hk s h
  have hc := isComplex_plainComplex hle hk
  refine ⟨fun hs => ?_, fun hs => ?_⟩
  · obtain ⟨d, hd⟩ := complex_run h hc hs
    exact ⟨d, complete_ok hd⟩
  · obtain ⟨d, hd⟩ := readCode_run h (.inr ⟨0, _, .inl rfl, hc, rfl⟩) hs
    rw [List.length_append, length_bitsLE, ← Nat.add_assoc] at hd
    exact ⟨d, complete_ok hd⟩

/-! What a descriptor gives whatever the stream holds (R141, R158, R164). -/

/-- An operation that gives a valid table or stops, as one step. -/
theorem complete_table {s t : State} {a : Nat} {op : M Table} (h : s.onStream)
    (hop : Triple (fun u => OnS s.pos u ∧ True) op (fun tbl u => OnS s.pos u ∧ True ∧ tbl.over a = true) Stops)
    (ht : complete op keepTable s = .next t) :
    (∃ u k, t = State.takeFault u k) ∨ (t.lat.tbl.over a = true ∧ t.onStream ∧ s.pos ≤ t.pos) := by
  have hs := hop s ⟨onS_self h, trivial⟩
  unfold complete at ht
  split at ht
  next tbl u hu =>
    cases ht
    rw [hu] at hs
    obtain ⟨⟨hon, hpos⟩, -, hover⟩ := hs
    exact .inr ⟨hover, hon, hpos⟩
  next u hu =>
    cases ht
    rw [hu] at hs
    obtain ⟨v, k, -, hv⟩ := hs
    exact .inl ⟨v, k, hv⟩
  all_goals cases ht

/-- Settles O24: the triples of the three readers, and the two ways a complex descriptor is `Invalid` at its end. -/
theorem descriptorsGiveValidTables : Obligations.DescriptorsGiveValidTables := by
  refine ⟨fun s t a hskip i h ha hi ht => ?_, fun s a hskip vs p h hh hr hp => ⟨fun hc hs => ?_,
    fun clc rest d hc hd hroom hs => ?_⟩⟩
  · simp only [alphabetOk, Bool.and_eq_true, decide_eq_true_eq] at ha
    simp only [List.mem_cons, List.not_mem_nil, or_false] at hi
    rcases hi with rfl | rfl | rfl
    · exact complete_table h (readCode_triple freeDesc_true ha.2) ht
    · exact complete_table h (simple_triple freeDesc_true.rd ha.2) ht
    · exact complete_table h (complex_triple freeDesc_true a hskip) ht
  · obtain ⟨u, hu, hsu, he⟩ := exec_complex_or_readCode h hh hp hs
    obtain ⟨v, hv⟩ := complex_clcIncomplete hu (by omega) hr hc hsu
    exact ⟨v, he.trans (complete_raised hv)⟩
  · rw [List.append_assoc] at hs
    obtain ⟨u, hu, hsu, he⟩ := exec_complex_or_readCode h hh hp hs
    obtain ⟨v, hv⟩ := complex_notComplete hu (by omega) hr hc hd hroom hsu
    exact ⟨v, he.trans (complete_raised hv)⟩

/-! Where the fetch finds no operation (R148, R149, R342, R385). -/

/-- A fetch that raises a result is the whole step. -/
theorem step_fetch_raised {s t : State} (h : fetch s = .error (.raised t)) : step s = .next t := by rw [step, h]

theorem step_fetch_refused {s : State} {r : Refusal} (h : fetch s = .error (.refused r)) : step s = .refused r := by
  rw [step, h]

/-- Settles O5: the bits looked at are those of `lookahead_eq`, and each error of the decoder stops the fetch its way. -/
theorem stepStopsWhereNothingDecodes : Obligations.StepStopsWhereNothingDecodes := by
  refine ⟨fun _ => step_done, fun s e h he => ?_⟩
  rw [← lookahead_eq h]
  exact ⟨fun hd => step_fetch_raised (fetch_needMoreBits he hd),
    fun hd => step_fetch_raised (fetch_symbolOutOfRange he hd),
    fun hd => step_fetch_refused (fetch_repeatedSymbol he hd)⟩

end Sys2Proof.Machine
end

section
/-! SUPPORT. The statements about the headers of spec/42_metablock.md and about the sequencer: the window forms (O9), the
fields of a meta-block header (O10, O11), bytes that are skipped (O12) and copied (O13), the end of the stream (O52), one
step (O4) and the transitions (O51). -/

namespace Sys2Proof.Machine

/-! Operations made of parts, as one step. -/

/-- An operation whose first part completes. -/
theorem complete_bind_ok {α β : Type} {x : M α} {f : α → M β} {keep : β → State → State} {s s' : State} {a : α}
    (h : x s = .ok (a, s')) : complete (x >>= f) keep s = complete (f a) keep s' := by
  simp only [complete, run_bind_ok h]

/-- An operation whose first part raises. -/
theorem complete_bind_raised {α β : Type} {x : M α} {f : α → M β} {keep : β → State → State} {s s' : State}
    (h : x s = .error (.raised s')) : complete (x >>= f) keep s = .next s' := complete_raised (run_bind_error h)

/-- An operation that begins by looking at the state. -/
theorem complete_get_bind {β : Type} (f : State → M β) (keep : β → State → State) (s : State) :
    complete (get >>= f) keep s = complete (f s) keep s := rfl

/-- An operation that begins by writing a register. -/
theorem complete_modify_bind {β : Type} (g : State → State) (f : PUnit → M β) (keep : β → State → State) (s : State) :
    complete (modify g >>= f) keep s = complete (f ⟨⟩) keep (g s) := rfl

/-- A condition that a rule requires, and what follows where it holds. -/
theorem complete_require_bind {β : Type} (c : Prop) [Decidable c] (k : Result) (f : Unit → M β) (keep : β → State → State)
    (s : State) : complete (require c k >>= f) keep s =
      if c then complete (f ()) keep s else .next (s.takeFault k) := by
  split_ifs with hc
  · exact complete_bind_ok (run_require_true hc k s)
  · exact complete_bind_raised (run_require_false hc k s)

/-- A condition that a rule requires, at the end of an operation. -/
theorem complete_require (c : Prop) [Decidable c] (k : Result) (s : State) :
    complete (require c k) keepNone s = if c then .next s else .next (s.takeFault k) := by
  split_ifs with hc
  · exact complete_ok (run_require_true hc k s)
  · exact complete_raised (run_require_false hc k s)

/-! The stream header (R180). -/

/-- Every window size has a form of `WBITS` that selects it. -/
theorem exists_wbits_form {w : Nat} (h10 : 10 ≤ w) (h24 : w ≤ 24) : ∃ i : Instr, i.wf = true ∧ (encode i).1 = .wbits ∧
    ∀ s, exec i s = .next { s with wbits := w, ctl := .mbStart } := by
  rcases (by omega : w ≤ 15 ∨ w = 16 ∨ w = 17 ∨ 18 ≤ w) with h15 | rfl | rfl | h18
  · obtain ⟨c, rfl⟩ := Nat.exists_eq_add_of_le (show 8 ≤ w by omega)
    exact ⟨.wbits10to15 c, by simp only [Instr.wf, Bool.and_eq_true, decide_eq_true_eq]; omega, rfl, fun _ => rfl⟩
  · exact ⟨.wbits16, rfl, rfl, fun _ => rfl⟩
  · exact ⟨.wbits17, rfl, rfl, fun _ => rfl⟩
  · obtain ⟨b, rfl⟩ := Nat.exists_eq_add_of_le (show 17 ≤ w by omega)
    exact ⟨.wbits18to24 b, by simp only [Instr.wf, Bool.and_eq_true, decide_eq_true_eq]; omega, rfl, fun _ => rfl⟩

/-- Settles O9: the five forms as their arms of `exec` give them, and the bits of the form that `exists_wbits_form` finds. -/
theorem windowForms : Obligations.WindowForms := by
  refine ⟨fun _ => rfl, fun _ _ => rfl, fun _ => rfl, fun _ => rfl, fun _ _ => rfl,
    fun s => by rw [State.wsize, Nat.one_shiftLeft], fun w h10 h24 => ?_⟩
  obtain ⟨i, hw, hi, he⟩ := exists_wbits_form h10 h24
  have hd := decodeOfEncode i hw []
  rw [hi, List.append_nil] at hd
  exact ⟨i, (encode i).2, hd, he⟩

/-! One step (R181, R100). -/

/-- The row that bits select is selected whatever follows them, and the fetch looks at all of them (R100). -/
theorem decode_selecting {e : Elem} {bs : List Bool} {i : Instr} {k : Nat} (h : decode e bs = .ok (i, k)) :
    k ≤ e.maxBits ∧ ∀ rest, decode e (bs.take k ++ rest) = .ok (i, k) := by
  cases e with
  | wbits => exact (decodeWbits_ok h).2.2
  | nbltypes => exact (decodeNbltypes_ok h).2.2
  | rlemax len =>
    match bs, h with
    | false :: _, h => cases h; exact ⟨le_rfl, fun _ => rfl⟩
    | true :: _, h => cases h; exact ⟨le_rfl, fun _ => rfl⟩
  | clclLen => exact (decodeClclLen_ok h).2.2
  | desc a => exact (decodeDesc_ok h).2.2
  | symbol alph v =>
    obtain ⟨hr, rfl⟩ := decode_symbol_ok h
    exact ⟨le_rfl, decode_symbol hr⟩
  | oper j =>
    obtain ⟨rfl, hw, rfl⟩ := decode_oper_ok h
    exact ⟨le_rfl, decode_oper hw⟩

/-- Settles O4: what the fetch looks at begins with the bits that select the row. -/
theorem stepRunsDecodedInstruction : Obligations.StepRunsDecodedInstruction := by
  intro s e i k h he hb hd
  obtain ⟨hk, hsel⟩ := decode_selecting hd
  obtain ⟨rest, hl⟩ := hasBits_lookahead h hb hk
  have hlook := hsel rest
  rw [State.nextBits, take_streamBits _ _ _ _ le_rfl, ← State.nextBits, ← hl] at hlook
  rewrite [step, fetch_ok h he hb hlook]
  rfl

/-! The control-state machine (R181). -/

/-- With nothing left to fetch, the next operation is the first of the control state. -/
theorem nextElem_entry {s : State} (ht : s.todo = []) : s.nextElem = s.ctl.entry := by
  rw [State.nextElem, ht]
  split_ifs with hc
  · rw [hc]; rfl
  · rfl

/-- Going on with one of two operations. -/
theorem goOn_ite (s : State) (c : Prop) [Decidable c] (i j : Instr) : (if c then s.goOn [i] else s.goOn [j]) =
    { s with todo := (if c then .oper i else .oper j) :: s.todo } := by
  split_ifs <;> rfl

/-- Settles O51: in a run that has not ended `advance` is its arm for the operation. -/
theorem controlTransitions : Obligations.ControlTransitions := by
  refine ⟨fun _ => rfl, fun s ht => ?_, fun s hc => ⟨if_neg hc, if_neg hc, (if_neg hc).trans (goOn_ite ..), if_neg hc,
    if_neg hc, fun _ => if_neg hc, fun _ => if_neg hc, fun _ => (if_neg hc).trans (goOn_ite ..),
    (if_neg hc).trans (goOn_ite ..), if_neg hc, if_neg hc, fun i hi => ?_, if_neg hc, if_neg hc⟩⟩
  · rw [nextElem_entry ht]
    cases s.ctl <;> rfl
  · simp only [List.mem_cons, List.not_mem_nil, or_false] at hi
    rcases hi with rfl | rfl
    · exact if_neg hc
    · exact if_neg hc

/-! The meta-block header, one field at a time (R182 to R197). -/

/-- An operation that reads one field and goes on without another. -/
theorem readsField_of_bits {i : Instr} {n : Nat} {β : Type} {f : Nat → M β} {keep : β → State → State}
    {g : Nat → State → State} (hn : n ≤ 25) (he : ∀ s, exec i s = complete (bits n >>= f) keep s)
    (hf : ∀ v s, complete (f v) keep s = .next (g v s)) : readsField i n g := fun s h =>
  ⟨fun hb => by rw [he, complete_bits_ok h hn hb, hf], fun hb => he s ▸ complete_bits_eof h hn hb f keep⟩

/-- An entry that is written reads back, and the entries written before it stay. -/
theorem putEntry_getElem? {l : List CtxMode} {t : Nat} (m : CtxMode) (ht : t ≤ l.length) :
    (putEntry .lsb6 l t m)[t]? = some m ∧ ∀ u, u < l.length → u ≠ t → (putEntry .lsb6 l t m)[u]? = l[u]? := by
  unfold putEntry
  split_ifs with hlt
  · exact ⟨by simp [hlt], fun u _ hut => List.getElem?_set_ne (Ne.symm hut)⟩
  · obtain rfl : t = l.length := by omega
    simp only [Nat.sub_self, List.replicate_zero, List.append_nil]
    exact ⟨by simp, fun u hu _ => List.getElem?_append_left hu⟩

/-- Settles O10: each operation is one request and an update, or a test, of its value. -/
theorem headerFields : Obligations.HeaderFields := by
  refine ⟨readsField_of_bits (by decide) (fun _ => rfl) fun _ _ => rfl, fun _ h => complete_bits h (by decide) keepVal,
    fun _ h => complete_bits h (by decide) keepVal, fun _ h => complete_bits h (by decide) keepVal,
    readsField_of_bits (by decide) (fun _ => rfl) fun v s => ?_, fun _ h => complete_bits h (by decide) keepVal,
    readsField_of_bits (by decide) (fun _ => rfl) fun _ _ => rfl,
    readsField_of_bits (by decide) (fun _ => rfl) fun _ _ => rfl, fun _ _ => rfl,
    fun _ => readsField_of_bits (by decide) (fun _ => rfl) fun _ _ => rfl, fun _ _ m ht => putEntry_getElem? m ht⟩
  rw [complete_require, ite_not, apply_ite Host.Outcome.next]

/-- `MLEN` with all its nibbles there: the test of the top nibble, then the capacity of the mode (R186). -/
theorem exec_mlen {s t : State} {nn : Nat} (h6 : nn ≤ 6) (h : s.onStream) (hb : s.hasBits (4 * nn))
    (ht : t = { s.seek (s.pos + 4 * nn) with mlen := s.nextField (4 * nn) + 1 }) : exec (.mlen nn) s =
      if ¬ (4 < nn ∧ s.nextField (4 * nn) >>> (4 * (nn - 1)) = 0) then
        if t.fits t.mlen = true then .next t
        else .next (t.takeFault (if t.compare then .compareMismatch else .outOfMemory))
      else .next ((s.seek (s.pos + 4 * nn)).takeFault (.invalid .moreNibbles)) := by
  subst ht
  exact (complete_bits_ok h (by omega) hb ..).trans
    ((complete_require_bind ..).trans (if_congr Iff.rfl (complete_require ..) rfl))

/-- A test that a sum stays within a bound, written as the test that it does not. -/
theorem ite_le_eq_ite_lt {α : Type} (a b : Nat) (x y : α) : (if a ≤ b then x else y) = if b < a then y else x := by
  rw [← ite_not]
  simp only [not_le]

/-- Settles O11: `exec_mlen`, with the capacity test of each mode. -/
theorem mlenReadsNibbles : Obligations.MlenReadsNibbles := by
  intro s nn _ h6 h
  refine ⟨fun hb => complete_bits_eof h (by omega) hb .., fun hb t ht => ?_⟩
  rw [exec_mlen h6 h hb ht]
  have hcmp : t.compare = s.compare := ht ▸ rfl
  have hgot : t.got = s.got := ht ▸ rfl
  have hhave : t.haveLen = s.haveLen := ht ▸ rfl
  have hports : t.ports = s.ports := ht ▸ rfl
  refine ⟨fun htop => if_neg (not_not.2 htop), fun htop => ?_⟩
  rw [if_pos htop, State.fits, hcmp, hgot, hhave, hports]
  refine ⟨fun hc => ?_, fun hc hcap => ?_, fun hc cap hcap => ?_⟩
  · simp only [hc, if_true, decide_eq_true_eq, ite_le_eq_ite_lt]
  · simp [hc, hcap]
  · simp [hc, hcap, ite_le_eq_ite_lt]

/-! Bytes that are skipped (R124, R189, R190). -/

/-- `META.SKIP` over zero padding, by whether the bytes are there (R190). -/
theorem exec_metaSkip {s : State} (h : s.onStream) (hz : s.rd.resid = 0) (k : Nat) : exec (.metaSkip k) s =
    if s.ports.inLen - s.rd.inNext < k then .next ((s.seek (8 * s.rd.inNext)).takeFault .prematureEof)
    else .next (s.seek (8 * (s.rd.inNext + k))) := by
  have halign : metaSkip k s = skip k (s.seek (8 * s.rd.inNext)) := run_bind_ok (align_boundary h hz)
  split_ifs with hk
  · exact complete_raised (halign.trans (skip_seek_eof _ k hk))
  · exact complete_ok (halign.trans (skip_seek _ k (not_lt.1 hk)))

/-- `SKIP` on a byte boundary, by whether the bytes are there (R124). -/
theorem exec_skip {s : State} (hl : s.rd.left = 0) (k : Nat) : exec (.skip k) s =
    if s.ports.inLen - s.rd.inNext < k then .next (s.takeFault .prematureEof)
    else .next { s with rd := { s.rd with inNext := s.rd.inNext + k } } := by
  have hrun := skip_run hl k
  split_ifs at hrun ⊢
  · exact complete_raised hrun
  · exact complete_ok hrun

/-- Settles O12: the test of the top byte after the field of `MSKIPLEN`, and the two ways of skipping bytes. -/
theorem skipForms : Obligations.SkipForms := by
  refine ⟨fun _ => rfl, fun sb h1 h3 => ?_, fun _ k hl => exec_skip hl k,
    fun _ _ hz => complete_bind_raised (align_nonzero hz), fun _ k h hz => exec_metaSkip h hz k⟩
  obtain ⟨n, rfl⟩ := Nat.exists_eq_add_of_le' h1
  refine readsField_of_bits (by omega) (fun _ => rfl) fun v s => ?_
  refine (complete_get_bind ..).trans ((complete_require_bind ..).trans ?_)
  rw [ite_not, apply_ite Host.Outcome.next]
  rfl

/-! Bytes that are copied (R187). -/

/-- One byte read from a boundary. -/
theorem rawbyte_seek {s : State} {a : Nat} (ha : a < s.ports.inLen) :
    rawbyte (s.seek (8 * a)) = .ok (s.ports.input.get a, s.seek (8 * (a + 1))) := by
  have hr := readerAt_boundary s.ports a
  rw [rawbyte_eq_fetchByte (by rw [seek_rd, hr]), fetchByte_ok (by rw [seek_rd, hr]; exact ha)]
  simp only [State.seek, hr, readerAt_boundary]

/-- The bytes of a space from an address on, the first apart. -/
theorem bytes_succ (m : Mem) (a n : Nat) : m.bytes a (n + 1) = m.get a :: m.bytes (a + 1) n := by
  simp only [Mem.bytes, List.range_succ_eq_map, List.map_cons, Nat.add_zero, List.map_map]
  congr 1
  exact List.map_congr_left fun i _ => by simp [Nat.add_assoc, Nat.add_comm 1 i]

/-- The loop of R187 on bytes that are all accepted. -/
theorem rawLoop_ok : ∀ (k a : Nat) {s : State}, s.mlen = k → a + k ≤ s.ports.inLen →
    s.accepts (s.ports.input.bytes a k) → rawLoop k (s.seek (8 * a)) =
      .ok ((), { (s.seek (8 * (a + k))).withOutput (s.ports.input.bytes a k) with mlen := 0 })
  | 0, a, s, hm, _, _ => by
    rw [rawLoop, run_pure, show s.ports.input.bytes a 0 = [] from rfl, withOutput_nil, Nat.add_zero, ← hm]
    rfl
  | k + 1, a, s, hm, hk, ha => by
    rw [bytes_succ] at ha ⊢
    obtain ⟨h1, h2⟩ := accepts_cons.1 ha
    have ih := rawLoop_ok k (a + 1) (s := { s.withOutput [s.ports.input.get a] with mlen := s.mlen - 1 })
      (by simp [hm]) (show a + 1 + k ≤ s.ports.inLen by omega) h2
    rw [Nat.add_assoc, Nat.add_comm 1 k] at ih
    rw [rawLoop, run_bind_ok (rawbyte_seek (by omega)), run_bind_ok (emit_ok (s := s.seek _) h1), run_modify_bind]
    exact ih.trans (congrArg (fun u : State => Except.ok ((), { u with mlen := 0 }))
      (withOutput_append (s.seek (8 * (a + (k + 1)))) [_] _))

/-- The loop of R187 up to the first byte that differs. -/
theorem rawLoop_differs : ∀ (k a : Nat) {s : State} {j : Nat}, a + k ≤ s.ports.inLen →
    s.differsAt (s.ports.input.bytes a k) j → ∃ u : State,
      rawLoop k (s.seek (8 * a)) = .error (.raised (u.takeFault .compareMismatch)) ∧ u.got = s.got + j ∧ u.out = s.out
  | 0, _, _, _, _, hd => absurd hd.2.1 (Nat.not_lt_zero _)
  | k + 1, a, s, j, hk, hd => by
    rw [bytes_succ] at hd
    have hraw := rawbyte_seek (s := s) (a := a) (by omega)
    cases j with
    | zero =>
      have hne := not_acceptsAt_of_differsAt_zero hd
      exact ⟨_, (run_bind_ok hraw).trans (run_bind_error (emit_differs (s := s.seek _) hne)), rfl, rfl⟩
    | succ j =>
      obtain ⟨h1, h2⟩ := differsAt_succ hd
      obtain ⟨u, hu, hgot, hout⟩ := rawLoop_differs k (a + 1)
        (s := { s.withOutput [s.ports.input.get a] with mlen := s.mlen - 1 }) (show a + 1 + k ≤ s.ports.inLen by omega) h2
      refine ⟨u, ?_, hgot.trans (Nat.add_right_comm ..), hout.trans (if_pos (compare_of_differsAt hd))⟩
      rw [rawLoop, run_bind_ok hraw, run_bind_ok (emit_ok (s := s.seek _) h1), run_modify_bind]
      exact hu

/-- `RAWCOPY` over zero padding is its loop on the next byte boundary, if the bytes are there (R187). -/
theorem rawcopy_run {s : State} (h : s.onStream) (hz : s.rd.resid = 0) (hk : s.mlen ≤ s.ports.inLen - s.rd.inNext) :
    rawcopy s = rawLoop s.mlen (s.seek (8 * s.rd.inNext)) := by
  rw [rawcopy, run_bind_ok (align_boundary h hz), run_get_bind, run_bind_ok (run_require_true _ _ _)]
  · rfl
  · rwa [seek_rd, readerAt_boundary]

/-- `RAWCOPY` over zero padding with too few bytes left (R187). -/
theorem rawcopy_eof {s : State} (h : s.onStream) (hz : s.rd.resid = 0) (hk : s.ports.inLen - s.rd.inNext < s.mlen) :
    rawcopy s = .error (.raised ((s.seek (8 * s.rd.inNext)).takeFault .prematureEof)) := by
  rw [rawcopy, run_bind_ok (align_boundary h hz), run_get_bind, run_bind_error (run_require_false _ _ _)]
  rw [seek_rd, readerAt_boundary]
  exact not_le.2 hk

/-- The bytes begun are bytes of the input (R21). -/
theorem onStream_inNext_le {s : State} (h : s.onStream) : s.rd.inNext ≤ s.ports.inLen := by
  have hle := h.2
  rw [onStream_inNext h]
  omega

/-- Settles O13: the two tests of `RAWCOPY`, then its loop on bytes that are all accepted or up to the first that is not. -/
theorem rawcopyCopiesTheInput : Obligations.RawcopyCopiesTheInput := by
  intro s h
  have hle := onStream_inNext_le h
  refine ⟨fun hz => complete_bind_raised (align_nonzero hz), fun hz hk => complete_raised (rawcopy_eof h hz hk),
    fun hz hk ha => complete_ok ((rawcopy_run h hz hk).trans (rawLoop_ok _ _ rfl (by omega) ha)), fun hz hk j hd => ?_⟩
  obtain ⟨u, hu, hgot, hout⟩ := rawLoop_differs s.mlen s.rd.inNext (by omega) hd
  exact ⟨u, complete_raised ((rawcopy_run h hz hk).trans hu), hgot, hout⟩

/-! The end of the stream (R213). -/

/-- Settles O52: aligning, then the test of the length. -/
theorem streamEndSettled : Obligations.StreamEnd := by
  intro s h
  refine ⟨fun hz => complete_bind_raised (align_nonzero hz), fun hz hc hg => complete_raised ?_,
    fun hz hg => complete_ok (a := ()) ?_⟩
  · rw [streamEnd, run_bind_ok (align_boundary h hz), run_get_bind]
    exact run_bind_error (run_require_false (not_not.2 ⟨hc, hg⟩) _ _)
  · have hrd : (s.seek (8 * s.rd.inNext)).rd.inNext = s.rd.inNext := by rw [seek_rd, readerAt_boundary]
    rw [streamEnd, run_bind_ok (align_boundary h hz), run_get_bind]
    refine (run_bind_ok (run_require_true (not_and.2 fun hc => not_not.2 (hg hc)) _ _)).trans ?_
    rw [run_modify, hrd]

end Sys2Proof.Machine
end

section
/-! SUPPORT. The statements about the compressed meta-block header (spec/42_metablock.md sections 3 and 4): the counts and
maps (O14), the banks and the whole header (O15). -/

namespace Sys2Proof.Machine

variable {α β : Type}

/-! Parts read one after another. -/

/-- The state at stream position `q` with the registers of a descriptor and of a map set. -/
def State.reading (u : State) (q : Nat) (d : Desc) (c : MapRegs) : State := { u.seek q with desc := d, cmr := c }

/-- Wherever the stream spells `bits`, the operation reads them, answers `a` and takes the state from `u` to `u'`, but for the
registers of a descriptor and of a map. -/
def Reads (bits : List Bool) (op : M α) (u : State) (a : α) (u' : State) : Prop :=
  u'.ports = u.ports ∧ ∀ q d c, (u.seek q).spells bits →
    ∃ d' c', op (u.reading q d c) = .ok (a, u'.reading (q + bits.length) d' c')

theorem reading_pos (u : State) (q : Nat) (d : Desc) (c : MapRegs) : (u.reading q d c).pos = q := readerAt_pos u.ports q

/-- What the stream spells at a position depends on the ports alone. -/
theorem spells_of_ports {u u' : State} (h : u'.ports = u.ports) {q : Nat} {l : List Bool} (hs : (u.seek q).spells l) :
    (u'.seek q).spells l := by
  unfold State.spells State.hasBits State.nextBits at hs ⊢
  simpa only [seek_pos, seek_ports, h] using hs

/-- A position at which the stream spells something is within the stream. -/
theorem onStream_of_spells {u : State} {q : Nat} {l : List Bool} (hs : (u.seek q).spells l) : (u.seek q).onStream := by
  have hb := hs.1
  unfold State.hasBits at hb
  rw [seek_pos, seek_ports] at hb
  exact onStream_seek (by omega)

/-- A state on the stream is one that is reading there. -/
theorem reading_self {s : State} (h : s.onStream) : s.reading s.pos s.desc s.cmr = s := seek_self h

namespace Reads

variable {bits l1 l2 : List Bool} {u u' u'' : State} {a : α} {b : β}

theorem bind {x : M α} {f : α → M β} (hx : Reads l1 x u a u') (hf : Reads l2 (f a) u' b u'') :
    Reads (l1 ++ l2) (x >>= f) u b u'' := by
  refine ⟨hf.1.trans hx.1, fun q d c hs => ?_⟩
  obtain ⟨d1, c1, e1⟩ := hx.2 q d c (spells_left hs)
  have hs2 := spells_right hs
  rw [seek_pos, seek_seek] at hs2
  obtain ⟨d2, c2, e2⟩ := hf.2 (q + l1.length) d1 c1 (spells_of_ports hx.1 hs2)
  exact ⟨d2, c2, by rw [run_bind_ok e1, e2, List.length_append, Nat.add_assoc]⟩

/-- An operation that answers without reading. -/
theorem pure : Reads [] (Pure.pure a) u a u := ⟨rfl, fun _ d c _ => ⟨d, c, rfl⟩⟩

/-- An operation that goes on from what it finds in the state. -/
theorem get_bind {f : State → M β} (hf : ∀ q d c, Reads bits (f (u.reading q d c)) u b u') :
    Reads bits (get >>= f) u b u' := ⟨(hf 0 u.desc u.cmr).1, fun q d c => (hf q d c).2 q d c⟩

/-- An operation that ends by writing a register. -/
theorem update {g : State → State} (hp : u'.ports = u.ports)
    (hg : ∀ q d c, g (u.reading q d c) = u'.reading q d c) : Reads [] (modify g : M PUnit) u ⟨⟩ u' :=
  ⟨hp, fun q d c _ => ⟨d, c, congrArg (fun t => Except.ok (PUnit.unit, t)) (hg q d c)⟩⟩

/-- An operation that writes a register and goes on. -/
theorem update_bind {g : State → State} {f : PUnit → M β} (hp : u'.ports = u.ports)
    (hg : ∀ q d c, g (u.reading q d c) = u'.reading q d c) (hf : Reads bits (f ⟨⟩) u' b u'') :
    Reads bits (modify g >>= f) u b u'' := (update hp hg).bind hf

/-- One step of an operation that reads what the stream spells. -/
theorem exec_next {s : State} {op : M Unit} (hr : Reads bits op s () u') (h : s.onStream) (hs : s.spells bits) :
    ∃ d c, op s = .ok ((), u'.reading (s.pos + bits.length) d c) := by
  have hrun := hr.2 s.pos s.desc s.cmr ((seek_self h).symm ▸ hs)
  rwa [reading_self h] at hrun

end Reads

/-! The parts of the header (R192). -/

theorem reads_bits {n e : Nat} (u : State) (hn : n ≤ 25) (he : e < 2 ^ n) : Reads (bitsLE n e) (bits n) u e u :=
  ⟨rfl, fun q d c hs => ⟨d, c, by
    rw [bits_spelled (s := u.reading q d c) (onStream_of_spells hs) hn he hs, reading_pos, length_bitsLE]; rfl⟩⟩

theorem reads_nbltypes {n : Nat} {l : List Bool} (u : State) (h : isCount n l) : Reads l nbltypes u n u :=
  ⟨rfl, fun q d c hs => ⟨d, c, by
    rw [nbltypes_run (s := u.reading q d c) (onStream_of_spells hs) h hs, reading_pos]; rfl⟩⟩

theorem reads_blkdesc {b : Block} {l : List Bool} (u : State) (c : Cat) (h : isBlkdesc b l) :
    Reads l (blkdesc c) u () (u.setBlk c b) := by
  refine ⟨setBlk_ports u c b, fun q d m hs => ?_⟩
  obtain ⟨d', hd⟩ := blkdesc_run (s := u.reading q d m) (c := c) (onStream_of_spells hs) h hs
  refine ⟨d', m, hd.trans ?_⟩
  rw [reading_pos]
  cases c <;> rfl

theorem reads_cmap {len trees : Nat} {m : List Nat} {l : List Bool} (u : State) (h : isMap len trees m l) :
    Reads l (cmap len trees) u m u := by
  refine ⟨rfl, fun q d c hs => ?_⟩
  obtain ⟨d', c', hd⟩ := cmap_run (s := u.reading q d c) (onStream_of_spells hs) h hs
  exact ⟨d', c', hd.trans (by rw [reading_pos]; rfl)⟩

theorem reads_readCode {a : Nat} {t : Table} {l : List Bool} (u : State) (h : isDescriptor a t l) :
    Reads l (readCode a) u t u := by
  refine ⟨rfl, fun q d c hs => ?_⟩
  obtain ⟨d', hd⟩ := readCode_run (s := u.reading q d c) (onStream_of_spells hs) h hs
  exact ⟨d', c, hd.trans (by rw [reading_pos]; rfl)⟩

/-- A row of descriptors (R200). -/
theorem reads_readCodes {a : Nat} (u : State) : ∀ {ts : List Table} {n : Nat} {l : List Bool}, ts.length = n →
    isBank a ts l → Reads l (readCodes a n) u ts u
  | [], _, _, rfl, h => h ▸ Reads.pure
  | t :: ts, _, _, rfl, ⟨b, r, ht, hr, hl⟩ => by
    rw [hl, ← List.append_nil r]
    exact (reads_readCode u ht).bind
      ((reads_readCodes u rfl hr).bind (f := fun rest => Pure.pure (t :: rest)) Reads.pure)

theorem reads_ntreesl {u : State} {n : Nat} {m : List Nat} {b1 b2 : List Bool} (hn : isCount n b1)
    (hm : isMap (64 * u.blkL.num) n m b2) : Reads (b1 ++ b2) ntreesl u () { u with litCodes := n, litMap := m } := by
  refine (reads_nbltypes u hn).bind (Reads.update_bind (u' := { u with litCodes := n }) rfl (fun _ _ _ => rfl) ?_)
  rw [← List.append_nil b2]
  exact Reads.get_bind fun _ _ _ => (reads_cmap _ hm).bind (Reads.update rfl fun _ _ _ => rfl)

theorem reads_ntreesd {u : State} {n : Nat} {m : List Nat} {b1 b2 : List Bool} (hn : isCount n b1)
    (hm : isMap (4 * u.blkD.num) n m b2) : Reads (b1 ++ b2) ntreesd u () { u with distCodes := n, distMap := m } := by
  refine (reads_nbltypes u hn).bind (Reads.update_bind (u' := { u with distCodes := n }) rfl (fun _ _ _ => rfl) ?_)
  rw [← List.append_nil b2]
  exact Reads.get_bind fun _ _ _ => (reads_cmap _ hm).bind (Reads.update rfl fun _ _ _ => rfl)

/-- Settles O14: the count, then the map whose size the block types give. -/
theorem treeCountsAndMaps : Obligations.TreeCountsAndMaps := by
  refine ⟨fun s n m b1 b2 h hn hm hs => ?_, fun s n m b1 b2 h hn hm hs => ?_⟩
  · obtain ⟨d, c, hrun⟩ := (reads_ntreesl hn hm).exec_next h hs
    exact ⟨d, c, complete_ok hrun⟩
  · obtain ⟨d, c, hrun⟩ := (reads_ntreesd hn hm).exec_next h hs
    exact ⟨d, c, complete_ok hrun⟩

theorem reads_banks {u : State} {lit iac dist : List Table} {b1 b2 b3 : List Bool} (hl : lit.length = u.litCodes)
    (hi : iac.length = u.blkI.num) (hd : dist.length = u.distCodes) (h1 : isBank 256 lit b1) (h2 : isBank 704 iac b2)
    (h3 : isBank u.dalpha dist b3) :
    Reads (b1 ++ (b2 ++ b3)) banks u () { u with litBank := lit, iacBank := iac, distBank := dist } := by
  rw [← List.append_nil b3]
  refine Reads.get_bind fun _ _ _ => (reads_readCodes u hl h1).bind ?_
  refine Reads.update_bind (u' := { u with litBank := lit }) rfl (fun _ _ _ => rfl) ?_
  refine (reads_readCodes _ hi h2).bind ?_
  refine Reads.update_bind (u' := { u with litBank := lit, iacBank := iac }) rfl (fun _ _ _ => rfl) ?_
  exact (reads_readCodes _ hd h3).bind (Reads.update rfl fun _ _ _ => rfl)

/-- Where no register of a context map is written, they are all the same. -/
theorem cmr_same {L : List Fld} {s t : State} (h : sameBut L s t) (hL : ∀ f ∈ mapFlds, f ∉ L) : s.cmr = t.cmr := by
  have h1 : s.cmr.len = t.cmr.len := h .mapLen (hL _ (by decide))
  have h2 : s.cmr.rlemax = t.cmr.rlemax := h .mapRlemax (hL _ (by decide))
  have h3 : s.cmr.code = t.cmr.code := h .mapCode (hL _ (by decide))
  have h4 : s.cmr.map = t.cmr.map := h .mapEntries (hL _ (by decide))
  have h5 : s.cmr.mtf = t.cmr.mtf := h .mapMtf (hL _ (by decide))
  rw [← show MapRegs.mk s.cmr.len s.cmr.rlemax s.cmr.code s.cmr.map s.cmr.mtf = s.cmr from rfl, h1, h2, h3, h4, h5]

/-- `BANKS` leaves the registers of a context map alone. -/
theorem banks_cmr {s t : State} (h : banks s = .ok ((), t)) : s.cmr = t.cmr := by
  have hk := Keeps.banks s
  rw [h] at hk
  exact cmr_same hk.1 (by decide)

theorem reads_npostfix {p : Nat} (u : State) (hp : p < 4) : Reads (bitsLE 2 p) npostfix u () { u with npostfix := p } := by
  rw [← List.append_nil (bitsLE 2 p)]
  exact (reads_bits u (by decide) hp).bind (Reads.update rfl fun _ _ _ => rfl)

theorem reads_ndirect {nib : Nat} (u : State) (hn : nib < 16) :
    Reads (bitsLE 4 nib) ndirect u () { u with direct := nib <<< u.npostfix } := by
  rw [← List.append_nil (bitsLE 4 nib)]
  exact (reads_bits u (by decide) hn).bind (Reads.update rfl fun _ _ _ => rfl)

/-- The context modes, one after another (R192, R197). -/
theorem reads_cmodes : ∀ (ms pre : List CtxMode) (u : State), u.modes = pre →
    Reads (ms.flatMap fun m => bitsLE 2 (ctxModeCode m)) (cmodes ms.length pre.length) u () { u with modes := pre ++ ms }
  | [], pre, u, h => by
    rw [List.append_nil, ← h]
    exact Reads.pure
  | m :: ms, pre, u, h => by
    have hm : Reads (bitsLE 2 (ctxModeCode m)) (cmode pre.length) u () { u with modes := pre ++ [m] } := by
      rw [← List.append_nil (bitsLE ..)]
      refine (reads_bits u (by decide) (by cases m <;> decide)).bind (Reads.update rfl fun q d c => ?_)
      have hput : putEntry .lsb6 u.modes pre.length (ctxModeOf (ctxModeCode m)) = pre ++ [m] := by
        rw [h]
        cases m <;> simp [putEntry, ctxModeOf, ctxModeCode]
      rw [← hput]
      rfl
    have hrest := reads_cmodes ms (pre ++ [m]) { u with modes := pre ++ [m] } rfl
    rw [List.length_append, List.append_assoc] at hrest
    exact hm.bind hrest

/-- The header in stream order (R192). -/
theorem reads_header {s : State} {bl bi bd : Block} {modes : List CtxMode} {p nib n1 n2 : Nat} {m1 m2 : List Nat}
    {lit iac dist : List Table} {x1 x2 x3 y1 y2 y3 y4 z1 z2 z3 : List Bool}
    (h1 : isBlkdesc bl x1) (h2 : isBlkdesc bi x2) (h3 : isBlkdesc bd x3) (hp : p < 4) (hn : nib < 16)
    (hm : modes.length = bl.num) (hl : isCount n1 y1) (hlm : isMap (64 * bl.num) n1 m1 y2) (hd : isCount n2 y3)
    (hdm : isMap (4 * bd.num) n2 m2 y4) (k1 : lit.length = n1) (k2 : iac.length = bi.num) (k3 : dist.length = n2)
    (b1 : isBank 256 lit z1) (b2 : isBank 704 iac z2) (b3 : isBank (16 + nib <<< p + 48 <<< p) dist z3) :
    Reads (x1 ++ (x2 ++ (x3 ++ (bitsLE 2 p ++ (bitsLE 4 nib ++ ((modes.flatMap fun m => bitsLE 2 (ctxModeCode m)) ++
      (y1 ++ y2 ++ (y3 ++ y4 ++ (z1 ++ (z2 ++ z3)))))))))) header s () { s with
        blkL := bl, blkI := bi, blkD := bd, npostfix := p, direct := nib <<< p, modes := modes, litCodes := n1
        litMap := m1, distCodes := n2, distMap := m2, litBank := lit, iacBank := iac, distBank := dist } := by
  refine (reads_blkdesc s .L h1).bind ((reads_blkdesc _ .I h2).bind ((reads_blkdesc _ .D h3).bind ?_))
  refine (reads_npostfix _ hp).bind ((reads_ndirect _ hn).bind ?_)
  refine Reads.update_bind (u' := { s with
    blkL := bl, blkI := bi, blkD := bd, npostfix := p, direct := nib <<< p, modes := [] }) rfl (fun _ _ _ => rfl) ?_
  refine Reads.get_bind fun _ _ _ => (hm ▸ reads_cmodes modes [] _ rfl).bind ?_
  exact (reads_ntreesl hl hlm).bind ((reads_ntreesd hd hdm).bind (reads_banks k1 k2 k3 b1 b2 b3))

/-- Settles O15: the three banks, and the header in stream order. -/
theorem headerAndBanks : Obligations.HeaderAndBanks := by
  refine ⟨fun s lit iac dist b1 b2 b3 h hl hi hd h1 h2 h3 hs => ?_, fun s bl bi bd modes p nib n1 n2 m1 m2 lit iac dist
    x1 x2 x3 y1 y2 y3 y4 z1 z2 z3 h hx1 hx2 hx3 hp hn hm hy1 hy2 hy3 hy4 hl hi hd hz1 hz2 hz3 bits hbits hs => ?_⟩
  · rw [List.append_assoc] at hs ⊢
    obtain ⟨d, c, hrun⟩ := (reads_banks hl hi hd h1 h2 h3).exec_next h hs
    obtain rfl : s.cmr = c := banks_cmr hrun
    exact ⟨d, complete_ok hrun⟩
  · have hr := reads_header (s := s) hx1 hx2 hx3 hp hn hm hy1 hy2 hy3 hy4 hl hi hd hz1 hz2 hz3
    simp only [List.append_assoc] at hbits hr
    subst hbits
    obtain ⟨d, c, hrun⟩ := hr.exec_next h hs
    exact ⟨d, c, complete_ok hrun⟩

end Sys2Proof.Machine
end

section
/-! SUPPORT. The statements about the command loop (spec/42_metablock.md section 5): commands (O43), literals (O44),
distances (O45) and copies (O46, O47). -/

namespace Sys2Proof.Machine

/-- Counting down writes nothing but the cursor and its category. -/
theorem ticks_kept {s u : State} {c : Cat} (h : s.onStream) (ht : s.ticks c u) : Kept (tickFlds c) s u := by
  have hk := Keeps.tick c s
  rwa [tick_run h ht] at hk

/-! Commands (R204, R205). -/

/-- What `CMD` does once it has its symbol `v` (R204): both lengths, and `mlen` pays for the literals. -/
def commandLengths (v : Nat) : M Unit := do
  modify fun s => { s with iacSym := v }
  let r ← iacsplit v
  modify fun s => { s with copyLen := r.2 }
  let s ← get
  require (r.1 ≤ s.mlen) (.invalid .mlenExceededByInsert)
  modify fun s => { s with mlen := s.mlen - r.1, insLeft := r.1 }

/-- `CMD` after it has counted down reads a symbol with the code of the block type (R204). -/
theorem exec_cmd {s u : State} {code : Table} (h : s.onStream) (hm : 0 < s.mlen) (ht : s.ticks .I u)
    (hc : u.iacBank[u.blkI.cur]? = some code) : exec .cmd s = complete (sym code >>= commandLengths) keepNone u := by
  change complete cmd keepNone s = _
  rw [cmd, complete_get_bind, complete_bind_ok (run_precondition_true hm s), complete_bind_ok (tick_run h ht),
    complete_get_bind, complete_bind_ok (run_entry hc u)]
  rfl

/-- The lengths that the stream spells, and the test against `mlen` (R205). -/
theorem complete_commandLengths {u : State} {v e1 e2 : Nat} (h : u.onStream) (h1 : e1 < 2 ^ insExtra.getD (insertCode v) 0)
    (h2 : e2 < 2 ^ cpyExtra.getD (copyCode v) 0)
    (hs : u.spells (bitsLE (insExtra.getD (insertCode v) 0) e1 ++ bitsLE (cpyExtra.getD (copyCode v) 0) e2)) :
    ∀ t : State, t = { u.seek (u.pos + insExtra.getD (insertCode v) 0 + cpyExtra.getD (copyCode v) 0) with
      iacSym := v, copyLen := cpyBase.getD (copyCode v) 0 + e2 } →
    complete (commandLengths v) keepNone u =
      if insBase.getD (insertCode v) 0 + e1 ≤ u.mlen then
        .next { t with mlen := u.mlen - (insBase.getD (insertCode v) 0 + e1), insLeft := insBase.getD (insertCode v) 0 + e1 }
      else .next (t.takeFault (.invalid .mlenExceededByInsert)) := by
  rintro _ rfl
  have hsplit := splitCodes_spelled (s := { u with iacSym := v }) h h1 h2 hs
  rw [commandLengths, complete_modify_bind, iacsplit, complete_bind_ok hsplit, complete_modify_bind, complete_get_bind,
    complete_require_bind]
  rfl

/-- Lengths that the end of the stream cuts short. -/
theorem complete_commandLengths_eof {u : State} {v : Nat} (h : u.onStream)
    (hb : ¬ u.hasBits (insExtra.getD (insertCode v) 0 + cpyExtra.getD (copyCode v) 0)) :
    ∃ t : State, complete (commandLengths v) keepNone u = .next (t.takeFault .prematureEof) := by
  obtain ⟨t, ht⟩ := splitCodes_eof (s := { u with iacSym := v }) h hb
  exact ⟨t, (complete_modify_bind ..).trans (complete_bind_raised ht)⟩

/-- Settles O43: `CMD` as `exec_cmd`, its symbol, and its lengths. -/
theorem commandStarts : Obligations.CommandStarts := by
  refine ⟨?_, fun s u code h hm ht hc => ⟨fun hv hn => ?_, fun v word hw hs hb => ?_⟩⟩
  · rintro s u code v word a b e1 e2 h hm ht hc hw rfl rfl h1 h2 hs
    have hu := ticks_onStream h ht
    have hmlen : s.mlen = u.mlen := (ticks_kept h ht).1 .mlen (by decide)
    rw [List.append_assoc] at hs ⊢
    have hsym := sym_codeword hu hw (spells_left hs)
    rw [exec_cmd h hm ht hc, complete_bind_ok hsym,
      complete_commandLengths (onStream_after (spells_left hs)) h1 h2 (spells_right hs) _ rfl]
    simp only [seek_mlen, ← hmlen, seek_pos, seek_seek, List.length_append, length_bitsLE, Nat.add_assoc]
    exact ⟨fun hle => if_pos hle, fun hlt => ⟨_, if_neg (not_le.2 hlt)⟩⟩
  · obtain ⟨t, hsym⟩ := sym_short hv (ticks_onStream h ht) hn
    exact ⟨t, (exec_cmd h hm ht hc).trans (complete_bind_raised hsym)⟩
  · have hsym := sym_codeword (ticks_onStream h ht) hw hs
    rw [exec_cmd h hm ht hc, complete_bind_ok hsym]
    refine complete_commandLengths_eof (onStream_after hs) fun hb' => hb ?_
    unfold State.hasBits at hb' ⊢
    rw [seek_pos, seek_ports] at hb'
    omega

/-! Literals (R206). -/

/-- What `LIT` does once it has its symbol `b` (R206). -/
def insertLiteral (b : Nat) : M Unit := do
  precondition (b < 256)
  emit (BitVec.ofNat 8 b)
  modify fun s => { s with insLeft := s.insLeft - 1 }

/-- `LIT` after it has counted down reads a symbol with the code that the block type, the context and the map select
(R206). -/
theorem exec_lit {s u : State} {mode : CtxMode} {k : Nat} {code : Table} (h : s.onStream) (hi : 0 < s.insLeft)
    (ht : s.ticks .L u) (hm : u.modes[u.blkL.cur]? = some mode)
    (hk : u.litMap[64 * u.blkL.cur + u.ctx mode]? = some k) (hc : u.litBank[k]? = some code) :
    exec .lit s = complete (sym code >>= insertLiteral) keepNone u := by
  have hcode : literalCode u = .ok (code, u) := by
    rw [show 64 * u.blkL.cur = u.blkL.cur <<< 6 by rw [Nat.shiftLeft_eq]; omega] at hk
    rw [literalCode, run_get_bind, run_bind_ok (run_entry hm u), run_bind_ok (run_entry hk u), run_entry hc]
  change complete lit keepNone s = _
  rw [lit, complete_get_bind, complete_bind_ok (run_precondition_true hi s), complete_bind_ok (tick_run h ht),
    complete_bind_ok hcode]
  rfl

/-- Settles O44: `LIT` as `exec_lit`, its symbol, and whether the byte is accepted. -/
theorem literalsAreInserted : Obligations.LiteralsAreInserted := by
  intro s u mode k code h hi ht hm hk hc
  have hu := ticks_onStream h ht
  rw [exec_lit h hi ht hm hk hc]
  refine ⟨fun b word hw hb hs => ?_, fun hv hn => ?_⟩
  · have hleft : s.insLeft = u.insLeft := (ticks_kept h ht).1 .insLeft (by decide)
    rw [complete_bind_ok (sym_codeword hu hw hs), insertLiteral, complete_bind_ok (run_precondition_true hb _), hleft]
    refine ⟨fun ha => complete_bind_ok (emit_ok (accepts_singleton.1 ha)), fun ha => ?_⟩
    exact complete_bind_raised (emit_differs fun h0 => ha (accepts_singleton.2 h0))
  · obtain ⟨t, hsym⟩ := sym_short hv hu hn
    exact ⟨t, complete_bind_raised hsym⟩

/-! Distances (R208, R290 to R298). -/

/-- The distance of a symbol whose extra bits the stream spells (R290). -/
theorem distanceForm_spelled {s : State} {v e : Nat} (h : s.onStream) (hv : v < s.dalpha) (he : e < 2 ^ s.distanceExtra v)
    (hs : s.spells (bitsLE (s.distanceExtra v) e)) :
    distanceForm v s = .ok (s.distanceOf v e, s.seek (s.pos + s.distanceExtra v)) := by
  unfold State.distanceExtra State.distanceOf at *
  rw [distanceForm, run_get_bind]
  by_cases hring : v < 16
  · rw [if_pos hring, if_pos hring, if_pos (by omega), Nat.add_zero, seek_self h]
    rfl
  · rw [if_neg hring, if_neg hring]
    split_ifs at he hs ⊢ with hdirect
    · rw [Nat.add_zero, seek_self h, dDirect, run_get_bind, run_bind_ok (run_precondition_true ⟨by omega, hdirect⟩ s)]
      rfl
    · have hx := longExtra_le (s := s) (v := v) (by omega) hv
      rw [dLong, run_get_bind, run_bind_ok (run_precondition_true ⟨by omega, hv⟩ s),
        run_bind_ok (bits_spelled h (by omega) he hs)]
      rfl

/-- A symbol whose extra bits the end of the stream cuts short. -/
theorem distanceForm_eof {s : State} {v : Nat} (h : s.onStream) (hv : v < s.dalpha) (hb : ¬ s.hasBits (s.distanceExtra v)) :
    ∃ t : State, distanceForm v s = .error (.raised (t.takeFault .prematureEof)) := by
  unfold State.distanceExtra at hb
  split_ifs at hb with hlong
  · exact absurd h.2 hb
  · have hx := longExtra_le (s := s) (v := v) (by omega) hv
    obtain ⟨k, -, -, hk⟩ := bits_eof h (by omega) hb
    rw [distanceForm, run_get_bind, if_neg (by omega), if_neg hlong, dLong, run_get_bind,
      run_bind_ok (run_precondition_true ⟨by omega, hv⟩ s), run_bind_error hk]
    exact ⟨_, rfl⟩

/-- A distance that is positive is taken (R297). -/
theorem distval_spelled {s : State} {v e : Nat} (h : s.onStream) (hv : v < s.dalpha) (he : e < 2 ^ s.distanceExtra v)
    (hs : s.spells (bitsLE (s.distanceExtra v) e)) (hd : ¬ s.distanceOf v e ≤ 0) :
    distval v s = .ok (s.distanceOf v e, s.seek (s.pos + s.distanceExtra v)) := by
  rw [distval, run_bind_ok (distanceForm_spelled h hv he hs), run_bind_ok (run_require_true hd _ _), run_pure]

/-- A distance that is not positive is `Invalid` (R297). -/
theorem distval_notPositive {s : State} {v e : Nat} (h : s.onStream) (hv : v < s.dalpha)
    (he : e < 2 ^ s.distanceExtra v) (hs : s.spells (bitsLE (s.distanceExtra v) e)) (hd : s.distanceOf v e ≤ 0) :
    distval v s =
      .error (.raised ((s.seek (s.pos + s.distanceExtra v)).takeFault (.invalid .distanceNotPositive))) := by
  rw [distval, run_bind_ok (distanceForm_spelled h hv he hs), run_bind_error (run_require_false (not_not.2 hd) _ _)]

/-- What `DIST` does once it has its symbol `v` (R208), where the window holds `w` bytes. -/
def takeDistance (w v : Nat) : M Unit := do
  modify fun s => { s with dsym := v }
  let d ← distval v
  modify fun s => { s with dist := d }
  if v ≠ 0 ∧ d ≤ w then ringpush d.toNat else pure ()

/-- `DIST` of an explicit distance, after it has counted down, reads a symbol with the code that the block type, the distance
context and the map select (R208). -/
theorem exec_dist {s u : State} {k : Nat} {code : Table} (h : s.onStream) (hm : 0 < s.mlen) (hi : 128 ≤ s.iacSym)
    (ht : s.ticks .D u) (hk : u.distMap[4 * u.blkD.cur + min (u.copyLen - 2) 3]? = some k)
    (hc : u.distBank[k]? = some code) :
    exec .dist s = complete (sym code >>= takeDistance (min u.got u.wsize)) keepNone u := by
  have hcode : distanceCode u = .ok (code, u) := by
    rw [show 4 * u.blkD.cur = u.blkD.cur <<< 2 by rw [Nat.shiftLeft_eq]; omega] at hk
    rw [distanceCode, run_get_bind, dctx, run_bind_ok (run_entry hk u), run_entry hc]
  have hgot : s.got = u.got := (ticks_kept h ht).1 .got (by decide)
  have hwbits : s.wbits = u.wbits := (ticks_kept h ht).1 .wbits (by decide)
  have hwindow : s.window = min u.got u.wsize := by rw [State.window, State.wsize, hgot, hwbits]; rfl
  change complete dist keepNone s = _
  rw [dist, complete_get_bind, complete_bind_ok (run_precondition_true hm s),
    if_neg (by simpa [implicitDistance] using hi), complete_bind_ok (tick_run h ht), complete_bind_ok hcode, hwindow]
  rfl

/-- `RINGPUSH` of a positive distance (R298). -/
theorem ringpush_run {s : State} {d : Nat} (hd : 1 ≤ d) : ringpush d s = .ok ((), s.pushed d) := by
  rw [ringpush, run_bind_ok (run_precondition_true hd s)]
  rfl

/-- A positive distance is kept, and pushed unless it repeats the last or lies beyond the window (R208, R299). -/
theorem complete_takeDistance {u t : State} {q w v e : Nat} (h : (u.seek q).onStream) (hv : v < u.dalpha)
    (he : e < 2 ^ u.distanceExtra v) (hs : (u.seek q).spells (bitsLE (u.distanceExtra v) e)) (hd : 0 < u.distanceOf v e)
    (ht : t = { u.seek (q + u.distanceExtra v) with dsym := v, dist := u.distanceOf v e }) :
    complete (takeDistance w v) keepNone (u.seek q) =
      .next (if v ≠ 0 ∧ u.distanceOf v e ≤ w then t.pushed (u.distanceOf v e).toNat else t) := by
  subst ht
  have hval := distval_spelled (s := { u.seek q with dsym := v }) h hv he hs (not_le.2 hd)
  rw [show ({ u.seek q with dsym := v } : State).pos = q from seek_pos u q] at hval
  rw [takeDistance, complete_modify_bind, complete_bind_ok hval, complete_modify_bind]
  change complete (if v ≠ 0 ∧ u.distanceOf v e ≤ w then ringpush (u.distanceOf v e).toNat else pure ()) keepNone _ = _
  split_ifs
  · exact complete_ok (ringpush_run (by omega))
  · rfl

/-- Settles O45: the implicit distance from the ring, and the explicit one as `exec_dist`, its symbol, its extra bits. -/
theorem distancesAreDecoded : Obligations.DistancesAreDecoded := by
  refine ⟨fun s hm hi => ?_, ?_, fun s u k code h hm hi ht hk hc => ⟨fun hv hn => ?_, fun v word hw hva hs hb => ?_⟩⟩
  · change complete dist keepNone s = _
    rw [dist, complete_get_bind, complete_bind_ok (run_precondition_true hm s),
      if_pos (by simpa [implicitDistance] using hi)]
    have hring : s.ringValue 0 0 = (s.ring[s.ringPtr] : Int) := by simp [State.ringValue]
    rw [← hring]
    rfl
  · rintro s u k code v word _ e t _ h hm hi ht hk hc hw hva rfl he hs rfl rfl
    have hu := ticks_onStream h ht
    have ho := onStream_after (spells_left hs)
    rw [List.length_append, length_bitsLE, ← Nat.add_assoc]
    rw [exec_dist h hm hi ht hk hc, complete_bind_ok (sym_codeword hu hw (spells_left hs))]
    refine ⟨fun hd => ?_, fun hd hout => ?_, fun hd hv hin => ?_⟩
    · have hval := distval_notPositive (s := { u.seek (u.pos + word.length) with dsym := v }) ho hva he (spells_right hs) hd
      exact ⟨_, (complete_modify_bind ..).trans (complete_bind_raised hval)⟩
    · rw [complete_takeDistance ho hva he (spells_right hs) hd rfl, if_neg (by omega)]
    · rw [complete_takeDistance ho hva he (spells_right hs) hd rfl, if_pos ⟨hv, hin⟩]
      rfl
  · obtain ⟨t, hsym⟩ := sym_short hv (ticks_onStream h ht) hn
    exact ⟨t, (exec_dist h hm hi ht hk hc).trans (complete_bind_raised hsym)⟩
  · have hb' : ¬ (u.seek (u.pos + word.length)).hasBits (u.distanceExtra v) := by
      unfold State.hasBits at hb ⊢
      rw [seek_pos, seek_ports]
      omega
    obtain ⟨t, hform⟩ := distanceForm_eof (s := { u.seek (u.pos + word.length) with dsym := v }) (onStream_after hs) hva hb'
    rw [exec_dist h hm hi ht hk hc, complete_bind_ok (sym_codeword (ticks_onStream h ht) hw hs)]
    exact ⟨t, (complete_modify_bind ..).trans (complete_bind_raised (run_bind_error hform))⟩

/-! Copies (R209, R210). -/

/-- Settles O46: the test of `COPY`. -/
theorem copyDispatch : Obligations.CopyDispatch := by
  intro s m hm
  rw [← State.window] at hm
  subst hm
  refine ⟨fun hfar => ⟨(s.dist - s.window - 1).toNat, ?_, ?_⟩, fun hnear => ?_⟩
  · omega
  · change complete copy keepNone s = complete (copyDict _ s.copyLen) keepNone s
    rw [copy, complete_get_bind, if_pos hfar]
  · change complete copy keepNone s = complete copyPast keepNone s
    rw [copy, complete_get_bind, if_neg (not_lt.2 hnear)]

/-- What is read at an address after bytes were produced (R61, R62). -/
theorem produced_withOutput_lt {s : State} (l : List Byte) {a : Nat} (ha : a < s.got) :
    (s.withOutput l).produced a = s.produced a := by
  unfold State.produced State.withOutput
  cases s.compare
  · exact get_writes_lt s.got l ha
  · rfl

theorem produced_withOutput_at {s : State} {l : List Byte} (hw : s.out.wf = true) (ha : s.accepts l) {k : Nat}
    (hk : k < l.length) : (s.withOutput l).produced (s.got + k) = l[k] := by
  have hacc := ha k hk
  unfold State.acceptsAt at hacc
  unfold State.produced State.withOutput
  cases hc : s.compare
  · exact get_writes_at hw s.got l k hk
  · exact (hacc hc).2

theorem length_pastBytes (s : State) (d n : Nat) : (s.pastBytes d n).length = n := by simp [State.pastBytes]

theorem pastBytes_succ (s : State) (d n : Nat) :
    s.pastBytes d (n + 1) = s.pastBytes d n ++ [s.produced (s.got - d + n % d)] := by
  simp [State.pastBytes, List.range_succ]

/-- The byte `d` back, after `n` bytes of a copy, is the next byte of the copy (R72): the distance may be less than the
length, so it may be a byte of the copy itself. -/
theorem produced_past {s : State} {d n : Nat} (hw : s.out.wf = true) (h1 : 1 ≤ d) (hd : d ≤ s.got)
    (ha : s.accepts (s.pastBytes d n)) :
    (s.withOutput (s.pastBytes d n)).produced (s.got + n - d) = s.produced (s.got - d + n % d) := by
  by_cases hn : n < d
  · rw [produced_withOutput_lt _ (by omega), Nat.mod_eq_of_lt hn, Nat.sub_add_comm hd]
  · have hk : n - d < (s.pastBytes d n).length := by rw [length_pastBytes]; omega
    rw [Nat.add_sub_assoc (not_lt.1 hn), produced_withOutput_at hw ha hk, Nat.mod_eq_sub_mod (not_lt.1 hn)]
    simp [State.pastBytes]

/-- The loop of R210 emits what is left of the repeated bytes. -/
theorem copyLoop_eq_emitAll {s : State} {d : Nat} (hw : s.out.wf = true) (h1 : 1 ≤ d) (hd : d ≤ s.got)
    (hdist : s.dist = (d : Nat)) : ∀ k n, s.accepts (s.pastBytes d n) →
      copyLoop k (s.withOutput (s.pastBytes d n)) =
        emitAll ((s.pastBytes d (n + k)).drop n) (s.withOutput (s.pastBytes d n))
  | 0, n, _ => by
    rw [Nat.add_zero, List.drop_of_length_le (length_pastBytes s d n).le]
    rfl
  | k + 1, n, ha => by
    have hrest : (s.pastBytes d (n + (k + 1))).drop n =
        s.produced (s.got - d + n % d) :: (s.pastBytes d (n + 1 + k)).drop (n + 1) := by
      rw [Nat.add_assoc, Nat.add_comm 1 k, List.drop_eq_getElem_cons (by rw [length_pastBytes]; omega)]
      simp [State.pastBytes]
    have hbyte : (s.withOutput (s.pastBytes d n)).produced
        ((s.withOutput (s.pastBytes d n)).got - (s.withOutput (s.pastBytes d n)).dist.toNat) =
          s.produced (s.got - d + n % d) := by
      rw [← produced_past hw h1 hd ha]
      simp [State.withOutput, hdist, length_pastBytes]
    rw [copyLoop, run_get_bind, hbyte, hrest, emitAll]
    by_cases hacc : (s.withOutput (s.pastBytes d n)).acceptsAt 0 (s.produced (s.got - d + n % d))
    · rw [run_bind_ok (emit_ok hacc), run_bind_ok (emit_ok hacc), withOutput_append, ← pastBytes_succ]
      refine copyLoop_eq_emitAll hw h1 hd hdist k (n + 1) ?_
      rw [pastBytes_succ, accepts_append]
      exact ⟨ha, accepts_singleton.2 hacc⟩
    · rw [run_bind_error (emit_differs hacc), run_bind_error (emit_differs hacc)]

/-- The loop of R210 from its start. -/
theorem copyLoop_run {s : State} {d : Nat} (hw : s.out.wf = true) (h1 : 1 ≤ d) (hd : d ≤ s.got)
    (hdist : s.dist = (d : Nat)) (k : Nat) : copyLoop k s = emitAll (s.pastBytes d k) s := by
  have hloop := copyLoop_eq_emitAll hw h1 hd hdist k 0 (accepts_nil s)
  rwa [Nat.zero_add, List.drop_zero, show s.pastBytes d 0 = [] from rfl, withOutput_nil] at hloop

/-- Where the distance lies in the window, `COPY` and `COPY.PAST` are the test of R210 and its loop. -/
theorem exec_copyPast {s : State} (h1 : 1 ≤ s.dist) (hw : s.dist ≤ s.window) : ∀ i ∈ [Instr.copyPast, .copy],
    exec i s = if s.copyLen ≤ s.mlen then
        complete (copyLoop s.copyLen) keepNone { s with mlen := s.mlen - s.copyLen }
      else .next (s.takeFault (.invalid .mlenExceededByCopy)) := by
  intro i hi
  have hpast : exec i s = exec .copyPast s := by
    simp only [List.mem_cons, List.not_mem_nil, or_false] at hi
    rcases hi with rfl | rfl
    · rfl
    · exact (copyDispatch s s.window rfl).2 hw
  rw [hpast]
  change complete copyPast keepNone s = _
  rw [copyPast, complete_get_bind, complete_bind_ok (run_precondition_true ⟨h1, hw⟩ s), complete_require_bind]
  rfl

/-- Settles O47: `exec_copyPast`, and its loop as the emission of the bytes it repeats. -/
theorem copiesFromThePast : Obligations.CopiesFromThePast := by
  intro s d hw h1 hdist hd i hi
  have hloop := copyLoop_run (s := { s with mlen := s.mlen - s.copyLen }) hw h1 (hd.trans (min_le_left ..)) hdist s.copyLen
  rw [exec_copyPast (by omega) (by rw [hdist]; exact_mod_cast hd) i hi]
  refine ⟨fun hlt => if_neg (not_le.2 hlt), fun hle ha => ?_, fun hle k hk => ?_⟩
  · rw [if_pos hle]
    exact complete_ok (hloop.trans (emitAll_ok (s := { s with mlen := s.mlen - s.copyLen }) ha))
  · obtain ⟨u, hu, hgot, hout⟩ := emitAll_differs (s := { s with mlen := s.mlen - s.copyLen }) hk
    rw [if_pos hle]
    exact ⟨u, complete_raised (hloop.trans hu), hgot, hout⟩

end Sys2Proof.Machine
end

section
/-! SUPPORT. The statements about block switching (spec/43_block_switch.md): counts (O25), block lengths (O26), descriptors
(O27), type changes (O28) and counting down (O29). -/

namespace Sys2Proof.Machine

/-! The number-of-types code and `RLEMAX` (R230, R270). -/

/-- Ending early is the same from every cursor position. -/
theorem endsEarly_of_seek {s : State} {q : Nat} {o : Host.Outcome State Fault Refusal} (h : (s.seek q).endsEarly o) :
    s.endsEarly o := h

/-- `NBLTYPES.N` with its three bits there is one request of the width they give (R230). -/
theorem exec_nbltypesN {s : State} (h : s.onStream) (hb : s.hasBits 3) : exec .nbltypesN s =
    complete (bits (s.nextField 3) >>= fun e => pure (1 + (1 <<< s.nextField 3) + e)) keepVal (s.seek (s.pos + 3)) :=
  complete_bits_ok h (by decide) hb ..

/-- After `a` of the bits ahead, the rest are still there. -/
theorem hasBits_seek_add {s : State} {a b : Nat} : (s.seek (s.pos + a)).hasBits b ↔ s.hasBits (a + b) := by
  unfold State.hasBits
  rw [seek_pos, seek_ports, Nat.add_assoc]

/-- The field at the cursor that has been moved to a position. -/
theorem seek_nextField (s : State) (q n : Nat) : (s.seek q).nextField n = s.ports.field q n := by
  rw [State.nextField, seek_pos, seek_ports]

/-- `NBLTYPES.N` with all its bits there (R230). -/
theorem exec_nbltypesN_ok {s : State} (h : s.onStream) (h3 : s.hasBits 3) (hk : s.hasBits (3 + s.nextField 3)) :
    exec .nbltypesN s = .next (keepVal (1 + 2 ^ s.nextField 3 + s.ports.field (s.pos + 3) (s.nextField 3))
      (s.seek (s.pos + 3 + s.nextField 3))) := by
  have hlt : s.nextField 3 < 2 ^ 3 := field_lt ..
  rw [exec_nbltypesN h h3, complete_bits_ok (onStream_seek h3) (by omega) (hasBits_seek_add.2 hk), seek_nextField,
    seek_pos, seek_seek, Nat.one_shiftLeft]
  rfl

/-- `NBLTYPES.N` where the stream ends in the width or in the field (R230, R342). -/
theorem exec_nbltypesN_eof {s : State} (h : s.onStream) (hb : ¬ (s.hasBits 3 ∧ s.hasBits (3 + s.nextField 3))) :
    s.endsEarly (exec .nbltypesN s) := by
  by_cases h3 : s.hasBits 3
  · have hlt : s.nextField 3 < 2 ^ 3 := field_lt ..
    rw [exec_nbltypesN h h3]
    exact endsEarly_of_seek
      (complete_bits_eof (onStream_seek h3) (by omega) (fun hk => hb ⟨h3, hasBits_seek_add.1 hk⟩) ..)
  · exact complete_bits_eof h (by decide) h3 ..

/-- The counts are 1 to 256: above 1, `k` is the binary logarithm of the count less 1 (R230). -/
theorem exists_isCount_iff (n : Nat) : (∃ bits, isCount n bits) ↔ 1 ≤ n ∧ n ≤ 256 := by
  refine ⟨?_, fun ⟨h1, h256⟩ => ?_⟩
  · rintro ⟨_, ⟨rfl, _⟩ | ⟨k, e, hk, he, rfl, _⟩⟩
    · decide
    · have : 2 ^ k ≤ 2 ^ 7 := Nat.pow_le_pow_right (by decide) (by omega)
      omega
  · rcases h1.eq_or_lt with rfl | hlt
    · exact ⟨_, .inl ⟨rfl, rfl⟩⟩
    · have hle := Nat.pow_log_le_self 2 (show n - 1 ≠ 0 by omega)
      have hgt := Nat.lt_pow_succ_log_self (b := 2) (by decide) (n - 1)
      have hk : Nat.log 2 (n - 1) < 8 := Nat.log_lt_of_lt_pow (by omega) (by omega)
      rw [pow_succ] at hgt
      exact ⟨_, .inr ⟨Nat.log 2 (n - 1), n - 1 - 2 ^ Nat.log 2 (n - 1), hk, by omega, by omega, rfl⟩⟩

/-- The width of a field above its leading bit is the binary logarithm of the whole. -/
theorem log_two_pow_add {k e : Nat} (he : e < 2 ^ k) : Nat.log 2 (2 ^ k + e) = k :=
  Nat.log_eq_of_pow_le_of_lt_pow (by omega) (by rw [pow_succ]; omega)

/-- No count has two encodings (R230). -/
theorem isCount_unique {n : Nat} {b b' : List Bool} (h : isCount n b) (h' : isCount n b') : b = b' := by
  rcases h with ⟨rfl, rfl⟩ | ⟨k, e, _, he, rfl, rfl⟩ <;> rcases h' with ⟨hn, rfl⟩ | ⟨k', e', _, he', hn, rfl⟩
  · rfl
  · have := Nat.two_pow_pos k'; omega
  · have := Nat.two_pow_pos k; omega
  · obtain rfl : k = k' := by rw [← log_two_pow_add he, ← log_two_pow_add he', show 2 ^ k + e = 2 ^ k' + e' by omega]
    obtain rfl : e = e' := by omega
    rfl

/-- Settles O25: `NBLTYPES.N` as two requests, a count's width as a logarithm, and `RLEMAX.N` as a request and a test. -/
theorem countAndRlemaxForms : Obligations.CountAndRlemaxForms := by
  refine ⟨fun _ => ⟨rfl, rfl⟩, fun _ => rfl, fun _ => exec_nbltypesN_ok, fun _ => exec_nbltypesN_eof, exists_isCount_iff,
    fun _ _ _ => isCount_unique, fun _ _ => ⟨rfl, rfl⟩, fun len s hlen => ?_,
    fun len => readsField_of_bits (by decide) (fun _ => rfl) fun e s => ?_⟩
  · exact (complete_require_bind ..).trans (if_pos (not_lt.2 hlen))
  · rw [complete_require_bind, Nat.one_shiftLeft, ite_not, apply_ite Host.Outcome.next]
    rfl

/-! Block lengths (R231, R232). -/

/-- A row of the block-length alphabet reads its symbol's extra bits and adds its base (R231). -/
theorem exec_blockLengthRow {v : Nat} {i : Instr} (h : blockLengthRow v = some i) (s : State) :
    exec i s = complete (baseExtra (blenBase.getD v 0) (blenExtra.getD v 0)) keepVal s := by
  unfold blockLengthRow at h
  split at h <;> cases h <;> rfl

/-- Settles O26: each listed row is a symbol's row, and `BLEN` on what the stream spells. -/
theorem blockLengths : Obligations.BlockLengths := by
  refine ⟨fun p hp => ?_, by decide, fun code n bits s h hb hs => ⟨blen_pos hb, complete_ok (blen_run h hb hs)⟩⟩
  have hrow : ∃ v, v < 26 ∧ blockLengthRow v = some p.1 ∧ blenBase[v]? = some p.2.1 ∧ blenExtra[v]? = some p.2.2 := by
    revert p
    decide
  refine ⟨fun s h => ?_, hrow⟩
  obtain ⟨v, -, hr, hb, he⟩ := hrow
  have hbase : blenBase.getD v 0 = p.2.1 := by rw [List.getD_eq_getElem?_getD, hb]; rfl
  have hextra : blenExtra.getD v 0 = p.2.2 := by rw [List.getD_eq_getElem?_getD, he]; rfl
  rw [exec_blockLengthRow hr, hbase, hextra]
  exact complete_baseExtra h (hextra ▸ blenExtra_le v) keepVal

/-! Descriptors and type changes (R233, R235). -/

/-- Settles O27: what is spelled is read, and of the scratch registers only those of a descriptor change. -/
theorem blockDescriptors : Obligations.BlockDescriptors := fun _ _ _ _ h hb hs =>
  (blkdesc_run h hb hs).imp fun _ => complete_ok

/-- Settles O28: each form is one update, and `BSWITCH` on what the stream spells. -/
theorem blockSwitches : Obligations.BlockSwitches :=
  ⟨fun _ _ => rfl, fun _ _ => rfl, fun _ _ _ => rfl, fun _ _ _ h hs => complete_ok (bswitch_run h hs)⟩

/-! Counting down (R234). -/

/-- The operations that count down first stop where counting down does (R204, R206, R208). -/
theorem exec_of_tick_raised {s t : State} {c : Cat} (ht : tick c s = .error (.raised t)) {i : Instr}
    (hi : (c = .I ∧ i = .cmd ∧ 0 < s.mlen) ∨ (c = .L ∧ i = .lit ∧ 0 < s.insLeft) ∨
      (c = .D ∧ i = .dist ∧ 0 < s.mlen ∧ 128 ≤ s.iacSym)) : exec i s = .next t := by
  rcases hi with ⟨rfl, rfl, hm⟩ | ⟨rfl, rfl, hl⟩ | ⟨rfl, rfl, hm, hx⟩
  · change complete cmd keepNone s = _
    rw [cmd, complete_get_bind, complete_bind_ok (run_precondition_true hm s), complete_bind_raised ht]
  · change complete lit keepNone s = _
    rw [lit, complete_get_bind, complete_bind_ok (run_precondition_true hl s), complete_bind_raised ht]
  · change complete dist keepNone s = _
    rw [dist, complete_get_bind, complete_bind_ok (run_precondition_true hm s),
      if_neg (by simpa [implicitDistance] using hx), complete_bind_raised ht]

/-- Settles O29: counting down as `tick_run`; a switch cut short stops `BSWITCH`, `TICK` and what begins with it. -/
theorem tickCountsDown : Obligations.TickCountsDown := by
  refine ⟨fun _ _ _ h ht => complete_ok (tick_run h ht), fun c s tcode lcode h h1 h0 ht hl vt vl hn i hi => ?_⟩
  have hswitch := bswitch_short h h1 h0 ht hl vt vl hn
  obtain ⟨t, htick⟩ := tick_short h1 h0 hswitch
  rcases hi with rfl | rfl | hi
  · exact ⟨t, complete_raised htick⟩
  · exact hswitch.imp fun _ => complete_raised
  · exact ⟨t, exec_of_tick_raised htick hi⟩

end Sys2Proof.Machine
end

section
/-! SUPPORT. The statements about the insert-and-copy alphabet (spec/44_insert_copy.md): the tables of the insert and the
copy codes (O30), and the split of a symbol (O31). -/

namespace Sys2Proof.Machine

/-! The insert codes and the copy codes (R251, R252). -/

/-- An operation whose base and width stand in two tables at an index reads a field of that width and adds the base. -/
theorem readsField_of_tables {i : Instr} {bases extras : List Nat} {v base extra : Nat} {keep : Nat → State → State}
    (hexec : ∀ s, exec i s = complete (baseExtra (bases.getD v 0) (extras.getD v 0)) keep s)
    (hbase : bases[v]? = some base) (hextra : extras[v]? = some extra) (hle : extras.getD v 0 ≤ 25) :
    readsField i extra fun e => keep (base + e) := by
  rw [List.getD_eq_getElem?_getD, hextra] at hle
  intro s h
  rw [hexec, List.getD_eq_getElem?_getD, List.getD_eq_getElem?_getD, hbase, hextra]
  exact complete_baseExtra h hle keep

/-- The row of an insert code reads the code's extra bits and adds its base (R251). -/
theorem exec_insertCodeRow {i : Nat} {k : Instr} (h : insertCodeRow i = some k) (s : State) :
    exec k s = complete (baseExtra (insBase.getD i 0) (insExtra.getD i 0)) keepInsLen s := by
  unfold insertCodeRow at h
  split at h <;> cases h <;> rfl

/-- The row of a copy code reads the code's extra bits and adds its base (R252). -/
theorem exec_copyCodeRow {j : Nat} {k : Instr} (h : copyCodeRow j = some k) (s : State) :
    exec k s = complete (baseExtra (cpyBase.getD j 0) (cpyExtra.getD j 0)) keepCopyLen s := by
  unfold copyCodeRow at h
  split at h <;> cases h <;> rfl

/-- Settles O30: each listed operation is a code's row, and a row reads by the tables. -/
theorem insertAndCopyLengths : Obligations.InsertAndCopyLengths := by
  refine ⟨fun p hp => ?insert, by decide, fun p hp => ?copy, by decide⟩
  case insert =>
    have hrow : ∃ i, i < 24 ∧ insertCodeRow i = some p.1 ∧ insBase[i]? = some p.2.1 ∧ insExtra[i]? = some p.2.2 := by
      revert p
      decide
    refine ⟨?_, hrow⟩
    obtain ⟨i, -, hr, hb, he⟩ := hrow
    exact readsField_of_tables (exec_insertCodeRow hr) hb he (insExtra_le i)
  case copy =>
    have hrow : ∃ j, j < 24 ∧ copyCodeRow j = some p.1 ∧ cpyBase[j]? = some p.2.1 ∧ cpyExtra[j]? = some p.2.2 := by
      revert p
      decide
    refine ⟨?_, hrow⟩
    obtain ⟨j, -, hr, hb, he⟩ := hrow
    exact readsField_of_tables (exec_copyCodeRow hr) hb he (cpyExtra_le j)

/-! The split of a symbol (R250, R253, R254). -/

/-- The row of a symbol splits it as `IACSPLIT` does: the row's map entries are those of the symbol (R253). -/
theorem exec_iacRow {v : Nat} {k : Instr} (h : iacRow v = some k) (s : State) : exec k s = exec (.iacsplit v) s := by
  change _ = complete (splitCodes (insertCode v) (copyCode v)) keepSplit s
  unfold iacRow at h
  split at h <;> cases h
  all_goals
    next hr =>
    rw [insertCode, copyCode, hr]
    rfl

/-- Every symbol of the alphabet has a row (R253). -/
theorem exists_iacRow {v : Nat} (h : v ≤ 703) : ∃ k, iacRow v = some k := by
  have hr : v >>> 6 < 11 := by rw [Nat.shiftRight_eq_div_pow]; omega
  unfold iacRow
  generalize v >>> 6 = r at hr ⊢
  interval_cases r <;> exact ⟨_, rfl⟩

/-- The codes of a symbol in a row with map entries `i` and `j` (R250). -/
theorem codes_of_mapEntries {v i j : Nat} (h : (insertMap.zip copyMap)[v / 64]? = some (i, j)) :
    insertCode v = i + v / 8 % 8 ∧ copyCode v = j + v % 8 := by
  obtain ⟨hi, hj⟩ := List.getElem?_zip_eq_some.1 h
  rw [insertCode, copyCode, Nat.shiftRight_eq_div_pow v 6, Nat.shiftRight_eq_div_pow v 3,
    List.getD_eq_getElem?_getD, List.getD_eq_getElem?_getD, hi, hj, Nat.and_two_pow_sub_one_eq_mod _ 3,
    Nat.and_two_pow_sub_one_eq_mod _ 3]
  exact ⟨rfl, rfl⟩

/-- Settles O31: the row acts as `IACSPLIT`, which reads the two fields as `splitCodes_ok` and `splitCodes_eof` say. -/
theorem symbolsSplit : Obligations.SymbolsSplit := by
  refine ⟨fun s v k i j h hk hm hb t ht => ?_, fun s v k i j h hk hm hb => ?_, fun v hv => ?_⟩
  · obtain ⟨hi, hj⟩ := codes_of_mapEntries hm
    rw [← hi, ← hj] at hb ht
    rw [exec_iacRow hk, and_self, ht]
    exact complete_ok (splitCodes_ok h hb)
  · obtain ⟨hi, hj⟩ := codes_of_mapEntries hm
    rw [← hi, ← hj] at hb
    obtain ⟨t, hsplit⟩ := splitCodes_eof h hb
    have hrun : exec (.iacsplit v) s = .next (t.takeFault .prematureEof) := complete_raised hsplit
    exact ⟨t, hrun, (exec_iacRow hk s).trans hrun⟩
  · obtain ⟨k, hk⟩ := exists_iacRow hv
    exact ⟨k, hk, symbolRow_wf (alph := .insertAndCopy) rfl hk⟩

end Sys2Proof.Machine
end

section
/-! SUPPORT. The statements about contexts (spec/45_context.md): the context modes (O32, O33), the symbols of a context map
(O34), maps as they are read (O35, O36), and the inverse move-to-front transform (O37). -/

namespace Sys2Proof.Machine

/-! Context maps (R271 to R274, R277). -/

/-- One step of an operation that has a triple: a result is raised, or the value is kept and the postcondition holds. -/
theorem Triple.exec_next {α : Type} {P : State → Prop} {op : M α} {Q : α → State → Prop} {keep : α → State → State}
    {s t : State} (hop : Triple P op Q Stops) (hs : P s) (ht : complete op keep s = .next t) :
    (∃ u k, t = State.takeFault u k) ∨ ∃ a u, Q a u ∧ t = keep a u := by
  have hrun := hop s hs
  unfold complete at ht
  split at ht <;> cases ht
  next a u hu =>
    rw [hu] at hrun
    exact .inr ⟨a, u, hrun, rfl⟩
  next hu =>
    rw [hu] at hrun
    obtain ⟨u, k, -, ht⟩ := hrun
    exact .inl ⟨u, k, ht⟩

/-- Settles O36: `cmap_triple`, whose loop keeps the entries below the number of trees, as one step. -/
theorem mapEntriesAreInRange : Obligations.MapEntriesAreInRange := by
  intro s t len trees h h1 h256 ht
  have hmap := cmap_triple (p := s.pos) (X := fun _ => True) (fun _ _ _ _ => id) len h1 h256
  refine (hmap.exec_next ⟨onS_self h, trivial⟩ ht).imp_right ?_
  rintro ⟨m, u, ⟨-, -, hlen, hlt⟩, rfl⟩
  exact ⟨hlen, hlt⟩

/-- `CM.VAL` above the run-length maximum writes one entry (R274). -/
theorem exec_cmVal {s : State} {v : Nat} (h : s.cmr.rlemax < v) :
    exec (.cmVal v) s = .next { s with cmr := { s.cmr with map := s.cmr.map ++ [v - s.cmr.rlemax] } } :=
  (complete_get_bind ..).trans (complete_bind_ok (run_precondition_true h s))

/-- `CM.RUN` is one request, then the test that the run ends within the map (R273). -/
theorem readsField_cmRun {v : Nat} (hv : v ≤ 16) : readsField (.cmRun v) v fun e s =>
    if s.cmr.len < s.cmr.map.length + (2 ^ v + e) then s.takeFault (.invalid .cmapRunPastEnd)
    else { s with cmr := { s.cmr with map := s.cmr.map ++ List.replicate (2 ^ v + e) 0 } } := by
  refine readsField_of_bits (by omega) (fun _ => rfl) fun e s => ?_
  rw [complete_get_bind, complete_require_bind, Nat.one_shiftLeft, apply_ite Host.Outcome.next, ← ite_not]
  simp only [not_le]
  rfl

/-- Settles O34: `CM.ZERO` is one update; the other two as `readsField_cmRun` and `exec_cmVal` say. -/
theorem mapSymbols : Obligations.MapSymbols :=
  ⟨fun _ => rfl, fun _ => readsField_cmRun, fun _ _ => exec_cmVal⟩

/-- Settles O35: `cmap_run` as one step. -/
theorem mapsAreRead : Obligations.MapsAreRead := fun _ _ _ _ _ h hm hs =>
  (cmap_run h hm hs).imp fun _ => Exists.imp fun _ => complete_ok

/-! The move-to-front transform (R275, R276, D22). -/

/-- Moving a value of the list to the front only reorders the list. -/
theorem moveToFront_idxOf_perm {mtf : List Nat} {v : Nat} (h : v ∈ mtf) :
    (moveToFront mtf (mtf.idxOf v) v).Perm mtf := by
  rw [moveToFront, ← List.erase_eq_eraseIdx_of_idxOf rfl]
  exact (List.perm_cons_erase h).symm

/-- Values of the list are replaced by positions in the list. -/
theorem forwardMtf_lt : ∀ {l mtf : List Nat}, (∀ k ∈ l, k ∈ mtf) → ∀ k ∈ forwardMtf mtf l, k < mtf.length
  | [], _, _ => by simp [forwardMtf]
  | v :: l, mtf, h => by
    obtain ⟨hv, hl⟩ := List.forall_mem_cons.1 h
    have hp := moveToFront_idxOf_perm hv
    exact List.forall_mem_cons.2 ⟨List.idxOf_lt_length_of_mem hv,
      hp.length_eq ▸ forwardMtf_lt fun k hk => hp.mem_iff.2 (hl k hk)⟩

/-- Both transforms move the same value to the front at each turn, so they go on with the same list. -/
theorem inverseMtf_forwardMtf : ∀ {l mtf : List Nat}, (∀ k ∈ l, k ∈ mtf) → inverseMtf mtf (forwardMtf mtf l) = l
  | [], _, _ => rfl
  | v :: l, mtf, h => by
    obtain ⟨hv, hl⟩ := List.forall_mem_cons.1 h
    have hget : mtf.getD (mtf.idxOf v) 0 = v := by
      rw [List.getD_eq_getElem _ _ (List.idxOf_lt_length_of_mem hv), List.getElem_idxOf]
    rw [forwardMtf, inverseMtf, hget,
      inverseMtf_forwardMtf fun k hk => (moveToFront_idxOf_perm hv).mem_iff.2 (hl k hk)]

/-- The flag with the bit clear is only read (R275). -/
theorem exec_imtfFlag_zero {s : State} (h : s.onStream) (hb : s.hasBits 1) (h0 : s.nextField 1 = 0) :
    exec .imtfFlag s = .next (keepVal 0 (s.seek (s.pos + 1))) := by
  refine (complete_bits_ok h (by decide) hb ..).trans ?_
  rw [h0]
  rfl

/-- The flag with the bit set is the transform (R275). -/
theorem exec_imtfFlag_one {s : State} (h : s.onStream) (hb : s.hasBits 1) (h1 : s.nextField 1 = 1)
    (hm : ∀ k ∈ s.cmr.map, k < 256) : ∃ l, exec .imtfFlag s = .next (keepVal 1 { s.seek (s.pos + 1) with
      cmr := { s.cmr with map := inverseMtf (List.range 256) s.cmr.map, mtf := l } }) := by
  refine (imtf_run (s.seek (s.pos + 1)) hm).imp fun _ hl => (complete_bits_ok h (by decide) hb ..).trans ?_
  rw [h1]
  exact complete_bind_ok hl

/-- Settles O37: `IMTF` as `imtf_run`, the flag by its bit, and the transform over the list of all bytes. -/
theorem imtfUndoesMoveToFront : Obligations.ImtfUndoesMoveToFront := by
  refine ⟨fun s h => (imtf_run s h).imp fun _ => complete_ok, fun s h => ⟨fun hb => complete_bits_eof h (by decide) hb ..,
    exec_imtfFlag_zero h, exec_imtfFlag_one h⟩, fun l h => ?_⟩
  have hmem : ∀ k ∈ l, k ∈ List.range 256 := fun k hk => List.mem_range.2 (h k hk)
  exact ⟨fun k hk => List.length_range (n := 256) ▸ forwardMtf_lt hmem k hk, inverseMtf_forwardMtf hmem⟩

/-! Literal and distance contexts (R278 to R284, D9). -/

/-- Each row reads the last two bytes as `p1` and `p2` give them. -/
theorem exec_ctx_rows {s : State} {p1 p2 : Byte} (h1 : s.p1 = p1) (h2 : s.p2 = p2) :
    exec .ctxLsb6 s = .next (keepVal (p1.toNat &&& 0x3f) s) ∧
    exec .ctxMsb6 s = .next (keepVal (p1.toNat >>> 2) s) ∧
    exec .ctxUtf8 s = .next (keepVal (s.lut0 p1 ||| s.lut1 p2) s) ∧
    exec .ctxSigned s = .next (keepVal ((s.lut2 p1 <<< 3) ||| s.lut2 p2) s) := by
  subst h1 h2
  exact ⟨rfl, rfl, rfl, rfl⟩

theorem p1_of_one_le {s : State} (h : 1 ≤ s.got) : s.p1 = s.produced (s.got - 1) := if_pos h

theorem p1_of_got_zero {s : State} (h : s.got = 0) : s.p1 = 0 := if_neg (by omega)

theorem p2_of_two_le {s : State} (h : 2 ≤ s.got) : s.p2 = s.produced (s.got - 2) := if_pos h

theorem p2_of_lt_two {s : State} (h : s.got < 2) : s.p2 = 0 := if_neg (by omega)

/-- Settles O32: the rows on two bytes that exist, and the bounds of the two contexts. -/
theorem contextModes : Obligations.ContextModes := by
  refine ⟨fun s p1 p2 h hp1 hp2 => ?_, ctx_lt, fun copyLen s _ => ⟨rfl, by omega⟩⟩
  subst hp1 hp2
  exact exec_ctx_rows (p1_of_one_le (by omega)) (p2_of_two_le h)

theorem ctxModeOf_ctxModeCode (m : CtxMode) : ctxModeOf (ctxModeCode m) = m := by cases m <;> rfl

/-- `CTX` does what the row of its mode does, with the context of that mode (R278). -/
theorem exec_ctxRow (m : CtxMode) (s : State) : exec (ctxRow m) s = .next (keepVal (s.ctx m) s) := by cases m <;> rfl

/-- Settles O33: `CTX` by its row, the rows before two bytes exist, and the codes of the modes. -/
theorem contextOfEveryMode : Obligations.ContextOfEveryMode := by
  refine ⟨fun m s => ⟨s.ctx m, ctx_lt s m, rfl, exec_ctxRow m s⟩, fun s h => ?_, fun s h => ?_, fun m => ⟨?_, ?_⟩⟩
  · exact exec_ctx_rows (p1_of_got_zero h) (p2_of_lt_two (by omega))
  · exact exec_ctx_rows ((p1_of_one_le (by omega)).trans (by rw [h])) (p2_of_lt_two (by omega))
  · exact decode_symbol (by rw [symbolRow, ctxModeOf_ctxModeCode]) []
  · exact ctxModeOf_ctxModeCode m

end Sys2Proof.Machine
end

section
/-! SUPPORT. The statements about distances (spec/46_distance.md): the ring symbols (O38), direct and long distances (O39,
O40), the tested distance (O41), and the push (O42). -/

namespace Sys2Proof.Machine

/-! The ring symbols (R291, R292). -/

/-- A ring-relative symbol answers the ring value of its table entries. -/
theorem exec_ringRow {v : Nat} {i : Instr} (h : ringRow v = some i) (s : State) :
    exec i s = .next (keepSval (s.ringValue (back.getD v 0) (delta.getD v 0)) s) := by
  unfold ringRow at h
  split at h <;> cases h <;> rfl

/-- The slot counted backward from the pointer, with the modulus of R291 written out. -/
theorem ringValue_of_slot {s : State} {bk : Fin 4} {r : Nat} (h : s.ring[(s.ringPtr.val + 4 - bk.val) % 4]? = some r)
    (dl : Int) : s.ringValue bk dl = r + dl := by
  have hslot : (s.ringPtr - bk).val = (s.ringPtr.val + 4 - bk.val) % 4 := by rw [Fin.val_sub]; omega
  obtain ⟨_, hr⟩ := Vector.getElem?_eq_some_iff.1 (hslot ▸ h)
  rw [State.ringValue, ← hr]
  rfl

/-- Settles O38: each listed operation is a symbol's row, and the row by the slot it names. -/
theorem ringSymbols : Obligations.RingSymbols := by
  intro s p hp r hr
  have hrow : ∃ v, v < 16 ∧ ringRow v = some p.1 ∧ (back.getD v 0).val = p.2.1 ∧ delta.getD v 0 = p.2.2 := by
    clear hr
    revert p
    decide
  obtain ⟨v, -, hv, hback, hdelta⟩ := hrow
  rw [exec_ringRow hv, ringValue_of_slot (hback ▸ hr), hdelta]

/-! Direct and long distances (R294, R295). -/

/-- `D.LONG` on its symbols is one request for the symbol's extra bits (R295). -/
theorem dLong_run {s : State} {v : Nat} (h1 : 16 + s.direct ≤ v) (h2 : v < s.dalpha) : dLong v s =
    (bits (longExtra s.npostfix s.direct v) >>= fun e => pure (longDistance s.npostfix s.direct v e : Int)) s := by
  rw [dLong, run_get_bind, run_bind_ok (run_precondition_true ⟨h1, h2⟩ s)]

/-- Extra bits of a long symbol that are not there; only the cursor has moved. -/
theorem dLong_eof {s : State} {v : Nat} (h : s.onStream) (h1 : 16 + s.direct ≤ v) (h2 : v < s.dalpha)
    (hb : ¬ s.hasBits (longExtra s.npostfix s.direct v)) :
    ∃ r, dLong v s = .error (.raised (({ s with rd := r } : State).takeFault .prematureEof)) := by
  obtain ⟨k, -, -, hk⟩ := bits_eof h ((longExtra_le h1 h2).trans (by decide)) hb
  exact ⟨_, (dLong_run h1 h2).trans (run_bind_error hk)⟩

/-- Settles O39: the precondition of `D.DIRECT`, and the request of `D.LONG`. -/
theorem directAndLongDistances : Obligations.DirectAndLongDistances := by
  refine ⟨fun s v h1 h2 => ?_, ?_⟩
  · exact (complete_get_bind ..).trans (complete_bind_ok (run_precondition_true ⟨h1, h2⟩ s))
  · rintro s v _ _ _ h h1 h2 rfl rfl rfl
    have hx := longExtra_le h1 h2
    refine ⟨hx, fun hb => (dLong_eof h h1 h2 hb).imp fun _ => complete_raised, fun hb => ?_⟩
    exact complete_ok ((dLong_run h1 h2).trans (run_bind_ok (bits_ok h (hx.trans (by decide)) hb)))

/-! The long symbols tile the distances above `direct` (R296). For `n = sym - direct - 16` the quotient `n / 2 ^ npostfix`
numbers a group of values of `off + e`, and the remainder is the low part of the distance. -/

/-- The least value of `off + e + 4` in group `q` (R295). -/
def longGroupStart (q : Nat) : Nat := (2 + q % 2) * 2 ^ (1 + q / 2)

/-- A group holds one value for each value of its extra bits, and the next one begins after them. -/
theorem longGroupStart_succ (q : Nat) : longGroupStart (q + 1) = longGroupStart q + 2 ^ (1 + q / 2) := by
  unfold longGroupStart
  rcases Nat.mod_two_eq_zero_or_one q with hq | hq
  · rw [show (q + 1) / 2 = q / 2 by omega, show (q + 1) % 2 = 1 by omega, hq]
    ring
  · rw [show (q + 1) / 2 = q / 2 + 1 by omega, show (q + 1) % 2 = 0 by omega, hq]
    ring

theorem longGroupStart_strictMono : StrictMono longGroupStart :=
  strictMono_nat_of_lt_succ fun q => by
    rw [longGroupStart_succ]
    exact Nat.lt_add_of_pos_right (Nat.two_pow_pos _)

theorem four_le_longGroupStart (q : Nat) : 4 ≤ longGroupStart q :=
  longGroupStart_strictMono.monotone (Nat.zero_le q)

/-- Every value from 4 on lies in a group. -/
theorem exists_longGroup {m : Nat} (hm : 4 ≤ m) : ∃ q, longGroupStart q ≤ m ∧ m < longGroupStart (q + 1) := by
  have hcover := iUnion_Ico_map_succ_eq_Ici (f := longGroupStart) four_le_longGroupStart
    longGroupStart_strictMono.not_bddAbove_range_of_wellFoundedLT
  exact Set.mem_iUnion.1 (hcover.ge hm)

/-- No value lies in two groups. -/
theorem longGroup_unique {m q q' : Nat} (h : longGroupStart q ≤ m) (h1 : m < longGroupStart (q + 1))
    (h' : longGroupStart q' ≤ m) (h1' : m < longGroupStart (q' + 1)) : q = q' := by
  have hlt := longGroupStart_strictMono.lt_iff_lt.1 (h.trans_lt h1')
  have hlt' := longGroupStart_strictMono.lt_iff_lt.1 (h'.trans_lt h1)
  omega

/-- The extra bits of a symbol are those of its group. -/
theorem longExtra_eq (p direct v : Nat) : longExtra p direct v = 1 + (v - direct - 16) / 2 ^ p / 2 := by
  rw [longExtra, Nat.shiftRight_eq_div_pow, pow_succ, Nat.div_div_eq_div_mul]

/-- The distance of a symbol by its group and its low part (R295). -/
theorem longDistance_eq (p direct v e : Nat) : longDistance p direct v e =
    (v - direct - 16) % 2 ^ p + 2 ^ p * (longGroupStart ((v - direct - 16) / 2 ^ p) - 4 + e) + direct + 1 := by
  simp only [longDistance, longExtra_eq, longGroupStart, Nat.shiftLeft_eq, Nat.shiftRight_eq_div_pow, Nat.one_mul,
    Nat.and_one_is_mod, Nat.and_two_pow_sub_one_eq_mod]
  ring

/-- Which symbols and extra bits give a distance above `direct`. -/
theorem longDistance_eq_iff {p direct v e d : Nat} (hd : direct < d) : longDistance p direct v e = d ↔
    longGroupStart ((v - direct - 16) / 2 ^ p) + e = (d - direct - 1) / 2 ^ p + 4 ∧
      (v - direct - 16) % 2 ^ p = (d - direct - 1) % 2 ^ p := by
  have h4 := four_le_longGroupStart ((v - direct - 16) / 2 ^ p)
  have hsplit := Nat.div_mod_unique (a := d - direct - 1) (d := longGroupStart ((v - direct - 16) / 2 ^ p) - 4 + e)
    (c := (v - direct - 16) % 2 ^ p) (Nat.two_pow_pos p)
  have hlow : (v - direct - 16) % 2 ^ p < 2 ^ p := Nat.mod_lt _ (Nat.two_pow_pos p)
  rw [longDistance_eq]
  omega

/-- The extra bits stay within the symbol's group. -/
theorem lt_longGroupStart_succ {p direct v e : Nat} : e < 2 ^ longExtra p direct v ↔
    longGroupStart ((v - direct - 16) / 2 ^ p) + e < longGroupStart ((v - direct - 16) / 2 ^ p + 1) := by
  rw [longGroupStart_succ, longExtra_eq, Nat.add_lt_add_iff_left]

theorem lt_longDistance (p direct v e : Nat) : direct < longDistance p direct v e := by
  rw [longDistance_eq]
  omega

/-- No distance has two symbols, nor one symbol two values of its extra bits. -/
theorem longDistance_inj {p direct v v' e e' : Nat} (hv : 16 + direct ≤ v) (hv' : 16 + direct ≤ v')
    (he : e < 2 ^ longExtra p direct v) (he' : e' < 2 ^ longExtra p direct v')
    (h : longDistance p direct v e = longDistance p direct v' e') : v = v' ∧ e = e' := by
  obtain ⟨hm, hlow⟩ := (longDistance_eq_iff (lt_longDistance ..)).1 h
  obtain ⟨hm', hlow'⟩ := (longDistance_eq_iff (lt_longDistance p direct v' e')).1 rfl
  have hsame := hm.trans hm'.symm
  have hgroup : (v - direct - 16) / 2 ^ p = (v' - direct - 16) / 2 ^ p :=
    longGroup_unique (Nat.le_add_right _ e) (lt_longGroupStart_succ.1 he) (by omega)
      (hsame ▸ lt_longGroupStart_succ.1 he')
  have hn : v - direct - 16 = v' - direct - 16 := by
    rw [← Nat.div_add_mod (v - direct - 16) (2 ^ p), hgroup, hlow.trans hlow'.symm, Nat.div_add_mod]
  rw [hgroup] at hsame
  omega

/-- Every distance above `direct` up to the largest has a symbol: the quotient by `2 ^ npostfix` lies in one of the 48 groups,
and the remainder is the low part. -/
theorem exists_longDistance {p direct d : Nat} (hd : direct < d) (hmax : d ≤ direct + (2 ^ 26 - 4) * 2 ^ p) :
    ∃ v e, 16 + direct ≤ v ∧ v < 16 + direct + 48 <<< p ∧ e < 2 ^ longExtra p direct v ∧
      longDistance p direct v e = d := by
  have hpow := Nat.two_pow_pos p
  have hlow : (d - direct - 1) % 2 ^ p < 2 ^ p := Nat.mod_lt _ hpow
  have hm : (d - direct - 1) / 2 ^ p + 4 < longGroupStart 48 := by
    have : (d - direct - 1) / 2 ^ p < 2 ^ 26 - 4 := (Nat.div_lt_iff_lt_mul hpow).2 (by omega)
    change _ < 2 ^ 26
    omega
  obtain ⟨q, hq, hq1⟩ := exists_longGroup (Nat.le_add_left 4 ((d - direct - 1) / 2 ^ p))
  have hq48 : q < 48 := longGroupStart_strictMono.lt_iff_lt.1 (hq.trans_lt hm)
  obtain ⟨n, hdiv, hmod⟩ : ∃ n, n / 2 ^ p = q ∧ n % 2 ^ p = (d - direct - 1) % 2 ^ p :=
    ⟨_, (Nat.div_mod_unique hpow).2 ⟨rfl, hlow⟩⟩
  have hn48 : n < 48 <<< p := by
    rw [Nat.shiftLeft_eq]
    exact (Nat.div_lt_iff_lt_mul hpow).1 (hdiv ▸ hq48)
  have hsym : 16 + direct + n - direct - 16 = n := by omega
  refine ⟨16 + direct + n, (d - direct - 1) / 2 ^ p + 4 - longGroupStart q, by omega, by omega, ?_, ?_⟩
  · rw [lt_longGroupStart_succ, hsym, hdiv]
    omega
  · rw [longDistance_eq_iff hd, hsym, hdiv, hmod]
    omega

/-- Settles O40: the distance's group, place in it and low part give a symbol and extra bits, and no other pair has them. -/
theorem longDistancesTile : Obligations.LongDistancesTile := by
  intro p direct d hd hmax
  obtain ⟨v, e, hv, hv48, he, rfl⟩ := exists_longDistance hd hmax
  exact ⟨v, e, ⟨hv, hv48, he, rfl⟩, fun v' e' hv' _ he' h => longDistance_inj hv' hv he' he h⟩

/-! The tested distance (R290, R297). -/

/-- A long symbol selects `D.LONG` (R290). -/
theorem distanceForm_long {s : State} {v : Nat} (hv : 16 + s.direct ≤ v) : distanceForm v s = dLong v s := by
  rw [distanceForm, run_get_bind, if_neg (by omega), if_neg (by omega)]

/-- `DISTVAL` of a symbol whose extra bits are not there. -/
theorem exec_distval_eof {s : State} {v : Nat} (h : s.onStream) (hv : v < s.dalpha)
    (hb : ¬ s.hasBits (s.distanceExtra v)) : s.endsEarly (exec (.distval v) s) := by
  unfold State.distanceExtra at hb
  split_ifs at hb with hlong
  · exact absurd h.2 hb
  · obtain ⟨r, hr⟩ := dLong_eof h (by omega) hv hb
    exact ⟨r, complete_bind_raised ((distanceForm_long (by omega)).trans hr)⟩

/-- The field ahead is spelled. -/
theorem spells_nextField {s : State} {n : Nat} (h : s.hasBits n) : s.spells (bitsLE n (s.nextField n)) := by
  rw [State.nextField, bitsLE_field]
  exact spells_nextBits h

/-- `DISTVAL` of a symbol whose extra bits are there, by the sign of its distance. -/
theorem exec_distval {s : State} {v : Nat} (h : s.onStream) (hv : v < s.dalpha)
    (hb : s.hasBits (s.distanceExtra v)) (d : Int) (hd : d = s.distanceOf v (s.nextField (s.distanceExtra v))) :
    exec (.distval v) s =
      if d ≤ 0 then .next ((s.seek (s.pos + s.distanceExtra v)).takeFault (.invalid .distanceNotPositive))
      else .next (keepSval d (s.seek (s.pos + s.distanceExtra v))) := by
  subst hd
  have hform := distanceForm_spelled h hv (field_lt ..) (spells_nextField hb)
  refine (complete_bind_ok hform).trans ((complete_require_bind ..).trans ?_)
  rw [ite_not]
  rfl

/-- The direct and the long distances are positive (R294, R295). -/
theorem one_le_distanceOf {s : State} {v : Nat} (hv : 16 ≤ v) (e : Nat) : 1 ≤ s.distanceOf v e := by
  rw [State.distanceOf, if_neg (by omega)]
  split_ifs
  · omega
  · rw [longDistance_eq]
    omega

/-- Settles O41: `DISTVAL` by whether its extra bits are there, and the least distance of the other forms. -/
theorem distancesAreTested : Obligations.DistancesAreTested := fun _ _ h hv =>
  ⟨exec_distval_eof h hv, exec_distval h hv, one_le_distanceOf⟩

/-! The push (R298). -/

/-- The distance pushed is the most recent. -/
theorem pushed_ringValue_zero (s : State) (d : Nat) : (s.pushed d).ringValue 0 0 = d := by
  simp [State.ringValue, State.pushed]

/-- The other distances are one older. -/
theorem pushed_ringValue {s : State} {d : Nat} {k : Fin 4} (hk : k ≠ 0) :
    (s.pushed d).ringValue k 0 = s.ringValue (k - 1) 0 := by
  have hslot : s.ringPtr + 1 - k = s.ringPtr - (k - 1) := by omega
  have hne : (s.ringPtr + 1).val ≠ (s.ringPtr + 1 - k).val := by omega
  simp only [State.ringValue, ← hslot]
  exact congrArg (fun r : Nat => (r : Int) + 0)
    (Vector.getElem_set_ne (s.ringPtr + 1).isLt (s.ringPtr + 1 - k).isLt hne)

/-- Settles O42: `RINGPUSH` is `pushed`, whose ring holds the distance and then the three before it. -/
theorem ringPush : Obligations.RingPush := fun s d hd =>
  ⟨s.pushed d, complete_ok (ringpush_run hd), Fin.val_add .., pushed_ringValue_zero s d, pushed_ringValue (by decide),
    pushed_ringValue (by decide), pushed_ringValue (by decide), (Kept.ring _ _).1⟩

end Sys2Proof.Machine
end

section
/-! SUPPORT. The statements about the static dictionary (spec/47_dictionary.md): references (O48), the layout of the ROM
(O49) and the operations on a word (O50). -/

namespace Sys2Proof.Machine

/-! Upper case, by character (R318, R319, R324). -/

/-- What upper case does to the byte it changes, by the first byte of the character (R324). -/
def caseChange (c : Byte) : Byte → Byte :=
  if c < 0xC0 then if 0x61 ≤ c ∧ c ≤ 0x7A then (· ^^^ 0x20) else id else if c < 0xE0 then (· ^^^ 0x20) else (· ^^^ 0x05)

/-- Upper case changes the last byte of the character at a position (R324). -/
theorem up1_eq (u : Upper4) (w : List Byte) (p : Nat) : up1 u w p =
    (w.modify (p + (charLen u (w.getD p 0) - 1)) (caseChange (w.getD p 0)), charLen u (w.getD p 0)) := by
  unfold up1 charLen caseChange changeByte
  dsimp only
  generalize w.getD p 0 = c
  split_ifs <;> simp

theorem charLen_pos (u : Upper4) (c : Byte) : 0 < charLen u c := by
  unfold charLen
  split_ifs <;> decide

theorem wordUpfirst_cons (u : Upper4) (c : Byte) (l : List Byte) :
    wordUpfirst u (c :: l) = (c :: l).modify (charLen u c - 1) (caseChange c) := by
  rw [wordUpfirst, up1_eq, List.getD_cons_zero, Nat.zero_add]

/-- One turn of the loop of R319. -/
theorem upallLoop_of_lt {u : Upper4} {n : Nat} {w : List Byte} {p : Nat} (h : p < w.length) : upallLoop u (n + 1) w p =
    upallLoop u n (w.modify (p + (charLen u (w.getD p 0) - 1)) (caseChange (w.getD p 0)))
      (p + charLen u (w.getD p 0)) := by
  rw [upallLoop, if_pos h, up1_eq]

/-- The loop of R319 stops beyond the word. -/
theorem upallLoop_of_le {u : Upper4} {w : List Byte} {p : Nat} (h : w.length ≤ p) : ∀ n, upallLoop u n w p = w
  | 0 => rfl
  | _ + 1 => if_neg (not_lt.2 h)

/-- A turn more than there are bytes left changes nothing. -/
theorem upallLoop_succ (u : Upper4) : ∀ (n : Nat) {w : List Byte} {p : Nat}, w.length ≤ p + n →
    upallLoop u (n + 1) w p = upallLoop u n w p
  | 0, _, _, h => upallLoop_of_le h 1
  | n + 1, w, p, h => by
    rcases lt_or_ge p w.length with hp | hp
    · have hpos := charLen_pos u (w.getD p 0)
      rw [upallLoop_of_lt hp, upallLoop_of_lt hp]
      exact upallLoop_succ u n (by rw [List.length_modify]; omega)
    · rw [upallLoop_of_le hp, upallLoop_of_le hp]

/-- As many turns as there are bytes are enough (R319). -/
theorem upallLoop_eq_wordUpall (u : Upper4) {n : Nat} {w : List Byte} (h : w.length ≤ n) :
    upallLoop u n w 0 = wordUpall u w := by
  induction n, h using Nat.le_induction with
  | base => rfl
  | succ n h ih => rw [upallLoop_succ u n (by omega), ih]

/-- A change after the first `p` bytes is a change of the rest. -/
theorem take_modify_after (w : List Byte) (f : Byte → Byte) (p k : Nat) :
    (w.modify (p + k) f).take (p + (k + 1)) = w.take p ++ ((w.drop p).modify k f).take (k + 1) := by
  have hfront : (w.modify (p + k) f).take p = w.take p := by
    rw [List.take_modify, List.modify_eq_self (by rw [List.length_take]; omega)]
  rw [List.take_add, hfront, List.drop_modify_of_ge _ _ _ _ (by omega), Nat.add_sub_cancel_left]

/-- The loop of R319 at a position leaves the bytes before it as they are, and does not look at them. -/
theorem upallLoop_at (u : Upper4) : ∀ (n : Nat) (w : List Byte) (p : Nat),
    upallLoop u n w p = w.take p ++ upallLoop u n (w.drop p) 0
  | 0, w, p => (List.take_append_drop p w).symm
  | n + 1, w, p => by
    rcases lt_or_ge p w.length with hp | hp
    · have hc : (w.drop p).getD 0 0 = w.getD p 0 := by simp [List.getD_eq_getElem?_getD]
      obtain ⟨k, hk⟩ := Nat.exists_eq_succ_of_ne_zero (charLen_pos u (w.getD p 0)).ne'
      rw [upallLoop_of_lt hp, upallLoop_of_lt (by rw [List.length_drop]; omega), hc, hk, upallLoop_at u n,
        upallLoop_at u n ((w.drop p).modify _ _), Nat.zero_add, Nat.zero_add, Nat.succ_sub_one, take_modify_after,
        List.drop_modify_of_lt _ _ _ _ (by omega), List.drop_modify_of_lt _ _ _ _ (by omega), List.drop_drop,
        List.append_assoc]
    · rw [upallLoop_of_le hp, List.take_of_length_le hp, List.drop_of_length_le hp, upallLoop_of_le (Nat.zero_le 0),
        List.append_nil]

/-- The whole word in upper case is its first character, and then the rest, in upper case (R319). -/
theorem wordUpall_cons (u : Upper4) (c : Byte) (l : List Byte) : wordUpall u (c :: l) =
    wordUpfirst u ((c :: l).take (charLen u c)) ++ wordUpall u ((c :: l).drop (charLen u c)) := by
  obtain ⟨k, hk⟩ := Nat.exists_eq_succ_of_ne_zero (charLen_pos u c).ne'
  have hfirst : wordUpfirst u ((c :: l).take (k + 1)) = ((c :: l).take (k + 1)).modify k (caseChange c) := by
    rw [List.take_succ_cons, wordUpfirst_cons, hk, Nat.succ_sub_one]
  rw [hk, hfirst, wordUpall, List.length_cons, upallLoop_of_lt (by simp), List.getD_cons_zero, hk, upallLoop_at,
    Nat.zero_add, Nat.zero_add, Nat.succ_sub_one, List.take_modify, List.drop_modify_of_lt _ _ _ _ (by omega),
    upallLoop_eq_wordUpall u (by simp)]

/-- Settles O50: `wordUpfirst_cons` for each class of first byte, and `wordUpall_cons`. -/
theorem wordTransforms : Obligations.WordTransforms := by
  refine ⟨fun _ => rfl, fun _ _ => rfl, fun _ _ => rfl, fun _ => rfl, fun _ => rfl, fun u c l h => ?_, fun u c l h1 h2 => ?_,
    fun u c l h1 h2 => ?_, fun c l h => ?_, fun _ => rfl, wordUpall_cons⟩ <;>
  rw [wordUpfirst_cons, charLen, caseChange]
  · rw [if_pos h, if_pos h]
    split_ifs <;> rfl
  · have hlo : ¬ c < 0xC0 := BitVec.not_lt.2 h1
    rw [if_neg hlo, if_neg hlo, if_pos h2, if_pos h2]
  · have hmid : ¬ c < 0xE0 := BitVec.not_lt.2 h1
    have hlo : ¬ c < 0xC0 := by bv_omega
    rw [if_neg hlo, if_neg hlo, if_neg hmid, if_neg hmid, if_pos h2]
  · have hhi : ¬ c < 0xF0 := BitVec.not_lt.2 h
    have hmid : ¬ c < 0xE0 := by bv_omega
    have hlo : ¬ c < 0xC0 := by bv_omega
    rw [if_neg hlo, if_neg hlo, if_neg hmid, if_neg hmid, if_neg (by simpa using hhi)]

/-! The layout of the ROM (R312, R313). -/

/-- Each group begins where the one before it ends. -/
theorem doffset_succ {len : Nat} (h4 : 4 ≤ len) (h24 : len < 24) :
    doffset (len + 1) = doffset len + len * 2 ^ ndbits len := by
  interval_cases len <;> decide

/-- A group ends before any later one begins. -/
theorem doffset_group_le {len len' : Nat} (h4 : 4 ≤ len) (hlt : len < len') (h24 : len' ≤ 24) :
    doffset len + len * 2 ^ ndbits len ≤ doffset len' := by
  induction len', hlt using Nat.le_induction with
  | base => exact (doffset_succ h4 h24).ge
  | succ n hn ih =>
    rw [doffset_succ (by omega) (by omega)]
    exact (ih (by omega)).trans (Nat.le_add_right ..)

/-- Every word lies in its group. -/
theorem word_le_group {len i : Nat} (hi : i < 2 ^ ndbits len) : i * len + len ≤ len * 2 ^ ndbits len := by
  rw [← Nat.succ_mul, Nat.mul_comm len]
  exact Nat.mul_le_mul_right len hi

/-- Every group lies in the ROM. -/
theorem group_le_rom {len : Nat} (h4 : 4 ≤ len) (h24 : len ≤ 24) : doffset len + len * 2 ^ ndbits len ≤ 122784 := by
  rcases h24.lt_or_eq with hlt | rfl
  · exact (doffset_group_le h4 hlt le_rfl).trans (by decide)
  · decide

/-- No byte of a word is a byte of a word of a later group. -/
theorem wordByte_lt {len i k len' : Nat} (h4 : 4 ≤ len) (hi : i < 2 ^ ndbits len) (hk : k < len) (hlt : len < len')
    (h24 : len' ≤ 24) : doffset len + i * len + k < doffset len' := by
  have hgroup := doffset_group_le h4 hlt h24
  have hword := word_le_group hi
  omega

/-- Within a group, the address of a byte gives the word and the place in it. -/
theorem wordByte_injective {len i k i' k' : Nat} (hk : k < len) (hk' : k' < len) (h : i * len + k = i' * len + k') :
    i = i' ∧ k = k' := by
  have hdiv : ∀ {j m : Nat}, m < len → (j * len + m) / len = j := fun {j m} hm => by
    rw [Nat.add_comm, Nat.add_mul_div_right m j (by omega), Nat.div_eq_of_lt hm, Nat.zero_add]
  obtain rfl : i = i' := by rw [← hdiv (j := i) hk, h, hdiv hk']
  exact ⟨rfl, by omega⟩

/-- Settles O49: the groups by `doffset_succ`; the bytes of two words by the order of their groups, or within one. -/
theorem dictionaryLayout : Obligations.DictionaryLayout := by
  refine ⟨rfl, fun _ => doffset_succ, by decide, fun len i h4 h24 hi => ?_,
    fun len i k len' i' k' h4 h24 hi hk h4' h24' hi' hk' heq => ?_⟩
  · have hgroup := group_le_rom h4 h24
    have hword := word_le_group hi
    omega
  · rcases lt_trichotomy len len' with hlt | rfl | hlt
    · have := wordByte_lt h4 hi hk hlt h24'
      omega
    · exact ⟨rfl, wordByte_injective hk hk' (by omega)⟩
    · have := wordByte_lt h4' hi' hk' hlt h24
      omega

/-! References (R311, R314 to R316, R321, R322). -/

theorem length_upallLoop (u : Upper4) : ∀ (n : Nat) (w : List Byte) (p : Nat), (upallLoop u n w p).length = w.length
  | 0, _, _ => rfl
  | n + 1, w, p => by
    rcases lt_or_ge p w.length with hp | hp
    · rw [upallLoop_of_lt hp, length_upallLoop u n, List.length_modify]
    · rw [upallLoop_of_le hp]

/-- No operation makes a word longer (R316). -/
theorem length_applyOp_le (u : Upper4) (op : XOp) (k : Nat) (w : List Byte) : (applyOp u op k w).length ≤ w.length := by
  cases op
  case ident => exact le_rfl
  case upFirst => rw [applyOp, wordUpfirst, up1_eq, List.length_modify]
  case upAll => exact (length_upallLoop ..).le
  case omitFirst => rw [applyOp, wordOmitfirst, List.length_drop]; omega
  case omitLast => rw [applyOp, wordOmitlast, List.length_take]; omega

/-- At most 5 bytes stand before a word and at most 8 after it (R322). -/
theorem length_xformAt_le (s : State) (i : Nat) : (s.xformAt i).pre.length ≤ 5 ∧ (s.xformAt i).suf.length ≤ 8 := by
  unfold State.xformAt
  split_ifs
  · decide
  · exact ⟨List.length_take_le .., List.length_take_le ..⟩

/-- A reference to a word of at most 24 bytes writes at most 37 (R316). -/
theorem length_dictResult_le {len : Nat} (h24 : len ≤ 24) (s : State) (id : Nat) : (s.dictResult id len).length ≤ 37 := by
  have hop := length_applyOp_le s.ports.upper4 (s.xformAt (dictXform id len)).op (s.xformAt (dictXform id len)).k
    (s.dictWord len (dictIndex id len))
  have hword : (s.dictWord len (dictIndex id len)).length = len := by simp [State.dictWord]
  obtain ⟨hpre, hsuf⟩ := length_xformAt_le s (dictXform id len)
  rw [State.dictResult, transformed, List.length_append, List.length_append]
  omega

theorem dictXform_eq (id len : Nat) : dictXform id len = id / 2 ^ ndbits len := Nat.shiftRight_eq_div_pow ..

theorem dictIndex_eq (id len : Nat) : dictIndex id len = id % 2 ^ ndbits len := by
  rw [dictIndex, Nat.one_shiftLeft, Nat.and_two_pow_sub_one_eq_mod]

/-- A reference with transform 0 writes the word itself (R321). -/
theorem dictResult_of_xform_zero {id len : Nat} (h : dictXform id len = 0) (s : State) :
    s.dictResult id len = s.dictWord len id := by
  have hid : dictIndex id len = id := by
    rw [dictIndex_eq, Nat.mod_eq_of_lt]
    exact (Nat.div_eq_zero_iff_lt (Nat.two_pow_pos _)).1 (dictXform_eq id len ▸ h)
  rw [State.dictResult, h, hid]
  exact List.append_nil _

/-- The tests of R314 in their order, and then the bytes. -/
theorem exec_copyDict (s : State) (id len : Nat) : exec (.copyDict id len) s =
    if 4 ≤ len ∧ len ≤ 24 then
      if dictXform id len < 121 then
        if (s.dictResult id len).length ≤ s.mlen then
          complete (emitAll (s.dictResult id len)) keepNone { s with mlen := s.mlen - (s.dictResult id len).length }
        else .next (s.takeFault (.invalid .mlenExceededByWord))
      else .next (s.takeFault (.invalid .dictTransform))
    else .next (s.takeFault (.invalid .dictLength)) := by
  change complete (copyDict id len) keepNone s = _
  rw [copyDict, complete_require_bind, complete_require_bind, complete_get_bind, complete_require_bind]
  rfl

/-- A reference whose length and transform are good (R314, R66). -/
theorem exec_copyDict_word {s : State} {id len : Nat} (h4 : 4 ≤ len) (h24 : len ≤ 24) (hx : dictXform id len < 121) :
    ∀ w, w = s.dictResult id len →
    (s.mlen < w.length → exec (.copyDict id len) s = .next (s.takeFault (.invalid .mlenExceededByWord))) ∧
    (w.length ≤ s.mlen → s.accepts w →
      exec (.copyDict id len) s = .next { s.withOutput w with mlen := s.mlen - w.length }) ∧
    (w.length ≤ s.mlen → ∀ k, s.differsAt w k → s.mismatches k (exec (.copyDict id len) s)) := by
  rintro w rfl
  rw [exec_copyDict, if_pos ⟨h4, h24⟩, if_pos hx]
  refine ⟨fun hlt => if_neg (not_le.2 hlt), fun hle ha => ?_, fun hle k hk => ?_⟩ <;> rw [if_pos hle]
  · exact complete_ok (emitAll_ok (s := { s with mlen := s.mlen - (s.dictResult id len).length }) ha)
  · obtain ⟨u, hu, hgot, hout⟩ := emitAll_differs (s := { s with mlen := s.mlen - (s.dictResult id len).length }) hk
    exact ⟨u, complete_raised hu, hgot, hout⟩

/-- `COPY` of a distance beyond the window is the reference that the distance names (R209). -/
theorem exec_copy_far {s : State} {id len : Nat} (hd : s.dist = ((min s.got s.wsize : Nat) : Int) + 1 + id)
    (hl : s.copyLen = len) : exec .copy s = exec (.copyDict id len) s := by
  obtain ⟨id', hid, hcopy⟩ := (copyDispatch s _ rfl).1 (by omega)
  obtain rfl : id' = id := by omega
  rw [hcopy, hl]

/-- Settles O48: `exec_copyDict` for the tests on the identifier, and `exec_copyDict_word` for the rest. -/
theorem dictionaryReferences : Obligations.DictionaryReferences := by
  refine ⟨fun _ _ _ => ⟨rfl, rfl, rfl, rfl, rfl⟩, fun s id len => ⟨fun h => ?_, fun h4 h24 hx => ?_, ?_⟩⟩
  · rw [exec_copyDict, if_neg (by omega)]
  · rw [exec_copyDict, if_pos ⟨h4, h24⟩, if_neg (by rw [dictXform_eq]; omega)]
  · rw [← dictXform_eq, ← dictIndex_eq]
    rintro h4 h24 hx _ w rfl hw
    replace hw : w = s.dictResult id len := hw
    obtain ⟨hlong, hok, hdiffers⟩ := exec_copyDict_word h4 h24 hx w hw
    exact ⟨hw ▸ length_dictResult_le h24 s id, fun h0 => hw.trans (dictResult_of_xform_zero h0 s), hlong,
      fun hle ha => ⟨hok hle ha, fun hd hl => (exec_copy_far hd hl).trans (hok hle ha)⟩,
      fun hle k hk => ⟨hdiffers hle k hk, fun hd hl => (exec_copy_far hd hl).symm ▸ hdiffers hle k hk⟩⟩

end Sys2Proof.Machine
end

section
/-! SUPPORT. The statements about results and faults (spec/60_exceptions.md): what raising a result does (O53), and what the
host may see (O56). -/

namespace Sys2Proof.Machine

/-! Which operations end a run (R344, R385). -/

/-- `STREAM.END` always ends the run: it raises a fault, or latches `Ok` just as raising does (R213). -/
theorem exec_streamEnd_ends {s t : State} (h : exec .streamEnd s = .next t) : ∃ u k, t = State.takeFault u k := by
  change complete streamEnd keepNone s = _ at h
  by_cases hz : s.rd.resid = 0
  · rw [streamEnd, complete_bind_ok (align_ok hz), complete_get_bind, complete_require_bind] at h
    split_ifs at h <;> cases h
    · exact ⟨_, _, rfl⟩
    · exact ⟨{ s with rd := { s.rd with left := 0, resid := 0 }, consumed := s.rd.inNext }, .ok, rfl⟩
  · rw [streamEnd, complete_bind_raised (align_nonzero hz)] at h
    cases h
    exact ⟨_, _, rfl⟩

/-- Faults apart, `STREAM.END` alone writes the result (R213). -/
theorem result_mem_instrWrites {i : Instr} (h : .result ∈ instrWrites i) : i = .streamEnd := by
  cases i with
  | streamEnd => rfl
  | _ => simp [instrWrites, descFlds, mapFlds, blkFlds, tickFlds] at h

/-- Beside `STREAM.END`, the operations that write the control state lead on to a meta-block or to the end of the stream
(R180, R212). -/
theorem exec_of_ctl_mem_instrWrites {i : Instr} (h : .ctl ∈ instrWrites i) (hi : i ≠ .streamEnd) (s : State) :
    ∃ t, exec i s = .next t ∧ (t.ctl = .mbStart ∨ t.ctl = .fin) := by
  cases i with
  | streamEnd => exact absurd rfl hi
  | wbits16 | wbits18to24 _ | wbits17 | wbits10to15 _ => exact ⟨_, rfl, .inl rfl⟩
  | mbEnd => exact ⟨_, rfl, (ite_eq_or_eq (s.last = true) Ctl.fin Ctl.mbStart).symm⟩
  | _ => simp [instrWrites, descFlds, mapFlds, blkFlds, tickFlds] at h

/-- What an operation makes of a run: it ends it by raising a result, `Ok` at `STREAM.END` alone, or the run goes on with
the result register as it was. -/
theorem exec_ends_or_goes_on {s t : State} {i : Instr} (h : exec i s = .next t) (live : s.ctl ≠ .done) :
    (∃ u k, t = State.takeFault u k ∧ (k = .ok → i = .streamEnd)) ∨ (t.ctl ≠ .done ∧ t.result = s.result) := by
  by_cases hi : i = .streamEnd
  · subst hi
    obtain ⟨u, k, ht⟩ := exec_streamEnd_ends h
    exact .inl ⟨u, k, ht, fun _ => rfl⟩
  · obtain ⟨u, ⟨hsame, _⟩, rfl | ⟨k, hk, ht⟩⟩ := exec_leavesRest i s t h
    · refine .inr ⟨?_, (hsame .result fun hm => hi (result_mem_instrWrites hm)).symm⟩
      by_cases hc : .ctl ∈ instrWrites i
      · obtain ⟨t', ht', hctl⟩ := exec_of_ctl_mem_instrWrites hc hi s
        cases h.symm.trans ht'
        rcases hctl with hctl | hctl <;> simp [hctl]
      · exact (show s.ctl = t.ctl from hsame .ctl hc) ▸ live
    · exact .inl ⟨u, k, ht, fun hok => absurd hok hk⟩

/-- Settles O53: raising is one update, after which no step exists; an operation ends the run only by raising. -/
theorem faultsEndTheRun : Obligations.FaultsEndTheRun := by
  refine ⟨fun s k => ⟨rfl, step_done rfl⟩, fun s t i h live hdone => ?_, fun s t i h live hlive => ?_⟩
  · obtain ⟨u, k, rfl, hok⟩ | ⟨hlive, _⟩ := exec_ends_or_goes_on h live
    · exact ⟨Option.some_ne_none k, rfl, step_done rfl, fun hr => hok (Option.some.inj hr)⟩
    · exact absurd hdone hlive
  · obtain ⟨u, k, rfl, _⟩ | ⟨_, hresult⟩ := exec_ends_or_goes_on h live
    · exact absurd rfl hlive
    · exact hresult

/-! What the host may see (R346). -/

/-- Nothing before `C_DONE` (R384). -/
theorem observe_live {s : State} (h : s.ctl ≠ .done) : s.observe = none := by simp [State.observe, State.isDone, h]

/-- After `Ok`: the count of bytes and of bytes consumed, and in normal mode the bytes. -/
theorem observe_ok {s : State} (h : s.ctl = .done) (hr : s.result = some .ok) :
    s.observe = some { result := .ok, output := if s.compare then none else some (s.out.bytes 0 s.got),
                       got := some s.got, consumed := some s.consumed } := by
  simp [State.observe, State.isDone, h, hr]

/-- After `CompareMismatch`: the count of bytes. -/
theorem observe_compareMismatch {s : State} (h : s.ctl = .done) (hr : s.result = some .compareMismatch) :
    s.observe = some { result := .compareMismatch, output := none, got := some s.got, consumed := none } := by
  simp [State.observe, State.isDone, h, hr]

/-- After any other fault: the result alone. -/
theorem observe_fault {s : State} {k : Result} (h : s.ctl = .done) (hr : s.result = some k) (hok : k ≠ .ok)
    (hcmp : k ≠ .compareMismatch) : s.observe = some { result := k, output := none, got := none, consumed := none } := by
  cases k with
  | ok => exact absurd rfl hok
  | compareMismatch => exact absurd rfl hcmp
  | outOfMemory | prematureEof | invalid _ => simp [State.observe, State.isDone, h, hr]

theorem length_bytes (m : Mem) (a n : Nat) : (m.bytes a n).length = n := by simp [Mem.bytes]

/-- The bytes of a range are read in address order. -/
theorem getElem_bytes (m : Mem) (a n k : Nat) (h : k < (m.bytes a n).length) : (m.bytes a n)[k] = m.get (a + k) := by
  simp [Mem.bytes]

/-- Settles O56: one lemma for each row of the table of R346, and the bytes of the output as its addresses hold them. -/
theorem hostObserves : Obligations.HostObserves := by
  refine fun s => ⟨observe_live, fun h hr hn => ?_, fun h hr hc => ?_, observe_compareMismatch, fun k h hr hk => ?_⟩
  · refine ⟨s.out.bytes 0 s.got, ?_, length_bytes .., fun k hk => ?_⟩
    · rw [observe_ok h hr, hn]; rfl
    · rw [getElem_bytes, Nat.zero_add]
  · rw [observe_ok h hr, hc]; rfl
  · rcases hk with rfl | rfl | ⟨c, rfl⟩ <;> exact observe_fault h hr (by simp) (by simp)

end Sys2Proof.Machine
end
